-- ==== Sys2Proof/Word.lean ====
section
/-! DEFINITION. The word types of the Chorus DSP block: the sample word, the command word and the response word
(spec/00_scope.md R5 to R7, spec/30_encoding.md R55, R56, R60). -/

namespace Sys2Proof

/-- One byte of a command stream (spec/20_memory.md R47). -/
abbrev Byte := BitVec 8

/-- One sample word (type `S` of R7) as the bit pattern R59 gives it. It is wide enough for both binary number
formats: a `binary64` block uses all 64 bits, a `binary32` block uses bits 31:0 and keeps bits 63:32 at zero. -/
abbrev Sample := BitVec 64

/-- One command word, as the two parts R55 cuts it into: the 32-bit header `H` and the operand `OPD` of `W` bits.
A `binary32` block has `W = 32`: it has no operand lines above bit 31, and `Decode` reads none. -/
structure CmdWord where
  hdr : BitVec 32
  opd : BitVec 64
deriving DecidableEq, Repr, Inhabited

/-- One response word (R60): the `FAULT` bit and the `W`-bit `VAL`, zero-extended to 64 bits. -/
structure Resp where
  fault : Bool
  val : BitVec 64
deriving DecidableEq, Repr, Inhabited

end Sys2Proof
end

