-- ==== Sys2Proof/Syntax.lean ====
section
/-! DEFINITION. The 58 commands of spec/30_encoding.md R62 (the rows of spec/opcode_table.json), the enumerations of
R61 and R69, and the field record every command word is cut into (R56). -/

namespace Sys2Proof

/-- Waveform of an oscillator: `TYPE` and `LTYPE`, 0 triangle, 1 sine (R61, R69). -/
inductive Wave where
  | triangle
  | sine
deriving DecidableEq, Repr, Inhabited

/-- Mixing mode: `MODE` and `MODE_L`, 0 STEREO, 1 MONO, 2 DIMENSION, 3 VIBRATO (R61, R69). -/
inductive Mode where
  | stereo
  | mono
  | dimension
  | vibrato
deriving DecidableEq, Repr, Inhabited

/-- The operand kind of a command's format (R57). -/
inductive OpdKind where
  | none
  | u
  | s
deriving DecidableEq, Repr

/-- A command's format (R57): which header fields it uses, the greatest legal `IMM` (R61; 0 when `IMM` is unused,
every value up to it is legal) and the kind of its operand. -/
structure Format where
  useV : Bool
  useC : Bool
  useI : Bool
  immMax : BitVec 16
  kind : OpdKind
deriving DecidableEq, Repr

/-- The fields of a command word (R56). -/
structure Fields where
  op : BitVec 8
  v : BitVec 4
  c : BitVec 4
  imm : BitVec 16
  opd : BitVec 64
deriving DecidableEq, Repr

/-- A command that has passed the static decode checks (R58 items 1 to 3). `v` and `c` are the voice and channel
fields; an operand argument is the raw operand lane, because the checks on it (R58 items 6 and 7) come after the checks
on `V` and `C`, which need the state. -/
inductive Instr where
  -- SYS, spec/40_system.md
  | sysNop
  | sysReset
  | sysRdstat
  | sysRdcause
  | sysRdinfo
  | sysSetch (n : BitVec 64)
  | sysSetblk (n : BitVec 64)
  -- OSC, spec/42_oscillator.md
  | oscPrepare (v c : BitVec 4) (fs : BitVec 64)
  | oscReset (v c : BitVec 4)
  | oscSetfreq (v c : BitVec 4) (hz : BitVec 64)
  | oscSetphase (v c : BitVec 4) (off : BitVec 64)
  | oscSettype (v c : BitVec 4) (k : Wave)
  | oscProcess (v c : BitVec 4)
  -- DLY, spec/43_delay_buffer.md
  | dlyResize (v c : BitVec 4) (n : BitVec 64)
  | dlyReset (v c : BitVec 4)
  | dlyGet (v c : BitVec 4) (d : BitVec 64)
  | dlyGetlin (v c : BitVec 4) (t : BitVec 64)
  | dlyPush (v c : BitVec 4) (x : BitVec 64)
  -- MDL, spec/44_modulated_delay_line.md
  | mdlPrepare (v : BitVec 4) (fs : BitVec 64)
  | mdlReset (v : BitVec 4)
  | mdlSetmaxdelay (v : BitVec 4) (sec : BitVec 64)
  | mdlSetmaxdepth (v : BitVec 4) (sec : BitVec 64)
  | mdlSetdelay (v c : BitVec 4) (t : BitVec 64)
  | mdlSetdepth (v c : BitVec 4) (d : BitVec 64)
  | mdlSetrate (v : BitVec 4) (hz : BitVec 64)
  | mdlSetwet (v : BitVec 4) (w : BitVec 64)
  | mdlProcess (v c : BitVec 4) (x : BitVec 64)
  | mdlLatency (v : BitVec 4)
  -- VB, spec/45_voice_bank.md
  | vbPrepare (fs : BitVec 64)
  | vbReset
  | vbSetactive (n : BitVec 64)
  | vbSetrate (hz : BitVec 64)
  | vbSetdepth (d : BitVec 64)
  | vbSetdelay (t : BitVec 64)
  | vbSetspread (x : BitVec 64)
  | vbSetwidth (w : BitVec 64)
  | vbSettype (k : Wave)
  | vbSetphase (c : BitVec 4) (off : BitVec 64)
  | vbProcess (c : BitVec 4) (x : BitVec 64)
  | vbSetmaxdelay (sec : BitVec 64)
  | vbSetmaxdepth (sec : BitVec 64)
  -- ENG, spec/47_chorus_engine.md
  | engPrepare (fs : BitVec 64)
  | engReset
  | engSetmode (k : Mode)
  | engSetmix (m : BitVec 64)
  | engSethpf (hz : BitVec 64)
  | engSetlpf (hz : BitVec 64)
  | engSetfbyp (hp lp : Bool)
  | engBegin (byp : Bool) (n : BitVec 64)
  | engIn (c : BitVec 4) (x : BitVec 64)
  | engStep
  | engOut (c : BitVec 4)
  | engLatency
  -- FLT, spec/46_filters.md
  | fltReset
  | fltBoost (c : BitVec 4) (x : BitVec 64)
  | fltCut (c : BitVec 4) (x : BitVec 64)
  | fltHp (c : BitVec 4) (x : BitVec 64)
  | fltLp (c : BitVec 4) (x : BitVec 64)
deriving DecidableEq, Repr

end Sys2Proof
end

