-- ==== Sys2Proof/Config.lean ====
section
/-! DEFINITION. What an implementation fixes: the parameters of spec/00_scope.md R5, the number format `PREC`, the
arithmetic every rule is written over (R11 to R15), and the free values, which are opaque constants because the spec
leaves them open. -/

namespace Sys2Proof

/-- The binary number formats `PREC` may name (R5, R11). The third value, `real`, has no command encoding ("for `real`:
encoding not defined"): it is the reference reading `Arith.real` of Sys2Proof/Machine/Reference.lean. -/
inductive Prec where
  | binary32
  | binary64
deriving DecidableEq, Repr, Inhabited

/-- `W`, the width in bits of a sample word and of the operand field (R5). -/
def Prec.width : Prec → Nat
  | .binary32 => 32
  | .binary64 => 64

/-- The numeric configuration: the operations the pseudocode is written with, over a sample type `S`
(R11 to R16, spec/48_arithmetic_and_control.md R192 to R194). The same rules are read over IEEE 754 words
(`Arith.ieee`) and over the real numbers (`Arith.real`). -/
structure Arith (S : Type) where
  /-- the number 0 (`+0` in a binary format) -/
  zero : S
  /-- the literal `num / den`, rounded once (R7) -/
  lit : Nat → Nat → S
  add : S → S → S
  sub : S → S → S
  mul : S → S → S
  div : S → S → S
  neg : S → S
  sqrt : S → S
  /-- numeric comparisons (R194) -/
  lt : S → S → Bool
  le : S → S → Bool
  eq : S → S → Bool
  /-- `toS` (R16) -/
  ofNat : Nat → S
  /-- `floor`, the greatest integer not above the operand (R12) -/
  floor : S → Int
  /-- `round`, the nearest integer, halves away from zero (R12) -/
  round : S → Int
  /-- `ceil`, the least integer not below the operand (R12); `none` when the operand is no number -/
  ceil : S → Option Int
  /-- `wrap(x, n)`, on a non-negative `x` also `fmod(x, n)` (R13) -/
  wrap : S → Nat → S
  /-- the configuration fields of R15 -/
  sin : S → S
  asin : S → S
  cos : S → S
  tan : S → S
  pi : S

/-- The parameters of R5, over a sample type `S`. `PREC` is held beside them (`State.prec`), and the ROM contents are
computed from them (spec/20_memory.md R44). -/
structure Params (S : Type) where
  nVoices : Nat
  nChMax : Nat
  tableSize : Nat
  dlyCap : Nat
  chunk : Nat
  maxDelayReset : S
  phaseRamp : S
  mixRamp : S
  cutoffRamp : S
  svfQ : S
  hpfReset : S
  lpfReset : S
deriving DecidableEq, Repr, Inhabited

/-- What the rules are read with: an arithmetic and the parameters of one built block. -/
structure Kit (S : Type) where
  A : Arith S
  P : Params S

/-- The legal values of R5. `real`-valued bounds are the numeric comparisons of the format; a `binary32` block must keep
`DLY_CAP` at or below 2^24 (R16), and every block needs `DLY_CAP < 2^31` (R103). -/
def Params.legal {S : Type} (A : Arith S) (p : Prec) (P : Params S) : Bool :=
  decide (1 ≤ P.nVoices ∧ P.nVoices ≤ 16) && decide (1 ≤ P.nChMax ∧ P.nChMax ≤ 16) && decide (2 ≤ P.tableSize)
    && decide (1 ≤ P.dlyCap ∧ P.dlyCap < 2147483648) && decide (p = .binary32 → P.dlyCap ≤ 16777216)
    && decide (1 ≤ P.chunk) && A.lt A.zero P.maxDelayReset && A.le A.zero P.phaseRamp && A.le A.zero P.mixRamp
    && A.le A.zero P.cutoffRamp && A.lt A.zero P.svfQ && A.lt A.zero P.hpfReset && A.lt A.zero P.lpfReset

/-- The arithmetic operations, as names for the free values below. -/
inductive ArithOp where
  | add
  | sub
  | mul
  | div
  | sqrt
deriving DecidableEq, Repr

/-- FREE VALUE (log entry 6): the result of an arithmetic operation that reads an operand which is not finite, of 0/0
and of the square root of a negative number (spec/93_implementation_defined.md U5). -/
opaque Config.freeArith : Prec → ArithOp → Sample → Sample → Sample

/-- FREE VALUE (log entry 6): `wrap` of an operand which is not finite; `Ieee.wrap` keeps it inside `[0, n)` (U6). -/
opaque Config.freeWrap : Prec → Sample → Nat → Sample

/-- FREE VALUE (log entry 6): `floor` of an operand which is not finite (U5). -/
opaque Config.freeFloor : Prec → Sample → Int

/-- FREE VALUE (log entry 6): `round` of an operand which is not finite (U5). -/
opaque Config.freeRound : Prec → Sample → Int

/-- FREE VALUE (log entry 19): the `u32` that a negative integer is stored or answered as; the spec states the conversion
of integers that are not negative only (spec/48_arithmetic_and_control.md R192). -/
opaque Config.freeU32 : Int → BitVec 32

/-- FREE VALUE (log entry 7): `toS` of an integer the format does not hold exactly; the spec states only the exact
case (R16). -/
opaque Config.freeOfNat : Prec → Nat → Sample

/-- FREE VALUE (log entry 5): the configuration's `sin` (R15, U7). -/
opaque Config.sin : Prec → Sample → Sample

/-- FREE VALUE (log entry 5): the configuration's `asin` (R15, U7). -/
opaque Config.asin : Prec → Sample → Sample

/-- FREE VALUE (log entry 5): the configuration's `cos` (R15, U7). -/
opaque Config.cos : Prec → Sample → Sample

/-- FREE VALUE (log entry 5): the configuration's `tan` (R15, U7). -/
opaque Config.tan : Prec → Sample → Sample

/-- FREE VALUE (log entry 5): the configuration's `PI` (R15, U7). -/
opaque Config.pi : Prec → Sample

end Sys2Proof
end

