-- ==== Sys2Proof/WellFormed.lean ====
section
/-! DEFINITION. Well-formed commands: those a command word of the block can carry. The header fields are as wide as
their types, so the only thing to check is that an operand fits the `W` operand bits (spec/30_encoding.md R55, R59). -/

namespace Sys2Proof

/-- The operand of a command, with its kind (R57, R62); `none` for a format without an operand. -/
def Instr.operand : Instr → OpdKind × BitVec 64
  | .sysNop | .sysReset | .sysRdstat | .sysRdcause | .sysRdinfo => (.none, 0)
  | .sysSetch n | .sysSetblk n => (.u, n)
  | .oscPrepare _ _ x | .oscSetfreq _ _ x | .oscSetphase _ _ x => (.s, x)
  | .oscReset _ _ | .oscSettype _ _ _ | .oscProcess _ _ => (.none, 0)
  | .dlyResize _ _ n | .dlyGet _ _ n => (.u, n)
  | .dlyReset _ _ => (.none, 0)
  | .dlyGetlin _ _ x | .dlyPush _ _ x => (.s, x)
  | .mdlPrepare _ x | .mdlSetmaxdelay _ x | .mdlSetmaxdepth _ x | .mdlSetrate _ x | .mdlSetwet _ x => (.s, x)
  | .mdlSetdelay _ _ x | .mdlSetdepth _ _ x | .mdlProcess _ _ x => (.s, x)
  | .mdlReset _ | .mdlLatency _ => (.none, 0)
  | .vbPrepare x | .vbSetrate x | .vbSetdepth x | .vbSetdelay x | .vbSetspread x | .vbSetwidth x => (.s, x)
  | .vbSetphase _ x | .vbProcess _ x | .vbSetmaxdelay x | .vbSetmaxdepth x => (.s, x)
  | .vbReset | .vbSettype _ => (.none, 0)
  | .vbSetactive n => (.u, n)
  | .engPrepare x | .engSetmix x | .engSethpf x | .engSetlpf x | .engIn _ x => (.s, x)
  | .engReset | .engSetmode _ | .engSetfbyp _ _ | .engStep | .engOut _ | .engLatency => (.none, 0)
  | .engBegin _ n => (.u, n)
  | .fltReset => (.none, 0)
  | .fltBoost _ x | .fltCut _ x | .fltHp _ x | .fltLp _ x => (.s, x)

/-- An operand of kind `U` fits the operand field of `W` bits. -/
def Instr.uOperandFits (p : Prec) (i : Instr) : Bool :=
  !decide (i.operand.1 = .u) || decide (i.operand.2.toNat < 2 ^ p.width)

/-- An operand of kind `S` fits the operand field of `W` bits. -/
def Instr.sOperandFits (p : Prec) (i : Instr) : Bool :=
  !decide (i.operand.1 = .s) || decide (i.operand.2.toNat < 2 ^ p.width)

/-- A command that some command word of the block encodes (`Decode` reads exactly these). -/
def Instr.wf (p : Prec) (i : Instr) : Bool :=
  i.uOperandFits p && i.sOperandFits p

end Sys2Proof
end

