-- ==== Sys2Proof/Decode.lean ====
section
/-! DEFINITION. The command encoding of spec/30_encoding.md: the word's layout (R55, R56, R47), the opcode map (R62),
the static decode checks (R58 items 1 to 3, R61, R63, R64) and the encoder. The checks that need the state or the operand
(R58 items 4 to 7) are in Sys2Proof/Machine/Operands.lean. -/

namespace Sys2Proof

/-- Why a command word is illegal by its static encoding. Each is the fault `ILLEGAL_COMMAND` (R58, R205). -/
inductive Reject where
  /-- `OP` is no defined opcode (R58 item 1, R64) -/
  | undefinedOpcode
  /-- a header field the format does not use, or the operand of a format without one, is not 0 (R58 item 2) -/
  | unusedField
  /-- `IMM` is used and is none of the command's legal values (R58 item 3, R61) -/
  | badImmediate
  /-- a byte stream ends inside a command word (R55: the length is fixed) -/
  | truncated
deriving DecidableEq, Repr

/-! ### The word's layout -/

/-- The fields of a command word (R56): `OP = H[31:24]`, `V = H[23:20]`, `C = H[19:16]`, `IMM = H[15:0]`, and the operand's
`W` bits. -/
def CmdWord.fields (p : Prec) (w : CmdWord) : Fields :=
  { op := w.hdr.extractLsb' 24 8
    v := w.hdr.extractLsb' 20 4
    c := w.hdr.extractLsb' 16 4
    imm := w.hdr.extractLsb' 0 16
    opd := BitVec.ofNat 64 (w.opd.toNat % 2 ^ p.width) }

/-- The header of a command with these fields (R56), `OP ‖ V ‖ C ‖ IMM`. -/
def Fields.header (f : Fields) : BitVec 32 := f.op ++ f.v ++ f.c ++ f.imm

/-- The command word of `32 + W` bits read as one number (R55): the header is the high 32 bits, the operand the low `W`. -/
def CmdWord.toBits (p : Prec) (w : CmdWord) : Nat := w.hdr.toNat * 2 ^ p.width + w.opd.toNat % 2 ^ p.width

/-- The command word that a number of `32 + W` bits is (R55). -/
def CmdWord.ofBits (p : Prec) (n : Nat) : CmdWord :=
  { hdr := BitVec.ofNat 32 (n / 2 ^ p.width), opd := BitVec.ofNat 64 (n % 2 ^ p.width) }

/-- Bytes, least significant first, of a number of `k` bytes. -/
def leBytes : Nat → Nat → List Byte
  | 0, _ => []
  | k + 1, n => BitVec.ofNat 8 n :: leBytes k (n / 256)

/-- The number whose bytes, least significant first, these are. -/
def ofLeBytes : List Byte → Nat
  | [] => 0
  | b :: bs => b.toNat + 256 * ofLeBytes bs

/-- Bytes of one command word (R55): 8 with `W = 32`, 12 with `W = 64`. -/
def Prec.wordBytes (p : Prec) : Nat := (32 + p.width) / 8

/-- A command word kept in a byte stream, least significant byte first (R47). -/
def CmdWord.toBytes (p : Prec) (w : CmdWord) : List Byte := leBytes p.wordBytes (w.toBits p)

/-- The first command word of a byte stream and the bytes after it (R47, R65). -/
def CmdWord.ofBytes (p : Prec) (bs : List Byte) : Option (CmdWord × List Byte) :=
  if bs.length < p.wordBytes then none
  else some (CmdWord.ofBits p (ofLeBytes (bs.take p.wordBytes)), bs.drop p.wordBytes)

/-! ### Immediates (R61, R69) -/

def Wave.code : Wave → BitVec 16
  | .triangle => 0
  | .sine => 1

def Wave.ofCode (k : BitVec 16) : Wave := if k = 0 then .triangle else .sine

def Mode.code : Mode → BitVec 16
  | .stereo => 0
  | .mono => 1
  | .dimension => 2
  | .vibrato => 3

def Mode.ofCode (k : BitVec 16) : Mode :=
  if k = 0 then .stereo else if k = 1 then .mono else if k = 2 then .dimension else .vibrato

/-- The `IMM` of `ENG.SETFBYP`: bit 0 the high-pass bypass, bit 1 the low-pass bypass. -/
def fbypCode (hp lp : Bool) : BitVec 16 := (if hp then 1 else 0) + (if lp then 2 else 0)

/-- The `IMM` of `ENG.BEGIN`: bit 0 the bypass flag. -/
def flagCode (b : Bool) : BitVec 16 := if b then 1 else 0

/-! ### Formats (R57) -/

def Format.plain (kind : OpdKind) : Format := { useV := false, useC := false, useI := false, immMax := 0, kind := kind }
def Format.voice (kind : OpdKind) : Format := { useV := true, useC := false, useI := false, immMax := 0, kind := kind }
def Format.chan (kind : OpdKind) : Format := { useV := false, useC := true, useI := false, immMax := 0, kind := kind }
def Format.both (kind : OpdKind) : Format := { useV := true, useC := true, useI := false, immMax := 0, kind := kind }
def Format.imm (top : BitVec 16) (kind : OpdKind) : Format :=
  { useV := false, useC := false, useI := true, immMax := top, kind := kind }
def Format.bothImm (top : BitVec 16) (kind : OpdKind) : Format :=
  { useV := true, useC := true, useI := true, immMax := top, kind := kind }

/-- The opcode map (R62): for each defined `OP`, the format and the command that fields of that format stand for. -/
def opcodeMap (op : Nat) : Option (Format × (Fields → Instr)) :=
  match op with
  | 0x00 => some (.plain .none, fun _ => .sysNop)
  | 0x01 => some (.plain .none, fun _ => .sysReset)
  | 0x02 => some (.plain .none, fun _ => .sysRdstat)
  | 0x03 => some (.plain .none, fun _ => .sysRdcause)
  | 0x04 => some (.plain .none, fun _ => .sysRdinfo)
  | 0x05 => some (.plain .u, fun f => .sysSetch f.opd)
  | 0x06 => some (.plain .u, fun f => .sysSetblk f.opd)
  | 0x10 => some (.both .s, fun f => .oscPrepare f.v f.c f.opd)
  | 0x11 => some (.both .none, fun f => .oscReset f.v f.c)
  | 0x12 => some (.both .s, fun f => .oscSetfreq f.v f.c f.opd)
  | 0x13 => some (.both .s, fun f => .oscSetphase f.v f.c f.opd)
  | 0x14 => some (.bothImm 1 .none, fun f => .oscSettype f.v f.c (Wave.ofCode f.imm))
  | 0x15 => some (.both .none, fun f => .oscProcess f.v f.c)
  | 0x20 => some (.both .u, fun f => .dlyResize f.v f.c f.opd)
  | 0x21 => some (.both .none, fun f => .dlyReset f.v f.c)
  | 0x22 => some (.both .u, fun f => .dlyGet f.v f.c f.opd)
  | 0x23 => some (.both .s, fun f => .dlyGetlin f.v f.c f.opd)
  | 0x24 => some (.both .s, fun f => .dlyPush f.v f.c f.opd)
  | 0x30 => some (.voice .s, fun f => .mdlPrepare f.v f.opd)
  | 0x31 => some (.voice .none, fun f => .mdlReset f.v)
  | 0x32 => some (.voice .s, fun f => .mdlSetmaxdelay f.v f.opd)
  | 0x33 => some (.voice .s, fun f => .mdlSetmaxdepth f.v f.opd)
  | 0x34 => some (.both .s, fun f => .mdlSetdelay f.v f.c f.opd)
  | 0x35 => some (.both .s, fun f => .mdlSetdepth f.v f.c f.opd)
  | 0x36 => some (.voice .s, fun f => .mdlSetrate f.v f.opd)
  | 0x37 => some (.voice .s, fun f => .mdlSetwet f.v f.opd)
  | 0x38 => some (.both .s, fun f => .mdlProcess f.v f.c f.opd)
  | 0x39 => some (.voice .none, fun f => .mdlLatency f.v)
  | 0x40 => some (.plain .s, fun f => .vbPrepare f.opd)
  | 0x41 => some (.plain .none, fun _ => .vbReset)
  | 0x42 => some (.plain .u, fun f => .vbSetactive f.opd)
  | 0x43 => some (.plain .s, fun f => .vbSetrate f.opd)
  | 0x44 => some (.plain .s, fun f => .vbSetdepth f.opd)
  | 0x45 => some (.plain .s, fun f => .vbSetdelay f.opd)
  | 0x46 => some (.plain .s, fun f => .vbSetspread f.opd)
  | 0x47 => some (.plain .s, fun f => .vbSetwidth f.opd)
  | 0x48 => some (.imm 1 .none, fun f => .vbSettype (Wave.ofCode f.imm))
  | 0x49 => some (.chan .s, fun f => .vbSetphase f.c f.opd)
  | 0x4A => some (.chan .s, fun f => .vbProcess f.c f.opd)
  | 0x4B => some (.plain .s, fun f => .vbSetmaxdelay f.opd)
  | 0x4C => some (.plain .s, fun f => .vbSetmaxdepth f.opd)
  | 0x50 => some (.plain .s, fun f => .engPrepare f.opd)
  | 0x51 => some (.plain .none, fun _ => .engReset)
  | 0x52 => some (.imm 3 .none, fun f => .engSetmode (Mode.ofCode f.imm))
  | 0x53 => some (.plain .s, fun f => .engSetmix f.opd)
  | 0x54 => some (.plain .s, fun f => .engSethpf f.opd)
  | 0x55 => some (.plain .s, fun f => .engSetlpf f.opd)
  | 0x56 => some (.imm 3 .none, fun f => .engSetfbyp (f.imm.getLsbD 0) (f.imm.getLsbD 1))
  | 0x57 => some (.imm 1 .u, fun f => .engBegin (f.imm.getLsbD 0) f.opd)
  | 0x58 => some (.chan .s, fun f => .engIn f.c f.opd)
  | 0x59 => some (.plain .none, fun _ => .engStep)
  | 0x5A => some (.chan .none, fun f => .engOut f.c)
  | 0x5B => some (.plain .none, fun _ => .engLatency)
  | 0x60 => some (.plain .none, fun _ => .fltReset)
  | 0x61 => some (.chan .s, fun f => .fltBoost f.c f.opd)
  | 0x62 => some (.chan .s, fun f => .fltCut f.c f.opd)
  | 0x63 => some (.chan .s, fun f => .fltHp f.c f.opd)
  | 0x64 => some (.chan .s, fun f => .fltLp f.c f.opd)
  | _ => none

/-- R58 item 2: every field the format does not use is 0, and so is the operand of a format without one. -/
def Format.unusedClear (m : Format) (f : Fields) : Bool :=
  (m.useV || f.v == 0) && (m.useC || f.c == 0) && (m.useI || f.imm == 0)
    && (!decide (m.kind = .none) || f.opd == 0)

/-- R58 item 3: an `IMM` the format uses is a legal value (R61: the legal values of a command are all from 0 up to its
greatest). -/
def Format.immLegal (m : Format) (f : Fields) : Bool := !m.useI || decide (f.imm ≤ m.immMax)

/-- The static decode checks in the order of R58, items 1 to 3. -/
def decodeFields (f : Fields) : Except Reject Instr :=
  match opcodeMap f.op.toNat with
  | none => .error .undefinedOpcode
  | some (m, build) =>
    if !m.unusedClear f then .error .unusedField
    else if !m.immLegal f then .error .badImmediate
    else .ok (build f)

/-- The command a command word holds, total on every word (R63, R64). -/
def decode (p : Prec) (w : CmdWord) : Except Reject Instr := decodeFields (w.fields p)

/-- The first command of a byte stream and the bytes after it (R47). -/
def decodeBytes (p : Prec) (bs : List Byte) : Except Reject (Instr × List Byte) :=
  match CmdWord.ofBytes p bs with
  | none => .error .truncated
  | some (w, rest) =>
    match decode p w with
    | .error e => .error e
    | .ok i => .ok (i, rest)

/-! ### The encoder -/

/-- A command's format and fields (R62); a field the format does not use is 0. -/
def Instr.row : Instr → Format × Fields
  | .sysNop => (.plain .none, ⟨0x00, 0, 0, 0, 0⟩)
  | .sysReset => (.plain .none, ⟨0x01, 0, 0, 0, 0⟩)
  | .sysRdstat => (.plain .none, ⟨0x02, 0, 0, 0, 0⟩)
  | .sysRdcause => (.plain .none, ⟨0x03, 0, 0, 0, 0⟩)
  | .sysRdinfo => (.plain .none, ⟨0x04, 0, 0, 0, 0⟩)
  | .sysSetch n => (.plain .u, ⟨0x05, 0, 0, 0, n⟩)
  | .sysSetblk n => (.plain .u, ⟨0x06, 0, 0, 0, n⟩)
  | .oscPrepare v c x => (.both .s, ⟨0x10, v, c, 0, x⟩)
  | .oscReset v c => (.both .none, ⟨0x11, v, c, 0, 0⟩)
  | .oscSetfreq v c x => (.both .s, ⟨0x12, v, c, 0, x⟩)
  | .oscSetphase v c x => (.both .s, ⟨0x13, v, c, 0, x⟩)
  | .oscSettype v c k => (.bothImm 1 .none, ⟨0x14, v, c, k.code, 0⟩)
  | .oscProcess v c => (.both .none, ⟨0x15, v, c, 0, 0⟩)
  | .dlyResize v c n => (.both .u, ⟨0x20, v, c, 0, n⟩)
  | .dlyReset v c => (.both .none, ⟨0x21, v, c, 0, 0⟩)
  | .dlyGet v c d => (.both .u, ⟨0x22, v, c, 0, d⟩)
  | .dlyGetlin v c x => (.both .s, ⟨0x23, v, c, 0, x⟩)
  | .dlyPush v c x => (.both .s, ⟨0x24, v, c, 0, x⟩)
  | .mdlPrepare v x => (.voice .s, ⟨0x30, v, 0, 0, x⟩)
  | .mdlReset v => (.voice .none, ⟨0x31, v, 0, 0, 0⟩)
  | .mdlSetmaxdelay v x => (.voice .s, ⟨0x32, v, 0, 0, x⟩)
  | .mdlSetmaxdepth v x => (.voice .s, ⟨0x33, v, 0, 0, x⟩)
  | .mdlSetdelay v c x => (.both .s, ⟨0x34, v, c, 0, x⟩)
  | .mdlSetdepth v c x => (.both .s, ⟨0x35, v, c, 0, x⟩)
  | .mdlSetrate v x => (.voice .s, ⟨0x36, v, 0, 0, x⟩)
  | .mdlSetwet v x => (.voice .s, ⟨0x37, v, 0, 0, x⟩)
  | .mdlProcess v c x => (.both .s, ⟨0x38, v, c, 0, x⟩)
  | .mdlLatency v => (.voice .none, ⟨0x39, v, 0, 0, 0⟩)
  | .vbPrepare x => (.plain .s, ⟨0x40, 0, 0, 0, x⟩)
  | .vbReset => (.plain .none, ⟨0x41, 0, 0, 0, 0⟩)
  | .vbSetactive n => (.plain .u, ⟨0x42, 0, 0, 0, n⟩)
  | .vbSetrate x => (.plain .s, ⟨0x43, 0, 0, 0, x⟩)
  | .vbSetdepth x => (.plain .s, ⟨0x44, 0, 0, 0, x⟩)
  | .vbSetdelay x => (.plain .s, ⟨0x45, 0, 0, 0, x⟩)
  | .vbSetspread x => (.plain .s, ⟨0x46, 0, 0, 0, x⟩)
  | .vbSetwidth x => (.plain .s, ⟨0x47, 0, 0, 0, x⟩)
  | .vbSettype k => (.imm 1 .none, ⟨0x48, 0, 0, k.code, 0⟩)
  | .vbSetphase c x => (.chan .s, ⟨0x49, 0, c, 0, x⟩)
  | .vbProcess c x => (.chan .s, ⟨0x4A, 0, c, 0, x⟩)
  | .vbSetmaxdelay x => (.plain .s, ⟨0x4B, 0, 0, 0, x⟩)
  | .vbSetmaxdepth x => (.plain .s, ⟨0x4C, 0, 0, 0, x⟩)
  | .engPrepare x => (.plain .s, ⟨0x50, 0, 0, 0, x⟩)
  | .engReset => (.plain .none, ⟨0x51, 0, 0, 0, 0⟩)
  | .engSetmode k => (.imm 3 .none, ⟨0x52, 0, 0, k.code, 0⟩)
  | .engSetmix x => (.plain .s, ⟨0x53, 0, 0, 0, x⟩)
  | .engSethpf x => (.plain .s, ⟨0x54, 0, 0, 0, x⟩)
  | .engSetlpf x => (.plain .s, ⟨0x55, 0, 0, 0, x⟩)
  | .engSetfbyp hp lp => (.imm 3 .none, ⟨0x56, 0, 0, fbypCode hp lp, 0⟩)
  | .engBegin b n => (.imm 1 .u, ⟨0x57, 0, 0, flagCode b, n⟩)
  | .engIn c x => (.chan .s, ⟨0x58, 0, c, 0, x⟩)
  | .engStep => (.plain .none, ⟨0x59, 0, 0, 0, 0⟩)
  | .engOut c => (.chan .none, ⟨0x5A, 0, c, 0, 0⟩)
  | .engLatency => (.plain .none, ⟨0x5B, 0, 0, 0, 0⟩)
  | .fltReset => (.plain .none, ⟨0x60, 0, 0, 0, 0⟩)
  | .fltBoost c x => (.chan .s, ⟨0x61, 0, c, 0, x⟩)
  | .fltCut c x => (.chan .s, ⟨0x62, 0, c, 0, x⟩)
  | .fltHp c x => (.chan .s, ⟨0x63, 0, c, 0, x⟩)
  | .fltLp c x => (.chan .s, ⟨0x64, 0, c, 0, x⟩)

/-- The command word of a well-formed command (R55, R56, R59). -/
def encode (i : Instr) : CmdWord := { hdr := i.row.2.header, opd := i.row.2.opd }

/-- The word the host numbers from its first word, which here is the header (spec/opcode_table.json gives each row the 32
header bits): the header is bits 31:0 and the operand the bits above them. -/
def tableWord (nbits w : Nat) : CmdWord :=
  { hdr := BitVec.ofNat 32 (w % 2 ^ nbits), opd := BitVec.ofNat 64 (w % 2 ^ nbits / 2 ^ 32) }

/-- The command the decoder reads from a row's word, for the `PREC` the block has at reset. -/
def decodeTableWord (nbits w : Nat) : Option Instr := (decode .binary32 (tableWord nbits w)).toOption

end Sys2Proof
end

