-- ==== Sys2Proof/Machine/Float.lean ====
section
/-! DEFINITION. IEEE 754 binary32 and binary64 arithmetic on sample words (spec/00_scope.md R11 to R17,
spec/48_arithmetic_and_control.md R192 to R194).

Every finite number of a format is a whole multiple of the format's smallest subnormal, its UNIT `2^-E`. So a finite word
is read as an integer count of units, every operation is exact integer or rational arithmetic on counts, and one function
(`roundMag`) rounds the exact result to nearest, ties to even. -/

namespace Sys2Proof.Ieee

/-- Bits of the stored fraction. -/
def fracBits : Prec → Nat
  | .binary32 => 23
  | .binary64 => 52

/-- `E`: one unit is `2^-E`, the smallest subnormal (`2^-149`, `2^-1074`). -/
def unitExp : Prec → Nat
  | .binary32 => 149
  | .binary64 => 1074

/-- The number 1 as a count of units. -/
def one (p : Prec) : Nat := 1 <<< unitExp p

/-- The weight of the sign bit, the top bit of the word (R47). -/
def signWeight : Prec → Nat
  | .binary32 => 0x80000000
  | .binary64 => 0x8000000000000000

/-- The bit pattern of `+inf`. -/
def infMag : Prec → Nat
  | .binary32 => 0x7F800000
  | .binary64 => 0x7FF0000000000000

/-- The `W` bits of a word, the bits above them dropped. -/
def word (p : Prec) (x : Sample) : Sample := BitVec.ofNat 64 (x.toNat % 2 ^ p.width)

/-- The bits below the sign bit. Magnitudes of numbers compare as these do. -/
def mag (p : Prec) (x : Sample) : Nat := x.toNat % signWeight p

/-- The sign bit. -/
def isNeg (p : Prec) (x : Sample) : Bool := decide (x.toNat / signWeight p % 2 = 1)

/-- A number that is neither an infinity nor a NaN (R17). -/
def isFinite (p : Prec) (x : Sample) : Bool := decide (mag p x < infMag p)

/-- A NaN. -/
def isNan (p : Prec) (x : Sample) : Bool := decide (infMag p < mag p x)

/-- The word with this sign and these bits below it. -/
def pack (p : Prec) (neg : Bool) (m : Nat) : Sample := BitVec.ofNat 64 (m + if neg then signWeight p else 0)

/-- The magnitude of a finite word, as a count of units. -/
def units (p : Prec) (x : Sample) : Nat :=
  let e := mag p x / 2 ^ fracBits p
  let m := mag p x % 2 ^ fracBits p
  if e = 0 then m else (m + 2 ^ fracBits p) <<< (e - 1)

/-- A finite word as a signed count of units. -/
def toInt (p : Prec) (x : Sample) : Int := if isNeg p x then -(units p x : Int) else (units p x : Int)

/-- Rounds the exact magnitude `num / den` (in units) to nearest, ties to even: the bits below the sign bit, which are
those of `inf` when the result is too large (R11, R193). The spacing of the format at the magnitude is `2^s` units. -/
def roundMag (p : Prec) (num den : Nat) : Nat :=
  let q := num / den
  let s := if q < 2 ^ (fracBits p + 1) then 0 else q.log2 - fracBits p
  let step := den <<< s
  let m := num / step
  let r := num % step
  let up := decide (step < 2 * r) || (decide (2 * r = step) && decide (m % 2 = 1))
  min ((s <<< fracBits p) + m + (if up then 1 else 0)) (infMag p)

/-- A sign and an exact magnitude `num / den` in units, rounded once. -/
def round (p : Prec) (neg : Bool) (num den : Nat) : Sample := pack p neg (roundMag p num den)

/-- The greatest `r < 2^k` above `acc` with `r * r ≤ n`, found bit by bit. -/
def isqrtFrom (n : Nat) : Nat → Nat → Nat
  | 0, acc => acc
  | k + 1, acc =>
    let t := acc + 2 ^ k
    isqrtFrom n k (if t * t ≤ n then t else acc)

/-- The integer square root. -/
def isqrt (n : Nat) : Nat := isqrtFrom n (n.log2 / 2 + 1) 0

/-! ### The operations -/

/-- The free result of an operation that reads a non-finite operand (U5), as a word of the format. -/
def free (p : Prec) (op : ArithOp) (x y : Sample) : Sample := word p (Config.freeArith p op x y)

/-- Sign change, which is exact. -/
def neg (p : Prec) (x : Sample) : Sample := pack p (!isNeg p x) (mag p x)

/-- The word of an exact sum of two finite words; `signs` are both operands' signs. An exact zero is `-0` only when both
are negative (round to nearest). -/
def ofSum (p : Prec) (signs : Bool × Bool) (z : Int) : Sample :=
  if z = 0 then pack p (signs.1 && signs.2) 0 else round p (decide (z < 0)) z.natAbs 1

def add (p : Prec) (x y : Sample) : Sample :=
  if isFinite p x && isFinite p y then ofSum p (isNeg p x, isNeg p y) (toInt p x + toInt p y)
  else free p .add x y

def sub (p : Prec) (x y : Sample) : Sample :=
  if isFinite p x && isFinite p y then ofSum p (isNeg p x, !isNeg p y) (toInt p x - toInt p y)
  else free p .sub x y

def mul (p : Prec) (x y : Sample) : Sample :=
  if isFinite p x && isFinite p y then round p (isNeg p x != isNeg p y) (units p x * units p y) (one p)
  else free p .mul x y

/-- Division. A non-zero number divided by zero is an infinity, as in IEEE 754; 0/0 is no number and its word is free. -/
def div (p : Prec) (x y : Sample) : Sample :=
  if isFinite p x && isFinite p y then
    if units p y ≠ 0 then round p (isNeg p x != isNeg p y) (units p x <<< unitExp p) (units p y)
    else if units p x ≠ 0 then pack p (isNeg p x != isNeg p y) (infMag p)
    else free p .div x y
  else free p .div x y

/-- The correctly rounded square root (R15): the integer root of the scaled count, with one more bit below it that says
whether the root is exact. -/
def sqrt (p : Prec) (x : Sample) : Sample :=
  if isFinite p x && (!isNeg p x || decide (units p x = 0)) then
    let n := units p x <<< unitExp p
    let r := isqrt n
    round p (isNeg p x) (2 * r + if r * r = n then 0 else 1) 2
  else free p .sqrt x x

/-- A word's place in the numeric order (R194): both zeros are 0, and an infinity lies beyond every number. -/
def key (p : Prec) (x : Sample) : Int := if isNeg p x then -(mag p x : Int) else (mag p x : Int)

/-- Numeric comparisons; every comparison with a NaN is false (R194). -/
def lt (p : Prec) (x y : Sample) : Bool := !isNan p x && !isNan p y && decide (key p x < key p y)
def le (p : Prec) (x y : Sample) : Bool := !isNan p x && !isNan p y && decide (key p x ≤ key p y)
def eq (p : Prec) (x y : Sample) : Bool := !isNan p x && !isNan p y && decide (key p x = key p y)

/-- The literal `num / den` rounded once (R7). -/
def lit (p : Prec) (num den : Nat) : Sample := round p false (num <<< unitExp p) den

/-- `toS` (R16): exact where the format holds the integer; where it does not, R16 states no value and the word is free. -/
def ofNat (p : Prec) (n : Nat) : Sample :=
  let r := lit p n 1
  if isFinite p r && decide (units p r = n <<< unitExp p) then r else word p (Config.freeOfNat p n)

/-- `floor` (R12): the greatest integer not above the number. -/
def floor (p : Prec) (x : Sample) : Int := if isFinite p x then toInt p x / (one p : Int) else Config.freeFloor p x

/-- `round` (R12): the nearest integer, halves away from zero, so the magnitude is rounded with halves up. -/
def roundInt (p : Prec) (x : Sample) : Int :=
  if isFinite p x then
    let n := (2 * units p x + one p) / (2 * one p)
    if isNeg p x then -(n : Int) else (n : Int)
  else Config.freeRound p x

/-- `ceil` (R12): the least integer not below the number. An infinity or a NaN has none (R194: a check on it fails). -/
def ceil (p : Prec) (x : Sample) : Option Int := if isFinite p x then some (-(-toInt p x / (one p : Int))) else none

/-- A number of `[0, n)`, its sign bit clear. -/
def inRange (p : Prec) (n : Nat) (y : Sample) : Bool :=
  isFinite p y && !isNeg p y && decide (units p y < n <<< unitExp p)

/-- `y` when it is a number of `[0, n)`, else `+0`. -/
def keepBelow (p : Prec) (n : Nat) (y : Sample) : Sample := if inRange p n y then y else 0

/-- `wrap` (R13): the floored remainder, computed exactly and rounded once; a result that rounds to `n` is delivered as 0
(U6). Of a non-finite operand it is a free word of `[0, n)`. -/
def wrap (p : Prec) (x : Sample) (n : Nat) : Sample :=
  if isFinite p x then keepBelow p n (round p false (toInt p x % ((n <<< unitExp p : Nat) : Int)).toNat 1)
  else keepBelow p n (word p (Config.freeWrap p x n))

/-- A value of the configuration is a finite word (U7). -/
def finiteWord (p : Prec) (y : Sample) : Sample := if isFinite p (word p y) then word p y else 0

end Sys2Proof.Ieee

namespace Sys2Proof

/-- The arithmetic of a binary `PREC`: each operation is one IEEE 754 operation, round to nearest, ties to even (R11). -/
def Arith.ieee (p : Prec) : Arith Sample where
  zero := 0
  lit := Ieee.lit p
  add := Ieee.add p
  sub := Ieee.sub p
  mul := Ieee.mul p
  div := Ieee.div p
  neg := Ieee.neg p
  sqrt := Ieee.sqrt p
  lt := Ieee.lt p
  le := Ieee.le p
  eq := Ieee.eq p
  ofNat := Ieee.ofNat p
  floor := Ieee.floor p
  round := Ieee.roundInt p
  ceil := Ieee.ceil p
  wrap := Ieee.wrap p
  sin := fun x => Ieee.finiteWord p (Config.sin p x)
  asin := fun x => Ieee.finiteWord p (Config.asin p x)
  cos := fun x => Ieee.finiteWord p (Config.cos p x)
  tan := fun x => Ieee.finiteWord p (Config.tan p x)
  pi := Ieee.finiteWord p (Config.pi p)

/-- `floor` as an index: of the number of `[0, n)` that `wrap` answers (R96, R104, R192). -/
def Arith.floorNat {S : Type} (A : Arith S) (x : S) : Nat := (A.floor x).toNat

/-- The default parameters of R5, in a binary format. `SVF_Q` is the number nearest to `1/sqrt(2)`, which is the correctly
rounded square root of one half. -/
def Params.default (p : Prec) : Params Sample where
  nVoices := 4
  nChMax := 2
  tableSize := 2048
  dlyCap := 262144
  chunk := 100
  maxDelayReset := Ieee.lit p 1 1
  phaseRamp := Ieee.lit p 5 100
  mixRamp := Ieee.lit p 5 100
  cutoffRamp := Ieee.lit p 5 100
  svfQ := Ieee.sqrt p (Ieee.lit p 1 2)
  hpfReset := Ieee.lit p 20 1
  lpfReset := Ieee.lit p 20000 1

end Sys2Proof
end

