-- ==== Sys2Proof/Machine/State.lean ====
section
/-! DEFINITION. All state of the block (spec/10_state.md R20 to R38), its reset (spec/70_reset_and_hazards.md R220) and
the reasons a step can stop. Every structure is over the sample type `S`, as CP asks ("a generic numeric type parameter on
every component"); the machine has `S = Sample`. -/

namespace Sys2Proof.Machine

/-- A row of like registers, by voice or channel number. `Bank.get` and `Bank.put` (Ops) read and write it. -/
abbrev Bank (α : Type) := List α

/-- The contents of one delay RAM (spec/20_memory.md R40): (index, word) pairs with indices strictly rising and no pair
whose word is 0, since allocation and reset write 0 to every addressable word (R41). -/
abbrev Memory (S : Type) := List (Nat × S)

/-- A smoothed parameter (R25). -/
structure Smoother (S : Type) where
  cur : S
  tgt : S
  step : S
  cnt : Nat
  n : Nat
deriving DecidableEq, Repr, Inhabited

/-- `OSC[v][c]` (R26). -/
structure Osc (S : Type) where
  prep : Bool
  fs : S
  freq : S
  delta : S
  pos : S
  type : Wave
  ph : Smoother S
deriving DecidableEq, Repr, Inhabited

/-- `DLY[v][c]` (R27) with its memory `DRAM[v][c]` (R40). -/
structure Dly (S : Type) where
  size : Nat
  cur : Nat
  ram : Memory S
deriving DecidableEq, Repr, Inhabited

/-- `MDL[v]` (R28). -/
structure Mdl (S : Type) where
  prep : Bool
  fs : S
  maxDelay : S
  maxDepth : S
  wet : S
  dt : Bank (Smoother S)
  dp : Bank (Smoother S)
deriving DecidableEq, Repr, Inhabited

/-- `VB` (R29). -/
structure Vb (S : Type) where
  prep : Bool
  active : Nat
  rate : S
  depth : S
  baseDelay : S
  spread : S
  width : S
  ltype : Wave
deriving DecidableEq, Repr, Inhabited

/-- The two state words of a filter (R30, R32). -/
structure FState (S : Type) where
  s1 : S
  s2 : S
deriving DecidableEq, Repr, Inhabited

/-- Biquad coefficients (R31). -/
structure Coefs (S : Type) where
  c0 : S
  c1 : S
  c2 : S
  c3 : S
  c4 : S
deriving DecidableEq, Repr, Inhabited

/-- The filters (R30 to R33). -/
structure Flt (S : Type) where
  boost : Bank (FState S)
  cut : Bank (FState S)
  hp : Bank (FState S)
  lp : Bank (FState S)
  bcoef : Coefs S
  ccoef : Coefs S
  hpg : S
  hph : S
  lpg : S
  lph : S
deriving DecidableEq, Repr, Inhabited

/-- `ENG` (R34 to R36). `inp` and `out` are the frame latches `ENG.IN` and `ENG.OUT`. -/
structure Eng (S : Type) where
  prep : Bool
  fs : S
  mode : Mode
  hpByp : Bool
  lpByp : Bool
  mix : Bank (Smoother S)
  hpfc : Smoother S
  lpfc : Smoother S
  modeL : Mode
  bypL : Bool
  inp : Bank S
  out : Bank S
  rem : Nat
  chcnt : Nat
deriving DecidableEq, Repr, Inhabited

/-- The system registers (R23). -/
structure Sys where
  halt : Bool
  cause : BitVec 8
  info : BitVec 32
  nch : Nat
  blkHint : BitVec 32
deriving DecidableEq, Repr, Inhabited

/-- Every register and memory of the block (spec/10_state.md). -/
structure Regs (S : Type) where
  sys : Sys
  osc : Bank (Bank (Osc S))
  dly : Bank (Bank (Dly S))
  mdl : Bank (Mdl S)
  vb : Vb S
  flt : Flt S
  eng : Eng S
deriving DecidableEq, Repr, Inhabited

/-- The machine: the block's registers and memories, the build it is an example of (`prec` and `cfg`: R5's parameters,
which no step writes, log entry 1), the command words the host has presented and the block has not yet taken (`port`,
R18 and R22, log entry 3), and the response port (`resp`, R18 and R60, log entry 4). -/
structure State where
  prec : Prec
  cfg : Params Sample
  regs : Regs Sample
  port : List CmdWord
  resp : Resp
deriving DecidableEq, Repr

/-- Reasons for which the machine itself stops. There is none: a contract violation of the spec is an event the spec
describes whole (spec/60_exceptions.md R203), and taking it is a next state. Safe: nothing is cut short. -/
inductive Fault where
deriving DecidableEq, Repr

/-- Reasons for which the model gives a command no meaning. -/
inductive Refusal where
  /-- raised by `exec`'s arm of a command that has no meaning yet; safe, because nothing about such a step can be proved.
  Every command has its meaning, so no arm raises it. -/
  | notModelled (mnemonic : String)
deriving DecidableEq, Repr

/-! ### Reset (R220) -/

section
variable {S : Type}

/-- A smoother at rest at `x` with no ramp length (R25's reset, with `CUR = TGT = x`). -/
def Smoother.rest (A : Arith S) (x : S) : Smoother S := { cur := x, tgt := x, step := A.zero, cnt := 0, n := 0 }

def Osc.reset (A : Arith S) : Osc S :=
  { prep := false, fs := A.zero, freq := A.zero, delta := A.zero, pos := A.zero, type := .triangle,
    ph := Smoother.rest A A.zero }

/-- The words of a delay RAM are unspecified after reset and unreachable, since `SIZE = 0` (R39, log entry 8). -/
def Dly.reset : Dly S := { size := 0, cur := 0, ram := [] }

def Mdl.reset (A : Arith S) (P : Params S) : Mdl S :=
  { prep := false, fs := A.zero, maxDelay := P.maxDelayReset, maxDepth := A.zero, wet := A.lit 1 1,
    dt := List.replicate P.nChMax (Smoother.rest A (A.lit 5 1000)),
    dp := List.replicate P.nChMax (Smoother.rest A A.zero) }

def Vb.reset (A : Arith S) : Vb S :=
  { prep := false, active := 1, rate := A.zero, depth := A.zero, baseDelay := A.lit 5 1000, spread := A.zero,
    width := A.zero, ltype := .triangle }

def FState.clear (A : Arith S) : FState S := { s1 := A.zero, s2 := A.zero }

def Coefs.identity (A : Arith S) : Coefs S :=
  { c0 := A.lit 1 1, c1 := A.zero, c2 := A.zero, c3 := A.zero, c4 := A.zero }

def Flt.reset (A : Arith S) (P : Params S) : Flt S :=
  { boost := List.replicate P.nChMax (FState.clear A), cut := List.replicate P.nChMax (FState.clear A),
    hp := List.replicate P.nChMax (FState.clear A), lp := List.replicate P.nChMax (FState.clear A),
    bcoef := Coefs.identity A, ccoef := Coefs.identity A,
    hpg := A.zero, hph := A.lit 1 1, lpg := A.zero, lph := A.lit 1 1 }

def Eng.reset (A : Arith S) (P : Params S) : Eng S :=
  { prep := false, fs := A.zero, mode := .stereo, hpByp := false, lpByp := false,
    mix := List.replicate P.nChMax (Smoother.rest A A.zero),
    hpfc := Smoother.rest A P.hpfReset, lpfc := Smoother.rest A P.lpfReset,
    modeL := .stereo, bypL := false,
    inp := List.replicate P.nChMax A.zero, out := List.replicate P.nChMax A.zero, rem := 0, chcnt := 0 }

def Sys.reset : Sys := { halt := false, cause := 0, info := 0, nch := 0, blkHint := 0 }

/-- `Reset()` of R220: every register of every voice and channel of the build. -/
def Regs.reset (A : Arith S) (P : Params S) : Regs S :=
  { sys := Sys.reset
    osc := List.replicate P.nVoices (List.replicate P.nChMax (Osc.reset A))
    dly := List.replicate P.nVoices (List.replicate P.nChMax Dly.reset)
    mdl := List.replicate P.nVoices (Mdl.reset A P)
    vb := Vb.reset A
    flt := Flt.reset A P
    eng := Eng.reset A P }

end

/-- The arithmetic and the parameters this machine was built with. -/
def State.kit (s : State) : Kit Sample := { A := Arith.ieee s.prec, P := s.cfg }

/-- The machine right after reset with the default parameters of R5 (log entry 1), no command presented and nothing but
zeros on the response port (log entry 4). -/
def State.reset : State :=
  { prec := .binary32
    cfg := Params.default .binary32
    regs := Regs.reset (Arith.ieee .binary32) (Params.default .binary32)
    port := []
    resp := { fault := false, val := 0 } }

end Sys2Proof.Machine
end

