-- ==== Sys2Proof/Machine/Ops.lean ====
section
/-! DEFINITION. The named operations over registers and memory, the loops of the pseudocode (CP's loops "are unrolled
into the fixed iteration orders the rules write", spec/48_arithmetic_and_control.md R195), taking a fault
(spec/60_exceptions.md R203), refusing in the halted state (R202) and completing a command (R60). -/

namespace Sys2Proof.Machine

section
variable {α : Type} [Inhabited α]

/-- Register `i` of a row. -/
def Bank.get (xs : Bank α) (i : Nat) : α := xs.getD i default

/-- Register `i` of a row written; a row shorter than that is filled up, so that a read after a write gives the value
written whatever the row's length. -/
def Bank.put : Bank α → Nat → α → Bank α
  | [], 0, a => [a]
  | [], i + 1, a => default :: Bank.put [] i a
  | _ :: xs, 0, a => a :: xs
  | x :: xs, i + 1, a => x :: Bank.put xs i a

/-- Registers `0..n-1` of a row, each replaced by a function of its number and its value. -/
def Bank.update (n : Nat) (f : Nat → α → α) (xs : Bank α) : Bank α :=
  match n with
  | 0 => xs
  | k + 1 =>
    let ys := Bank.update k f xs
    ys.put k (f k (ys.get k))

end

/-- `for k in 0..n-1, ascending: s <- f k s`, stopping at the first fault (R197). -/
def loopE {σ ε : Type} (n : Nat) (f : Nat → σ → Except ε σ) (s : σ) : Except ε σ :=
  match n with
  | 0 => .ok s
  | k + 1 => (loopE k f s).bind (f k)

/-! ### Delay RAM (spec/20_memory.md R40, R41) -/

section
variable {S : Type} [DecidableEq S]

/-- The word at an index; an index not listed reads 0, which allocation and reset wrote there (R41). -/
def Memory.read (z : S) : Memory S → Nat → S
  | [], _ => z
  | (a, x) :: m, i => if a = i then x else Memory.read z m i

/-- One word written, the canonical form kept: writing 0 lists nothing. -/
def Memory.write (z : S) : Memory S → Nat → S → Memory S
  | [], i, x => if x = z then [] else [(i, x)]
  | (a, y) :: m, i, x =>
    if i < a then (if x = z then (a, y) :: m else (i, x) :: (a, y) :: m)
    else if i = a then (if x = z then m else (i, x) :: m)
    else (a, y) :: Memory.write z m i x

/-- Every word 0. -/
def Memory.clear : Memory S := []

/-- The canonical form above a bound: indices strictly rising, no word 0. -/
def Memory.wfFrom (z : S) : Nat → Memory S → Bool
  | _, [] => true
  | lo, (a, x) :: m => decide (lo ≤ a) && !decide (x = z) && Memory.wfFrom z (a + 1) m

/-- The canonical form. -/
def Memory.wf (z : S) (m : Memory S) : Bool := Memory.wfFrom z 0 m

end

/-! ### Registers by voice and channel -/

section
variable {S : Type} [Inhabited S]

def Regs.getOsc (r : Regs S) (v c : Nat) : Osc S := (r.osc.get v).get c
def Regs.setOsc (r : Regs S) (v c : Nat) (o : Osc S) : Regs S := { r with osc := r.osc.put v ((r.osc.get v).put c o) }
def Regs.getDly (r : Regs S) (v c : Nat) : Dly S := (r.dly.get v).get c
def Regs.setDly (r : Regs S) (v c : Nat) (b : Dly S) : Regs S := { r with dly := r.dly.put v ((r.dly.get v).put c b) }
def Regs.getMdl (r : Regs S) (v : Nat) : Mdl S := r.mdl.get v
def Regs.setMdl (r : Regs S) (v : Nat) (m : Mdl S) : Regs S := { r with mdl := r.mdl.put v m }

/-- Every oscillator of voices `< nv` and channels `< nc`, updated alike. -/
def Regs.updateOscs (nv nc : Nat) (f : Osc S → Osc S) (r : Regs S) : Regs S :=
  { r with osc := r.osc.update nv fun _ row => row.update nc fun _ o => f o }

/-- Every voice `< nv`, updated by a function of its number. -/
def Regs.updateMdls (nv : Nat) (f : Nat → Mdl S → Mdl S) (r : Regs S) : Regs S := { r with mdl := r.mdl.update nv f }

/-- One word of delay RAM, `DRAM[v][c][i]`. -/
def Regs.dram (A : Arith S) (r : Regs S) (v c i : Nat) : S := (r.getDly v c).ram.read A.zero i

end

/-! ### Faults (spec/60_exceptions.md) -/

/-- The causes (R205). -/
inductive Cause where
  | illegalCommand
  | notPrepared
  | channels
  | delayRange
  | bufferRange
  | voicesRange
  | alloc
  | paramRange
  | sequence
  | nonfinite
deriving DecidableEq, Repr

/-- The cause codes (R205). -/
def Cause.code : Cause → BitVec 8
  | .illegalCommand => 1
  | .notPrepared => 2
  | .channels => 3
  | .delayRange => 4
  | .bufferRange => 5
  | .voicesRange => 6
  | .alloc => 7
  | .paramRange => 8
  | .sequence => 9
  | .nonfinite => 10

/-- `if not b: raise Fault(code)`. -/
def require (b : Bool) (code : Cause) : Except Cause Unit := if b then .ok () else .error code

/-- Fault entry (R203): `HALT <- 1`, `CAUSE <- code`, `INFO <-` the header of the faulting command, no other register or
memory word; response `FAULT = 1`, `VAL = zext(code)`. -/
def faultEntry (code : Cause) (hdr : BitVec 32) (s : State) : State :=
  { s with
    regs := { s.regs with sys := { s.regs.sys with halt := true, cause := code.code, info := hdr } }
    resp := { fault := true, val := code.code.setWidth 64 } }

/-- A word refused in the halted state (R202): no state changes; response `FAULT = 1`, `VAL = zext(CAUSE)`. -/
def refuse (s : State) : State := { s with resp := { fault := true, val := s.regs.sys.cause.setWidth 64 } }

/-- A command completed: its new registers, and its result on the response port with `FAULT = 0` (R60). -/
def complete (s : State) (r : Regs Sample) (val : BitVec 64) : State :=
  { s with regs := r, resp := { fault := false, val := val } }

/-- Return from the halted state (R207, spec/40_system.md R71): the reset of R220. The build, which is not state (R19), and
the command words still to be taken, which are the host's (R22), stay. -/
def resetEntry (s : State) : State := complete s (Regs.reset s.kit.A s.kit.P) 0

/-- An illegal command word (R58 items 1 to 3): refused when halted (R202), else the fault `ILLEGAL_COMMAND`. -/
def illegalWord (w : CmdWord) (s : State) : State :=
  if s.regs.sys.halt then refuse s else faultEntry .illegalCommand w.hdr s

/-! ### The command port (R18) -/

/-- The next command word taken off the port, and the machine without it. -/
def takeWord (s : State) : Option (CmdWord × State) :=
  match s.port with
  | [] => none
  | w :: rest => some (w, { s with port := rest })

/-- The next command word to be taken replaced by `w`. -/
def placeWord (w : CmdWord) (s : State) : State := { s with port := w :: s.port.tail }

end Sys2Proof.Machine
end

