-- ==== Sys2Proof/Machine/Operands.lean ====
section
/-! DEFINITION. Operand assembly (spec/30_encoding.md R59), the decode checks that need the state or the operand
(R58 items 4 to 7) and the one frame every command runs in (spec/60_exceptions.md R202 to R204). -/

namespace Sys2Proof.Machine

/-- A kind `S` operand: the bit pattern in the `W` operand bits (R59). -/
def sOperand (s : State) (x : BitVec 64) : Sample := Ieee.word s.prec x

/-- A kind `U` operand: `OPD[31:0]` as an unsigned integer (R59). -/
def uOperand (x : BitVec 64) : Nat := x.toNat % 2 ^ 32

/-- R58 item 6: the operand bits above bit 31 of a kind `U` operand are 0 (with `W = 32` there are none). -/
def uOperandLegal (p : Prec) (x : BitVec 64) : Bool := decide (x.toNat % 2 ^ p.width < 2 ^ 32)

/-- The decode checks of R58 items 4 to 7, in their order; the first that fails names the cause. -/
def decodeChecks (i : Instr) (s : State) : Except Cause Unit := do
  let (m, f) := i.row
  require (!m.useV || decide (f.v.toNat < s.cfg.nVoices)) .illegalCommand
  require (!m.useC || decide (s.regs.sys.nch ≠ 0)) .channels
  require (!m.useC || decide (f.c.toNat < s.regs.sys.nch)) .illegalCommand
  require (!decide (m.kind = .u) || uOperandLegal s.prec f.opd) .illegalCommand
  require (!decide (m.kind = .s) || Ieee.isFinite s.prec f.opd) .nonfinite

/-- The four commands that run in the halted state (R202). -/
def runsHalted : Instr → Bool
  | .sysReset | .sysRdstat | .sysRdcause | .sysRdinfo => true
  | _ => false

/-- What a command's own pseudocode gives: its response value and the new registers, or the cause of a fault. -/
abbrev Result := Except Cause (BitVec 64 × Regs Sample)

/-- One command, in the check order of R204: halted (R202), decode checks (R58 items 4 to 7), then its own pseudocode.
A fault anywhere writes nothing but what fault entry writes (spec/00_scope.md R9, R203). -/
def run (i : Instr) (s : State) (body : Result) : Host.Outcome State Fault Refusal :=
  if s.regs.sys.halt && !runsHalted i then .next (refuse s)
  else
    match decodeChecks i s with
    | .error e => .next (faultEntry e (encode i).hdr s)
    | .ok _ =>
      match body with
      | .error e => .next (faultEntry e (encode i).hdr s)
      | .ok (val, r) => .next (complete s r val)

/-- `zext` of an unsigned integer result to the response's `VAL` (R60). -/
def zextVal (n : Nat) : BitVec 64 := BitVec.ofNat 64 n

/-- An integer stored in a `u32` register or answered as a `u32` (R192): `floor(ramp*fs)` and the latency results saturate
at the greatest `u32`. R192 calls their operands never negative and states no value for a negative one, which a delay ramp
rounded below 0 gives all the same: that value is free (log entry 19). -/
def toU32 (z : Int) : Nat := if 0 ≤ z then min z.toNat 4294967295 else (Config.freeU32 z).toNat

end Sys2Proof.Machine
end

