-- ==== Sys2Proof/Machine/Flags.lean ====
section
/-! DEFINITION. The block has no arithmetic condition codes (spec/10_state.md R37). Its flags are read together in the
status word of R24, assembled here from state. -/

namespace Sys2Proof.Machine

/-- A flag at a bit position. -/
def flagBit (b : Bool) (pos : Nat) : BitVec 32 := if b then BitVec.ofNat 32 1 <<< pos else 0

/-- The `MDLPREP` field, bits `16+v` for `v < n` (R24). -/
def mdlPrepBits (r : Regs Sample) : Nat → BitVec 32
  | 0 => 0
  | v + 1 => mdlPrepBits r v ||| flagBit (r.getMdl v).prep (16 + v)

/-- The status word (R24). -/
def statusWord (K : Kit Sample) (r : Regs Sample) : BitVec 32 :=
  flagBit r.sys.halt 0 ||| flagBit r.eng.prep 1 ||| flagBit r.vb.prep 2 ||| flagBit (decide (0 < r.eng.rem)) 3
    ||| flagBit r.eng.bypL 4 ||| (r.eng.modeL.code.setWidth 32 <<< 5) ||| (r.eng.mode.code.setWidth 32 <<< 7)
    ||| flagBit r.eng.hpByp 9 ||| flagBit r.eng.lpByp 10 ||| (BitVec.ofNat 32 (r.sys.nch % 32) <<< 11)
    ||| mdlPrepBits r K.P.nVoices

end Sys2Proof.Machine
end

