-- ==== Sys2Proof/Machine/Smoother.lean ====
section
/-! DEFINITION. The smoothed-parameter primitive (spec/41_smoothed_parameter.md R80 to R85), over any arithmetic. -/

namespace Sys2Proof.Machine

variable {S : Type}

/-- `s.CUR <- s.TGT; s.CNT <- 0; s.STEP <- 0`: a ramp ended at its target (R80, R92, R113, R172). -/
def smSettle (A : Arith S) (s : Smoother S) : Smoother S := { s with cur := s.tgt, cnt := 0, step := A.zero }

/-- `SmReset(s, fs, ramp)` (R80); `floor(ramp * fs)` is stored as a `u32` (R192). -/
def smReset (A : Arith S) (s : Smoother S) (fs ramp : S) : Smoother S :=
  { smSettle A s with n := toU32 (A.floor (A.mul ramp fs)) }

/-- `SmSetBoth(s, v)` (R82). -/
def smSetBoth (A : Arith S) (s : Smoother S) (v : S) : Smoother S :=
  { s with cur := v, tgt := v, cnt := 0, step := A.zero }

/-- `SmSetTarget(s, v)` (R81). -/
def smSetTarget (A : Arith S) (s : Smoother S) (v : S) : Smoother S :=
  if A.eq v s.tgt then s
  else if s.n = 0 then smSetBoth A s v
  else { s with tgt := v, cnt := s.n, step := A.div (A.sub v s.cur) (A.ofNat s.n) }

/-- `SmNext(s)` (R83): the value for this sample, and the smoother one sample on. -/
def smNext (A : Arith S) (s : Smoother S) : S × Smoother S :=
  if s.cnt = 0 then (s.tgt, s)
  else
    let cnt := s.cnt - 1
    let cur := if 0 < cnt then A.add s.cur s.step else s.tgt
    (cur, { s with cur := cur, cnt := cnt })

/-- `SmCur(s)` (R84). -/
def smCur (s : Smoother S) : S := s.cur

/-- `SmSkip(s, n)` (R85). -/
def smSkip (A : Arith S) (s : Smoother S) (n : Nat) : Smoother S :=
  if s.cnt ≤ n then { s with cur := s.tgt, cnt := 0 }
  else { s with cur := A.add s.cur (A.mul s.step (A.ofNat n)), cnt := s.cnt - n }

/-- `lerp(a, b, f) = a + f*(b - a)` (spec/00_scope.md R14). -/
def lerp (A : Arith S) (a b f : S) : S := A.add a (A.mul f (A.sub b a))

end Sys2Proof.Machine
end

