-- ==== Sys2Proof/Machine/Oscillator.lean ====
section
/-! DEFINITION. The wavetable ROM (spec/20_memory.md R43 to R46) and the oscillator commands
(spec/42_oscillator.md R91 to R96). -/

namespace Sys2Proof.Machine

section
variable {S : Type}

/-- `theta(i) = -PI + 2*PI*i/T` (R44). -/
def romAngle (A : Arith S) (T i : Nat) : S :=
  A.add (A.neg A.pi) (A.div (A.mul (A.mul (A.lit 2 1) A.pi) (A.ofNat i)) (A.ofNat T))

/-- `ROM[t][i]` for `i < T` (R44). -/
def romEntry (A : Arith S) (T : Nat) (t : Wave) (i : Nat) : S :=
  match t with
  | .sine => A.sin (romAngle A T i)
  | .triangle => A.mul (A.div (A.lit 2 1) A.pi) (A.asin (A.sin (romAngle A T i)))

/-- `ROM[t][i]` for `i` in `0..T`; the word at `T` is a copy of word 0 (R43, R44). -/
def rom (A : Arith S) (T : Nat) (t : Wave) (i : Nat) : S := romEntry A T t (if i = T then 0 else i)

/-- The increment `(2 * hz) * (toS(T) / fs)` (R91, R93). -/
def oscDelta (K : Kit S) (hz fs : S) : S :=
  K.A.mul (K.A.mul (K.A.lit 2 1) hz) (K.A.div (K.A.ofNat K.P.tableSize) fs)

/-- `OscPrepare(v, c, fs)` (R91). -/
def oscPrepare (K : Kit S) (fs : S) (o : Osc S) : Osc S :=
  { o with fs := fs, pos := K.A.zero, ph := smReset K.A o.ph fs K.P.phaseRamp, delta := oscDelta K o.freq fs, prep := true }

/-- `OscReset(v, c)` (R92). -/
def oscReset (A : Arith S) (o : Osc S) : Osc S := { o with pos := A.zero, ph := smSettle A o.ph }

/-- `OscSetFreq(v, c, hz)` (R93). -/
def oscSetFreq (K : Kit S) (hz : S) (o : Osc S) : Osc S :=
  { o with freq := hz, delta := if o.prep then oscDelta K hz o.fs else K.A.zero }

/-- `OSC.SETPHASE` on one oscillator (R94). -/
def oscSetPhase (A : Arith S) (off : S) (o : Osc S) : Osc S := { o with ph := smSetTarget A o.ph off }

/-- `OscProcess(v, c)` (R96): the sample read at the position before the advance, and the oscillator advanced. -/
def oscProcess (K : Kit S) (o : Osc S) : S × Osc S :=
  let T := K.P.tableSize
  let (ph, ph') := smNext K.A o.ph
  let r := K.A.wrap (K.A.add o.pos (K.A.mul ph (K.A.ofNat T))) T
  let i := K.A.floorNat r
  let f := K.A.sub r (K.A.ofNat i)
  let y := lerp K.A (rom K.A T o.type i) (rom K.A T o.type (i + 1)) f
  (y, { o with ph := ph', pos := K.A.wrap (K.A.add o.pos o.delta) T })

end

/-! ### Commands -/

/-- `OSC.PREPARE v c fs` (R91). -/
def execOscPrepare (v c : BitVec 4) (fs : BitVec 64) (s : State) : Host.Outcome State Fault Refusal :=
  run (.oscPrepare v c fs) s do
    require (s.regs.eng.rem == 0) .sequence
    let x := sOperand s fs
    require (s.kit.A.lt s.kit.A.zero x) .paramRange
    return (0, s.regs.setOsc v.toNat c.toNat (oscPrepare s.kit x (s.regs.getOsc v.toNat c.toNat)))

/-- `OSC.RESET v c` (R92). -/
def execOscReset (v c : BitVec 4) (s : State) : Host.Outcome State Fault Refusal :=
  run (.oscReset v c) s do
    return (0, s.regs.setOsc v.toNat c.toNat (oscReset s.kit.A (s.regs.getOsc v.toNat c.toNat)))

/-- `OSC.SETFREQ v c hz` (R93). -/
def execOscSetfreq (v c : BitVec 4) (hz : BitVec 64) (s : State) : Host.Outcome State Fault Refusal :=
  run (.oscSetfreq v c hz) s do
    return (0, s.regs.setOsc v.toNat c.toNat (oscSetFreq s.kit (sOperand s hz) (s.regs.getOsc v.toNat c.toNat)))

/-- `OSC.SETPHASE v c off` (R94). -/
def execOscSetphase (v c : BitVec 4) (off : BitVec 64) (s : State) : Host.Outcome State Fault Refusal :=
  run (.oscSetphase v c off) s do
    return (0, s.regs.setOsc v.toNat c.toNat (oscSetPhase s.kit.A (sOperand s off) (s.regs.getOsc v.toNat c.toNat)))

/-- `OSC.SETTYPE v c #k` (R95). -/
def execOscSettype (v c : BitVec 4) (k : Wave) (s : State) : Host.Outcome State Fault Refusal :=
  run (.oscSettype v c k) s do
    return (0, s.regs.setOsc v.toNat c.toNat { s.regs.getOsc v.toNat c.toNat with type := k })

/-- `OSC.PROCESS v c` (R96). -/
def execOscProcess (v c : BitVec 4) (s : State) : Host.Outcome State Fault Refusal :=
  run (.oscProcess v c) s do
    let o := s.regs.getOsc v.toNat c.toNat
    require o.prep .notPrepared
    let (y, o') := oscProcess s.kit o
    return (y, s.regs.setOsc v.toNat c.toNat o')

end Sys2Proof.Machine
end

