-- ==== Sys2Proof/Machine/Delay.lean ====
section
/-! DEFINITION. The fractional delay buffer (spec/43_delay_buffer.md R101 to R105). -/

namespace Sys2Proof.Machine

section
variable {S : Type}

/-- `DlyResize(v, c, n)` (R101, spec/20_memory.md R41). -/
def dlyResize (K : Kit S) (n : Nat) (b : Dly S) : Except Cause (Dly S) := do
  require (decide (1 ≤ n ∧ n ≤ K.P.dlyCap)) .alloc
  return { b with size := n, cur := 0, ram := Memory.clear }

/-- `DlyReset(v, c)` (R102). With `SIZE = 0` there is no word to clear and `CUR` is 0 already. -/
def dlyReset (b : Dly S) : Dly S := { b with cur := 0, ram := Memory.clear }

/-- The address `(CUR + d + 1) mod SIZE` of the word `d` samples back, on unbounded integers (R103, R191). -/
def dlyAddr (b : Dly S) (d : Nat) : Nat := (b.cur + d + 1) % b.size

variable [DecidableEq S]

/-- `DLY.GET`'s read (R103). -/
def dlyGet (A : Arith S) (d : Nat) (b : Dly S) : Except Cause S := do
  require (decide (d < b.size)) .bufferRange
  return b.ram.read A.zero (dlyAddr b d)

/-- The read position `p = fmod(toS(CUR) + t + 1, SIZE)` of a fractional delay (R104). -/
def dlyPos (A : Arith S) (t : S) (b : Dly S) : S := A.wrap (A.add (A.add (A.ofNat b.cur) t) (A.lit 1 1)) b.size

/-- `DlyGetLinear(v, c, t)` (R104). -/
def dlyGetLinear (A : Arith S) (t : S) (b : Dly S) : Except Cause S := do
  require (A.le A.zero t && A.lt t (A.ofNat b.size)) .bufferRange
  let p := dlyPos A t b
  let i := A.floorNat p
  let f := A.sub p (A.ofNat i)
  let j := (i + 1) % b.size
  return lerp A (b.ram.read A.zero i) (b.ram.read A.zero j) f

/-- `DlyPush(v, c, x)` (R105): the word at the cursor, then the cursor down by one, from 0 to `SIZE - 1`. -/
def dlyPush (A : Arith S) (x : S) (b : Dly S) : Dly S :=
  { b with ram := b.ram.write A.zero b.cur x, cur := if b.cur = 0 then b.size - 1 else b.cur - 1 }

end

/-! ### Commands -/

/-- `DLY.RESIZE v c n` (R101). -/
def execDlyResize (v c : BitVec 4) (n : BitVec 64) (s : State) : Host.Outcome State Fault Refusal :=
  run (.dlyResize v c n) s do
    require (s.regs.eng.rem == 0) .sequence
    let b ← dlyResize s.kit (uOperand n) (s.regs.getDly v.toNat c.toNat)
    return (0, s.regs.setDly v.toNat c.toNat b)

/-- `DLY.RESET v c` (R102). -/
def execDlyReset (v c : BitVec 4) (s : State) : Host.Outcome State Fault Refusal :=
  run (.dlyReset v c) s do
    return (0, s.regs.setDly v.toNat c.toNat (dlyReset (s.regs.getDly v.toNat c.toNat)))

/-- `DLY.GET v c d` (R103). -/
def execDlyGet (v c : BitVec 4) (d : BitVec 64) (s : State) : Host.Outcome State Fault Refusal :=
  run (.dlyGet v c d) s do
    let b := s.regs.getDly v.toNat c.toNat
    require (b.size != 0) .notPrepared
    let x ← dlyGet s.kit.A (uOperand d) b
    return (x, s.regs)

/-- `DLY.GETLIN v c t` (R104). -/
def execDlyGetlin (v c : BitVec 4) (t : BitVec 64) (s : State) : Host.Outcome State Fault Refusal :=
  run (.dlyGetlin v c t) s do
    let b := s.regs.getDly v.toNat c.toNat
    require (b.size != 0) .notPrepared
    let x ← dlyGetLinear s.kit.A (sOperand s t) b
    return (x, s.regs)

/-- `DLY.PUSH v c x` (R105). -/
def execDlyPush (v c : BitVec 4) (x : BitVec 64) (s : State) : Host.Outcome State Fault Refusal :=
  run (.dlyPush v c x) s do
    let b := s.regs.getDly v.toNat c.toNat
    require (b.size != 0) .notPrepared
    return (0, s.regs.setDly v.toNat c.toNat (dlyPush s.kit.A (sOperand s x) b))

end Sys2Proof.Machine
end

