-- ==== Sys2Proof/Machine/DelayLine.lean ====
section
/-! DEFINITION. The modulated delay line (spec/44_modulated_delay_line.md R111 to R121). -/

namespace Sys2Proof.Machine

section
variable {S : Type} [Inhabited S]

/-- `MdlSetMax(v)` (R112): every channel's buffer reallocated to `ceil(MAXDELAY * FS)` words. A product that is no finite
number has no ceiling, and like a negative one fails the check on the size (R194, log entry 17). -/
def mdlSetMax (K : Kit S) (v : Nat) (r : Regs S) : Except Cause (Regs S) := do
  let m := r.getMdl v
  let n := ((K.A.ceil (K.A.mul m.maxDelay m.fs)).getD 0).toNat
  require (decide (1 ≤ n ∧ n ≤ K.P.dlyCap)) .alloc
  loopE r.sys.nch (fun c r => do
    let b ← dlyResize K n (r.getDly v c)
    return r.setDly v c b) r

/-- The per-channel part of `MdlPrepare` (R111): the oscillators prepared, the two ramps reset (0.2 s and 0.5 s). -/
def mdlPrepareChans (K : Kit S) (v : Nat) (fs : S) (r : Regs S) : Regs S :=
  let nch := r.sys.nch
  let m := r.getMdl v
  let r := { r with osc := r.osc.put v ((r.osc.get v).update nch fun _ o => oscPrepare K fs o) }
  r.setMdl v
    { m with
      dp := m.dp.update nch fun _ s => smReset K.A s fs (K.A.lit 2 10)
      dt := m.dt.update nch fun _ s => smReset K.A s fs (K.A.lit 5 10)
      prep := true }

/-- `MdlPrepare(v, fs)` (R111). -/
def mdlPrepare (K : Kit S) (v : Nat) (fs : S) (r : Regs S) : Except Cause (Regs S) := do
  let r ← mdlSetMax K v (r.setMdl v { r.getMdl v with fs := fs })
  return mdlPrepareChans K v fs r

/-- `MdlReset(v)` (R113). -/
def mdlReset (A : Arith S) (v : Nat) (r : Regs S) : Regs S :=
  let nch := r.sys.nch
  let m := r.getMdl v
  let r := { r with
    dly := r.dly.put v ((r.dly.get v).update nch fun _ b => dlyReset b)
    osc := r.osc.put v ((r.osc.get v).update nch fun _ o => oscReset A o) }
  r.setMdl v
    { m with
      dt := m.dt.update nch fun _ s => smSettle A s
      dp := m.dp.update nch fun _ s => smSettle A s }

/-- The bound of R115, `0 < t and t < MAXDELAY - MAXDEPTH`. -/
def delayInRange (A : Arith S) (m : Mdl S) (t : S) : Bool := A.lt A.zero t && A.lt t (A.sub m.maxDelay m.maxDepth)

/-- The bound of R117, `0 <= d and d <= MAXDEPTH`. -/
def depthInRange (A : Arith S) (m : Mdl S) (d : S) : Bool := A.le A.zero d && A.le d m.maxDepth

/-- The range `[0, 1]` of a wet level, spread, width or mix (R119, R137, R138, R174). -/
def inUnit (A : Arith S) (x : S) : Bool := A.le A.zero x && A.le x (A.lit 1 1)

/-- `MdlSetDelay(v, c, t)` (R115). -/
def mdlSetDelay (A : Arith S) (c : Nat) (t : S) (m : Mdl S) : Except Cause (Mdl S) := do
  require (delayInRange A m t) .delayRange
  return { m with dt := m.dt.put c (smSetTarget A (m.dt.get c) t) }

/-- `MdlSetDepth(v, c, d)` (R117). -/
def mdlSetDepth (A : Arith S) (c : Nat) (d : S) (m : Mdl S) : Except Cause (Mdl S) := do
  require (depthInRange A m d) .paramRange
  return { m with dp := m.dp.put c (smSetTarget A (m.dp.get c) d) }

/-- `MDL[v].MAXDELAY <- s`, and the reallocation once prepared (R114, R143). -/
def mdlSetMaxDelay (K : Kit S) (v : Nat) (x : S) (r : Regs S) : Except Cause (Regs S) :=
  let r := r.setMdl v { r.getMdl v with maxDelay := x }
  if (r.getMdl v).prep then mdlSetMax K v r else .ok r

/-- `MDL[v].MAXDEPTH <- s`, and the reallocation once prepared (R116, R144). -/
def mdlSetMaxDepth (K : Kit S) (v : Nat) (x : S) (r : Regs S) : Except Cause (Regs S) :=
  let r := r.setMdl v { r.getMdl v with maxDepth := x }
  if (r.getMdl v).prep then mdlSetMax K v r else .ok r

/-- The blend `x * (1 - WET) + y * WET` (R120). -/
def mdlBlend (A : Arith S) (wet x y : S) : S := A.add (A.mul x (A.sub (A.lit 1 1) wet)) (A.mul y wet)

/-- The delay of a sample in samples, `(bas + lfo * dep) * FS` with `lfo = (o + 1) * 0.5` (R120). -/
def mdlDelay (A : Arith S) (fs o dep bas : S) : S :=
  A.mul (A.add bas (A.mul (A.mul (A.add o (A.lit 1 1)) (A.lit 1 2)) dep)) fs

/-- `MdlProcess(v, c, x)` (R120): oscillator, depth smoother, delay smoother, read, push, blend. -/
def mdlProcess [DecidableEq S] (K : Kit S) (v c : Nat) (x : S) (r : Regs S) : Except Cause (S × Regs S) := do
  let m := r.getMdl v
  let (o, osc') := oscProcess K (r.getOsc v c)
  let (dep, dp') := smNext K.A (m.dp.get c)
  let (bas, dt') := smNext K.A (m.dt.get c)
  let b := r.getDly v c
  let y ← dlyGetLinear K.A (mdlDelay K.A m.fs o dep bas) b
  let r := r.setOsc v c osc'
  let r := r.setMdl v { m with dp := m.dp.put c dp', dt := m.dt.put c dt' }
  let r := r.setDly v c (dlyPush K.A x b)
  return (mdlBlend K.A m.wet x y, r)

/-- `round(SmCur(DT[0]) * fs)` (R121, R188) as a `u32` (R192). -/
def latency (A : Arith S) (m : Mdl S) (fs : S) : Nat := toU32 (A.round (A.mul (smCur (m.dt.get 0)) fs))

end

/-! ### Commands -/

/-- `MDL.PREPARE v fs` (R111). -/
def execMdlPrepare (v : BitVec 4) (fs : BitVec 64) (s : State) : Host.Outcome State Fault Refusal :=
  run (.mdlPrepare v fs) s do
    require (s.regs.eng.rem == 0) .sequence
    require (s.regs.sys.nch != 0) .channels
    let x := sOperand s fs
    require (s.kit.A.lt s.kit.A.zero x) .paramRange
    let r ← mdlPrepare s.kit v.toNat x s.regs
    return (0, r)

/-- `MDL.RESET v` (R113). -/
def execMdlReset (v : BitVec 4) (s : State) : Host.Outcome State Fault Refusal :=
  run (.mdlReset v) s do
    return (0, mdlReset s.kit.A v.toNat s.regs)

/-- `MDL.SETMAXDELAY v s` (R114). -/
def execMdlSetmaxdelay (v : BitVec 4) (sec : BitVec 64) (s : State) : Host.Outcome State Fault Refusal :=
  run (.mdlSetmaxdelay v sec) s do
    require (s.regs.eng.rem == 0) .sequence
    let x := sOperand s sec
    require (s.kit.A.lt s.kit.A.zero x) .paramRange
    let r ← mdlSetMaxDelay s.kit v.toNat x s.regs
    return (0, r)

/-- `MDL.SETMAXDEPTH v s` (R116). -/
def execMdlSetmaxdepth (v : BitVec 4) (sec : BitVec 64) (s : State) : Host.Outcome State Fault Refusal :=
  run (.mdlSetmaxdepth v sec) s do
    require (s.regs.eng.rem == 0) .sequence
    let x := sOperand s sec
    require (s.kit.A.le s.kit.A.zero x) .paramRange
    let r ← mdlSetMaxDepth s.kit v.toNat x s.regs
    return (0, r)

/-- `MDL.SETDELAY v c t` (R115). -/
def execMdlSetdelay (v c : BitVec 4) (t : BitVec 64) (s : State) : Host.Outcome State Fault Refusal :=
  run (.mdlSetdelay v c t) s do
    let m ← mdlSetDelay s.kit.A c.toNat (sOperand s t) (s.regs.getMdl v.toNat)
    return (0, s.regs.setMdl v.toNat m)

/-- `MDL.SETDEPTH v c d` (R117). -/
def execMdlSetdepth (v c : BitVec 4) (d : BitVec 64) (s : State) : Host.Outcome State Fault Refusal :=
  run (.mdlSetdepth v c d) s do
    let m ← mdlSetDepth s.kit.A c.toNat (sOperand s d) (s.regs.getMdl v.toNat)
    return (0, s.regs.setMdl v.toNat m)

/-- `MDL.SETRATE v hz` (R118): every channel of the voice, `0..NCH_MAX-1`. -/
def execMdlSetrate (v : BitVec 4) (hz : BitVec 64) (s : State) : Host.Outcome State Fault Refusal :=
  run (.mdlSetrate v hz) s do
    let row := (s.regs.osc.get v.toNat).update s.cfg.nChMax fun _ o => oscSetFreq s.kit (sOperand s hz) o
    return (0, { s.regs with osc := s.regs.osc.put v.toNat row })

/-- `MDL.SETWET v w` (R119). -/
def execMdlSetwet (v : BitVec 4) (w : BitVec 64) (s : State) : Host.Outcome State Fault Refusal :=
  run (.mdlSetwet v w) s do
    let x := sOperand s w
    require (inUnit s.kit.A x) .paramRange
    return (0, s.regs.setMdl v.toNat { s.regs.getMdl v.toNat with wet := x })

/-- `MDL.PROCESS v c x` (R120). -/
def execMdlProcess (v c : BitVec 4) (x : BitVec 64) (s : State) : Host.Outcome State Fault Refusal :=
  run (.mdlProcess v c x) s do
    require (s.regs.getMdl v.toNat).prep .notPrepared
    let (y, r) ← mdlProcess s.kit v.toNat c.toNat (sOperand s x) s.regs
    return (y, r)

/-- `MDL.LATENCY v` (R121). -/
def execMdlLatency (v : BitVec 4) (s : State) : Host.Outcome State Fault Refusal :=
  run (.mdlLatency v) s do
    let m := s.regs.getMdl v.toNat
    require m.prep .notPrepared
    return (zextVal (latency s.kit.A m m.fs), s.regs)

end Sys2Proof.Machine
end

