-- ==== Sys2Proof/Machine/VoiceBank.lean ====
section
/-! DEFINITION. The voice bank (spec/45_voice_bank.md R131 to R144). -/

namespace Sys2Proof.Machine

section
variable {S : Type} [Inhabited S]

/-- `VbPrepare(fs)` (R131). -/
def vbPrepare (K : Kit S) (fs : S) (r : Regs S) : Except Cause (Regs S) := do
  let r ← loopE K.P.nVoices (fun v r => mdlPrepare K v fs r) r
  return { r with vb := { r.vb with prep := true } }

/-- `for v in 0..n-1: MdlReset(v)`. -/
def mdlResetUpto (A : Arith S) (n : Nat) (r : Regs S) : Regs S :=
  match n with
  | 0 => r
  | v + 1 => mdlReset A v (mdlResetUpto A v r)

/-- `VbReset()` (R132). -/
def vbReset (K : Kit S) (r : Regs S) : Regs S := mdlResetUpto K.A K.P.nVoices r

/-- `vo[v] = base - (spread * (base - 0.005)) * (toS(v) / toS(NVOICES))` (R139). -/
def voiceOffset (K : Kit S) (base spread : S) (v : Nat) : S :=
  let A := K.A
  A.sub base (A.mul (A.mul spread (A.sub base (A.lit 5 1000))) (A.div (A.ofNat v) (A.ofNat K.P.nVoices)))

/-- `d[v][c]`: `vo[v] - wo[v]` on odd channels with `wo[v] = width * (vo[v] - 0.001)`, `vo[v]` on even ones (R139). -/
def spreadDelay (K : Kit S) (base spread width : S) (v c : Nat) : S :=
  let vo := voiceOffset K base spread v
  if c % 2 = 1 then K.A.sub vo (K.A.mul width (K.A.sub vo (K.A.lit 1 1000))) else vo

/-- All checks of `VbRetarget`: every delay inside its voice's bound (R139). -/
def spreadInRange (K : Kit S) (base spread width : S) (r : Regs S) : Bool :=
  (List.range K.P.nVoices).all fun v =>
    (List.range K.P.nChMax).all fun c => delayInRange K.A (r.getMdl v) (spreadDelay K base spread width v c)

/-- `VbRetarget(base, spread, width)` (R139): all checks before all writes. -/
def vbRetarget (K : Kit S) (base spread width : S) (r : Regs S) : Except Cause (Regs S) := do
  require (spreadInRange K base spread width r) .delayRange
  let r := { r with vb := { r.vb with baseDelay := base, spread := spread, width := width } }
  return r.updateMdls K.P.nVoices fun v m =>
    { m with dt := m.dt.update K.P.nChMax fun c s => smSetTarget K.A s (spreadDelay K base spread width v c) }

/-- `VB.SETDEPTH`'s check of every voice's bound (R135). -/
def depthAllInRange (K : Kit S) (d : S) (r : Regs S) : Bool :=
  (List.range K.P.nVoices).all fun v => depthInRange K.A (r.getMdl v) d

/-- One voice of `VbProcess`: it runs, and is summed when active (R142). -/
def vbVoice [DecidableEq S] (K : Kit S) (c : Nat) (x : S) (active v : Nat) (a : S × Regs S) :
    Except Cause (S × Regs S) := do
  let (y, r) ← mdlProcess K v c x a.2
  return (if v < active then K.A.add a.1 y else a.1, r)

/-- `VbProcess(c, x)` (R142): every voice runs, the active ones are summed from 0 in ascending order, the sum is multiplied
once by `1 / sqrt(ACTIVE)`. -/
def vbProcess [DecidableEq S] (K : Kit S) (c : Nat) (x : S) (r : Regs S) : Except Cause (S × Regs S) := do
  let active := r.vb.active
  let (sum, r) ← loopE K.P.nVoices (vbVoice K c x active) (K.A.zero, r)
  return (K.A.mul sum (K.A.div (K.A.lit 1 1) (K.A.sqrt (K.A.ofNat active))), r)

end

/-! ### Commands -/

/-- `VB.PREPARE fs` (R131). -/
def execVbPrepare (fs : BitVec 64) (s : State) : Host.Outcome State Fault Refusal :=
  run (.vbPrepare fs) s do
    require (s.regs.eng.rem == 0) .sequence
    require (s.regs.sys.nch != 0) .channels
    let x := sOperand s fs
    require (s.kit.A.lt s.kit.A.zero x) .paramRange
    let r ← vbPrepare s.kit x s.regs
    return (0, r)

/-- `VB.RESET` (R132). -/
def execVbReset (s : State) : Host.Outcome State Fault Refusal :=
  run .vbReset s do
    return (0, vbReset s.kit s.regs)

/-- `VB.SETACTIVE n` (R133). -/
def execVbSetactive (n : BitVec 64) (s : State) : Host.Outcome State Fault Refusal :=
  run (.vbSetactive n) s do
    require (decide (1 ≤ uOperand n ∧ uOperand n ≤ s.cfg.nVoices)) .voicesRange
    return (0, { s.regs with vb := { s.regs.vb with active := uOperand n } })

/-- `VB.SETRATE hz` (R134): every oscillator, channels `0..NCH_MAX-1`. -/
def execVbSetrate (hz : BitVec 64) (s : State) : Host.Outcome State Fault Refusal :=
  run (.vbSetrate hz) s do
    let x := sOperand s hz
    let r := { s.regs with vb := { s.regs.vb with rate := x } }
    return (0, r.updateOscs s.cfg.nVoices s.cfg.nChMax (oscSetFreq s.kit x))

/-- `VB.SETDEPTH d` (R135). -/
def execVbSetdepth (d : BitVec 64) (s : State) : Host.Outcome State Fault Refusal :=
  run (.vbSetdepth d) s do
    let x := sOperand s d
    require (depthAllInRange s.kit x s.regs) .paramRange
    let r := { s.regs with vb := { s.regs.vb with depth := x } }
    return (0, r.updateMdls s.cfg.nVoices fun _ m =>
      { m with dp := m.dp.update s.cfg.nChMax fun _ p => smSetTarget s.kit.A p x })

/-- `VB.SETDELAY t` (R136). -/
def execVbSetdelay (t : BitVec 64) (s : State) : Host.Outcome State Fault Refusal :=
  run (.vbSetdelay t) s do
    let r ← vbRetarget s.kit (sOperand s t) s.regs.vb.spread s.regs.vb.width s.regs
    return (0, r)

/-- `VB.SETSPREAD s` (R137). -/
def execVbSetspread (x : BitVec 64) (s : State) : Host.Outcome State Fault Refusal :=
  run (.vbSetspread x) s do
    require (inUnit s.kit.A (sOperand s x)) .paramRange
    let r ← vbRetarget s.kit s.regs.vb.baseDelay (sOperand s x) s.regs.vb.width s.regs
    return (0, r)

/-- `VB.SETWIDTH w` (R138). -/
def execVbSetwidth (w : BitVec 64) (s : State) : Host.Outcome State Fault Refusal :=
  run (.vbSetwidth w) s do
    require (inUnit s.kit.A (sOperand s w)) .paramRange
    let r ← vbRetarget s.kit s.regs.vb.baseDelay s.regs.vb.spread (sOperand s w) s.regs
    return (0, r)

/-- `VB.SETTYPE #k` (R140). -/
def execVbSettype (k : Wave) (s : State) : Host.Outcome State Fault Refusal :=
  run (.vbSettype k) s do
    let r := { s.regs with vb := { s.regs.vb with ltype := k } }
    return (0, r.updateOscs s.cfg.nVoices s.cfg.nChMax fun o => { o with type := k })

/-- `VB.SETPHASE c off` (R141). -/
def execVbSetphase (c : BitVec 4) (off : BitVec 64) (s : State) : Host.Outcome State Fault Refusal :=
  run (.vbSetphase c off) s do
    let x := sOperand s off
    let osc := s.regs.osc.update s.cfg.nVoices fun _ row =>
      row.put c.toNat (oscSetPhase s.kit.A x (row.get c.toNat))
    return (0, { s.regs with osc := osc })

/-- `VB.PROCESS c x` (R142). -/
def execVbProcess (c : BitVec 4) (x : BitVec 64) (s : State) : Host.Outcome State Fault Refusal :=
  run (.vbProcess c x) s do
    require s.regs.vb.prep .notPrepared
    let (y, r) ← vbProcess s.kit c.toNat (sOperand s x) s.regs
    return (y, r)

/-- `VB.SETMAXDELAY s` (R143). -/
def execVbSetmaxdelay (sec : BitVec 64) (s : State) : Host.Outcome State Fault Refusal :=
  run (.vbSetmaxdelay sec) s do
    require (s.regs.eng.rem == 0) .sequence
    let x := sOperand s sec
    require (s.kit.A.lt s.kit.A.zero x) .paramRange
    let r ← loopE s.cfg.nVoices (fun v r => mdlSetMaxDelay s.kit v x r) s.regs
    return (0, r)

/-- `VB.SETMAXDEPTH s` (R144). -/
def execVbSetmaxdepth (sec : BitVec 64) (s : State) : Host.Outcome State Fault Refusal :=
  run (.vbSetmaxdepth sec) s do
    require (s.regs.eng.rem == 0) .sequence
    let x := sOperand s sec
    require (s.kit.A.le s.kit.A.zero x) .paramRange
    let r ← loopE s.cfg.nVoices (fun v r => mdlSetMaxDepth s.kit v x r) s.regs
    return (0, r)

end Sys2Proof.Machine
end

