-- ==== Sys2Proof/Machine/Filters.lean ====
section
/-! DEFINITION. The filter cascade (spec/46_filters.md R151 to R162). -/

namespace Sys2Proof.Machine

section
variable {S : Type} [Inhabited S]

/-- `Biquad(st, k, x)` (R151), transposed direct form II. -/
def biquad (A : Arith S) (st : FState S) (k : Coefs S) (x : S) : S × FState S :=
  let y := A.add (A.mul k.c0 x) st.s1
  (y, { s1 := A.add (A.sub (A.mul k.c1 x) (A.mul k.c3 y)) st.s2, s2 := A.sub (A.mul k.c2 x) (A.mul k.c4 y) })

/-- `ShelfCoef(fs, f0, Q, G)` (R152). -/
def shelfCoef (A : Arith S) (fs f0 q g : S) : Coefs S :=
  let a := A.sqrt g
  let w := A.div (A.mul (A.mul (A.lit 2 1) A.pi) f0) fs
  let cs := A.cos w
  let beta := A.div (A.mul (A.sin w) (A.sqrt a)) q
  let ap := A.add a (A.lit 1 1)
  let am := A.sub a (A.lit 1 1)
  let b0 := A.mul a (A.add (A.sub ap (A.mul am cs)) beta)
  let b1 := A.mul (A.mul (A.lit 2 1) a) (A.sub am (A.mul ap cs))
  let b2 := A.mul a (A.sub (A.sub ap (A.mul am cs)) beta)
  let a0 := A.add (A.add ap (A.mul am cs)) beta
  let a1 := A.mul (A.neg (A.lit 2 1)) (A.add am (A.mul ap cs))
  let a2 := A.sub (A.add ap (A.mul am cs)) beta
  { c0 := A.div b0 a0, c1 := A.div b1 a0, c2 := A.div b2 a0, c3 := A.div a1 a0, c4 := A.div a2 a0 }

/-- The damping `R2 = 1 / SVF_Q`, a constant of the configuration (spec/10_state.md R33). -/
def damping (K : Kit S) : S := K.A.div (K.A.lit 1 1) K.P.svfQ

/-- `Svf(st, g, h, x)` (R154): the high-pass output, the low-pass output, the new state. -/
def svf (A : Arith S) (r2 : S) (st : FState S) (g h x : S) : S × S × FState S :=
  let hp := A.mul h (A.sub (A.sub x (A.mul st.s1 (A.add g r2))) st.s2)
  let bp := A.add (A.mul hp g) st.s1
  let lp := A.add (A.mul bp g) st.s2
  (hp, lp, { s1 := A.add (A.mul hp g) bp, s2 := A.add (A.mul bp g) lp })

/-- `SvfCoef(fc, fs)` (R156). -/
def svfCoef (K : Kit S) (fc fs : S) : Except Cause (S × S) := do
  let A := K.A
  require (A.lt A.zero fc && A.lt fc (A.div fs (A.lit 2 1))) .paramRange
  let g := A.tan (A.div (A.mul A.pi fc) fs)
  let h := A.div (A.lit 1 1) (A.add (A.add (A.lit 1 1) (A.mul (damping K) g)) (A.mul g g))
  return (g, h)

/-- The high-pass filter of channel `c` run on one sample: its output and the filters' new state (R155, R161). -/
def runHp (K : Kit S) (c : Nat) (x : S) (f : Flt S) : S × Flt S :=
  let (hp, _, st) := svf K.A (damping K) (f.hp.get c) f.hpg f.hph x
  (hp, { f with hp := f.hp.put c st })

/-- The low-pass filter of channel `c` run on one sample (R155, R162). -/
def runLp (K : Kit S) (c : Nat) (x : S) (f : Flt S) : S × Flt S :=
  let (_, lp, st) := svf K.A (damping K) (f.lp.get c) f.lpg f.lph x
  (lp, { f with lp := f.lp.put c st })

/-- The boost shelf of channel `c` run on one sample (R159, R184). -/
def runBoost (A : Arith S) (c : Nat) (x : S) (f : Flt S) : S × Flt S :=
  let (y, st) := biquad A (f.boost.get c) f.bcoef x
  (y, { f with boost := f.boost.put c st })

/-- The cut shelf of channel `c` run on one sample (R160, R184). -/
def runCut (A : Arith S) (c : Nat) (x : S) (f : Flt S) : S × Flt S :=
  let (y, st) := biquad A (f.cut.get c) f.ccoef x
  (y, { f with cut := f.cut.put c st })

/-- `SvfPair(c, w)` (R155): high-pass then low-pass; a bypassed filter does not run and keeps its state. -/
def svfPair (K : Kit S) (c : Nat) (hpByp lpByp : Bool) (w : S) (f : Flt S) : S × Flt S :=
  let (w, f) := if hpByp then (w, f) else runHp K c w f
  if lpByp then (w, f) else runLp K c w f

/-- `FltReset()` (R158), channels `0..NCH_MAX-1`. -/
def fltReset (K : Kit S) (f : Flt S) : Flt S :=
  let clear := fun (xs : Bank (FState S)) => xs.update K.P.nChMax fun _ _ => FState.clear K.A
  { f with boost := clear f.boost, cut := clear f.cut, hp := clear f.hp, lp := clear f.lp }

end

/-! ### Commands -/

/-- `FLT.RESET` (R158). -/
def execFltReset (s : State) : Host.Outcome State Fault Refusal :=
  run .fltReset s do
    return (0, { s.regs with flt := fltReset s.kit s.regs.flt })

/-- `FLT.BOOST c x` (R159). -/
def execFltBoost (c : BitVec 4) (x : BitVec 64) (s : State) : Host.Outcome State Fault Refusal :=
  run (.fltBoost c x) s do
    require s.regs.eng.prep .notPrepared
    let (y, f) := runBoost s.kit.A c.toNat (sOperand s x) s.regs.flt
    return (y, { s.regs with flt := f })

/-- `FLT.CUT c x` (R160). -/
def execFltCut (c : BitVec 4) (x : BitVec 64) (s : State) : Host.Outcome State Fault Refusal :=
  run (.fltCut c x) s do
    require s.regs.eng.prep .notPrepared
    let (y, f) := runCut s.kit.A c.toNat (sOperand s x) s.regs.flt
    return (y, { s.regs with flt := f })

/-- `FLT.HP c x` (R161). -/
def execFltHp (c : BitVec 4) (x : BitVec 64) (s : State) : Host.Outcome State Fault Refusal :=
  run (.fltHp c x) s do
    require s.regs.eng.prep .notPrepared
    let (y, f) := runHp s.kit c.toNat (sOperand s x) s.regs.flt
    return (y, { s.regs with flt := f })

/-- `FLT.LP c x` (R162). -/
def execFltLp (c : BitVec 4) (x : BitVec 64) (s : State) : Host.Outcome State Fault Refusal :=
  run (.fltLp c x) s do
    require s.regs.eng.prep .notPrepared
    let (y, f) := runLp s.kit c.toNat (sOperand s x) s.regs.flt
    return (y, { s.regs with flt := f })

end Sys2Proof.Machine
end

