-- ==== Sys2Proof/Machine/Engine.lean ====
section
/-! DEFINITION. The chorus engine (spec/47_chorus_engine.md R171 to R189). -/

namespace Sys2Proof.Machine

section
variable {S : Type} [Inhabited S]

/-- `(HPG, HPH) <- SvfCoef(SmCur(HPFC), fs); (LPG, LPH) <- SvfCoef(SmCur(LPFC), fs)` (R171, R172, R186). -/
def refreshCoefs (K : Kit S) (fs : S) (r : Regs S) : Except Cause (Regs S) := do
  let (hpg, hph) ← svfCoef K (smCur r.eng.hpfc) fs
  let (lpg, lph) ← svfCoef K (smCur r.eng.lpfc) fs
  return { r with flt := { r.flt with hpg := hpg, hph := hph, lpg := lpg, lph := lph } }

/-- The engine's smoothers reset at prepare (R171). -/
def engResetRamps (K : Kit S) (fs : S) (e : Eng S) : Eng S :=
  { e with
    fs := fs
    mix := e.mix.update K.P.nChMax fun _ s => smReset K.A s fs K.P.mixRamp
    hpfc := smReset K.A e.hpfc fs K.P.cutoffRamp
    lpfc := smReset K.A e.lpfc fs K.P.cutoffRamp }

/-- `ENG.PREPARE`'s body after its own checks (R171). -/
def engPrepare (K : Kit S) (fs : S) (r : Regs S) : Except Cause (Regs S) := do
  let r ← vbPrepare K fs r
  let r := { r with
    eng := engResetRamps K fs r.eng
    flt := { r.flt with
      bcoef := shelfCoef K.A fs (K.A.lit 200 1) (K.A.lit 1 1) (K.A.lit 13 10)
      ccoef := shelfCoef K.A fs (K.A.lit 200 1) (K.A.lit 1 1) (K.A.lit 7 10) } }
  let r ← refreshCoefs K fs r
  return { r with flt := fltReset K r.flt, eng := { r.eng with chcnt := 0, prep := true } }

/-- The engine's ramps ended and its frame latches cleared (R172). -/
def engSettle (K : Kit S) (e : Eng S) : Eng S :=
  { e with
    mix := e.mix.update K.P.nChMax fun _ s => smSettle K.A s
    inp := e.inp.update K.P.nChMax fun _ _ => K.A.zero
    out := e.out.update K.P.nChMax fun _ _ => K.A.zero
    hpfc := smSettle K.A e.hpfc
    lpfc := smSettle K.A e.lpfc }

/-- `ENG.RESET`'s body (R172). -/
def engReset (K : Kit S) (r : Regs S) : Except Cause (Regs S) := do
  let r := vbReset K r
  let r := { r with flt := fltReset K r.flt, eng := engSettle K r.eng }
  let r ← if r.eng.prep then refreshCoefs K r.eng.fs r else .ok r
  return { r with eng := { r.eng with rem := 0, chcnt := 0 } }

/-- `RSQRT2 = 1/sqrt(2)`, computed once in `S` (R183). -/
def rsqrt2 (A : Arith S) : S := A.div (A.lit 1 1) (A.sqrt (A.lit 2 1))

/-- `d*(1 - m) + x`, the form every mode shares (R182 to R185). -/
def dryPlus (A : Arith S) (d m x : S) : S := A.add (A.mul d (A.sub (A.lit 1 1) m)) x

/-- `Mix(k, c, d, a, b, m)` (R182 to R185); only DIMENSION runs, and writes, the shelving filters. -/
def mix (A : Arith S) (k : Mode) (c : Nat) (d a b m : S) (f : Flt S) : S × Flt S :=
  match k with
  | .stereo => (dryPlus A d m (A.mul (A.sub a b) m), f)
  | .mono => (dryPlus A d m (A.mul (A.mul (A.add a b) m) (rsqrt2 A)), f)
  | .dimension =>
    let (bd, f) := runBoost A c d f
    let (cb, f) := runCut A c b f
    (dryPlus A bd m (A.mul (A.sub a cb) m), f)
  | .vibrato => (dryPlus A d m (A.mul a m), f)

/-- `Refresh()` (R186). -/
def refresh (K : Kit S) (r : Regs S) : Except Cause (Regs S) := do
  let e := r.eng
  let r := { r with eng := { e with hpfc := smSkip K.A e.hpfc e.chcnt, lpfc := smSkip K.A e.lpfc e.chcnt } }
  let r ← refreshCoefs K r.eng.fs r
  return { r with eng := { r.eng with chcnt := 0 } }

/-- The wet samples of channels `0..n-1`, by channel: `w[c] <- VbProcess(c, ENG.IN[c])` (R180). -/
def wetVoices [DecidableEq S] (K : Kit S) (n : Nat) (r : Regs S) : Except Cause (Bank S × Regs S) :=
  loopE n (fun c a => do
    let (y, r) ← vbProcess K c (a.2.eng.inp.get c) a.2
    return (Bank.put a.1 c y, r)) ([], r)

/-- `w[c] <- SvfPair(c, w[c])` for channels `0..n-1` (R180). -/
def wetFilters (K : Kit S) (n : Nat) (hpByp lpByp : Bool) (a : Bank S × Flt S) : Bank S × Flt S :=
  match n with
  | 0 => a
  | c + 1 =>
    let (w, f) := wetFilters K c hpByp lpByp a
    let (y, f) := svfPair K c hpByp lpByp (w.get c) f
    (w.put c y, f)

/-- One output channel of a frame (R180, R181, R189): `a` is the wet signal of channel `c`, `b` that of
`(c + 1) mod NCH`. -/
def frameChannel (A : Arith S) (nch : Nat) (w : Bank S) (c : Nat) (r : Regs S) : Regs S :=
  let e := r.eng
  let d := e.inp.get c
  let (m, mix') := smNext A (e.mix.get c)
  let (y, f) := mix A e.modeL c d (w.get c) (w.get ((c + 1) % nch)) m r.flt
  { r with
    flt := f
    eng := { e with mix := e.mix.put c mix', out := e.out.put c (if e.bypL then d else y) } }

/-- The output channels `0..n-1` of a frame, ascending (R180). -/
def frameChannels (A : Arith S) (nch : Nat) (w : Bank S) (n : Nat) (r : Regs S) : Regs S :=
  match n with
  | 0 => r
  | c + 1 => frameChannel A nch w c (frameChannels A nch w c r)

/-- `ENG.STEP`'s body after its own checks: one frame (R180). -/
def engFrame [DecidableEq S] (K : Kit S) (r : Regs S) : Except Cause (Regs S) := do
  let nch := r.sys.nch
  let (w, r) ← wetVoices K nch r
  let (w, f) := wetFilters K nch r.eng.hpByp r.eng.lpByp (w, r.flt)
  let r := frameChannels K.A nch w nch { r with flt := f }
  let r := { r with eng := { r.eng with rem := r.eng.rem - 1, chcnt := r.eng.chcnt + 1 } }
  if r.eng.chcnt = K.P.chunk ∨ r.eng.rem = 0 then refresh K r else .ok r

/-- `x < fs / 2`, the bound of a cutoff (R171, R175, R176). -/
def belowNyquist (A : Arith S) (x fs : S) : Bool := A.lt x (A.div fs (A.lit 2 1))

/-- The check of `ENG.SETHPF` and `ENG.SETLPF` (R175, R176). -/
def cutoffOk (A : Arith S) (e : Eng S) (hz : S) : Bool :=
  A.lt A.zero hz && (!e.prep || belowNyquist A hz e.fs)

end

/-! ### Commands -/

/-- `ENG.PREPARE fs` (R171). -/
def execEngPrepare (fs : BitVec 64) (s : State) : Host.Outcome State Fault Refusal :=
  run (.engPrepare fs) s do
    let A := s.kit.A
    require (s.regs.eng.rem == 0) .sequence
    require (s.regs.sys.nch != 0) .channels
    let x := sOperand s fs
    require (A.lt (A.lit 400 1) x) .paramRange
    require (belowNyquist A s.regs.eng.hpfc.tgt x && belowNyquist A s.regs.eng.lpfc.tgt x) .paramRange
    let r ← engPrepare s.kit x s.regs
    return (0, r)

/-- `ENG.RESET` (R172). -/
def execEngReset (s : State) : Host.Outcome State Fault Refusal :=
  run .engReset s do
    let r ← engReset s.kit s.regs
    return (0, r)

/-- `ENG.SETMODE #k` (R173). -/
def execEngSetmode (k : Mode) (s : State) : Host.Outcome State Fault Refusal :=
  run (.engSetmode k) s do
    return (0, { s.regs with eng := { s.regs.eng with mode := k } })

/-- `ENG.SETMIX m` (R174). -/
def execEngSetmix (m : BitVec 64) (s : State) : Host.Outcome State Fault Refusal :=
  run (.engSetmix m) s do
    let x := sOperand s m
    require (inUnit s.kit.A x) .paramRange
    let mix := s.regs.eng.mix.update s.cfg.nChMax fun _ p => smSetTarget s.kit.A p x
    return (0, { s.regs with eng := { s.regs.eng with mix := mix } })

/-- `ENG.SETHPF hz` (R175). -/
def execEngSethpf (hz : BitVec 64) (s : State) : Host.Outcome State Fault Refusal :=
  run (.engSethpf hz) s do
    let x := sOperand s hz
    require (cutoffOk s.kit.A s.regs.eng x) .paramRange
    return (0, { s.regs with eng := { s.regs.eng with hpfc := smSetTarget s.kit.A s.regs.eng.hpfc x } })

/-- `ENG.SETLPF hz` (R176). -/
def execEngSetlpf (hz : BitVec 64) (s : State) : Host.Outcome State Fault Refusal :=
  run (.engSetlpf hz) s do
    let x := sOperand s hz
    require (cutoffOk s.kit.A s.regs.eng x) .paramRange
    return (0, { s.regs with eng := { s.regs.eng with lpfc := smSetTarget s.kit.A s.regs.eng.lpfc x } })

/-- `ENG.SETFBYP #k` (R177). -/
def execEngSetfbyp (hp lp : Bool) (s : State) : Host.Outcome State Fault Refusal :=
  run (.engSetfbyp hp lp) s do
    return (0, { s.regs with eng := { s.regs.eng with hpByp := hp, lpByp := lp } })

/-- `ENG.BEGIN #byp n` (R178). -/
def execEngBegin (byp : Bool) (n : BitVec 64) (s : State) : Host.Outcome State Fault Refusal :=
  run (.engBegin byp n) s do
    let e := s.regs.eng
    require e.prep .notPrepared
    require (e.rem == 0) .sequence
    return (0, { s.regs with eng := { e with modeL := e.mode, bypL := byp, rem := uOperand n, chcnt := 0 } })

/-- `ENG.IN c x` (R179). -/
def execEngIn (c : BitVec 4) (x : BitVec 64) (s : State) : Host.Outcome State Fault Refusal :=
  run (.engIn c x) s do
    return (0, { s.regs with eng := { s.regs.eng with inp := s.regs.eng.inp.put c.toNat (sOperand s x) } })

/-- `ENG.STEP` (R180). -/
def execEngStep (s : State) : Host.Outcome State Fault Refusal :=
  run .engStep s do
    require s.regs.eng.prep .notPrepared
    require (s.regs.eng.rem != 0) .sequence
    let r ← engFrame s.kit s.regs
    return (0, r)

/-- `ENG.OUT c` (R187). -/
def execEngOut (c : BitVec 4) (s : State) : Host.Outcome State Fault Refusal :=
  run (.engOut c) s do
    return (s.regs.eng.out.get c.toNat, s.regs)

/-- `ENG.LATENCY` (R188). -/
def execEngLatency (s : State) : Host.Outcome State Fault Refusal :=
  run .engLatency s do
    require s.regs.eng.prep .notPrepared
    return (zextVal (latency s.kit.A (s.regs.getMdl 0) s.regs.eng.fs), s.regs)

end Sys2Proof.Machine
end

