-- ==== Sys2Proof/Machine/System.lean ====
section
/-! DEFINITION. The system commands (spec/40_system.md R70 to R76). -/

namespace Sys2Proof.Machine

/-- `SYS.NOP` (R70). -/
def execSysNop (s : State) : Host.Outcome State Fault Refusal :=
  run .sysNop s do
    return (0, s.regs)

/-- `SYS.RESET` (R71), accepted in the halted state too (R202). -/
def execSysReset (s : State) : Host.Outcome State Fault Refusal :=
  .next (resetEntry s)

/-- `SYS.RDSTAT` (R72). -/
def execSysRdstat (s : State) : Host.Outcome State Fault Refusal :=
  run .sysRdstat s do
    return ((statusWord s.kit s.regs).setWidth 64, s.regs)

/-- `SYS.RDCAUSE` (R73). -/
def execSysRdcause (s : State) : Host.Outcome State Fault Refusal :=
  run .sysRdcause s do
    return (s.regs.sys.cause.setWidth 64, s.regs)

/-- `SYS.RDINFO` (R74). -/
def execSysRdinfo (s : State) : Host.Outcome State Fault Refusal :=
  run .sysRdinfo s do
    return (s.regs.sys.info.setWidth 64, s.regs)

/-- The writes of `SYS.SETCH n` (R75): a new count clears the prepares; the same count changes nothing. -/
def setChannels (K : Kit Sample) (n : Nat) (r : Regs Sample) : Regs Sample :=
  if n = r.sys.nch then r
  else
    let r := r.updateMdls K.P.nVoices fun _ m => { m with prep := false }
    { r with
      sys := { r.sys with nch := n }
      eng := { r.eng with prep := false }
      vb := { r.vb with prep := false } }

/-- `SYS.SETCH n` (R75). -/
def execSysSetch (n : BitVec 64) (s : State) : Host.Outcome State Fault Refusal :=
  run (.sysSetch n) s do
    require (decide (uOperand n ≠ 0 ∧ uOperand n ≤ s.cfg.nChMax)) .channels
    require (s.regs.eng.rem == 0) .sequence
    return (0, setChannels s.kit (uOperand n) s.regs)

/-- `SYS.SETBLK n` (R76). -/
def execSysSetblk (n : BitVec 64) (s : State) : Host.Outcome State Fault Refusal :=
  run (.sysSetblk n) s do
    return (0, { s.regs with sys := { s.regs.sys with blkHint := BitVec.ofNat 32 (uOperand n) } })

end Sys2Proof.Machine
end

