-- ==== Sys2Proof/Machine/Dispatch.lean ====
section
/-! DEFINITION. One arm per command of spec/30_encoding.md R62, each one call of its meaning. -/

namespace Sys2Proof.Machine

def exec (i : Instr) (s : State) : Host.Outcome State Fault Refusal :=
  match i with
  | .sysNop => Sys2Proof.Machine.execSysNop s
  | .sysReset => Sys2Proof.Machine.execSysReset s
  | .sysRdstat => Sys2Proof.Machine.execSysRdstat s
  | .sysRdcause => Sys2Proof.Machine.execSysRdcause s
  | .sysRdinfo => Sys2Proof.Machine.execSysRdinfo s
  | .sysSetch n => Sys2Proof.Machine.execSysSetch n s
  | .sysSetblk n => Sys2Proof.Machine.execSysSetblk n s
  | .oscPrepare v c fs => Sys2Proof.Machine.execOscPrepare v c fs s
  | .oscReset v c => Sys2Proof.Machine.execOscReset v c s
  | .oscSetfreq v c hz => Sys2Proof.Machine.execOscSetfreq v c hz s
  | .oscSetphase v c off => Sys2Proof.Machine.execOscSetphase v c off s
  | .oscSettype v c k => Sys2Proof.Machine.execOscSettype v c k s
  | .oscProcess v c => Sys2Proof.Machine.execOscProcess v c s
  | .dlyResize v c n => Sys2Proof.Machine.execDlyResize v c n s
  | .dlyReset v c => Sys2Proof.Machine.execDlyReset v c s
  | .dlyGet v c d => Sys2Proof.Machine.execDlyGet v c d s
  | .dlyGetlin v c t => Sys2Proof.Machine.execDlyGetlin v c t s
  | .dlyPush v c x => Sys2Proof.Machine.execDlyPush v c x s
  | .mdlPrepare v fs => Sys2Proof.Machine.execMdlPrepare v fs s
  | .mdlReset v => Sys2Proof.Machine.execMdlReset v s
  | .mdlSetmaxdelay v sec => Sys2Proof.Machine.execMdlSetmaxdelay v sec s
  | .mdlSetmaxdepth v sec => Sys2Proof.Machine.execMdlSetmaxdepth v sec s
  | .mdlSetdelay v c t => Sys2Proof.Machine.execMdlSetdelay v c t s
  | .mdlSetdepth v c d => Sys2Proof.Machine.execMdlSetdepth v c d s
  | .mdlSetrate v hz => Sys2Proof.Machine.execMdlSetrate v hz s
  | .mdlSetwet v w => Sys2Proof.Machine.execMdlSetwet v w s
  | .mdlProcess v c x => Sys2Proof.Machine.execMdlProcess v c x s
  | .mdlLatency v => Sys2Proof.Machine.execMdlLatency v s
  | .vbPrepare fs => Sys2Proof.Machine.execVbPrepare fs s
  | .vbReset => Sys2Proof.Machine.execVbReset s
  | .vbSetactive n => Sys2Proof.Machine.execVbSetactive n s
  | .vbSetrate hz => Sys2Proof.Machine.execVbSetrate hz s
  | .vbSetdepth d => Sys2Proof.Machine.execVbSetdepth d s
  | .vbSetdelay t => Sys2Proof.Machine.execVbSetdelay t s
  | .vbSetspread x => Sys2Proof.Machine.execVbSetspread x s
  | .vbSetwidth w => Sys2Proof.Machine.execVbSetwidth w s
  | .vbSettype k => Sys2Proof.Machine.execVbSettype k s
  | .vbSetphase c off => Sys2Proof.Machine.execVbSetphase c off s
  | .vbProcess c x => Sys2Proof.Machine.execVbProcess c x s
  | .vbSetmaxdelay sec => Sys2Proof.Machine.execVbSetmaxdelay sec s
  | .vbSetmaxdepth sec => Sys2Proof.Machine.execVbSetmaxdepth sec s
  | .engPrepare fs => Sys2Proof.Machine.execEngPrepare fs s
  | .engReset => Sys2Proof.Machine.execEngReset s
  | .engSetmode k => Sys2Proof.Machine.execEngSetmode k s
  | .engSetmix m => Sys2Proof.Machine.execEngSetmix m s
  | .engSethpf hz => Sys2Proof.Machine.execEngSethpf hz s
  | .engSetlpf hz => Sys2Proof.Machine.execEngSetlpf hz s
  | .engSetfbyp hp lp => Sys2Proof.Machine.execEngSetfbyp hp lp s
  | .engBegin byp n => Sys2Proof.Machine.execEngBegin byp n s
  | .engIn c x => Sys2Proof.Machine.execEngIn c x s
  | .engStep => Sys2Proof.Machine.execEngStep s
  | .engOut c => Sys2Proof.Machine.execEngOut c s
  | .engLatency => Sys2Proof.Machine.execEngLatency s
  | .fltReset => Sys2Proof.Machine.execFltReset s
  | .fltBoost c x => Sys2Proof.Machine.execFltBoost c x s
  | .fltCut c x => Sys2Proof.Machine.execFltCut c x s
  | .fltHp c x => Sys2Proof.Machine.execFltHp c x s
  | .fltLp c x => Sys2Proof.Machine.execFltLp c x s

end Sys2Proof.Machine
end

