-- ==== Sys2Proof/Machine/Step.lean ====
section
/-! DEFINITION. One step of the machine (spec/00_scope.md R18): take one command word from the command port, run its rule,
put one response on the response port. -/

namespace Sys2Proof.Machine

/-- One step. With no command word presented the block waits (spec/70_reset_and_hazards.md R220, spec/60_exceptions.md R209:
"Nothing happens between commands"). -/
def step (s : State) : Host.Outcome State Fault Refusal :=
  match takeWord s with
  | none => .next s
  | some (w, s') =>
    match decode s'.prec w with
    | .error _ => .next (illegalWord w s')
    | .ok i => exec i s'

/-- The machine with a row's word as the next command word on its port. -/
def State.withFetchWord (s : State) (nbits w : Nat) : State := placeWord (tableWord nbits w) s

end Sys2Proof.Machine
end

