-- ==== Sys2Proof/Machine/Reference.lean ====
section
/-! DEFINITION. The reference reading `PREC = real` (spec/00_scope.md R5, R11, R13, R15): the same pseudocode functions over
the real numbers, where `+ - * /` are exact and the functions of R15 are the mathematical ones. It has no command encoding
(R5), so no step runs it; statements about signal arithmetic are made with it. -/

namespace Sys2Proof

/-- The arithmetic of `PREC = real`. -/
noncomputable def Arith.real : Arith ℝ where
  zero := 0
  lit := fun num den => (num : ℝ) / (den : ℝ)
  add := fun x y => x + y
  sub := fun x y => x - y
  mul := fun x y => x * y
  div := fun x y => x / y
  neg := fun x => -x
  sqrt := Real.sqrt
  lt := fun x y => decide (x < y)
  le := fun x y => decide (x ≤ y)
  eq := fun x y => decide (x = y)
  ofNat := fun n => (n : ℝ)
  floor := fun x => ⌊x⌋
  round := fun x => if x < 0 then -⌊-x + 1 / 2⌋ else ⌊x + 1 / 2⌋
  ceil := fun x => some ⌈x⌉
  wrap := fun x n => x - (n : ℝ) * (⌊x / (n : ℝ)⌋ : ℝ)
  sin := Real.sin
  asin := Real.arcsin
  cos := Real.cos
  tan := Real.tan
  pi := Real.pi

/-- A block with `PREC = real`. -/
noncomputable def Kit.real (P : Params ℝ) : Kit ℝ := { A := Arith.real, P := P }

end Sys2Proof
end

