-- ==== Sys2Proof/Safety.lean ====
section
/-! DEFINITION. What statements about runs are written with: when a command is admitted (spec/30_encoding.md R58 items 4 to
7, spec/60_exceptions.md R202), what a fault or a refusal leaves, and the invariants of the spec's state rules. -/

namespace Sys2Proof.Machine

/-! ### Admission -/

/-- The voice field is `< NVOICES`. -/
abbrev VoiceOk (s : State) (v : BitVec 4) : Prop := v.toNat < s.cfg.nVoices

/-- The channel field is `< NCH` (which then is not 0). -/
abbrev ChanOk (s : State) (c : BitVec 4) : Prop := c.toNat < s.regs.sys.nch

/-- The sample operand is finite (R17). -/
abbrev FiniteOpd (s : State) (x : BitVec 64) : Prop := Ieee.isFinite s.prec x = true

/-- The integer operand is a `u32` (R58 item 6, R59). -/
abbrev IntOpd (n : BitVec 64) : Prop := n.toNat < 2 ^ 32

/-- The block runs commands (R202). -/
abbrev Running (s : State) : Prop := s.regs.sys.halt = false

/-- No block is open (R36). -/
abbrev Closed (s : State) : Prop := s.regs.eng.rem = 0

/-- A command with a voice and a channel field passes the checks on both. -/
abbrev Admits (s : State) (v c : BitVec 4) : Prop := Running s ∧ VoiceOk s v ∧ ChanOk s c

/-- The number of words `MdlSetMax` allocates for a channel of voice `v` at sample rate `fs`, `ceil(MAXDELAY * FS)`
(spec/44_modulated_delay_line.md R112); 0, which is no legal size, when the product is negative or
(log entry 17) no finite number. -/
def bufferWords {S : Type} (A : Arith S) (maxDelay fs : S) : Nat := ((A.ceil (A.mul maxDelay fs)).getD 0).toNat

/-- The allocation of R112 succeeds. -/
abbrev AllocOk {S : Type} (K : Kit S) (maxDelay fs : S) : Prop :=
  1 ≤ bufferWords K.A maxDelay fs ∧ bufferWords K.A maxDelay fs ≤ K.P.dlyCap

/-- A buffer just allocated with `n` words (R41). -/
def freshBuffer (S : Type) (n : Nat) : Dly S := { size := n, cur := 0, ram := [] }

/-- The delay, in samples, at which voice `v` reads its buffer of channel `c` in its next sample, from the state before it
(spec/44_modulated_delay_line.md R120). -/
def readDelay {S : Type} [Inhabited S] (K : Kit S) (r : Regs S) (v c : Nat) : S :=
  let m := r.getMdl v
  let o := (oscProcess K (r.getOsc v c)).1
  let lfo := K.A.mul (K.A.add o (K.A.lit 1 1)) (K.A.lit 1 2)
  K.A.mul (K.A.add (smNext K.A (m.dt.get c)).1 (K.A.mul lfo (smNext K.A (m.dp.get c)).1)) m.fs

/-- That delay lies inside the buffer, `0 <= t < SIZE` (R104). -/
abbrev ReadOk {S : Type} [Inhabited S] (K : Kit S) (r : Regs S) (v c : Nat) : Prop :=
  K.A.le K.A.zero (readDelay K r v c) = true ∧ K.A.lt (readDelay K r v c) (K.A.ofNat (r.getDly v c).size) = true

/-- The interpolated word at `t` samples of delay, `lerp(M[i], M[j], f)` (R104). -/
def tapAt {S : Type} (A : Arith S) (b : Dly S) (t : S) : S :=
  let p := A.wrap (A.add (A.add (A.ofNat b.cur) t) (A.lit 1 1)) b.size
  let i := A.floorNat p
  let x := b.ram.read A.zero i
  A.add x (A.mul (A.sub p (A.ofNat i)) (A.sub (b.ram.read A.zero ((i + 1) % b.size)) x))

/-- What voice `v` answers for the input `x` of channel `c`, from the state before (R120). -/
def voiceOut {S : Type} [Inhabited S] (K : Kit S) (r : Regs S) (v c : Nat) (x : S) : S :=
  let w := (r.getMdl v).wet
  K.A.add (K.A.mul x (K.A.sub (K.A.lit 1 1) w)) (K.A.mul (tapAt K.A (r.getDly v c) (readDelay K r v c)) w)

/-- What the voice bank answers for the input `x` of channel `c`, from the state before (spec/45_voice_bank.md R142, R145):
the active voices' outputs summed from 0 in ascending order, times `1 / sqrt(ACTIVE)`. -/
def bankOut {S : Type} [Inhabited S] (K : Kit S) (r : Regs S) (c : Nat) (x : S) : S :=
  K.A.mul
    ((List.range K.P.nVoices).foldl
      (fun sum v => if v < r.vb.active then K.A.add sum (voiceOut K r v c x) else sum) K.A.zero)
    (K.A.div (K.A.lit 1 1) (K.A.sqrt (K.A.ofNat r.vb.active)))

/-- The state in which one sample `x` of channel `c` leaves voice `v`'s oscillator, smoothers and buffer (R120). -/
structure VoiceStepped {S : Type} [Inhabited S] (K : Kit S) (r r' : Regs S) (v c : Nat) (x : S) : Prop where
  osc : r'.getOsc v c = (oscProcess K (r.getOsc v c)).2
  dt : (r'.getMdl v).dt.get c = (smNext K.A ((r.getMdl v).dt.get c)).2
  dp : (r'.getMdl v).dp.get c = (smNext K.A ((r.getMdl v).dp.get c)).2
  size : (r'.getDly v c).size = (r.getDly v c).size
  cur : (r'.getDly v c).cur = if (r.getDly v c).cur = 0 then (r.getDly v c).size - 1 else (r.getDly v c).cur - 1
  pushed : r'.dram K.A v c (r.getDly v c).cur = x
  kept : ∀ k, k ≠ (r.getDly v c).cur → r'.dram K.A v c k = r.dram K.A v c k

/-- A cutoff is below half the sample rate and above 0 (spec/46_filters.md R156). -/
abbrev CutoffOk {S : Type} (A : Arith S) (fc fs : S) : Prop :=
  A.lt A.zero fc = true ∧ A.lt fc (A.div fs (A.lit 2 1)) = true

/-- The damping `1 / SVF_Q` of a state-variable filter and its coefficients at a cutoff (R33, R156). -/
def svfGains {S : Type} (K : Kit S) (fc fs : S) : S × S :=
  let g := K.A.tan (K.A.div (K.A.mul K.A.pi fc) fs)
  let r2 := K.A.div (K.A.lit 1 1) K.P.svfQ
  (g, K.A.div (K.A.lit 1 1) (K.A.add (K.A.add (K.A.lit 1 1) (K.A.mul r2 g)) (K.A.mul g g)))

/-- The high-pass output of `Svf` (R154). -/
def svfHigh {S : Type} (K : Kit S) (st : FState S) (g h x : S) : S :=
  K.A.mul h (K.A.sub (K.A.sub x (K.A.mul st.s1 (K.A.add g (K.A.div (K.A.lit 1 1) K.P.svfQ)))) st.s2)

/-- The low-pass output of `Svf` (R154). -/
def svfLow {S : Type} (K : Kit S) (st : FState S) (g h x : S) : S :=
  K.A.add (K.A.mul (K.A.add (K.A.mul (svfHigh K st g h x) g) st.s1) g) st.s2

/-- The state `Svf` leaves (R154). -/
def svfNext {S : Type} (K : Kit S) (st : FState S) (g h x : S) : FState S :=
  let hp := svfHigh K st g h x
  let bp := K.A.add (K.A.mul hp g) st.s1
  { s1 := K.A.add (K.A.mul hp g) bp, s2 := K.A.add (K.A.mul bp g) (svfLow K st g h x) }

/-- The output of `Biquad` (R151). -/
def biquadOut {S : Type} (A : Arith S) (st : FState S) (k : Coefs S) (x : S) : S := A.add (A.mul k.c0 x) st.s1

/-- The state `Biquad` leaves (R151). -/
def biquadNext {S : Type} (A : Arith S) (st : FState S) (k : Coefs S) (x : S) : FState S :=
  { s1 := A.add (A.sub (A.mul k.c1 x) (A.mul k.c3 (biquadOut A st k x))) st.s2
    s2 := A.sub (A.mul k.c2 x) (A.mul k.c4 (biquadOut A st k x)) }

/-- What the high-pass filter hands on for the wet sample of channel `c` of a frame (R155, R180). -/
def wetHigh {S : Type} [Inhabited S] (K : Kit S) (r : Regs S) (c : Nat) : S :=
  let w := bankOut K r c (r.eng.inp.get c)
  if r.eng.hpByp then w else svfHigh K (r.flt.hp.get c) r.flt.hpg r.flt.hph w

/-- The filtered wet sample `w[c]` of a frame, from the state before it (R155, R180, R181). -/
def wetOut {S : Type} [Inhabited S] (K : Kit S) (r : Regs S) (c : Nat) : S :=
  if r.eng.lpByp then wetHigh K r c else svfLow K (r.flt.lp.get c) r.flt.lpg r.flt.lph (wetHigh K r c)

/-- `Mix` of channel `c` by the latched mode, from the state before the frame (R182 to R185). -/
def mixOut {S : Type} [Inhabited S] (K : Kit S) (r : Regs S) (c : Nat) : S :=
  let A := K.A
  let d := r.eng.inp.get c
  let a := wetOut K r c
  let b := wetOut K r ((c + 1) % r.sys.nch)
  let m := (smNext A (r.eng.mix.get c)).1
  let dry := fun x => A.mul x (A.sub (A.lit 1 1) m)
  match r.eng.modeL with
  | .stereo => A.add (dry d) (A.mul (A.sub a b) m)
  | .mono => A.add (dry d) (A.mul (A.mul (A.add a b) m) (A.div (A.lit 1 1) (A.sqrt (A.lit 2 1))))
  | .dimension =>
    A.add (dry (biquadOut A (r.flt.boost.get c) r.flt.bcoef d))
      (A.mul (A.sub a (biquadOut A (r.flt.cut.get c) r.flt.ccoef b)) m)
  | .vibrato => A.add (dry d) (A.mul a m)

/-- The next frame ends a sub-block or the block, so the cutoffs are refreshed (R180, R186). -/
abbrev RefreshDue (s : State) : Prop := s.regs.eng.chcnt + 1 = s.cfg.chunk ∨ s.regs.eng.rem = 1

/-! ### Which units a command writes (spec/10_state.md, the "written by" columns; spec/43_delay_buffer.md R108) -/

/-- The commands that write an oscillator register (R26), a reset apart. -/
def writesOsc : Instr → Bool
  | .oscPrepare _ _ _ | .oscReset _ _ | .oscSetfreq _ _ _ | .oscSetphase _ _ _ | .oscSettype _ _ _ | .oscProcess _ _
  | .mdlPrepare _ _ | .mdlReset _ | .mdlSetrate _ _ | .mdlProcess _ _ _
  | .vbPrepare _ | .vbReset | .vbSetrate _ | .vbSettype _ | .vbSetphase _ _ | .vbProcess _ _
  | .engPrepare _ | .engReset | .engStep | .sysReset => true
  | _ => false

/-- The commands that write a delay buffer or its memory (R27, R42, R108). -/
def writesDly : Instr → Bool
  | .dlyResize _ _ _ | .dlyReset _ _ | .dlyPush _ _ _
  | .mdlPrepare _ _ | .mdlReset _ | .mdlSetmaxdelay _ _ | .mdlSetmaxdepth _ _ | .mdlProcess _ _ _
  | .vbPrepare _ | .vbReset | .vbProcess _ _ | .vbSetmaxdelay _ | .vbSetmaxdepth _
  | .engPrepare _ | .engReset | .engStep | .sysReset => true
  | _ => false

/-- The commands that write a modulated delay line register (R28). -/
def writesMdl : Instr → Bool
  | .mdlPrepare _ _ | .mdlReset _ | .mdlSetmaxdelay _ _ | .mdlSetmaxdepth _ _ | .mdlSetdelay _ _ _ | .mdlSetdepth _ _ _
  | .mdlSetwet _ _ | .mdlProcess _ _ _
  | .vbPrepare _ | .vbReset | .vbSetdepth _ | .vbSetdelay _ | .vbSetspread _ | .vbSetwidth _ | .vbProcess _ _
  | .vbSetmaxdelay _ | .vbSetmaxdepth _
  | .engPrepare _ | .engReset | .engStep | .sysReset | .sysSetch _ => true
  | _ => false

/-- The commands that write a voice bank register (R29). -/
def writesVb : Instr → Bool
  | .vbPrepare _ | .vbSetactive _ | .vbSetrate _ | .vbSetdepth _ | .vbSetdelay _ | .vbSetspread _ | .vbSetwidth _
  | .vbSettype _ | .engPrepare _ | .sysReset | .sysSetch _ => true
  | _ => false

/-- The commands that write a filter register (R30 to R33). -/
def writesFlt : Instr → Bool
  | .fltReset | .fltBoost _ _ | .fltCut _ _ | .fltHp _ _ | .fltLp _ _ | .engPrepare _ | .engReset | .engStep
  | .sysReset => true
  | _ => false

/-- The commands that write an engine register (R34 to R36). -/
def writesEng : Instr → Bool
  | .engPrepare _ | .engReset | .engSetmode _ | .engSetmix _ | .engSethpf _ | .engSetlpf _ | .engSetfbyp _ _
  | .engBegin _ _ | .engIn _ _ | .engStep | .sysReset | .sysSetch _ => true
  | _ => false

/-- The commands that write `NCH` or `BLKHINT` (R23). -/
def writesSys : Instr → Bool
  | .sysSetch _ | .sysSetblk _ | .sysReset => true
  | _ => false

/-! ### Outcomes -/

/-- The step gives this next state. -/
def Steps (i : Instr) (s t : State) : Prop := exec i s = .next t

/-- The command faults with this cause: fault entry and nothing else (R203). -/
def Faults (i : Instr) (s : State) (e : Cause) : Prop := exec i s = .next (faultEntry e (encode i).hdr s)

/-- The command is done with this result, and the next state differs from `s` in its registers and its response only. -/
def Completes (i : Instr) (s : State) (r : Regs Sample) (val : BitVec 64) : Prop := exec i s = .next (complete s r val)

/-! ### Invariants of the spec's state rules -/

/-- A ramp in progress is on its way: `CNT` more steps of `STEP` reach the target (R81, R86). -/
def OnRamp (p : Smoother ℝ) : Prop := p.cur + (p.cnt : ℝ) * p.step = p.tgt

/-- R25: `CNT = 0` implies `CUR = TGT`; `CNT <= N`; `N` is a `u32`. -/
def SmootherOk {S : Type} (p : Smoother S) : Prop := (p.cnt = 0 → p.cur = p.tgt) ∧ p.cnt ≤ p.n ∧ p.n < 2 ^ 32

/-- Every smoother of the block keeps R25. -/
def SmoothersOk (s : State) : Prop :=
  (∀ v c, SmootherOk (s.regs.getOsc v c).ph) ∧ (∀ v c, SmootherOk ((s.regs.getMdl v).dt.get c)) ∧
    (∀ v c, SmootherOk ((s.regs.getMdl v).dp.get c)) ∧ (∀ c, SmootherOk (s.regs.eng.mix.get c)) ∧
    SmootherOk s.regs.eng.hpfc ∧ SmootherOk s.regs.eng.lpfc

/-- R26: `0 <= POS < TABLE_SIZE`. -/
def PositionsOk (s : State) : Prop :=
  2 ≤ s.cfg.tableSize ∧ ∀ v c, Ieee.inRange s.prec s.cfg.tableSize (s.regs.getOsc v c).pos = true

/-- R27 and R40: `SIZE <= DLY_CAP`; `CUR < SIZE` when `SIZE > 0`, else `CUR = 0`; the memory is canonical and lists
addressable words only. -/
def BufferOk (cap : Nat) (b : Dly Sample) : Prop :=
  b.size ≤ cap ∧ (0 < b.size → b.cur < b.size) ∧ (b.size = 0 → b.cur = 0) ∧ b.ram.wf 0 = true ∧
    ∀ cell ∈ b.ram, cell.1 < b.size

/-- Every delay buffer keeps R27 and R40. -/
def BuffersOk (s : State) : Prop := ∀ v c, BufferOk s.cfg.dlyCap (s.regs.getDly v c)

/-- R23, R29, R36, R191, R205: `NCH <= NCH_MAX`; `1 <= ACTIVE <= NVOICES`; `CHCNT < CHUNK`; a block is open only on a
prepared engine; a prepared unit has its channel count, and its parts are prepared; `REM` is a `u32`; `CAUSE` is 0 exactly
when the block is not halted and never above 10. -/
def ControlOk (s : State) : Prop :=
  1 ≤ s.cfg.chunk ∧ s.regs.sys.nch ≤ s.cfg.nChMax ∧ (1 ≤ s.regs.vb.active ∧ s.regs.vb.active ≤ s.cfg.nVoices) ∧
    s.regs.eng.chcnt < s.cfg.chunk ∧ s.regs.eng.rem < 2 ^ 32 ∧ (0 < s.regs.eng.rem → s.regs.eng.prep = true) ∧
    (s.regs.eng.prep = true → s.regs.vb.prep = true) ∧
    (s.regs.vb.prep = true → s.regs.sys.nch ≠ 0 ∧ ∀ v < s.cfg.nVoices, (s.regs.getMdl v).prep = true) ∧
    (∀ v < s.cfg.nVoices, (s.regs.getMdl v).prep = true →
      s.regs.sys.nch ≠ 0 ∧ ∀ c < s.regs.sys.nch, (s.regs.getOsc v c).prep = true ∧ 0 < (s.regs.getDly v c).size) ∧
    (s.regs.sys.halt = false ↔ s.regs.sys.cause = 0) ∧ s.regs.sys.cause.toNat ≤ 10

end Sys2Proof.Machine
end

