-- ==== Sys2Proof/Certificates/Slice0/Obligations.lean ====
section
/-! DEFINITION. The statements for the provers, in the order of OBLIGATIONS.json. A statement about a command equates
`exec` with a next state, so that it says what the command writes and that it writes nothing else; `Completes i s r val`
says that the registers become `r`, the response is `val` without a fault, and nothing else changes. -/

section
open Sys2Proof Sys2Proof.Machine

/-! ### Encoding (spec/30_encoding.md) -/

/-- Decoding the word of a well-formed command gives the command back, every operand at every value (R55, R56, R59, R62). -/
def Obligations.DecodeOfEncode : Prop :=
  ∀ (p : Prec) (i : Instr), i.wf p = true → decode p (encode i) = .ok i

/-- A word that decodes is the word of its command, its operand cut to the `W` operand bits: no bit of a legal word is
dropped, and two different words never decode alike (R56, R58 items 1 to 3, R63). -/
def Obligations.EncodeOfDecode : Prop :=
  ∀ (p : Prec) (w : CmdWord) (i : Instr), decode p w = .ok i →
    i.wf p = true ∧ encode i = { hdr := w.hdr, opd := BitVec.ofNat 64 (w.opd.toNat % 2 ^ p.width) }

/-- A word is refused for its opcode exactly when its opcode is one of the undefined ones of R64. -/
def Obligations.UndefinedOpcodes : Prop :=
  ∀ (p : Prec) (w : CmdWord),
    let op := (w.hdr.extractLsb' 24 8).toNat
    decode p w = .error .undefinedOpcode ↔
      (0x07 ≤ op ∧ op ≤ 0x0F) ∨ (0x16 ≤ op ∧ op ≤ 0x1F) ∨ (0x25 ≤ op ∧ op ≤ 0x2F) ∨ (0x3A ≤ op ∧ op ≤ 0x3F) ∨
        (0x4D ≤ op ∧ op ≤ 0x4F) ∨ (0x5C ≤ op ∧ op ≤ 0x5F) ∨ 0x65 ≤ op

/-- A command word in a byte stream stands least significant byte first and is read back from there (R47, R55, R65). -/
def Obligations.ByteStream : Prop :=
  ∀ (p : Prec) (w : CmdWord) (rest : List Byte), w.opd.toNat < 2 ^ p.width →
    (w.toBytes p).length = p.wordBytes ∧
      (∀ k < p.wordBytes, (w.toBytes p)[k]? = some (BitVec.ofNat 8 (w.toBits p / 256 ^ k))) ∧
      CmdWord.ofBytes p (w.toBytes p ++ rest) = some (w, rest)

/-- A few words of the spec, written out bit by bit, decode to the commands they stand for (R66, R95, R111, R173, R178). -/
def Obligations.WordsOfTheSpec : Prop :=
  decode .binary32 ⟨0x12010000, 0x3F000000⟩ = .ok (.oscSetfreq 0 1 0x3F000000) ∧
    decode .binary32 ⟨0x14000001, 0⟩ = .ok (.oscSettype 0 0 .sine) ∧
    decode .binary32 ⟨0x30000000, 0x473B8000⟩ = .ok (.mdlPrepare 0 0x473B8000) ∧
    decode .binary32 ⟨0x52000002, 0⟩ = .ok (.engSetmode .dimension) ∧
    decode .binary32 ⟨0x57000000, 0x80⟩ = .ok (.engBegin false 128) ∧
    decode .binary32 ⟨0x58010000, 0xBF800000⟩ = .ok (.engIn 1 0xBF800000) ∧
    decode .binary32 ⟨0x24000000, 0x3F800000⟩ = .ok (.dlyPush 0 0 0x3F800000) ∧
    decode .binary32 ⟨0x05000000, 2⟩ = .ok (.sysSetch 2)

/-! ### The step (spec/00_scope.md R18, spec/60_exceptions.md) -/

/-- A step takes the next word off the command port and runs the command the word decodes to (R18). That the words not yet
taken stand in the state is the model's choice (log entry 3). -/
def Obligations.StepRunsTheCommand : Prop :=
  ∀ (s : State) (w : CmdWord) (rest : List CmdWord) (i : Instr),
    s.port = w :: rest → decode s.prec w = .ok i → step s = exec i { s with port := rest }

/-- With no word on the port the block waits; an illegal word is the fault `ILLEGAL_COMMAND` with the word's header in
`INFO`, and is refused when the block is halted (R64, R202, R203, R220). That a step with an empty port answers the same state
is the model's form of R209's "Nothing happens between commands" (log entry 3). -/
def Obligations.StepWithoutACommand : Prop :=
  ∀ (s : State),
    (s.port = [] → step s = .next s) ∧
    (∀ (w : CmdWord) (rest : List CmdWord) (e : Reject), s.port = w :: rest → decode s.prec w = .error e →
      (Running s → step s = .next
        { s with
          regs := { s.regs with sys := { s.regs.sys with halt := true, cause := 1, info := w.hdr } }
          port := rest
          resp := { fault := true, val := 1 } }) ∧
      (s.regs.sys.halt = true → step s = .next
        { s with port := rest, resp := { fault := true, val := s.regs.sys.cause.setWidth 64 } }))

/-- Every step gives a next state: it takes one word, and writes neither the build parameters nor `PREC` (R18, R19, R64). The
port and the build parameters are fields of the state by the model's choice (log entries 1 and 3), and a fault of the spec is
a next state (log entry 24). -/
def Obligations.StepIsTotal : Prop :=
  ∀ s : State, ∃ t, step s = .next t ∧ t.prec = s.prec ∧ t.cfg = s.cfg ∧ t.port = s.port.tail

/-- A command that runs completes without a fault, or faults precisely: it writes `HALT`, `CAUSE`, `INFO` and the response,
and no other register or memory word (R203, R9). -/
def Obligations.FaultsArePrecise : Prop :=
  ∀ (i : Instr) (s t : State), Running s → exec i s = .next t →
    (t.resp.fault = false ∧ Running t ∧ (i ≠ .sysReset → t.regs.sys.cause = s.regs.sys.cause ∧ t.regs.sys.info = s.regs.sys.info)) ∨
    (∃ e : Cause, t =
      { s with
        regs := { s.regs with sys := { s.regs.sys with halt := true, cause := e.code, info := (encode i).hdr } }
        resp := { fault := true, val := e.code.setWidth 64 } })

/-- In the halted state the four commands of R202 run, every other word is refused and changes nothing, and only
`SYS.RESET` leaves the halted state (R202, R207). -/
def Obligations.Halted : Prop :=
  ∀ (s : State) (w : CmdWord) (rest : List CmdWord), s.regs.sys.halt = true → s.port = w :: rest →
    let s' := { s with port := rest }
    (decode s.prec w = .ok .sysReset → step s = .next (resetEntry s')) ∧
    (decode s.prec w = .ok .sysRdstat →
      step s = .next { s' with resp := { fault := false, val := (statusWord s.kit s.regs).setWidth 64 } }) ∧
    (decode s.prec w = .ok .sysRdcause →
      step s = .next { s' with resp := { fault := false, val := s.regs.sys.cause.setWidth 64 } }) ∧
    (decode s.prec w = .ok .sysRdinfo →
      step s = .next { s' with resp := { fault := false, val := s.regs.sys.info.setWidth 64 } }) ∧
    ((∀ i, decode s.prec w = .ok i → runsHalted i = false) →
      step s = .next { s' with resp := { fault := true, val := s.regs.sys.cause.setWidth 64 } }) ∧
    (∀ t, step s = .next t → Running t → decode s.prec w = .ok .sysReset)

/-- The decode checks of R58 items 4 to 7 for every command, in their order: the first that fails names the cause (R204). -/
def Obligations.CheckOrder : Prop :=
  ∀ (i : Instr) (s : State), Running s →
    let m := i.row.1
    let voiceOk := m.useV = true → i.row.2.v.toNat < s.cfg.nVoices
    let chanOk := m.useC = true → i.row.2.c.toNat < s.regs.sys.nch
    (m.useV = true → s.cfg.nVoices ≤ i.row.2.v.toNat → Faults i s .illegalCommand) ∧
    (m.useC = true → voiceOk → s.regs.sys.nch = 0 → Faults i s .channels) ∧
    (m.useC = true → voiceOk → s.regs.sys.nch ≠ 0 → s.regs.sys.nch ≤ i.row.2.c.toNat → Faults i s .illegalCommand) ∧
    (m.kind = .u → voiceOk → chanOk → 2 ^ 32 ≤ i.row.2.opd.toNat % 2 ^ s.prec.width → Faults i s .illegalCommand) ∧
    (m.kind = .s → voiceOk → chanOk → Ieee.isFinite s.prec i.row.2.opd = false → Faults i s .nonfinite)

/-! ### The causes of R205 -/

/-- `SEQUENCE`: the twelve commands that are out of their place in the block protocol (R205 code 9, R225). -/
def Obligations.SequenceFaults : Prop :=
  ∀ (s : State) (v c : BitVec 4) (x n : BitVec 64) (byp : Bool), Running s → FiniteOpd s x → IntOpd n →
    (0 < s.regs.eng.rem →
      (1 ≤ n.toNat → n.toNat ≤ s.cfg.nChMax → Faults (.sysSetch n) s .sequence) ∧
      (VoiceOk s v → ChanOk s c → Faults (.oscPrepare v c x) s .sequence ∧ Faults (.dlyResize v c n) s .sequence) ∧
      (VoiceOk s v → Faults (.mdlPrepare v x) s .sequence ∧ Faults (.mdlSetmaxdelay v x) s .sequence ∧
        Faults (.mdlSetmaxdepth v x) s .sequence) ∧
      (Faults (.vbPrepare x) s .sequence ∧ Faults (.vbSetmaxdelay x) s .sequence ∧
        Faults (.vbSetmaxdepth x) s .sequence ∧ Faults (.engPrepare x) s .sequence) ∧
      (s.regs.eng.prep = true → Faults (.engBegin byp n) s .sequence)) ∧
    (Closed s → s.regs.eng.prep = true → Faults .engStep s .sequence)

/-- `NOT_PREPARED`: a processing or reading command on a unit that was never prepared or allocated (R205 code 2). -/
def Obligations.NotPreparedFaults : Prop :=
  ∀ (s : State) (v c : BitVec 4) (x n : BitVec 64) (byp : Bool), Running s → FiniteOpd s x → IntOpd n →
    (VoiceOk s v → ChanOk s c →
      ((s.regs.getOsc v.toNat c.toNat).prep = false → Faults (.oscProcess v c) s .notPrepared) ∧
      ((s.regs.getDly v.toNat c.toNat).size = 0 →
        Faults (.dlyGet v c n) s .notPrepared ∧ Faults (.dlyGetlin v c x) s .notPrepared ∧
          Faults (.dlyPush v c x) s .notPrepared) ∧
      ((s.regs.getMdl v.toNat).prep = false → Faults (.mdlProcess v c x) s .notPrepared)) ∧
    (VoiceOk s v → (s.regs.getMdl v.toNat).prep = false → Faults (.mdlLatency v) s .notPrepared) ∧
    (ChanOk s c → s.regs.vb.prep = false → Faults (.vbProcess c x) s .notPrepared) ∧
    (s.regs.eng.prep = false →
      (ChanOk s c → Faults (.fltBoost c x) s .notPrepared ∧ Faults (.fltCut c x) s .notPrepared ∧
        Faults (.fltHp c x) s .notPrepared ∧ Faults (.fltLp c x) s .notPrepared) ∧
      Faults (.engBegin byp n) s .notPrepared ∧ Faults .engStep s .notPrepared ∧ Faults .engLatency s .notPrepared)

/-- `CHANNELS` and `VOICES_RANGE`: a count outside its range is offered, or a prepare finds no channel count (R205 codes 3
and 6, R75, R133). -/
def Obligations.CountFaults : Prop :=
  ∀ (s : State) (v : BitVec 4) (x n : BitVec 64), Running s → FiniteOpd s x → IntOpd n →
    (n.toNat = 0 ∨ s.cfg.nChMax < n.toNat → Faults (.sysSetch n) s .channels) ∧
    (s.regs.sys.nch = 0 → Closed s → (VoiceOk s v → Faults (.mdlPrepare v x) s .channels) ∧
      Faults (.vbPrepare x) s .channels ∧ Faults (.engPrepare x) s .channels) ∧
    (n.toNat = 0 ∨ s.cfg.nVoices < n.toNat → Faults (.vbSetactive n) s .voicesRange)

/-- `PARAM_RANGE`: a rate, bound, depth, level, mix or cutoff outside its range (R205 code 8). -/
def Obligations.ParameterFaults : Prop :=
  ∀ (s : State) (v c : BitVec 4) (x : BitVec 64), Running s → FiniteOpd s x →
    let A := s.kit.A
    let y := sOperand s x
    let positive := A.lt A.zero y = true
    let inUnit := A.le A.zero y = true ∧ A.le y (A.lit 1 1) = true
    (Closed s → ¬positive →
      (VoiceOk s v → ChanOk s c → Faults (.oscPrepare v c x) s .paramRange) ∧
      (VoiceOk s v → Faults (.mdlSetmaxdelay v x) s .paramRange) ∧ Faults (.vbSetmaxdelay x) s .paramRange ∧
      (s.regs.sys.nch ≠ 0 → (VoiceOk s v → Faults (.mdlPrepare v x) s .paramRange) ∧ Faults (.vbPrepare x) s .paramRange)) ∧
    (Closed s → A.le A.zero y = false →
      (VoiceOk s v → Faults (.mdlSetmaxdepth v x) s .paramRange) ∧ Faults (.vbSetmaxdepth x) s .paramRange) ∧
    (VoiceOk s v → ChanOk s c →
      ¬(A.le A.zero y = true ∧ A.le y (s.regs.getMdl v.toNat).maxDepth = true) → Faults (.mdlSetdepth v c x) s .paramRange) ∧
    ((∃ u < s.cfg.nVoices, ¬(A.le A.zero y = true ∧ A.le y (s.regs.getMdl u).maxDepth = true)) →
      Faults (.vbSetdepth x) s .paramRange) ∧
    (¬inUnit → (VoiceOk s v → Faults (.mdlSetwet v x) s .paramRange) ∧ Faults (.vbSetspread x) s .paramRange ∧
      Faults (.vbSetwidth x) s .paramRange ∧ Faults (.engSetmix x) s .paramRange) ∧
    (¬positive ∨ (s.regs.eng.prep = true ∧ A.lt y (A.div s.regs.eng.fs (A.lit 2 1)) = false) →
      Faults (.engSethpf x) s .paramRange ∧ Faults (.engSetlpf x) s .paramRange) ∧
    (Closed s → s.regs.sys.nch ≠ 0 →
      ¬(A.lt (A.lit 400 1) y = true ∧ A.lt s.regs.eng.hpfc.tgt (A.div y (A.lit 2 1)) = true ∧
        A.lt s.regs.eng.lpfc.tgt (A.div y (A.lit 2 1)) = true) →
      Faults (.engPrepare x) s .paramRange)

/-- `DELAY_RANGE`: a delay target outside `(0, MAXDELAY - MAXDEPTH)`, directly or through the spreading of a bank parameter,
where every voice and every channel `0..NCH_MAX-1` is checked (R205 code 4, R115, R139). -/
def Obligations.DelayTargetFaults : Prop :=
  ∀ (s : State) (v c : BitVec 4) (x : BitVec 64), Running s → FiniteOpd s x →
    let A := s.kit.A
    let y := sOperand s x
    let bound := fun (u : Nat) (d : Sample) =>
      A.lt A.zero d = true ∧ A.lt d (A.sub (s.regs.getMdl u).maxDelay (s.regs.getMdl u).maxDepth) = true
    let bad := fun base spread width =>
      ∃ u < s.cfg.nVoices, ∃ k < s.cfg.nChMax, ¬bound u (spreadDelay s.kit base spread width u k)
    (VoiceOk s v → ChanOk s c → ¬bound v.toNat y → Faults (.mdlSetdelay v c x) s .delayRange) ∧
    (bad y s.regs.vb.spread s.regs.vb.width → Faults (.vbSetdelay x) s .delayRange) ∧
    (A.le A.zero y = true → A.le y (A.lit 1 1) = true →
      (bad s.regs.vb.baseDelay y s.regs.vb.width → Faults (.vbSetspread x) s .delayRange) ∧
      (bad s.regs.vb.baseDelay s.regs.vb.spread y → Faults (.vbSetwidth x) s .delayRange))

/-- `BUFFER_RANGE`: a read delay outside `[0, SIZE)`, directly or in any voice that a processing command runs (R205 code 5,
R103, R104, R120, R142, R180). -/
def Obligations.BufferRangeFaults : Prop :=
  ∀ (s : State) (v c : BitVec 4) (x n : BitVec 64), Running s → FiniteOpd s x → IntOpd n →
    let A := s.kit.A
    let b := s.regs.getDly v.toNat c.toNat
    (VoiceOk s v → ChanOk s c → 0 < b.size →
      (b.size ≤ n.toNat → Faults (.dlyGet v c n) s .bufferRange) ∧
      (¬(A.le A.zero (sOperand s x) = true ∧ A.lt (sOperand s x) (A.ofNat b.size) = true) →
        Faults (.dlyGetlin v c x) s .bufferRange)) ∧
    (VoiceOk s v → ChanOk s c → (s.regs.getMdl v.toNat).prep = true → ¬ReadOk s.kit s.regs v.toNat c.toNat →
      Faults (.mdlProcess v c x) s .bufferRange) ∧
    (ChanOk s c → s.regs.vb.prep = true → (∃ u < s.cfg.nVoices, ¬ReadOk s.kit s.regs u c.toNat) →
      Faults (.vbProcess c x) s .bufferRange) ∧
    (s.regs.eng.prep = true → 0 < s.regs.eng.rem →
      (∃ k < s.regs.sys.nch, ∃ u < s.cfg.nVoices, ¬ReadOk s.kit s.regs u k) → Faults .engStep s .bufferRange)

/-- `ALLOC`: a buffer size of 0 or above `DLY_CAP`, offered or computed as `ceil(MAXDELAY * FS)` (R205 code 7, R101, R112).
Where the product is an infinity or a NaN, `AllocOk` fails as well: that the command then faults with `ALLOC` is the model's
reading of R194 and U5 (log entry 17). -/
def Obligations.AllocationFaults : Prop :=
  ∀ (s : State) (v c : BitVec 4) (x n : BitVec 64), Running s → Closed s → FiniteOpd s x → IntOpd n →
    let A := s.kit.A
    let y := sOperand s x
    let m := s.regs.getMdl v.toNat
    (VoiceOk s v → ChanOk s c → n.toNat = 0 ∨ s.cfg.dlyCap < n.toNat → Faults (.dlyResize v c n) s .alloc) ∧
    (A.lt A.zero y = true →
      (VoiceOk s v → s.regs.sys.nch ≠ 0 → ¬AllocOk s.kit m.maxDelay y → Faults (.mdlPrepare v x) s .alloc) ∧
      (VoiceOk s v → m.prep = true → ¬AllocOk s.kit y m.fs → Faults (.mdlSetmaxdelay v x) s .alloc) ∧
      (s.regs.sys.nch ≠ 0 → (∃ u < s.cfg.nVoices, ¬AllocOk s.kit (s.regs.getMdl u).maxDelay y) →
        Faults (.vbPrepare x) s .alloc) ∧
      ((∃ u < s.cfg.nVoices, (s.regs.getMdl u).prep = true ∧ ¬AllocOk s.kit y (s.regs.getMdl u).fs) →
        Faults (.vbSetmaxdelay x) s .alloc)) ∧
    (A.le A.zero y = true →
      (VoiceOk s v → m.prep = true → ¬AllocOk s.kit m.maxDelay m.fs → Faults (.mdlSetmaxdepth v x) s .alloc) ∧
      ((∃ u < s.cfg.nVoices, (s.regs.getMdl u).prep = true ∧
          ¬AllocOk s.kit (s.regs.getMdl u).maxDelay (s.regs.getMdl u).fs) →
        Faults (.vbSetmaxdepth x) s .alloc)) ∧
    (s.regs.sys.nch ≠ 0 → A.lt (A.lit 400 1) y = true → A.lt s.regs.eng.hpfc.tgt (A.div y (A.lit 2 1)) = true →
      A.lt s.regs.eng.lpfc.tgt (A.div y (A.lit 2 1)) = true →
      (∃ u < s.cfg.nVoices, ¬AllocOk s.kit (s.regs.getMdl u).maxDelay y) → Faults (.engPrepare x) s .alloc)

/-! ### System commands (spec/40_system.md, spec/70_reset_and_hazards.md) -/

/-- `SYS.RESET`, halted or not, leaves every register of every voice and channel at its reset value, for every build; after
it, as after the machine's own reset, the block holds the same registers and waits (R220, R71). Three clauses rest on the
model's choices: that waiting is a step that answers the same state (log entry 3), that the machine's own reset is that of the
default build (log entry 1), and that after both resets the delay RAMs, whose words R220 leaves unspecified, list nothing (log
entry 8). -/
def Obligations.ResetLeaves : Prop :=
  ∀ s : State, ∃ r : Regs Sample, Completes .sysReset s r 0 ∧
    (s.prec = State.reset.prec → s.cfg = State.reset.cfg → r = State.reset.regs) ∧ step State.reset = .next State.reset ∧
    let A := s.kit.A
    let still : Sample → Smoother Sample := fun x => { cur := x, tgt := x, step := A.zero, cnt := 0, n := 0 }
    r.sys = { halt := false, cause := 0, info := 0, nch := 0, blkHint := 0 } ∧
    (∀ v < s.cfg.nVoices, ∀ c < s.cfg.nChMax,
      r.getOsc v c = { prep := false, fs := A.zero, freq := A.zero, delta := A.zero, pos := A.zero, type := .triangle,
                       ph := still A.zero } ∧
      (r.getDly v c).size = 0 ∧ (r.getDly v c).cur = 0 ∧
      (r.getMdl v).dt.get c = still (A.lit 5 1000) ∧ (r.getMdl v).dp.get c = still A.zero) ∧
    (∀ v < s.cfg.nVoices, (r.getMdl v).prep = false ∧ (r.getMdl v).fs = A.zero ∧
      (r.getMdl v).maxDelay = s.cfg.maxDelayReset ∧ (r.getMdl v).maxDepth = A.zero ∧ (r.getMdl v).wet = A.lit 1 1) ∧
    r.vb = { prep := false, active := 1, rate := A.zero, depth := A.zero, baseDelay := A.lit 5 1000, spread := A.zero,
             width := A.zero, ltype := .triangle } ∧
    (∀ c < s.cfg.nChMax, r.flt.boost.get c = ⟨A.zero, A.zero⟩ ∧ r.flt.cut.get c = ⟨A.zero, A.zero⟩ ∧
      r.flt.hp.get c = ⟨A.zero, A.zero⟩ ∧ r.flt.lp.get c = ⟨A.zero, A.zero⟩ ∧
      r.eng.mix.get c = still A.zero ∧ r.eng.inp.get c = A.zero ∧ r.eng.out.get c = A.zero) ∧
    r.flt.bcoef = ⟨A.lit 1 1, A.zero, A.zero, A.zero, A.zero⟩ ∧
    r.flt.ccoef = ⟨A.lit 1 1, A.zero, A.zero, A.zero, A.zero⟩ ∧
    r.flt.hpg = A.zero ∧ r.flt.hph = A.lit 1 1 ∧ r.flt.lpg = A.zero ∧ r.flt.lph = A.lit 1 1 ∧
    r.eng.prep = false ∧ r.eng.fs = A.zero ∧ r.eng.mode = .stereo ∧ r.eng.hpByp = false ∧ r.eng.lpByp = false ∧
    r.eng.modeL = .stereo ∧ r.eng.bypL = false ∧ r.eng.rem = 0 ∧ r.eng.chcnt = 0 ∧
    r.eng.hpfc = still s.cfg.hpfReset ∧ r.eng.lpfc = still s.cfg.lpfReset

/-- The reads of the system family, halted or not, write nothing: `SYS.RDCAUSE` and `SYS.RDINFO` answer their register, and
`SYS.RDSTAT` the status word with every field where R24 puts it. `SYS.NOP` writes nothing (R24, R70, R72, R73, R74). -/
def Obligations.SystemReads : Prop :=
  ∀ s : State, (Running s → Completes .sysNop s s.regs 0) ∧
    Completes .sysRdcause s s.regs (s.regs.sys.cause.setWidth 64) ∧
    Completes .sysRdinfo s s.regs (s.regs.sys.info.setWidth 64) ∧
    ∃ val : BitVec 64, Completes .sysRdstat s s.regs val ∧
      (s.regs.sys.nch ≤ 16 → s.cfg.nVoices ≤ 16 →
        val.getLsbD 0 = s.regs.sys.halt ∧ val.getLsbD 1 = s.regs.eng.prep ∧ val.getLsbD 2 = s.regs.vb.prep ∧
        val.getLsbD 3 = decide (0 < s.regs.eng.rem) ∧ val.getLsbD 4 = s.regs.eng.bypL ∧
        val.extractLsb' 5 2 = s.regs.eng.modeL.code.setWidth 2 ∧ val.extractLsb' 7 2 = s.regs.eng.mode.code.setWidth 2 ∧
        val.getLsbD 9 = s.regs.eng.hpByp ∧ val.getLsbD 10 = s.regs.eng.lpByp ∧
        (val.extractLsb' 11 5).toNat = s.regs.sys.nch ∧
        (∀ v < 16, val.getLsbD (16 + v) = (decide (v < s.cfg.nVoices) && (s.regs.getMdl v).prep)) ∧
        val.toNat < 2 ^ 32)

/-- `SYS.SETCH` writes the count and clears the prepares of the engine, the bank and every voice when the count is new, and
changes nothing when it is not; `SYS.SETBLK` stores the hint (R75, R76). -/
def Obligations.SystemSetters : Prop :=
  ∀ (s : State) (n : BitVec 64), Running s → IntOpd n →
    Completes (.sysSetblk n) s { s.regs with sys := { s.regs.sys with blkHint := n.setWidth 32 } } 0 ∧
    (1 ≤ n.toNat → n.toNat ≤ s.cfg.nChMax → Closed s →
      (n.toNat = s.regs.sys.nch → Completes (.sysSetch n) s s.regs 0) ∧
      (n.toNat ≠ s.regs.sys.nch → ∃ r, Completes (.sysSetch n) s r 0 ∧
        r.sys = { s.regs.sys with nch := n.toNat } ∧ r.eng = { s.regs.eng with prep := false } ∧
        r.vb = { s.regs.vb with prep := false } ∧ r.osc = s.regs.osc ∧ r.dly = s.regs.dly ∧ r.flt = s.regs.flt ∧
        ∀ v, r.getMdl v = if v < s.cfg.nVoices then { s.regs.getMdl v with prep := false } else s.regs.getMdl v))

/-! ### Oscillators (spec/42_oscillator.md) -/

/-- `OSC.PREPARE` and `OSC.RESET`: the whole next state (R91, R92, R80, R192). The ramp length of a negative product, which no
legal build has, is free (log entry 19). -/
def Obligations.OscPrepares : Prop :=
  ∀ (s : State) (v c : BitVec 4) (fs : BitVec 64), Admits s v c → FiniteOpd s fs →
    let A := s.kit.A
    let o := s.regs.getOsc v.toNat c.toNat
    let x := sOperand s fs
    let N := A.floor (A.mul s.cfg.phaseRamp x)
    (Closed s → A.lt A.zero x = true → ∃ n < 2 ^ 32, (0 ≤ N → n = min N.toNat 4294967295) ∧ Completes (.oscPrepare v c fs) s
      (s.regs.setOsc v.toNat c.toNat
        { o with
          fs := x
          pos := A.zero
          ph := { cur := o.ph.tgt, tgt := o.ph.tgt, step := A.zero, cnt := 0, n := n }
          delta := A.mul (A.mul (A.lit 2 1) o.freq) (A.div (A.ofNat s.cfg.tableSize) x)
          prep := true }) 0) ∧
    Completes (.oscReset v c) s
      (s.regs.setOsc v.toNat c.toNat
        { o with pos := A.zero, ph := { o.ph with cur := o.ph.tgt, cnt := 0, step := A.zero } }) 0

/-- `OSC.SETFREQ`, `OSC.SETPHASE` and `OSC.SETTYPE`: the whole next state, before a prepare and after one (R93, R94, R95,
R81). -/
def Obligations.OscSetters : Prop :=
  ∀ (s : State) (v c : BitVec 4) (opd : BitVec 64) (k : Wave), Admits s v c → FiniteOpd s opd →
    let A := s.kit.A
    let o := s.regs.getOsc v.toNat c.toNat
    let x := sOperand s opd
    let write := fun o' => s.regs.setOsc v.toNat c.toNat o'
    Completes (.oscSetfreq v c opd) s (write { o with
      freq := x
      delta := if o.prep = true then A.mul (A.mul (A.lit 2 1) x) (A.div (A.ofNat s.cfg.tableSize) o.fs) else A.zero }) 0 ∧
    Completes (.oscSettype v c k) s (write { o with type := k }) 0 ∧
    (A.eq x o.ph.tgt = true → Completes (.oscSetphase v c opd) s (write o) 0) ∧
    (A.eq x o.ph.tgt = false → o.ph.n = 0 → Completes (.oscSetphase v c opd) s
      (write { o with ph := { o.ph with cur := x, tgt := x, cnt := 0, step := A.zero } }) 0) ∧
    (A.eq x o.ph.tgt = false → o.ph.n ≠ 0 → Completes (.oscSetphase v c opd) s
      (write { o with ph := { o.ph with tgt := x, cnt := o.ph.n, step := A.div (A.sub x o.ph.cur) (A.ofNat o.ph.n) } }) 0)

/-- `OSC.PROCESS` answers the interpolated table word at the position before the advance, then advances the phase ramp and
the position, and writes no other register (R96, R83). -/
def Obligations.OscProcesses : Prop :=
  ∀ (s : State) (v c : BitVec 4), Admits s v c → (s.regs.getOsc v.toNat c.toNat).prep = true →
    let A := s.kit.A
    let T := s.cfg.tableSize
    let o := s.regs.getOsc v.toNat c.toNat
    let ph := if o.ph.cnt = 0 then o.ph.tgt else if o.ph.cnt = 1 then o.ph.tgt else A.add o.ph.cur o.ph.step
    let p := A.wrap (A.add o.pos (A.mul ph (A.ofNat T))) T
    let i := A.floorNat p
    let y := rom A T o.type i
    Completes (.oscProcess v c) s
      (s.regs.setOsc v.toNat c.toNat
        { o with
          ph := if o.ph.cnt = 0 then o.ph else { o.ph with cur := ph, cnt := o.ph.cnt - 1 }
          pos := A.wrap (A.add o.pos o.delta) T })
      (A.add y (A.mul (A.sub p (A.ofNat i)) (A.sub (rom A T o.type (i + 1)) y)))

/-! ### Delay buffers (spec/43_delay_buffer.md) -/

/-- `DLY.RESIZE` and `DLY.RESET`: size, cursor and every word of the buffer, and no other register or memory (R101, R102,
R41). An index at or above `SIZE`, which no command reads, reads 0 by the model's choice (log entries 8 and 14). -/
def Obligations.DlyAllocates : Prop :=
  ∀ (s : State) (v c : BitVec 4) (n : BitVec 64), Admits s v c → IntOpd n →
    let A := s.kit.A
    (Closed s → 1 ≤ n.toNat → n.toNat ≤ s.cfg.dlyCap → ∃ b : Dly Sample,
      Completes (.dlyResize v c n) s (s.regs.setDly v.toNat c.toNat b) 0 ∧
      b.size = n.toNat ∧ b.cur = 0 ∧ ∀ k, (s.regs.setDly v.toNat c.toNat b).dram A v.toNat c.toNat k = A.zero) ∧
    (∃ b : Dly Sample, Completes (.dlyReset v c) s (s.regs.setDly v.toNat c.toNat b) 0 ∧
      b.size = (s.regs.getDly v.toNat c.toNat).size ∧ b.cur = 0 ∧
      ∀ k, (s.regs.setDly v.toNat c.toNat b).dram A v.toNat c.toNat k = A.zero)

/-- `DLY.GET` and `DLY.GETLIN` answer the word, or the interpolation of two words, at the cursor plus the delay plus one, and
write nothing (R103, R104, R49). -/
def Obligations.DlyReads : Prop :=
  ∀ (s : State) (v c : BitVec 4) (opd : BitVec 64), Admits s v c → 0 < (s.regs.getDly v.toNat c.toNat).size →
    let A := s.kit.A
    let b := s.regs.getDly v.toNat c.toNat
    let t := sOperand s opd
    let M := s.regs.dram A v.toNat c.toNat
    let p := A.wrap (A.add (A.add (A.ofNat b.cur) t) (A.lit 1 1)) b.size
    let i := A.floorNat p
    (IntOpd opd → opd.toNat < b.size →
      Completes (.dlyGet v c opd) s s.regs (M ((b.cur + opd.toNat + 1) % b.size))) ∧
    (FiniteOpd s opd → A.le A.zero t = true → A.lt t (A.ofNat b.size) = true →
      Completes (.dlyGetlin v c opd) s s.regs
        (A.add (M i) (A.mul (A.sub p (A.ofNat i)) (A.sub (M ((i + 1) % b.size)) (M i)))))

/-- `DLY.PUSH` stores its operand at the cursor and moves the cursor down, from 0 to `SIZE - 1`; every other word of every
delay RAM reads as before and no other register changes (R105). The canonical form of the buffer's memory is an invariant of
every step (`BuffersKept`); that form is the model's representation (log entry 14). -/
def Obligations.DlyPushes : Prop :=
  ∀ (s : State) (v c : BitVec 4) (x : BitVec 64), Admits s v c → FiniteOpd s x →
    0 < (s.regs.getDly v.toNat c.toNat).size → (s.regs.getDly v.toNat c.toNat).ram.wf 0 = true →
    let A := s.kit.A
    let b := s.regs.getDly v.toNat c.toNat
    ∃ b' : Dly Sample, Completes (.dlyPush v c x) s (s.regs.setDly v.toNat c.toNat b') 0 ∧
      b'.size = b.size ∧ (b.cur = 0 → b'.cur = b.size - 1) ∧ (b.cur ≠ 0 → b'.cur = b.cur - 1) ∧
      (s.regs.setDly v.toNat c.toNat b').dram A v.toNat c.toNat b.cur = sOperand s x ∧
      ∀ u d k, ¬(u = v.toNat ∧ d = c.toNat ∧ k = b.cur) →
        (s.regs.setDly v.toNat c.toNat b').dram A u d k = s.regs.dram A u d k

/-- R106 on the command port: after the commands `DLY.PUSH x_1`, …, `DLY.PUSH x_m` and `DLY.GET d` with `d < SIZE` and
`m >= d + 1`, the response is `x_(m-d)`; the cursor has moved `m` words down from `k`, and the words at `k`, `k-1`, … (mod
`SIZE`) hold what was pushed, as far as it is not overwritten. So `d + 1` pushes of one `x` and `DLY.GET d` give `x`. That the
words not yet taken stand in the state is the model's choice (log entry 3). -/
def Obligations.DelayRoundTrip : Prop :=
  ∀ (s : State) (v c : BitVec 4) (xs : List Sample) (d : BitVec 64),
    Admits s v c → (∀ x ∈ xs, Ieee.isFinite s.prec x = true ∧ x.toNat < 2 ^ s.prec.width) → IntOpd d →
    BufferOk s.cfg.dlyCap (s.regs.getDly v.toNat c.toNat) →
    d.toNat < (s.regs.getDly v.toNat c.toNat).size → d.toNat + 1 ≤ xs.length →
    s.port = xs.map (fun x => encode (.dlyPush v c x)) ++ [encode (.dlyGet v c d)] →
    ∃ t : State, core.run (xs.length + 1) s = .next t ∧ t.port = [] ∧
      t.resp = { fault := false, val := xs.getD (xs.length - 1 - d.toNat) 0 } ∧
      let n := (s.regs.getDly v.toNat c.toNat).size
      let k := (s.regs.getDly v.toNat c.toNat).cur
      ((t.regs.getDly v.toNat c.toNat).cur + xs.length) % n = k ∧
      ∀ j < xs.length, xs.length ≤ j + n →
        t.regs.dram t.kit.A v.toNat c.toNat ((k + (n - j % n)) % n) = xs.getD j 0

/-! ### Frames over all commands (spec/10_state.md, the "written by" columns) -/

/-- A unit is unchanged by every command that its register table does not name, whether the command completes, faults or is
refused; `HALT`, `CAUSE` and `INFO` apart, which fault entry writes (R23, R26 to R36). Nothing but the commands of R42 (and the
reset, after which no word can be reached) writes a delay RAM, its size or its cursor (R108). -/
def Obligations.UnitFrames : Prop :=
  ∀ (i : Instr) (s t : State), exec i s = .next t →
    (writesDly i = false → ∀ v c, (t.regs.getDly v c).size = (s.regs.getDly v c).size ∧
      (t.regs.getDly v c).cur = (s.regs.getDly v c).cur ∧ ∀ k, t.regs.dram t.kit.A v c k = s.regs.dram s.kit.A v c k) ∧
    (writesOsc i = false → t.regs.osc = s.regs.osc) ∧ (writesMdl i = false → t.regs.mdl = s.regs.mdl) ∧
    (writesVb i = false → t.regs.vb = s.regs.vb) ∧ (writesFlt i = false → t.regs.flt = s.regs.flt) ∧
    (writesEng i = false → t.regs.eng = s.regs.eng) ∧
    (writesSys i = false → t.regs.sys.nch = s.regs.sys.nch ∧ t.regs.sys.blkHint = s.regs.sys.blkHint)

/-- A command with a voice field leaves every other voice as it was, and a command with a channel field every other channel:
oscillators (with their phase smoothers), buffers, the delay, depth and mix smoothers, filter states and frame latches (R98,
R146, R197). -/
def Obligations.IndexFrames : Prop :=
  ∀ (i : Instr) (s t : State), exec i s = .next t →
    (i.row.1.useV = true → ∀ v c, v ≠ i.row.2.v.toNat →
      t.regs.getOsc v c = s.regs.getOsc v c ∧ t.regs.getDly v c = s.regs.getDly v c ∧
        t.regs.getMdl v = s.regs.getMdl v) ∧
    (i.row.1.useC = true → ∀ v c, c ≠ i.row.2.c.toNat →
      t.regs.getOsc v c = s.regs.getOsc v c ∧ t.regs.getDly v c = s.regs.getDly v c ∧
        (t.regs.getMdl v).dt.get c = (s.regs.getMdl v).dt.get c ∧ (t.regs.getMdl v).dp.get c = (s.regs.getMdl v).dp.get c ∧
        t.regs.eng.mix.get c = s.regs.eng.mix.get c ∧ t.regs.flt.boost.get c = s.regs.flt.boost.get c ∧ t.regs.flt.cut.get c = s.regs.flt.cut.get c ∧
        t.regs.flt.hp.get c = s.regs.flt.hp.get c ∧ t.regs.flt.lp.get c = s.regs.flt.lp.get c ∧
        t.regs.eng.inp.get c = s.regs.eng.inp.get c ∧ t.regs.eng.out.get c = s.regs.eng.out.get c)

/-! ### Modulated delay lines (spec/44_modulated_delay_line.md) -/

/-- `MDL.PREPARE` and `MDL.RESET`: what they leave in every channel below `NCH`, and that they write nothing else (R111,
R112, R113, R91, R92, R80, R102). -/
def Obligations.MdlPrepares : Prop :=
  ∀ (s : State) (v : BitVec 4) (fs : BitVec 64), Running s → VoiceOk s v → FiniteOpd s fs →
    let A := s.kit.A
    let x := sOperand s fs
    let m := s.regs.getMdl v.toNat
    let nch := s.regs.sys.nch
    (Closed s → nch ≠ 0 → A.lt A.zero x = true → AllocOk s.kit m.maxDelay x → ∃ r, Completes (.mdlPrepare v fs) s r 0 ∧
      (∀ c, r.getOsc v.toNat c =
        if c < nch then oscPrepare s.kit x (s.regs.getOsc v.toNat c) else s.regs.getOsc v.toNat c) ∧
      (∀ c, r.getDly v.toNat c =
        if c < nch then freshBuffer Sample (bufferWords A m.maxDelay x) else s.regs.getDly v.toNat c) ∧
      (∀ c, (r.getMdl v.toNat).dp.get c = if c < nch then smReset A (m.dp.get c) x (A.lit 2 10) else m.dp.get c) ∧
      (∀ c, (r.getMdl v.toNat).dt.get c = if c < nch then smReset A (m.dt.get c) x (A.lit 5 10) else m.dt.get c) ∧
      r.getMdl v.toNat =
        { m with prep := true, fs := x, dt := (r.getMdl v.toNat).dt, dp := (r.getMdl v.toNat).dp } ∧
      (∀ u, u ≠ v.toNat → r.getMdl u = s.regs.getMdl u ∧
        ∀ c, r.getOsc u c = s.regs.getOsc u c ∧ r.getDly u c = s.regs.getDly u c) ∧
      r.sys = s.regs.sys ∧ r.vb = s.regs.vb ∧ r.flt = s.regs.flt ∧ r.eng = s.regs.eng) ∧
    (∃ r, Completes (.mdlReset v) s r 0 ∧
      (∀ c, r.getOsc v.toNat c =
        if c < nch then oscReset A (s.regs.getOsc v.toNat c) else s.regs.getOsc v.toNat c) ∧
      (∀ c, r.getDly v.toNat c =
        if c < nch then freshBuffer Sample (s.regs.getDly v.toNat c).size else s.regs.getDly v.toNat c) ∧
      (∀ c, (r.getMdl v.toNat).dp.get c = if c < nch then smSettle A (m.dp.get c) else m.dp.get c) ∧
      (∀ c, (r.getMdl v.toNat).dt.get c = if c < nch then smSettle A (m.dt.get c) else m.dt.get c) ∧
      r.getMdl v.toNat = { m with dt := (r.getMdl v.toNat).dt, dp := (r.getMdl v.toNat).dp } ∧
      (∀ u, u ≠ v.toNat → r.getMdl u = s.regs.getMdl u ∧
        ∀ c, r.getOsc u c = s.regs.getOsc u c ∧ r.getDly u c = s.regs.getDly u c) ∧
      r.sys = s.regs.sys ∧ r.vb = s.regs.vb ∧ r.flt = s.regs.flt ∧ r.eng = s.regs.eng)

/-- `MDL.SETMAXDELAY` and `MDL.SETMAXDEPTH`: before a prepare only the bound is stored; after one every buffer of the voice
below `NCH` is allocated anew (R112, R114, R116). -/
def Obligations.MdlBounds : Prop :=
  ∀ (s : State) (v : BitVec 4) (opd : BitVec 64), Running s → VoiceOk s v → Closed s → FiniteOpd s opd →
    let A := s.kit.A
    let x := sOperand s opd
    let m := s.regs.getMdl v.toNat
    let leaves := fun (i : Instr) (m' : Mdl Sample) =>
      (m.prep = false → Completes i s (s.regs.setMdl v.toNat m') 0) ∧
      (m.prep = true → AllocOk s.kit m'.maxDelay m.fs → ∃ r, Completes i s r 0 ∧ r.getMdl v.toNat = m' ∧
        (∀ c, r.getDly v.toNat c = if c < s.regs.sys.nch then freshBuffer Sample (bufferWords A m'.maxDelay m.fs)
          else s.regs.getDly v.toNat c) ∧
        (∀ u, u ≠ v.toNat → r.getMdl u = s.regs.getMdl u ∧ ∀ c, r.getDly u c = s.regs.getDly u c) ∧
        r.sys = s.regs.sys ∧ r.osc = s.regs.osc ∧ r.vb = s.regs.vb ∧ r.flt = s.regs.flt ∧ r.eng = s.regs.eng)
    (A.lt A.zero x = true → leaves (.mdlSetmaxdelay v opd) { m with maxDelay := x }) ∧
    (A.le A.zero x = true → leaves (.mdlSetmaxdepth v opd) { m with maxDepth := x })

/-- `MDL.SETDELAY` and `MDL.SETDEPTH` retarget one smoother of one channel inside its bound (R115, R117, R81). -/
def Obligations.MdlTargets : Prop :=
  ∀ (s : State) (v c : BitVec 4) (opd : BitVec 64), Admits s v c → FiniteOpd s opd →
    let A := s.kit.A
    let x := sOperand s opd
    let m := s.regs.getMdl v.toNat
    (A.lt A.zero x = true → A.lt x (A.sub m.maxDelay m.maxDepth) = true → Completes (.mdlSetdelay v c opd) s
      (s.regs.setMdl v.toNat { m with dt := m.dt.put c.toNat (smSetTarget A (m.dt.get c.toNat) x) }) 0) ∧
    (A.le A.zero x = true → A.le x m.maxDepth = true → Completes (.mdlSetdepth v c opd) s
      (s.regs.setMdl v.toNat { m with dp := m.dp.put c.toNat (smSetTarget A (m.dp.get c.toNat) x) }) 0)

/-- `MDL.SETRATE` sets the frequency of every oscillator of the voice, `MDL.SETWET` the wet level, `MDL.LATENCY` answers
`round(DT[0].CUR * FS)`, saturated, and writes nothing (R118, R119, R121, R192, R93). When that integer is negative the command
completes too, and the `u32` it answers is free (log entry 19). -/
def Obligations.MdlScalars : Prop :=
  ∀ (s : State) (v : BitVec 4) (opd : BitVec 64), Running s → VoiceOk s v → FiniteOpd s opd →
    let A := s.kit.A
    let x := sOperand s opd
    let m := s.regs.getMdl v.toNat
    (∃ r, Completes (.mdlSetrate v opd) s r 0 ∧
      (∀ u c, r.getOsc u c = if u = v.toNat ∧ c < s.cfg.nChMax then
        { s.regs.getOsc u c with
          freq := x
          delta := if (s.regs.getOsc u c).prep = true then
            A.mul (A.mul (A.lit 2 1) x) (A.div (A.ofNat s.cfg.tableSize) (s.regs.getOsc u c).fs) else A.zero }
        else s.regs.getOsc u c) ∧
      { r with osc := s.regs.osc } = s.regs) ∧
    (A.le A.zero x = true → A.le x (A.lit 1 1) = true →
      Completes (.mdlSetwet v opd) s (s.regs.setMdl v.toNat { m with wet := x }) 0) ∧
    let z := A.round (A.mul (m.dt.get 0).cur m.fs)
    (m.prep = true → ∃ n < 2 ^ 32, (0 ≤ z → n = min z.toNat 4294967295) ∧
      Completes (.mdlLatency v) s s.regs (BitVec.ofNat 64 n))

/-- `MDL.PROCESS`: the delayed word is read at the modulated delay before the input is pushed, and blended by the wet level;
oscillator, smoothers and buffer of the channel advance by one sample, and nothing else changes (R120, R83, R96, R104, R105). -/
def Obligations.MdlProcesses : Prop :=
  ∀ (s : State) (v c : BitVec 4) (opd : BitVec 64), Admits s v c → FiniteOpd s opd →
    (s.regs.getMdl v.toNat).prep = true → ReadOk s.kit s.regs v.toNat c.toNat →
    (s.regs.getDly v.toNat c.toNat).ram.wf 0 = true →
    let x := sOperand s opd
    ∃ r, Completes (.mdlProcess v c opd) s r (voiceOut s.kit s.regs v.toNat c.toNat x) ∧
      VoiceStepped s.kit s.regs r v.toNat c.toNat x ∧
      (∀ u d, ¬(u = v.toNat ∧ d = c.toNat) → r.getOsc u d = s.regs.getOsc u d ∧ r.getDly u d = s.regs.getDly u d ∧
        (r.getMdl u).dt.get d = (s.regs.getMdl u).dt.get d ∧ (r.getMdl u).dp.get d = (s.regs.getMdl u).dp.get d) ∧
      (∀ u, r.getMdl u = { s.regs.getMdl u with dt := (r.getMdl u).dt, dp := (r.getMdl u).dp }) ∧
      r.sys = s.regs.sys ∧ r.vb = s.regs.vb ∧ r.flt = s.regs.flt ∧ r.eng = s.regs.eng

/-! ### The voice bank (spec/45_voice_bank.md) -/

/-- `VB.PREPARE` prepares and `VB.RESET` resets every voice, as the voice's own command does (R131, R132, R111, R113). -/
def Obligations.VbPrepares : Prop :=
  ∀ (s : State) (fs : BitVec 64), Running s → FiniteOpd s fs →
    let A := s.kit.A
    let x := sOperand s fs
    let nch := s.regs.sys.nch
    let nv := s.cfg.nVoices
    (Closed s → nch ≠ 0 → A.lt A.zero x = true → (∀ v < nv, AllocOk s.kit (s.regs.getMdl v).maxDelay x) →
      ∃ r, Completes (.vbPrepare fs) s r 0 ∧ r.vb = { s.regs.vb with prep := true } ∧
      (∀ v c, r.getOsc v c = if v < nv ∧ c < nch then oscPrepare s.kit x (s.regs.getOsc v c) else s.regs.getOsc v c) ∧
      (∀ v c, r.getDly v c = if v < nv ∧ c < nch then freshBuffer Sample (bufferWords A (s.regs.getMdl v).maxDelay x)
        else s.regs.getDly v c) ∧
      (∀ v c, (r.getMdl v).dp.get c = if v < nv ∧ c < nch then smReset A ((s.regs.getMdl v).dp.get c) x (A.lit 2 10)
        else (s.regs.getMdl v).dp.get c) ∧
      (∀ v c, (r.getMdl v).dt.get c = if v < nv ∧ c < nch then smReset A ((s.regs.getMdl v).dt.get c) x (A.lit 5 10)
        else (s.regs.getMdl v).dt.get c) ∧
      (∀ v < nv, r.getMdl v =
        { s.regs.getMdl v with prep := true, fs := x, dt := (r.getMdl v).dt, dp := (r.getMdl v).dp }) ∧
      (∀ v, nv ≤ v → r.getMdl v = s.regs.getMdl v) ∧
      r.sys = s.regs.sys ∧ r.flt = s.regs.flt ∧ r.eng = s.regs.eng) ∧
    (∃ r, Completes .vbReset s r 0 ∧
      (∀ v c, r.getOsc v c = if v < nv ∧ c < nch then oscReset A (s.regs.getOsc v c) else s.regs.getOsc v c) ∧
      (∀ v c, r.getDly v c = if v < nv ∧ c < nch then freshBuffer Sample (s.regs.getDly v c).size
        else s.regs.getDly v c) ∧
      (∀ v c, (r.getMdl v).dp.get c = if v < nv ∧ c < nch then smSettle A ((s.regs.getMdl v).dp.get c)
        else (s.regs.getMdl v).dp.get c) ∧
      (∀ v c, (r.getMdl v).dt.get c = if v < nv ∧ c < nch then smSettle A ((s.regs.getMdl v).dt.get c)
        else (s.regs.getMdl v).dt.get c) ∧
      (∀ v, r.getMdl v = { s.regs.getMdl v with dt := (r.getMdl v).dt, dp := (r.getMdl v).dp }) ∧
      r.sys = s.regs.sys ∧ r.vb = s.regs.vb ∧ r.flt = s.regs.flt ∧ r.eng = s.regs.eng)

/-- The bank's shared setters write their `VB` register and every voice: `VB.SETRATE`, `VB.SETDEPTH`, `VB.SETTYPE`,
`VB.SETPHASE`; `VB.SETACTIVE` writes the count (R133, R134, R135, R140, R141). -/
def Obligations.VbSetters : Prop :=
  ∀ (s : State) (c : BitVec 4) (opd n : BitVec 64) (k : Wave), Running s → FiniteOpd s opd → IntOpd n →
    let A := s.kit.A
    let x := sOperand s opd
    let nv := s.cfg.nVoices
    let top := s.cfg.nChMax
    (1 ≤ n.toNat → n.toNat ≤ nv →
      Completes (.vbSetactive n) s { s.regs with vb := { s.regs.vb with active := n.toNat } } 0) ∧
    (∃ r, Completes (.vbSetrate opd) s r 0 ∧
      (∀ v d, r.getOsc v d = if v < nv ∧ d < top then
        { s.regs.getOsc v d with
          freq := x
          delta := if (s.regs.getOsc v d).prep = true then
            A.mul (A.mul (A.lit 2 1) x) (A.div (A.ofNat s.cfg.tableSize) (s.regs.getOsc v d).fs) else A.zero }
        else s.regs.getOsc v d) ∧
      { r with osc := s.regs.osc } = { s.regs with vb := { s.regs.vb with rate := x } }) ∧
    ((∀ v < nv, A.le A.zero x = true ∧ A.le x (s.regs.getMdl v).maxDepth = true) → ∃ r, Completes (.vbSetdepth opd) s r 0 ∧
      (∀ v d, (r.getMdl v).dp.get d = if v < nv ∧ d < top then smSetTarget A ((s.regs.getMdl v).dp.get d) x
        else (s.regs.getMdl v).dp.get d) ∧
      (∀ v, r.getMdl v = { s.regs.getMdl v with dp := (r.getMdl v).dp }) ∧
      { r with mdl := s.regs.mdl } = { s.regs with vb := { s.regs.vb with depth := x } }) ∧
    (∃ r, Completes (.vbSettype k) s r 0 ∧
      (∀ v d, r.getOsc v d =
        if v < nv ∧ d < top then { s.regs.getOsc v d with type := k } else s.regs.getOsc v d) ∧
      { r with osc := s.regs.osc } = { s.regs with vb := { s.regs.vb with ltype := k } }) ∧
    (ChanOk s c → ∃ r, Completes (.vbSetphase c opd) s r 0 ∧
      (∀ v d, r.getOsc v d = if v < nv ∧ d = c.toNat then
        { s.regs.getOsc v d with ph := smSetTarget A (s.regs.getOsc v d).ph x } else s.regs.getOsc v d) ∧
      { r with osc := s.regs.osc } = s.regs)

/-- `VB.SETDELAY`, `VB.SETSPREAD` and `VB.SETWIDTH` recompute every voice's delay target of every channel from the three
parameters: `vo[v] = base - (spread * (base - 0.005)) * (v / NVOICES)`, less `width * (vo[v] - 0.001)` on odd channels (R136
to R139). -/
def Obligations.VbSpreads : Prop :=
  ∀ (s : State) (opd : BitVec 64), Running s → FiniteOpd s opd →
    let A := s.kit.A
    let x := sOperand s opd
    let nv := s.cfg.nVoices
    let target := fun (base spread width : Sample) (v c : Nat) =>
      let vo := A.sub base (A.mul (A.mul spread (A.sub base (A.lit 5 1000))) (A.div (A.ofNat v) (A.ofNat nv)))
      if c % 2 = 1 then A.sub vo (A.mul width (A.sub vo (A.lit 1 1000))) else vo
    let spreads := fun (i : Instr) (base spread width : Sample) =>
      (∀ v < nv, ∀ c < s.cfg.nChMax, A.lt A.zero (target base spread width v c) = true ∧
        A.lt (target base spread width v c) (A.sub (s.regs.getMdl v).maxDelay (s.regs.getMdl v).maxDepth) = true) →
      ∃ r, Completes i s r 0 ∧
        (∀ v c, (r.getMdl v).dt.get c = if v < nv ∧ c < s.cfg.nChMax then
          smSetTarget A ((s.regs.getMdl v).dt.get c) (target base spread width v c) else (s.regs.getMdl v).dt.get c) ∧
        (∀ v, r.getMdl v = { s.regs.getMdl v with dt := (r.getMdl v).dt }) ∧
        { r with mdl := s.regs.mdl } =
          { s.regs with vb := { s.regs.vb with baseDelay := base, spread := spread, width := width } }
    spreads (.vbSetdelay opd) x s.regs.vb.spread s.regs.vb.width ∧
    (A.le A.zero x = true → A.le x (A.lit 1 1) = true →
      spreads (.vbSetspread opd) s.regs.vb.baseDelay x s.regs.vb.width ∧
      spreads (.vbSetwidth opd) s.regs.vb.baseDelay s.regs.vb.spread x)

/-- `VB.SETMAXDELAY` and `VB.SETMAXDEPTH` set the bound of every voice and allocate the buffers of the prepared ones anew
(R143, R144, R112). -/
def Obligations.VbBounds : Prop :=
  ∀ (s : State) (opd : BitVec 64), Running s → Closed s → FiniteOpd s opd →
    let A := s.kit.A
    let x := sOperand s opd
    let nv := s.cfg.nVoices
    let leaves := fun (i : Instr) (set : Mdl Sample → Mdl Sample) =>
      (∀ v < nv, (s.regs.getMdl v).prep = true →
        AllocOk s.kit (set (s.regs.getMdl v)).maxDelay (s.regs.getMdl v).fs) →
      ∃ r, Completes i s r 0 ∧
        (∀ v, r.getMdl v = if v < nv then set (s.regs.getMdl v) else s.regs.getMdl v) ∧
        (∀ v c, r.getDly v c = if v < nv ∧ (s.regs.getMdl v).prep = true ∧ c < s.regs.sys.nch then
          freshBuffer Sample (bufferWords A (set (s.regs.getMdl v)).maxDelay (s.regs.getMdl v).fs)
          else s.regs.getDly v c) ∧
        r.sys = s.regs.sys ∧ r.osc = s.regs.osc ∧ r.vb = s.regs.vb ∧ r.flt = s.regs.flt ∧ r.eng = s.regs.eng
    (A.lt A.zero x = true → leaves (.vbSetmaxdelay opd) fun m => { m with maxDelay := x }) ∧
    (A.le A.zero x = true → leaves (.vbSetmaxdepth opd) fun m => { m with maxDepth := x })

/-- `VB.PROCESS`: every voice, active or not, runs on the input; the active ones' outputs are summed from 0 in ascending
order and multiplied by `1 / sqrt(ACTIVE)`; the other channels and every other unit stay as they were (R142). -/
def Obligations.VbProcesses : Prop :=
  ∀ (s : State) (c : BitVec 4) (opd : BitVec 64), Running s → ChanOk s c → FiniteOpd s opd → s.regs.vb.prep = true →
    (∀ v < s.cfg.nVoices, ReadOk s.kit s.regs v c.toNat ∧ (s.regs.getDly v c.toNat).ram.wf 0 = true) →
    let x := sOperand s opd
    ∃ r, Completes (.vbProcess c opd) s r (bankOut s.kit s.regs c.toNat x) ∧
      (∀ v < s.cfg.nVoices, VoiceStepped s.kit s.regs r v c.toNat x) ∧
      (∀ v d, ¬(v < s.cfg.nVoices ∧ d = c.toNat) → r.getOsc v d = s.regs.getOsc v d ∧ r.getDly v d = s.regs.getDly v d ∧
        (r.getMdl v).dt.get d = (s.regs.getMdl v).dt.get d ∧ (r.getMdl v).dp.get d = (s.regs.getMdl v).dp.get d) ∧
      (∀ v, r.getMdl v = { s.regs.getMdl v with dt := (r.getMdl v).dt, dp := (r.getMdl v).dp }) ∧
      r.sys = s.regs.sys ∧ r.vb = s.regs.vb ∧ r.flt = s.regs.flt ∧ r.eng = s.regs.eng

/-! ### The filters (spec/46_filters.md) -/

/-- `FLT.RESET` clears every filter state and keeps the coefficients; each filter command runs one filter of its channel on
one sample, by the recurrences of R151 and R154, and writes that filter's two state words only (R158 to R162). -/
def Obligations.FilterCommands : Prop :=
  ∀ (s : State) (c : BitVec 4) (opd : BitVec 64), Running s → FiniteOpd s opd →
    let A := s.kit.A
    let x := sOperand s opd
    let f := s.regs.flt
    (∃ g : Flt Sample, Completes .fltReset s { s.regs with flt := g } 0 ∧
      (∀ k < s.cfg.nChMax, g.boost.get k = ⟨A.zero, A.zero⟩ ∧ g.cut.get k = ⟨A.zero, A.zero⟩ ∧
        g.hp.get k = ⟨A.zero, A.zero⟩ ∧ g.lp.get k = ⟨A.zero, A.zero⟩) ∧
      { g with boost := f.boost, cut := f.cut, hp := f.hp, lp := f.lp } = f) ∧
    (ChanOk s c → s.regs.eng.prep = true →
      (∃ b, Completes (.fltBoost c opd) s { s.regs with flt := { f with boost := b } }
          (biquadOut A (f.boost.get c.toNat) f.bcoef x) ∧
        ∀ k, b.get k = if k = c.toNat then biquadNext A (f.boost.get k) f.bcoef x else f.boost.get k) ∧
      (∃ b, Completes (.fltCut c opd) s { s.regs with flt := { f with cut := b } }
          (biquadOut A (f.cut.get c.toNat) f.ccoef x) ∧
        ∀ k, b.get k = if k = c.toNat then biquadNext A (f.cut.get k) f.ccoef x else f.cut.get k) ∧
      (∃ b, Completes (.fltHp c opd) s { s.regs with flt := { f with hp := b } }
          (svfHigh s.kit (f.hp.get c.toNat) f.hpg f.hph x) ∧
        ∀ k, b.get k = if k = c.toNat then svfNext s.kit (f.hp.get k) f.hpg f.hph x else f.hp.get k) ∧
      (∃ b, Completes (.fltLp c opd) s { s.regs with flt := { f with lp := b } }
          (svfLow s.kit (f.lp.get c.toNat) f.lpg f.lph x) ∧
        ∀ k, b.get k = if k = c.toNat then svfNext s.kit (f.lp.get k) f.lpg f.lph x else f.lp.get k))

/-! ### The chorus engine (spec/47_chorus_engine.md) -/

/-- `ENG.PREPARE` prepares the bank, ends every ramp of the engine, computes the shelf and cutoff coefficients, clears the
filter states and the sub-block count, and keeps the latches, the modes and the targets (R171, R131, R152, R156). -/
def Obligations.EngPrepares : Prop :=
  ∀ (s : State) (fs : BitVec 64), Running s → Closed s → s.regs.sys.nch ≠ 0 → FiniteOpd s fs →
    let A := s.kit.A
    let x := sOperand s fs
    let e := s.regs.eng
    let nv := s.cfg.nVoices
    let nch := s.regs.sys.nch
    A.lt (A.lit 400 1) x = true → CutoffOk A e.hpfc.tgt x → CutoffOk A e.lpfc.tgt x →
    (∀ v < nv, AllocOk s.kit (s.regs.getMdl v).maxDelay x) →
    ∃ r, Completes (.engPrepare fs) s r 0 ∧
      r.eng =
        { e with
          prep := true
          fs := x
          chcnt := 0
          mix := r.eng.mix
          hpfc := smReset A e.hpfc x s.cfg.cutoffRamp
          lpfc := smReset A e.lpfc x s.cfg.cutoffRamp } ∧
      (∀ c, r.eng.mix.get c = if c < s.cfg.nChMax then smReset A (e.mix.get c) x s.cfg.mixRamp else e.mix.get c) ∧
      r.flt.bcoef = shelfCoef A x (A.lit 200 1) (A.lit 1 1) (A.lit 13 10) ∧
      r.flt.ccoef = shelfCoef A x (A.lit 200 1) (A.lit 1 1) (A.lit 7 10) ∧
      (r.flt.hpg, r.flt.hph) = svfGains s.kit e.hpfc.tgt x ∧ (r.flt.lpg, r.flt.lph) = svfGains s.kit e.lpfc.tgt x ∧
      (∀ c < s.cfg.nChMax, r.flt.boost.get c = ⟨A.zero, A.zero⟩ ∧ r.flt.cut.get c = ⟨A.zero, A.zero⟩ ∧
        r.flt.hp.get c = ⟨A.zero, A.zero⟩ ∧ r.flt.lp.get c = ⟨A.zero, A.zero⟩) ∧
      r.vb = { s.regs.vb with prep := true } ∧ r.sys = s.regs.sys ∧
      (∀ v c, r.getOsc v c = if v < nv ∧ c < nch then oscPrepare s.kit x (s.regs.getOsc v c) else s.regs.getOsc v c) ∧
      (∀ v c, r.getDly v c = if v < nv ∧ c < nch then freshBuffer Sample (bufferWords A (s.regs.getMdl v).maxDelay x)
        else s.regs.getDly v c) ∧
      (∀ v c, (r.getMdl v).dp.get c = if v < nv ∧ c < nch then smReset A ((s.regs.getMdl v).dp.get c) x (A.lit 2 10)
        else (s.regs.getMdl v).dp.get c) ∧
      (∀ v c, (r.getMdl v).dt.get c = if v < nv ∧ c < nch then smReset A ((s.regs.getMdl v).dt.get c) x (A.lit 5 10)
        else (s.regs.getMdl v).dt.get c) ∧
      (∀ v < nv, r.getMdl v =
        { s.regs.getMdl v with prep := true, fs := x, dt := (r.getMdl v).dt, dp := (r.getMdl v).dp })

/-- `ENG.RESET` clears the audio history, ends every ramp at its target, abandons an open block and keeps the configuration;
on a prepared engine the cutoff coefficients follow (R172, R132, R158). -/
def Obligations.EngResets : Prop :=
  ∀ s : State, Running s →
    let A := s.kit.A
    let e := s.regs.eng
    let f := s.regs.flt
    let nv := s.cfg.nVoices
    let nch := s.regs.sys.nch
    (e.prep = true → CutoffOk A e.hpfc.tgt e.fs ∧ CutoffOk A e.lpfc.tgt e.fs) →
    ∃ r, Completes .engReset s r 0 ∧
      r.eng =
        { e with
          rem := 0
          chcnt := 0
          mix := r.eng.mix
          inp := r.eng.inp
          out := r.eng.out
          hpfc := smSettle A e.hpfc
          lpfc := smSettle A e.lpfc } ∧
      (∀ c, r.eng.mix.get c = if c < s.cfg.nChMax then smSettle A (e.mix.get c) else e.mix.get c) ∧
      (∀ c < s.cfg.nChMax, r.eng.inp.get c = A.zero ∧ r.eng.out.get c = A.zero ∧
        r.flt.boost.get c = ⟨A.zero, A.zero⟩ ∧ r.flt.cut.get c = ⟨A.zero, A.zero⟩ ∧
        r.flt.hp.get c = ⟨A.zero, A.zero⟩ ∧ r.flt.lp.get c = ⟨A.zero, A.zero⟩) ∧
      r.flt.bcoef = f.bcoef ∧ r.flt.ccoef = f.ccoef ∧
      (r.flt.hpg, r.flt.hph) = (if e.prep = true then svfGains s.kit e.hpfc.tgt e.fs else (f.hpg, f.hph)) ∧
      (r.flt.lpg, r.flt.lph) = (if e.prep = true then svfGains s.kit e.lpfc.tgt e.fs else (f.lpg, f.lph)) ∧
      r.vb = s.regs.vb ∧ r.sys = s.regs.sys ∧
      (∀ v c, r.getOsc v c = if v < nv ∧ c < nch then oscReset A (s.regs.getOsc v c) else s.regs.getOsc v c) ∧
      (∀ v c, r.getDly v c = if v < nv ∧ c < nch then freshBuffer Sample (s.regs.getDly v c).size
        else s.regs.getDly v c) ∧
      (∀ v c, (r.getMdl v).dp.get c = if v < nv ∧ c < nch then smSettle A ((s.regs.getMdl v).dp.get c)
        else (s.regs.getMdl v).dp.get c) ∧
      (∀ v c, (r.getMdl v).dt.get c = if v < nv ∧ c < nch then smSettle A ((s.regs.getMdl v).dt.get c)
        else (s.regs.getMdl v).dt.get c) ∧
      (∀ v, r.getMdl v = { s.regs.getMdl v with dt := (r.getMdl v).dt, dp := (r.getMdl v).dp })

/-- The engine's setters: `ENG.SETMODE` writes `MODE` only, `ENG.SETFBYP` the two bypass flags, `ENG.SETMIX` retargets every
channel's mix, `ENG.SETHPF` and `ENG.SETLPF` retarget a cutoff (R173 to R177, R81). -/
def Obligations.EngSetters : Prop :=
  ∀ (s : State) (opd : BitVec 64) (k : Mode) (hp lp : Bool), Running s → FiniteOpd s opd →
    let A := s.kit.A
    let x := sOperand s opd
    let e := s.regs.eng
    Completes (.engSetmode k) s { s.regs with eng := { e with mode := k } } 0 ∧
    Completes (.engSetfbyp hp lp) s { s.regs with eng := { e with hpByp := hp, lpByp := lp } } 0 ∧
    (A.le A.zero x = true → A.le x (A.lit 1 1) = true → ∃ b,
      Completes (.engSetmix opd) s { s.regs with eng := { e with mix := b } } 0 ∧
      ∀ c, b.get c = if c < s.cfg.nChMax then smSetTarget A (e.mix.get c) x else e.mix.get c) ∧
    (A.lt A.zero x = true → (e.prep = true → A.lt x (A.div e.fs (A.lit 2 1)) = true) →
      Completes (.engSethpf opd) s { s.regs with eng := { e with hpfc := smSetTarget A e.hpfc x } } 0 ∧
      Completes (.engSetlpf opd) s { s.regs with eng := { e with lpfc := smSetTarget A e.lpfc x } } 0)

/-- The block protocol around a frame: `ENG.BEGIN` latches mode and bypass and opens the block, `ENG.IN` loads an input latch,
`ENG.OUT` answers an output latch, `ENG.LATENCY` the rounded base delay, saturated (R178, R179, R187, R188, R192). When that
integer is negative the command completes too, and the `u32` it answers is free (log entry 19). -/
def Obligations.EngBlock : Prop :=
  ∀ (s : State) (c : BitVec 4) (x n : BitVec 64) (byp : Bool), Running s → FiniteOpd s x → IntOpd n →
    let A := s.kit.A
    let e := s.regs.eng
    (e.prep = true → Closed s → Completes (.engBegin byp n) s
      { s.regs with eng := { e with modeL := e.mode, bypL := byp, rem := n.toNat, chcnt := 0 } } 0) ∧
    (ChanOk s c → ∃ b, Completes (.engIn c x) s { s.regs with eng := { e with inp := b } } 0 ∧
      (∀ k, b.get k = if k = c.toNat then sOperand s x else e.inp.get k)) ∧
    (ChanOk s c → Completes (.engOut c) s s.regs (e.out.get c.toNat)) ∧
    let z := A.round (A.mul ((s.regs.getMdl 0).dt.get 0).cur e.fs)
    (e.prep = true → ∃ n < 2 ^ 32, (0 ≤ z → n = min z.toNat 4294967295) ∧
      Completes .engLatency s s.regs (BitVec.ofNat 64 n))

/-- `ENG.STEP` processes one frame: every voice runs on every channel, the wet signals pass the filters that are not bypassed,
every output is mixed by the latched mode from the wet signals of channels `c` and `(c+1) mod NCH`, or is the input under
bypass; the counters and smoothers advance by one and the cutoffs are refreshed at the end of a sub-block and of the block (R180
to R186, R189, R155). -/
def Obligations.EngSteps : Prop :=
  ∀ s : State, Running s → s.regs.eng.prep = true → 0 < s.regs.eng.rem →
    let K := s.kit
    let A := K.A
    let e := s.regs.eng
    let f := s.regs.flt
    let nch := s.regs.sys.nch
    (∀ v < s.cfg.nVoices, ∀ c < nch, ReadOk K s.regs v c ∧ (s.regs.getDly v c).ram.wf 0 = true) →
    (RefreshDue s → CutoffOk A (smSkip A e.hpfc (e.chcnt + 1)).cur e.fs ∧
      CutoffOk A (smSkip A e.lpfc (e.chcnt + 1)).cur e.fs) →
    ∃ r, Completes .engStep s r 0 ∧
      r.eng =
        { e with
          rem := e.rem - 1
          chcnt := if RefreshDue s then 0 else e.chcnt + 1
          mix := r.eng.mix
          out := r.eng.out
          hpfc := if RefreshDue s then smSkip A e.hpfc (e.chcnt + 1) else e.hpfc
          lpfc := if RefreshDue s then smSkip A e.lpfc (e.chcnt + 1) else e.lpfc } ∧
      (∀ c, r.eng.out.get c = if c < nch then (if e.bypL = true then e.inp.get c else mixOut K s.regs c)
        else e.out.get c) ∧
      (∀ c, r.eng.mix.get c = if c < nch then (smNext A (e.mix.get c)).2 else e.mix.get c) ∧
      (∀ c, r.flt.hp.get c = if c < nch ∧ e.hpByp = false then
        svfNext K (f.hp.get c) f.hpg f.hph (bankOut K s.regs c (e.inp.get c)) else f.hp.get c) ∧
      (∀ c, r.flt.lp.get c = if c < nch ∧ e.lpByp = false then
        svfNext K (f.lp.get c) f.lpg f.lph (wetHigh K s.regs c) else f.lp.get c) ∧
      (∀ c, r.flt.boost.get c = if c < nch ∧ e.modeL = .dimension then
        biquadNext A (f.boost.get c) f.bcoef (e.inp.get c) else f.boost.get c) ∧
      (∀ c, r.flt.cut.get c = if c < nch ∧ e.modeL = .dimension then
        biquadNext A (f.cut.get c) f.ccoef (wetOut K s.regs ((c + 1) % nch)) else f.cut.get c) ∧
      r.flt.bcoef = f.bcoef ∧ r.flt.ccoef = f.ccoef ∧
      (r.flt.hpg, r.flt.hph) =
        (if RefreshDue s then svfGains K (smSkip A e.hpfc (e.chcnt + 1)).cur e.fs else (f.hpg, f.hph)) ∧
      (r.flt.lpg, r.flt.lph) =
        (if RefreshDue s then svfGains K (smSkip A e.lpfc (e.chcnt + 1)).cur e.fs else (f.lpg, f.lph)) ∧
      (∀ v < s.cfg.nVoices, ∀ c < nch, VoiceStepped K s.regs r v c (e.inp.get c)) ∧
      (∀ v c, ¬(v < s.cfg.nVoices ∧ c < nch) → r.getOsc v c = s.regs.getOsc v c ∧ r.getDly v c = s.regs.getDly v c ∧
        (r.getMdl v).dt.get c = (s.regs.getMdl v).dt.get c ∧ (r.getMdl v).dp.get c = (s.regs.getMdl v).dp.get c) ∧
      (∀ v, r.getMdl v = { s.regs.getMdl v with dt := (r.getMdl v).dt, dp := (r.getMdl v).dp }) ∧
      r.sys = s.regs.sys ∧ r.vb = s.regs.vb

/-- A bypassed frame does everything the same frame does not bypassed, and only the last assignment differs (R189, R190 (d)):
they fault alike, every smoother, oscillator, buffer and filter advances alike, and the state after is the same but for the
bypass latch itself and `OUT`, which under bypass is the input. -/
def Obligations.BypassKeepsRunning : Prop :=
  ∀ (s t t' : State),
    exec .engStep { s with regs := { s.regs with eng := { s.regs.eng with bypL := false } } } = .next t →
    exec .engStep { s with regs := { s.regs with eng := { s.regs.eng with bypL := true } } } = .next t' →
    ∃ out, t' = { t with regs := { t.regs with eng := { t.regs.eng with bypL := true, out := out } } } ∧
      (t'.resp.fault = false → ∀ c < s.regs.sys.nch, out.get c = s.regs.eng.inp.get c)

/-- The mode register has no effect on a frame: the latched mode alone decides it, so an `ENG.SETMODE` inside a block changes
nothing of that block but `MODE` (R173, R180, R190 (a)). -/
def Obligations.ModeIsLatched : Prop :=
  ∀ (s t : State) (k : Mode), exec .engStep s = .next t →
    exec .engStep { s with regs := { s.regs with eng := { s.regs.eng with mode := k } } } =
      .next { t with regs := { t.regs with eng := { t.regs.eng with mode := k } } }

/-! ### Invariants of every step (spec/10_state.md) -/

/-- R25 in every smoother: `CNT = 0` implies `CUR = TGT`, and `CNT <= N`. -/
def Obligations.SmoothersKept : Prop := ∀ s t : State, SmoothersOk s → step s = .next t → SmoothersOk t

/-- R26 in every oscillator: the table position is always in `[0, TABLE_SIZE)`, whatever the frequency (R96), and also where
the increment is not finite, as U6 says; the value then is free inside that range (log entries 6 and 10). -/
def Obligations.PositionsKept : Prop := ∀ s t : State, PositionsOk s → step s = .next t → PositionsOk t

/-- R27 and R40 in every delay buffer: the size is at most `DLY_CAP`, the cursor inside the buffer, and the memory lists
addressable words only, in its canonical form, which is the model's representation (log entry 14). -/
def Obligations.BuffersKept : Prop := ∀ s t : State, BuffersOk s → step s = .next t → BuffersOk t

/-- The control registers' rules (R23, R29, R36, R205): counts inside their ranges, a block open only on a prepared engine,
prepared units with their channel count and prepared parts, `CAUSE` 0 exactly when the block is not halted. The counting
registers are natural numbers in the model, and these are their bounds (log entry 15). -/
def Obligations.ControlKept : Prop := ∀ s t : State, ControlOk s → step s = .next t → ControlOk t

/-- Every invariant holds after reset, for the block of the default parameters (R220; log entry 1). -/
def Obligations.InvariantsAtReset : Prop :=
  SmoothersOk State.reset ∧ PositionsOk State.reset ∧ BuffersOk State.reset ∧ ControlOk State.reset

/-! ### The reference reading, over the real numbers -/

/-- The tables over `real` (R45): the sine falling from 0, the triangle through its four corners, both 0 at the guard entry,
both in `[-1, 1]`, and every interpolation between two neighbours in `[-1, 1]`. -/
def Obligations.RomOverReals : Prop :=
  ∀ (T : Nat), 2 ≤ T →
    (∀ i < T, let p := (i : ℝ) / (T : ℝ)
      rom Arith.real T .sine i = -Real.sin (2 * Real.pi * p) ∧
      (p ≤ 1 / 4 → rom Arith.real T .triangle i = -4 * p) ∧
      (1 / 4 ≤ p → p ≤ 3 / 4 → rom Arith.real T .triangle i = -2 + 4 * p) ∧
      (3 / 4 ≤ p → rom Arith.real T .triangle i = 4 - 4 * p)) ∧
    rom Arith.real T .sine T = 0 ∧ rom Arith.real T .triangle T = 0 ∧
    (∀ (k : Wave) (i : Nat), i ≤ T → |rom Arith.real T k i| ≤ 1) ∧
    (∀ (k : Wave) (i : Nat) (x : ℝ), i < T → 0 ≤ x → x < 1 →
      |lerp Arith.real (rom Arith.real T k i) (rom Arith.real T k (i + 1)) x| ≤ 1)

/-- The smoother over `real` (R81, R83, R85, R86): the operations keep a ramp on its way to its target; a sample moves `CUR`
toward `TGT` by `|STEP|` and never past it; a new target is reached by exactly `N` samples; a skip is that many samples. -/
def Obligations.SmootherOverReals : Prop :=
  ∀ (p : Smoother ℝ), SmootherOk p → OnRamp p →
    let next := fun q : Smoother ℝ => (smNext Arith.real q).2
    (∀ x fs ramp, OnRamp (smSetTarget Arith.real p x) ∧ OnRamp (smSetBoth Arith.real p x) ∧
      OnRamp (smReset Arith.real p fs ramp)) ∧
    (∀ n, OnRamp (smSkip Arith.real p n) ∧ smSkip Arith.real p n = next^[n] p) ∧
    OnRamp (next p) ∧
    (0 < p.cnt → |p.tgt - (next p).cur| + |p.step| = |p.tgt - p.cur|) ∧
    (∀ x, x ≠ p.tgt → 0 < p.n →
      next^[p.n] (smSetTarget Arith.real p x) = { p with cur := x, tgt := x, cnt := 0, step := (x - p.cur) / p.n } ∧
      ∀ k < p.n, (next^[k] (smSetTarget Arith.real p x)).cnt ≠ 0)

/-- The oscillator over `real` (R97): every sample lies in `[-1, 1]`, the tables close on themselves, and after a prepare with
the phase at rest at 0 the `k`-th sample reads position `wrap(k * DELTA, T)`. -/
def Obligations.OscillatorOverReals : Prop :=
  ∀ (P : Params ℝ) (o : Osc ℝ), 2 ≤ P.tableSize →
    let K := Kit.real P
    let T := P.tableSize
    |(oscProcess K o).1| ≤ 1 ∧ (∀ k : Wave, rom K.A T k 0 = rom K.A T k T) ∧
    (o.pos = 0 → o.ph.cnt = 0 → o.ph.tgt = 0 → ∀ k : Nat,
      let ok := (fun q => (oscProcess K q).2)^[k] o
      let r := (k : ℝ) * o.delta - (T : ℝ) * ⌊(k : ℝ) * o.delta / (T : ℝ)⌋
      ok.pos = r ∧ (oscProcess K ok).1 = lerp K.A (rom K.A T o.type ⌊r⌋₊) (rom K.A T o.type (⌊r⌋₊ + 1)) (r - ⌊r⌋₊))

/-- Delays over `real`. The bound that keeps reads inside the buffer (R122): delay and depth ramps whose ends were accepted
under the bounds in force, in a buffer of `ceil(MAXDELAY * FS)` words, give a delay inside `(0, SIZE)`, so a voice cannot
fault. And a fractional read at a whole number of samples is the integer read (R107). -/
def Obligations.DelaysOverReals : Prop :=
  (∀ (b : Dly ℝ) (d : Nat), b.cur < b.size → d < b.size →
    dlyGetLinear Arith.real (d : ℝ) b = dlyGet Arith.real d b) ∧
  ∀ (P : Params ℝ) (r : Regs ℝ) (v c : Nat), 2 ≤ P.tableSize →
    let m := r.getMdl v
    let dt := m.dt.get c
    let dp := m.dp.get c
    let inDelay := fun t : ℝ => 0 < t ∧ t < m.maxDelay - m.maxDepth
    let inDepth := fun d : ℝ => 0 ≤ d ∧ d ≤ m.maxDepth
    SmootherOk dt → OnRamp dt → inDelay dt.cur → inDelay dt.tgt →
    SmootherOk dp → OnRamp dp → inDepth dp.cur → inDepth dp.tgt →
    0 < m.fs → (r.getDly v c).size = ⌈m.maxDelay * m.fs⌉₊ →
    0 < readDelay (Kit.real P) r v c ∧ readDelay (Kit.real P) r v c < (r.getDly v c).size ∧ ReadOk (Kit.real P) r v c

/-- Spreading and gain over `real` (R137, R138, R139, R145): the even channels' offsets, the 1 ms floor at full width, no
effect of the spread at a base delay of 5 ms, R139's worked example, and the equal-power gain. -/
def Obligations.SpreadAndGainOverReals : Prop :=
  ∀ (P : Params ℝ), 1 ≤ P.nVoices →
    let K := Kit.real P
    (∀ (base spread width : ℝ) (v c : Nat), c % 2 = 0 →
      spreadDelay K base spread width v c = base - spread * (base - 1 / 200) * (v / P.nVoices)) ∧
    (∀ (base spread : ℝ) (v c : Nat), c % 2 = 1 → spreadDelay K base spread 1 v c = 1 / 1000) ∧
    (∀ (base spread : ℝ) (v c : Nat), spreadDelay K base spread 0 v c = spreadDelay K base spread 0 v 0) ∧
    (∀ (spread : ℝ) (v : Nat), spreadDelay K (1 / 200) spread 0 v 0 = 1 / 200) ∧
    (P.nVoices = 4 → ∀ v < 4, spreadDelay K (21 / 1000) 1 (1 / 2) v 0 = (21 - 4 * (v : ℝ)) / 1000 ∧
      spreadDelay K (21 / 1000) 1 (1 / 2) v 1 = (11 - 2 * (v : ℝ)) / 1000) ∧
    (∀ (r : Regs ℝ) (c : Nat) (x : ℝ), r.vb.active ≤ P.nVoices →
      bankOut K r c x = (∑ v ∈ Finset.range r.vb.active, voiceOut K r v c x) / Real.sqrt r.vb.active)

/-- The shelves and the state-variable filters over `real` (R153, R156, R157). A shelf has gain `G` at frequency 0 and 1 at the
Nyquist frequency, and for every constant input `x` a fixed point: a state that `Biquad` keeps while it answers `G * x`. A
state-variable filter has `g = 1` at a quarter of the sample rate, `g, h > 0` below half of it, and the fixed point `(0, x)`,
at which it answers `lp = x`, `hp = 0`. That a filter converges to its fixed point is not stated. -/
def Obligations.FiltersOverReals : Prop :=
  (∀ fs f0 q g : ℝ, 0 < f0 → f0 < fs / 2 → 0 < q → 0 < g →
    let k := shelfCoef Arith.real fs f0 q g
    1 + k.c3 + k.c4 ≠ 0 ∧ 1 - k.c3 + k.c4 ≠ 0 ∧ (k.c0 + k.c1 + k.c2) / (1 + k.c3 + k.c4) = g ∧
    (k.c0 - k.c1 + k.c2) / (1 - k.c3 + k.c4) = 1 ∧ ∀ x : ℝ, ∃ st, biquad Arith.real st k x = (g * x, st)) ∧
  (∀ (P : Params ℝ) (fs : ℝ), 0 < P.svfQ → 0 < fs →
    svfCoef (Kit.real P) (fs / 4) fs = .ok (1, 1 / (2 + 1 / P.svfQ)) ∧
    ∀ fc, 0 < fc → fc < fs / 2 → ∃ g h, svfCoef (Kit.real P) fc fs = .ok (g, h) ∧ 0 < g ∧ 0 < h ∧
      ∀ x : ℝ, svf Arith.real (damping (Kit.real P)) { s1 := 0, s2 := x } g h x = (0, x, { s1 := 0, s2 := x }))

/-- The mixing modes over `real` (R182 to R185, R190 (c)): each formula, the dry signal alone at `m = 0` in STEREO, MONO and
VIBRATO and the boosted one in DIMENSION, `a - b` at `m = 1` in STEREO; only DIMENSION writes a filter. -/
def Obligations.MixesOverReals : Prop :=
  ∀ (c : Nat) (d a b m : ℝ) (f : Flt ℝ),
    let A := Arith.real
    mix A .stereo c d a b m f = (d * (1 - m) + (a - b) * m, f) ∧
    mix A .mono c d a b m f = (d * (1 - m) + (a + b) * m * (1 / Real.sqrt 2), f) ∧
    mix A .vibrato c d a b m f = (d * (1 - m) + a * m, f) ∧
    (mix A .dimension c d a b m f).1 =
      biquadOut A (f.boost.get c) f.bcoef d * (1 - m) + (a - biquadOut A (f.cut.get c) f.ccoef b) * m ∧
    (∀ k : Mode, k ≠ .dimension → (mix A k c d a b 0 f).1 = d) ∧
    (mix A .dimension c d a b 0 f).1 = biquadOut A (f.boost.get c) f.bcoef d ∧ (mix A .stereo c d a b 1 f).1 = a - b

end
end

