-- ==== Sys2Proof/Laws/Float.lean ====
section
/-! SUPPORT. What `floor`, `ceil` and `round` give (R12), and when a `binary32` operation on finite words gives a finite word: the tests use it to show states in which a
voice reads inside its buffer, whatever finite words the configuration's `sin` puts into the wavetable ROM (U7). -/

namespace Sys2Proof.Machine
open Sys2Proof.Ieee

/-- An `up` of rounding is 0, or it is 1 and its condition holds. -/
theorem zero_or_one (p : Prop) [Decidable p] : (if p then 1 else 0) = 0 ∨ ((if p then 1 else 0) = 1 ∧ p) := by
  by_cases h : p <;> simp [h]

/-- Below half a unit above the greatest number, the rounded magnitude stays below that of `inf`, at any legal spacing. -/
theorem roundMag_le (num den s : Nat) (h : num < (2 ^ 25 - 1) * 2 ^ 252 * den) (hs : s ≤ 253)
    (hm : num / (den <<< s) < 2 ^ 24) (up : Nat)
    (hup : up = 0 ∨ (up = 1 ∧ den <<< s ≤ 2 * (num % (den <<< s)))) :
    (s <<< 23) + num / (den <<< s) + up < 0x7F800000 := by
  rw [Nat.shiftLeft_eq s]
  rcases Nat.lt_or_ge s 253 with h1 | h1
  · omega
  · obtain rfl : s = 253 := by omega
    rcases hup with rfl | ⟨rfl, hr⟩
    · omega
    · have e : den <<< 253 = 2 * (2 ^ 252 * den) := by rw [Nat.shiftLeft_eq]; ring
      rw [show (2 ^ 25 - 1) * 2 ^ 252 * den = 2 ^ 252 * den * (2 ^ 25 - 1) by ring] at h
      have hd := Nat.div_add_mod num (den <<< 253)
      rw [e] at hd hr hm ⊢
      generalize 2 ^ 252 * den = d at *
      generalize num % (2 * d) = r at *
      generalize num / (2 * d) = m at *
      have hlt : d * (2 * m + 1) < d * (2 ^ 25 - 1) := by
        have : d * (2 * m + 1) = 2 * d * m + d := by ring
        omega
      have := Nat.lt_of_mul_lt_mul_left hlt
      omega

/-- A magnitude less than half a unit above the greatest number rounds to a number. -/
theorem roundMag_finite (num den : Nat) (h : num < (2 ^ 25 - 1) * 2 ^ 252 * den) :
    roundMag .binary32 num den < infMag .binary32 := by
  have hq : num / den < (2 ^ 25 - 1) * 2 ^ 252 := Nat.div_lt_of_lt_mul (by rwa [Nat.mul_comm] at h)
  refine lt_of_le_of_lt (Nat.min_le_left _ _) ?_
  refine roundMag_le _ _ _ h ?_ ?_ _ ?_
  · split
    · omega
    · next hs =>
      have hne : num / den ≠ 0 := by intro h0; rw [h0] at hs; exact hs (by decide)
      have hk : (num / den).log2 < 277 := (Nat.log2_lt hne).mpr (hq.trans (lt_of_lt_of_eq (Nat.mul_lt_mul_of_pos_right (by norm_num) (by positivity)) (pow_add 2 25 252).symm))
      simp only [fracBits]; omega
  · split
    · next hs => exact hs
    · next hs =>
      have hne : num / den ≠ 0 := by intro h0; rw [h0] at hs; exact hs (by decide)
      have hk2 : 24 ≤ (num / den).log2 := (Nat.le_log2 hne).mpr (Nat.le_of_not_lt hs)
      rw [Nat.shiftLeft_eq, ← Nat.div_div_eq_div_mul]
      refine Nat.div_lt_of_lt_mul ?_
      rw [← pow_add]
      refine lt_of_lt_of_eq Nat.lt_log2_self (by congr 1; simp only [fracBits]; omega)
  · refine (zero_or_one _).imp id (And.imp_right fun hu => ?_)
    simp only [Bool.or_eq_true, Bool.and_eq_true, decide_eq_true_eq] at hu
    omega

theorem finite_of_round {neg : Bool} {n d : Nat} (h : n < (2 ^ 25 - 1) * 2 ^ 252 * d) :
    isFinite .binary32 (Ieee.round .binary32 neg n d) = true := by
  have := roundMag_finite n d h
  unfold isFinite Ieee.round mag pack
  generalize roundMag .binary32 n d = m at *
  simp only [infMag, signWeight, decide_eq_true_eq, BitVec.toNat_ofNat] at *
  cases neg <;> simp <;> omega

theorem finite_pack (neg : Bool) : isFinite .binary32 (pack .binary32 neg 0) = true := by cases neg <;> decide

/-- The greatest number. -/
theorem units_le {x : Sample} (h : isFinite .binary32 x = true) : units .binary32 x ≤ (2 ^ 24 - 1) * 2 ^ 253 := by
  have h : mag .binary32 x < 0x7F800000 := of_decide_eq_true h
  show (if mag .binary32 x / 2 ^ 23 = 0 then mag .binary32 x % 2 ^ 23
    else (mag .binary32 x % 2 ^ 23 + 2 ^ 23) <<< (mag .binary32 x / 2 ^ 23 - 1)) ≤ _
  generalize mag .binary32 x = m at *
  by_cases he : m / 2 ^ 23 = 0
  · rw [if_pos he]; omega
  · rw [if_neg he, Nat.shiftLeft_eq]
    exact Nat.mul_le_mul (by omega) (Nat.pow_le_pow_right (by norm_num) (by omega))

theorem finite_ofSum (signs : Bool × Bool) {z : Int} (h : z.natAbs < (2 ^ 25 - 1) * 2 ^ 252) :
    isFinite .binary32 (ofSum .binary32 signs z) = true := by
  unfold ofSum
  split
  · exact finite_pack _
  · exact finite_of_round (by omega)

/-- Two finite words of the same sign have a finite difference. -/
theorem finite_sub {x y : Sample} (hx : isFinite .binary32 x = true) (hy : isFinite .binary32 y = true)
    (h : isNeg .binary32 x = isNeg .binary32 y) : isFinite .binary32 (Ieee.sub .binary32 x y) = true := by
  have h1 := units_le hx
  have h2 := units_le hy
  simp only [Ieee.sub, hx, hy, Bool.and_self, if_true]
  refine finite_ofSum _ ?_
  unfold toInt
  rw [h]
  split <;> omega

/-- A finite word times one of magnitude at most 1 is finite. -/
theorem finite_mul_small {x y : Sample} (hx : isFinite .binary32 x = true) (hy : isFinite .binary32 y = true)
    (h : units .binary32 y ≤ one .binary32) : isFinite .binary32 (Ieee.mul .binary32 x y) = true := by
  have h1 := units_le hx
  simp only [Ieee.mul, hx, hy, Bool.and_self, if_true]
  refine finite_of_round ?_
  refine lt_of_le_of_lt (Nat.mul_le_mul h1 h) (Nat.mul_lt_mul_of_pos_right (by norm_num) (by decide))

/-- A finite word plus one of magnitude at most 1 is finite. -/
theorem finite_add_small {x y : Sample} (hx : isFinite .binary32 x = true) (hy : isFinite .binary32 y = true)
    (h : units .binary32 y ≤ one .binary32) : isFinite .binary32 (Ieee.add .binary32 x y) = true := by
  have h1 := units_le hx
  have h3 : units .binary32 y ≤ 2 ^ 149 := h
  simp only [Ieee.add, hx, hy, Bool.and_self, if_true]
  refine finite_ofSum _ ?_
  have : ∀ z, (toInt .binary32 z).natAbs = units .binary32 z := by intro z; unfold toInt; split <;> omega
  have ha := this x; have hb := this y
  omega

/-- A finite word times a zero is a zero. -/
theorem mul_zero_cases {x : Sample} (hx : isFinite .binary32 x = true) :
    Ieee.mul .binary32 x 0 = pack .binary32 true 0 ∨ Ieee.mul .binary32 x 0 = pack .binary32 false 0 := by
  have : Ieee.mul .binary32 x 0 = Ieee.round .binary32 (isNeg .binary32 x != false) (units .binary32 x * 0) (one .binary32) := by
    simp only [Ieee.mul, hx]; rfl
  rw [this, Nat.mul_zero]
  cases isNeg .binary32 x
  · right; decide
  · left; decide

/-- A zero times a finite word is a zero. -/
theorem zero_mul_cases {x : Sample} (hx : isFinite .binary32 x = true) :
    Ieee.mul .binary32 0 x = pack .binary32 true 0 ∨ Ieee.mul .binary32 0 x = pack .binary32 false 0 := by
  have : Ieee.mul .binary32 0 x = Ieee.round .binary32 (false != isNeg .binary32 x) (0 * units .binary32 x) (one .binary32) := by
    simp only [Ieee.mul, hx]; rfl
  rw [this, Nat.zero_mul]
  cases isNeg .binary32 x
  · right; decide
  · left; decide

/-! ### Integers (R12), in both formats and over the real numbers

`z / one p` below stands for a number in exact form: `toInt` counts units, and `one` units are the number 1. -/

/-- `floor` of a number: not above it, and above it less 1. -/
theorem floor_spec {p : Prec} {x : Sample} (h : isFinite p x = true) :
    Ieee.floor p x * (one p : Int) ≤ toInt p x ∧ toInt p x < (Ieee.floor p x + 1) * (one p : Int) := by
  have h1 : (0 : Int) < (one p : Int) := by cases p <;> decide
  simp only [Ieee.floor, h, if_true]
  exact ⟨Int.ediv_mul_le _ h1.ne', Int.lt_ediv_add_one_mul_self _ h1⟩

/-- `ceil` of a number: not below it, and below it plus 1. -/
theorem ceil_spec {p : Prec} {x : Sample} (h : isFinite p x = true) : ∃ z, Ieee.ceil p x = some z ∧
    toInt p x ≤ z * (one p : Int) ∧ (z - 1) * (one p : Int) < toInt p x := by
  have h1 : (0 : Int) < (one p : Int) := by cases p <;> decide
  refine ⟨-(-toInt p x / (one p : Int)), if_pos h, ?_, ?_⟩
  · have := Int.ediv_mul_le (-toInt p x) h1.ne'
    rw [Int.neg_mul]; omega
  · have := Int.lt_ediv_add_one_mul_self (-toInt p x) h1
    rw [show (-(-toInt p x / (one p : Int)) - 1) * (one p : Int) = -((-toInt p x / (one p : Int) + 1) * (one p : Int)) by ring]
    omega

/-- `round` of a number: its sign, and a magnitude at most one half away, at exactly one half the greater one. -/
theorem round_spec {p : Prec} {x : Sample} (h : isFinite p x = true) : ∃ n : Nat,
    Ieee.roundInt p x = (if isNeg p x then -(n : Int) else n) ∧
    2 * n * one p ≤ 2 * units p x + one p ∧ 2 * units p x < (2 * n + 1) * one p := by
  have h1 : 0 < 2 * one p := by cases p <;> decide
  refine ⟨(2 * units p x + one p) / (2 * one p), by simp only [Ieee.roundInt, h, if_true], ?_, ?_⟩
  · have := Nat.div_mul_le_self (2 * units p x + one p) (2 * one p)
    calc _ = (2 * units p x + one p) / (2 * one p) * (2 * one p) := by ring
      _ ≤ _ := this
  · have := Nat.lt_div_mul_add (a := 2 * units p x + one p) h1
    have e : (2 * ((2 * units p x + one p) / (2 * one p)) + 1) * one p + one p =
      (2 * units p x + one p) / (2 * one p) * (2 * one p) + 2 * one p := by ring
    omega

/-- Every function of the configuration gives finite words (U7). -/
theorem finite_finiteWord (y : Sample) : isFinite .binary32 (finiteWord .binary32 y) = true := by
  unfold finiteWord
  by_cases h : isFinite .binary32 (word .binary32 y) = true
  · rw [if_pos h]; exact h
  · rw [if_neg h]; decide

/-- The interpolation at a table entry, `f = 0`, between two entries of the same sign. -/
theorem finite_lerp {x y : Sample} (hx : isFinite .binary32 x = true) (hy : isFinite .binary32 y = true)
    (h : isNeg .binary32 x = isNeg .binary32 y) : isFinite .binary32 (lerp (Arith.ieee .binary32) x y 0) = true := by
  have h1 := finite_sub hy hx h.symm
  show isFinite .binary32 (Ieee.add .binary32 x (Ieee.mul .binary32 0 (Ieee.sub .binary32 y x))) = true
  rcases zero_mul_cases h1 with e | e <;> rw [e] <;> exact finite_add_small hx (by decide) (by decide)

end Sys2Proof.Machine
end

