-- ==== Sys2Proof/Laws/State.lean ====
section
/-! SUPPORT. One lemma per field per update of the state (each true by unfolding the update once). -/

namespace Sys2Proof.Machine


/-! ### complete, faultEntry, refuse, the command port -/

@[simp] theorem complete_prec (s : State) (r : Regs Sample) (x : BitVec 64) : (complete s r x).prec = s.prec := rfl
@[simp] theorem complete_cfg (s : State) (r : Regs Sample) (x : BitVec 64) : (complete s r x).cfg = s.cfg := rfl
@[simp] theorem complete_regs (s : State) (r : Regs Sample) (x : BitVec 64) : (complete s r x).regs = r := rfl
@[simp] theorem complete_port (s : State) (r : Regs Sample) (x : BitVec 64) : (complete s r x).port = s.port := rfl
@[simp] theorem complete_resp (s : State) (r : Regs Sample) (x : BitVec 64) : (complete s r x).resp = { fault := false, val := x } := rfl
@[simp] theorem faultEntry_prec (e : Cause) (h : BitVec 32) (s : State) : (faultEntry e h s).prec = s.prec := rfl
@[simp] theorem faultEntry_cfg (e : Cause) (h : BitVec 32) (s : State) : (faultEntry e h s).cfg = s.cfg := rfl
@[simp] theorem faultEntry_port (e : Cause) (h : BitVec 32) (s : State) : (faultEntry e h s).port = s.port := rfl
@[simp] theorem faultEntry_resp (e : Cause) (h : BitVec 32) (s : State) : (faultEntry e h s).resp = { fault := true, val := e.code.setWidth 64 } := rfl
@[simp] theorem faultEntry_regs_osc (e : Cause) (h : BitVec 32) (s : State) : (faultEntry e h s).regs.osc = s.regs.osc := rfl
@[simp] theorem faultEntry_regs_dly (e : Cause) (h : BitVec 32) (s : State) : (faultEntry e h s).regs.dly = s.regs.dly := rfl
@[simp] theorem faultEntry_regs_mdl (e : Cause) (h : BitVec 32) (s : State) : (faultEntry e h s).regs.mdl = s.regs.mdl := rfl
@[simp] theorem faultEntry_regs_vb (e : Cause) (h : BitVec 32) (s : State) : (faultEntry e h s).regs.vb = s.regs.vb := rfl
@[simp] theorem faultEntry_regs_flt (e : Cause) (h : BitVec 32) (s : State) : (faultEntry e h s).regs.flt = s.regs.flt := rfl
@[simp] theorem faultEntry_regs_eng (e : Cause) (h : BitVec 32) (s : State) : (faultEntry e h s).regs.eng = s.regs.eng := rfl
@[simp] theorem faultEntry_halt (e : Cause) (h : BitVec 32) (s : State) : (faultEntry e h s).regs.sys.halt = true := rfl
@[simp] theorem faultEntry_cause (e : Cause) (h : BitVec 32) (s : State) : (faultEntry e h s).regs.sys.cause = e.code := rfl
@[simp] theorem faultEntry_info (e : Cause) (h : BitVec 32) (s : State) : (faultEntry e h s).regs.sys.info = h := rfl
@[simp] theorem faultEntry_nch (e : Cause) (h : BitVec 32) (s : State) : (faultEntry e h s).regs.sys.nch = s.regs.sys.nch := rfl
@[simp] theorem faultEntry_blkHint (e : Cause) (h : BitVec 32) (s : State) : (faultEntry e h s).regs.sys.blkHint = s.regs.sys.blkHint := rfl
@[simp] theorem refuse_prec (s : State) : (refuse s).prec = s.prec := rfl
@[simp] theorem refuse_cfg (s : State) : (refuse s).cfg = s.cfg := rfl
@[simp] theorem refuse_regs (s : State) : (refuse s).regs = s.regs := rfl
@[simp] theorem refuse_port (s : State) : (refuse s).port = s.port := rfl
@[simp] theorem refuse_resp (s : State) : (refuse s).resp = { fault := true, val := s.regs.sys.cause.setWidth 64 } := rfl
@[simp] theorem placeWord_prec (w : CmdWord) (s : State) : (placeWord w s).prec = s.prec := rfl
@[simp] theorem placeWord_cfg (w : CmdWord) (s : State) : (placeWord w s).cfg = s.cfg := rfl
@[simp] theorem placeWord_regs (w : CmdWord) (s : State) : (placeWord w s).regs = s.regs := rfl
@[simp] theorem placeWord_port (w : CmdWord) (s : State) : (placeWord w s).port = w :: s.port.tail := rfl
@[simp] theorem placeWord_resp (w : CmdWord) (s : State) : (placeWord w s).resp = s.resp := rfl
@[simp] theorem kit_A (s : State) : s.kit.A = Arith.ieee s.prec := rfl
@[simp] theorem kit_P (s : State) : s.kit.P = s.cfg := rfl
@[simp] theorem kit_complete (s : State) (r : Regs Sample) (x : BitVec 64) : (complete s r x).kit = s.kit := rfl
@[simp] theorem kit_faultEntry (e : Cause) (h : BitVec 32) (s : State) : (faultEntry e h s).kit = s.kit := rfl

/-! ### registers by voice and channel -/

section
variable {S : Type} [Inhabited S]

@[simp] theorem setOsc_sys (r : Regs S) (v c : Nat) (o : Osc S) : (r.setOsc v c o).sys = r.sys := rfl
@[simp] theorem setOsc_dly (r : Regs S) (v c : Nat) (o : Osc S) : (r.setOsc v c o).dly = r.dly := rfl
@[simp] theorem setOsc_mdl (r : Regs S) (v c : Nat) (o : Osc S) : (r.setOsc v c o).mdl = r.mdl := rfl
@[simp] theorem setOsc_vb (r : Regs S) (v c : Nat) (o : Osc S) : (r.setOsc v c o).vb = r.vb := rfl
@[simp] theorem setOsc_flt (r : Regs S) (v c : Nat) (o : Osc S) : (r.setOsc v c o).flt = r.flt := rfl
@[simp] theorem setOsc_eng (r : Regs S) (v c : Nat) (o : Osc S) : (r.setOsc v c o).eng = r.eng := rfl
@[simp] theorem getDly_setOsc (r : Regs S) (v c : Nat) (o : Osc S) (v' c' : Nat) : (r.setOsc v c o).getDly v' c' = r.getDly v' c' := rfl
@[simp] theorem getMdl_setOsc (r : Regs S) (v c : Nat) (o : Osc S) (v' : Nat) : (r.setOsc v c o).getMdl v' = r.getMdl v' := rfl
omit [Inhabited S] in
@[simp] theorem setDly_sys (r : Regs S) (v c : Nat) (o : Dly S) : (r.setDly v c o).sys = r.sys := rfl
omit [Inhabited S] in
@[simp] theorem setDly_osc (r : Regs S) (v c : Nat) (o : Dly S) : (r.setDly v c o).osc = r.osc := rfl
omit [Inhabited S] in
@[simp] theorem setDly_mdl (r : Regs S) (v c : Nat) (o : Dly S) : (r.setDly v c o).mdl = r.mdl := rfl
omit [Inhabited S] in
@[simp] theorem setDly_vb (r : Regs S) (v c : Nat) (o : Dly S) : (r.setDly v c o).vb = r.vb := rfl
omit [Inhabited S] in
@[simp] theorem setDly_flt (r : Regs S) (v c : Nat) (o : Dly S) : (r.setDly v c o).flt = r.flt := rfl
omit [Inhabited S] in
@[simp] theorem setDly_eng (r : Regs S) (v c : Nat) (o : Dly S) : (r.setDly v c o).eng = r.eng := rfl
@[simp] theorem getOsc_setDly (r : Regs S) (v c : Nat) (o : Dly S) (v' c' : Nat) : (r.setDly v c o).getOsc v' c' = r.getOsc v' c' := rfl
@[simp] theorem getMdl_setDly (r : Regs S) (v c : Nat) (o : Dly S) (v' : Nat) : (r.setDly v c o).getMdl v' = r.getMdl v' := rfl
@[simp] theorem setMdl_sys (r : Regs S) (v : Nat) (o : Mdl S) : (r.setMdl v o).sys = r.sys := rfl
@[simp] theorem setMdl_osc (r : Regs S) (v : Nat) (o : Mdl S) : (r.setMdl v o).osc = r.osc := rfl
@[simp] theorem setMdl_dly (r : Regs S) (v : Nat) (o : Mdl S) : (r.setMdl v o).dly = r.dly := rfl
@[simp] theorem setMdl_vb (r : Regs S) (v : Nat) (o : Mdl S) : (r.setMdl v o).vb = r.vb := rfl
@[simp] theorem setMdl_flt (r : Regs S) (v : Nat) (o : Mdl S) : (r.setMdl v o).flt = r.flt := rfl
@[simp] theorem setMdl_eng (r : Regs S) (v : Nat) (o : Mdl S) : (r.setMdl v o).eng = r.eng := rfl
@[simp] theorem getOsc_setMdl (r : Regs S) (v : Nat) (o : Mdl S) (v' c' : Nat) : (r.setMdl v o).getOsc v' c' = r.getOsc v' c' := rfl
@[simp] theorem getDly_setMdl (r : Regs S) (v : Nat) (o : Mdl S) (v' c' : Nat) : (r.setMdl v o).getDly v' c' = r.getDly v' c' := rfl
@[simp] theorem updateOscs_sys (nv nc : Nat) (f : Osc S → Osc S) (r : Regs S) : (r.updateOscs nv nc f).sys = r.sys := rfl
@[simp] theorem updateOscs_dly (nv nc : Nat) (f : Osc S → Osc S) (r : Regs S) : (r.updateOscs nv nc f).dly = r.dly := rfl
@[simp] theorem updateOscs_mdl (nv nc : Nat) (f : Osc S → Osc S) (r : Regs S) : (r.updateOscs nv nc f).mdl = r.mdl := rfl
@[simp] theorem updateOscs_vb (nv nc : Nat) (f : Osc S → Osc S) (r : Regs S) : (r.updateOscs nv nc f).vb = r.vb := rfl
@[simp] theorem updateOscs_flt (nv nc : Nat) (f : Osc S → Osc S) (r : Regs S) : (r.updateOscs nv nc f).flt = r.flt := rfl
@[simp] theorem updateOscs_eng (nv nc : Nat) (f : Osc S → Osc S) (r : Regs S) : (r.updateOscs nv nc f).eng = r.eng := rfl
@[simp] theorem getDly_updateOscs (nv nc : Nat) (f : Osc S → Osc S) (r : Regs S) (v' c' : Nat) : (r.updateOscs nv nc f).getDly v' c' = r.getDly v' c' := rfl
@[simp] theorem getMdl_updateOscs (nv nc : Nat) (f : Osc S → Osc S) (r : Regs S) (v' : Nat) : (r.updateOscs nv nc f).getMdl v' = r.getMdl v' := rfl
@[simp] theorem updateMdls_sys (nv : Nat) (f : Nat → Mdl S → Mdl S) (r : Regs S) : (r.updateMdls nv f).sys = r.sys := rfl
@[simp] theorem updateMdls_osc (nv : Nat) (f : Nat → Mdl S → Mdl S) (r : Regs S) : (r.updateMdls nv f).osc = r.osc := rfl
@[simp] theorem updateMdls_dly (nv : Nat) (f : Nat → Mdl S → Mdl S) (r : Regs S) : (r.updateMdls nv f).dly = r.dly := rfl
@[simp] theorem updateMdls_vb (nv : Nat) (f : Nat → Mdl S → Mdl S) (r : Regs S) : (r.updateMdls nv f).vb = r.vb := rfl
@[simp] theorem updateMdls_flt (nv : Nat) (f : Nat → Mdl S → Mdl S) (r : Regs S) : (r.updateMdls nv f).flt = r.flt := rfl
@[simp] theorem updateMdls_eng (nv : Nat) (f : Nat → Mdl S → Mdl S) (r : Regs S) : (r.updateMdls nv f).eng = r.eng := rfl
@[simp] theorem getOsc_updateMdls (nv : Nat) (f : Nat → Mdl S → Mdl S) (r : Regs S) (v' c' : Nat) : (r.updateMdls nv f).getOsc v' c' = r.getOsc v' c' := rfl
@[simp] theorem getDly_updateMdls (nv : Nat) (f : Nat → Mdl S → Mdl S) (r : Regs S) (v' c' : Nat) : (r.updateMdls nv f).getDly v' c' = r.getDly v' c' := rfl
@[simp] theorem getOsc_with_sys (r : Regs S) (x : Sys) (v c : Nat) : ({ r with sys := x }).getOsc v c = r.getOsc v c := rfl
omit [Inhabited S] in
@[simp] theorem getDly_with_sys (r : Regs S) (x : Sys) (v c : Nat) : ({ r with sys := x }).getDly v c = r.getDly v c := rfl
@[simp] theorem getMdl_with_sys (r : Regs S) (x : Sys) (v : Nat) : ({ r with sys := x }).getMdl v = r.getMdl v := rfl
@[simp] theorem getOsc_with_vb (r : Regs S) (x : Vb S) (v c : Nat) : ({ r with vb := x }).getOsc v c = r.getOsc v c := rfl
omit [Inhabited S] in
@[simp] theorem getDly_with_vb (r : Regs S) (x : Vb S) (v c : Nat) : ({ r with vb := x }).getDly v c = r.getDly v c := rfl
@[simp] theorem getMdl_with_vb (r : Regs S) (x : Vb S) (v : Nat) : ({ r with vb := x }).getMdl v = r.getMdl v := rfl
@[simp] theorem getOsc_with_flt (r : Regs S) (x : Flt S) (v c : Nat) : ({ r with flt := x }).getOsc v c = r.getOsc v c := rfl
omit [Inhabited S] in
@[simp] theorem getDly_with_flt (r : Regs S) (x : Flt S) (v c : Nat) : ({ r with flt := x }).getDly v c = r.getDly v c := rfl
@[simp] theorem getMdl_with_flt (r : Regs S) (x : Flt S) (v : Nat) : ({ r with flt := x }).getMdl v = r.getMdl v := rfl
@[simp] theorem getOsc_with_eng (r : Regs S) (x : Eng S) (v c : Nat) : ({ r with eng := x }).getOsc v c = r.getOsc v c := rfl
omit [Inhabited S] in
@[simp] theorem getDly_with_eng (r : Regs S) (x : Eng S) (v c : Nat) : ({ r with eng := x }).getDly v c = r.getDly v c := rfl
@[simp] theorem getMdl_with_eng (r : Regs S) (x : Eng S) (v : Nat) : ({ r with eng := x }).getMdl v = r.getMdl v := rfl

end

/-! ### parts of the engine and of the smoothers -/

section
variable {S : Type}

@[simp] theorem smSettle_cur (A : Arith S) (s : Smoother S) : (smSettle A s).cur = s.tgt := rfl
@[simp] theorem smSettle_tgt (A : Arith S) (s : Smoother S) : (smSettle A s).tgt = s.tgt := rfl
@[simp] theorem smSettle_step (A : Arith S) (s : Smoother S) : (smSettle A s).step = A.zero := rfl
@[simp] theorem smSettle_cnt (A : Arith S) (s : Smoother S) : (smSettle A s).cnt = 0 := rfl
@[simp] theorem smSettle_n (A : Arith S) (s : Smoother S) : (smSettle A s).n = s.n := rfl
@[simp] theorem smReset_cur (A : Arith S) (s : Smoother S) (fs ramp : S) : (smReset A s fs ramp).cur = s.tgt := rfl
@[simp] theorem smReset_tgt (A : Arith S) (s : Smoother S) (fs ramp : S) : (smReset A s fs ramp).tgt = s.tgt := rfl
@[simp] theorem smReset_step (A : Arith S) (s : Smoother S) (fs ramp : S) : (smReset A s fs ramp).step = A.zero := rfl
@[simp] theorem smReset_cnt (A : Arith S) (s : Smoother S) (fs ramp : S) : (smReset A s fs ramp).cnt = 0 := rfl
@[simp] theorem smReset_n (A : Arith S) (s : Smoother S) (fs ramp : S) : (smReset A s fs ramp).n = toU32 (A.floor (A.mul ramp fs)) := rfl
@[simp] theorem smSetBoth_cur (A : Arith S) (s : Smoother S) (x : S) : (smSetBoth A s x).cur = x := rfl
@[simp] theorem smSetBoth_tgt (A : Arith S) (s : Smoother S) (x : S) : (smSetBoth A s x).tgt = x := rfl
@[simp] theorem smSetBoth_step (A : Arith S) (s : Smoother S) (x : S) : (smSetBoth A s x).step = A.zero := rfl
@[simp] theorem smSetBoth_cnt (A : Arith S) (s : Smoother S) (x : S) : (smSetBoth A s x).cnt = 0 := rfl
@[simp] theorem smSetBoth_n (A : Arith S) (s : Smoother S) (x : S) : (smSetBoth A s x).n = s.n := rfl
@[simp] theorem oscPrepare_fs (K : Kit S) (fs : S) (o : Osc S) : (oscPrepare K fs o).fs = fs := rfl
@[simp] theorem oscPrepare_pos (K : Kit S) (fs : S) (o : Osc S) : (oscPrepare K fs o).pos = K.A.zero := rfl
@[simp] theorem oscPrepare_ph (K : Kit S) (fs : S) (o : Osc S) : (oscPrepare K fs o).ph = smReset K.A o.ph fs K.P.phaseRamp := rfl
@[simp] theorem oscPrepare_delta (K : Kit S) (fs : S) (o : Osc S) : (oscPrepare K fs o).delta = oscDelta K o.freq fs := rfl
@[simp] theorem oscPrepare_prep (K : Kit S) (fs : S) (o : Osc S) : (oscPrepare K fs o).prep = true := rfl
@[simp] theorem oscPrepare_freq (K : Kit S) (fs : S) (o : Osc S) : (oscPrepare K fs o).freq = o.freq := rfl
@[simp] theorem oscPrepare_type (K : Kit S) (fs : S) (o : Osc S) : (oscPrepare K fs o).type = o.type := rfl
@[simp] theorem oscReset_fs (A : Arith S) (o : Osc S) : (oscReset A o).fs = o.fs := rfl
@[simp] theorem oscReset_pos (A : Arith S) (o : Osc S) : (oscReset A o).pos = A.zero := rfl
@[simp] theorem oscReset_ph (A : Arith S) (o : Osc S) : (oscReset A o).ph = smSettle A o.ph := rfl
@[simp] theorem oscReset_delta (A : Arith S) (o : Osc S) : (oscReset A o).delta = o.delta := rfl
@[simp] theorem oscReset_prep (A : Arith S) (o : Osc S) : (oscReset A o).prep = o.prep := rfl
@[simp] theorem oscReset_freq (A : Arith S) (o : Osc S) : (oscReset A o).freq = o.freq := rfl
@[simp] theorem oscReset_type (A : Arith S) (o : Osc S) : (oscReset A o).type = o.type := rfl
@[simp] theorem oscSetFreq_fs (K : Kit S) (hz : S) (o : Osc S) : (oscSetFreq K hz o).fs = o.fs := rfl
@[simp] theorem oscSetFreq_pos (K : Kit S) (hz : S) (o : Osc S) : (oscSetFreq K hz o).pos = o.pos := rfl
@[simp] theorem oscSetFreq_ph (K : Kit S) (hz : S) (o : Osc S) : (oscSetFreq K hz o).ph = o.ph := rfl
@[simp] theorem oscSetFreq_prep (K : Kit S) (hz : S) (o : Osc S) : (oscSetFreq K hz o).prep = o.prep := rfl
@[simp] theorem oscSetFreq_freq (K : Kit S) (hz : S) (o : Osc S) : (oscSetFreq K hz o).freq = hz := rfl
@[simp] theorem oscSetFreq_type (K : Kit S) (hz : S) (o : Osc S) : (oscSetFreq K hz o).type = o.type := rfl
@[simp] theorem oscSetPhase_fs (A : Arith S) (x : S) (o : Osc S) : (oscSetPhase A x o).fs = o.fs := rfl
@[simp] theorem oscSetPhase_pos (A : Arith S) (x : S) (o : Osc S) : (oscSetPhase A x o).pos = o.pos := rfl
@[simp] theorem oscSetPhase_ph (A : Arith S) (x : S) (o : Osc S) : (oscSetPhase A x o).ph = smSetTarget A o.ph x := rfl
@[simp] theorem oscSetPhase_prep (A : Arith S) (x : S) (o : Osc S) : (oscSetPhase A x o).prep = o.prep := rfl
@[simp] theorem oscSetPhase_freq (A : Arith S) (x : S) (o : Osc S) : (oscSetPhase A x o).freq = o.freq := rfl
@[simp] theorem oscSetPhase_type (A : Arith S) (x : S) (o : Osc S) : (oscSetPhase A x o).type = o.type := rfl
@[simp] theorem oscSetPhase_delta (A : Arith S) (x : S) (o : Osc S) : (oscSetPhase A x o).delta = o.delta := rfl
@[simp] theorem dlyReset_size (b : Dly S) : (dlyReset b).size = b.size := rfl
@[simp] theorem dlyReset_cur (b : Dly S) : (dlyReset b).cur = 0 := rfl
@[simp] theorem dlyReset_ram (b : Dly S) : (dlyReset b).ram = [] := rfl

end

end Sys2Proof.Machine
end

