-- ==== Sys2Proof/Laws/Ops.lean ====
section
/-! SUPPORT. One lemma per shared operation that says what it does: rows of registers, loops, delay RAM, checks. -/

namespace Sys2Proof.Machine

/-! ### Rows of registers -/

section
variable {α : Type} [Inhabited α]

@[simp] theorem Bank.get_nil (i : Nat) : Bank.get ([] : Bank α) i = default := rfl

@[simp] theorem Bank.get_cons_zero (x : α) (xs : Bank α) : Bank.get (x :: xs) 0 = x := rfl

@[simp] theorem Bank.get_cons_succ (x : α) (xs : Bank α) (i : Nat) : Bank.get (x :: xs) (i + 1) = Bank.get xs i := rfl

/-- A read after a write gives the value written, and every other register keeps its value, whatever the row's length. -/
theorem Bank.get_put (xs : Bank α) (i j : Nat) (a : α) : (xs.put i a).get j = if j = i then a else xs.get j := by
  induction i generalizing xs j with
  | zero => cases xs <;> cases j <;> simp [Bank.put]
  | succ i ih =>
    cases xs <;> cases j <;> simp [Bank.put, ih]

@[simp] theorem Bank.get_put_same (xs : Bank α) (i : Nat) (a : α) : (xs.put i a).get i = a := by
  simp [Bank.get_put]

@[simp] theorem Bank.get_put_other (xs : Bank α) (i j : Nat) (a : α) (h : j ≠ i) : (xs.put i a).get j = xs.get j := by
  simp [Bank.get_put, h]

/-- What updating registers `0..n-1` leaves in each register. -/
theorem Bank.get_update (n : Nat) (f : Nat → α → α) (xs : Bank α) (j : Nat) :
    (Bank.update n f xs).get j = if j < n then f j (xs.get j) else xs.get j := by
  induction n with
  | zero => simp [Bank.update]
  | succ n ih =>
    simp only [Bank.update, Bank.get_put, ih]
    by_cases h : j = n
    · subst h; simp [ih]
    · have : (j < n + 1) = (j < n) := by simp; omega
      simp [h, this]

theorem Bank.get_replicate (n : Nat) (a : α) (j : Nat) :
    Bank.get (List.replicate n a) j = if j < n then a else default := by
  simp only [Bank.get, List.getD, List.getElem?_replicate]
  split <;> simp

end

/-! ### Registers by voice and channel -/

section
variable {S : Type} [Inhabited S]

theorem getOsc_setOsc (r : Regs S) (v c v' c' : Nat) (o : Osc S) :
    (r.setOsc v c o).getOsc v' c' = if v' = v ∧ c' = c then o else r.getOsc v' c' := by
  simp only [Regs.getOsc, Regs.setOsc, Bank.get_put]
  by_cases hv : v' = v <;> by_cases hc : c' = c <;> simp [hv, hc]

omit [Inhabited S] in
theorem getDly_setDly (r : Regs S) (v c v' c' : Nat) (b : Dly S) :
    (r.setDly v c b).getDly v' c' = if v' = v ∧ c' = c then b else r.getDly v' c' := by
  simp only [Regs.getDly, Regs.setDly, Bank.get_put]
  by_cases hv : v' = v <;> by_cases hc : c' = c <;> simp [hv, hc]

theorem getMdl_setMdl (r : Regs S) (v v' : Nat) (m : Mdl S) :
    (r.setMdl v m).getMdl v' = if v' = v then m else r.getMdl v' := by
  simp [Regs.getMdl, Regs.setMdl, Bank.get_put]

theorem getOsc_updateOscs (nv nc : Nat) (f : Osc S → Osc S) (r : Regs S) (v c : Nat) :
    (r.updateOscs nv nc f).getOsc v c = if v < nv ∧ c < nc then f (r.getOsc v c) else r.getOsc v c := by
  simp only [Regs.getOsc, Regs.updateOscs, Bank.get_update]
  by_cases hv : v < nv <;> by_cases hc : c < nc <;> simp [hv, hc, Bank.get_update]

theorem getMdl_updateMdls (nv : Nat) (f : Nat → Mdl S → Mdl S) (r : Regs S) (v : Nat) :
    (r.updateMdls nv f).getMdl v = if v < nv then f v (r.getMdl v) else r.getMdl v := by
  simp [Regs.getMdl, Regs.updateMdls, Bank.get_update]

end

/-! ### Loops -/

/-- A property that every pass keeps holds after the loop. -/
theorem loopE_invariant {σ ε : Type} {f : Nat → σ → Except ε σ} (P : Nat → σ → Prop) :
    ∀ {n : Nat} {s t : σ}, loopE n f s = .ok t → P 0 s →
      (∀ k a b, k < n → P k a → f k a = .ok b → P (k + 1) b) → P n t := by
  intro n
  induction n with
  | zero => intro s t h h0 _; simpa [loopE] using (by simpa [loopE] using h : s = t) ▸ h0
  | succ n ih =>
    intro s t h h0 hs
    simp only [loopE] at h
    cases hl : loopE n f s with
    | error e => simp [hl, Except.bind] at h
    | ok u =>
      rw [hl] at h
      exact hs n u t (Nat.lt_succ_self n) (ih hl h0 fun k a b hk => hs k a b (Nat.lt_succ_of_lt hk)) h

/-- A loop whose every pass succeeds from states of the invariant succeeds, and keeps the invariant. -/
theorem loopE_ok {σ ε : Type} {f : Nat → σ → Except ε σ} (P : Nat → σ → Prop) :
    ∀ {n : Nat} {s : σ}, P 0 s → (∀ k a, k < n → P k a → ∃ b, f k a = .ok b ∧ P (k + 1) b) →
      ∃ t, loopE n f s = .ok t ∧ P n t := by
  intro n
  induction n with
  | zero => intro s h0 _; exact ⟨s, rfl, h0⟩
  | succ n ih =>
    intro s h0 hs
    obtain ⟨u, hu, hp⟩ := ih h0 fun k a hk => hs k a (Nat.lt_succ_of_lt hk)
    obtain ⟨t, ht, hq⟩ := hs n u (Nat.lt_succ_self n) hp
    exact ⟨t, by simp [loopE, hu, Except.bind, ht], hq⟩

/-! ### Checks -/

@[simp] theorem require_true (e : Cause) : require true e = .ok () := rfl

@[simp] theorem require_false (e : Cause) : require false e = .error e := rfl

theorem require_ok_iff {b : Bool} {e : Cause} {u : Unit} : require b e = .ok u ↔ b = true := by
  cases b <;> simp [require]

@[simp] theorem ok_bind {α β : Type} (a : α) (f : α → Except Cause β) : ((Except.ok a : Except Cause α) >>= f) = f a := rfl

@[simp] theorem error_bind {α β : Type} (e : Cause) (f : α → Except Cause β) :
    ((Except.error e : Except Cause α) >>= f) = .error e := rfl

/-- A sequence that gives a value had a value in the middle. -/
theorem bind_ok {α β : Type} {x : Except Cause α} {f : α → Except Cause β} {b : β} (h : x >>= f = .ok b) :
    ∃ a, x = .ok a ∧ f a = .ok b := by
  cases x with
  | error e => simp at h
  | ok a => exact ⟨a, rfl, h⟩

/-- A check in front of a computation that gives a value held. -/
theorem require_bind_ok {β : Type} {c : Bool} {e : Cause} {f : Unit → Except Cause β} {b : β}
    (h : require c e >>= f = .ok b) : c = true ∧ f () = .ok b := by
  cases c <;> simp_all

/-! ### Delay RAM -/

section
variable {S : Type} [DecidableEq S]

theorem Memory.read_of_lt (z : S) {lo i : Nat} {m : Memory S} (h : Memory.wfFrom z lo m = true) (hi : i < lo) :
    m.read z i = z := by
  induction m generalizing lo with
  | nil => rfl
  | cons cell m ih =>
    obtain ⟨a, x⟩ := cell
    simp only [Memory.wfFrom, Bool.and_eq_true, decide_eq_true_eq, Bool.not_eq_true'] at h
    have ha : a ≠ i := by omega
    simp only [Memory.read, ha, if_false]
    exact ih h.2 (by omega)

/-- A read after a write to the same index gives the word written; every other index reads as before. -/
theorem Memory.read_write (z : S) {lo : Nat} {m : Memory S} (h : Memory.wfFrom z lo m = true) (i j : Nat) (x : S) :
    (m.write z i x).read z j = if j = i then x else m.read z j := by
  induction m generalizing lo with
  | nil =>
    simp only [Memory.write]
    split
    · next hz => subst hz; simp [Memory.read]
    · simp only [Memory.read, eq_comm]
  | cons cell m ih =>
    obtain ⟨a, y⟩ := cell
    have hw := h
    simp only [Memory.wfFrom, Bool.and_eq_true, decide_eq_true_eq, Bool.not_eq_true'] at hw
    simp only [Memory.write]
    by_cases h1 : i < a
    · simp only [h1, if_true]
      have hb : Memory.wfFrom z (i + 1) ((a, y) :: m) = true := by
        simp [Memory.wfFrom, hw.1.2, hw.2]; omega
      split
      · next hz =>
        subst hz
        by_cases hj : j = i
        · subst hj; rw [Memory.read_of_lt _ hb (Nat.lt_succ_self _)]; simp
        · simp [hj]
      · by_cases hj : j = i
        · subst hj; simp [Memory.read]
        · rw [Memory.read]; simp [hj, Ne.symm hj]
    · simp only [h1, if_false]
      by_cases h2 : i = a
      · subst h2
        simp only [if_true]
        split
        · next hz =>
          subst hz
          by_cases hj : j = i
          · subst hj; simp [Memory.read_of_lt _ hw.2 (Nat.lt_succ_self _)]
          · simp [Memory.read, hj, Ne.symm hj]
        · by_cases hj : j = i
          · subst hj; simp [Memory.read]
          · simp [Memory.read, hj, Ne.symm hj]
      · simp only [h2, if_false, Memory.read]
        by_cases hj : a = j
        · subst hj; simp [Ne.symm h2]
        · simp [hj, ih hw.2]

theorem Memory.wfFrom_mono (z : S) {lo lo' : Nat} {m : Memory S} (h : Memory.wfFrom z lo m = true) (hl : lo' ≤ lo) :
    Memory.wfFrom z lo' m = true := by
  cases m with
  | nil => rfl
  | cons cell m =>
    obtain ⟨a, x⟩ := cell
    simp only [Memory.wfFrom, Bool.and_eq_true, decide_eq_true_eq] at h ⊢
    exact ⟨⟨by omega, h.1.2⟩, h.2⟩

theorem Memory.write_wfFrom (z : S) {lo : Nat} {m : Memory S} (h : Memory.wfFrom z lo m = true) (i : Nat) (x : S)
    (hi : lo ≤ i) : Memory.wfFrom z lo (m.write z i x) = true := by
  induction m generalizing lo with
  | nil =>
    simp only [Memory.write]
    split
    · rfl
    · next hz => simp [Memory.wfFrom, hi, hz]
  | cons cell m ih =>
    obtain ⟨a, y⟩ := cell
    have hw := h
    simp only [Memory.wfFrom, Bool.and_eq_true, decide_eq_true_eq, Bool.not_eq_true'] at hw
    simp only [Memory.write]
    by_cases h1 : i < a
    · simp only [h1, if_true]
      split
      · exact h
      · next hz => simp [Memory.wfFrom, hi, hz, hw.1.2, hw.2]; omega
    · simp only [h1, if_false]
      by_cases h2 : i = a
      · subst h2
        simp only [if_true]
        split
        · exact Memory.wfFrom_mono z hw.2 (by omega)
        · next hz => simp [Memory.wfFrom, hi, hz, hw.2]
      · simp only [h2, if_false, Memory.wfFrom, Bool.and_eq_true, decide_eq_true_eq, Bool.not_eq_true']
        exact ⟨⟨hw.1.1, hw.1.2⟩, ih hw.2 (by omega)⟩

/-- A write keeps the canonical form. -/
theorem Memory.write_wf (z : S) {m : Memory S} (h : m.wf z = true) (i : Nat) (x : S) : (m.write z i x).wf z = true :=
  Memory.write_wfFrom z h i x (Nat.zero_le i)

/-- Allocation and reset leave the canonical form of an all-zero RAM. -/
theorem Memory.clear_wf (z : S) : (Memory.clear : Memory S).wf z = true := rfl

/-- A cell after a write is the cell written or a cell of before. -/
theorem Memory.mem_write (z : S) (m : Memory S) (i : Nat) (x : S) (cell : Nat × S) (h : cell ∈ m.write z i x) :
    cell = (i, x) ∨ cell ∈ m := by
  induction m with
  | nil => simp only [Memory.write] at h; split at h <;> simp_all
  | cons head m ih =>
    obtain ⟨a, y⟩ := head
    simp only [Memory.write] at h
    split at h
    · split at h <;> simp_all
    · split at h
      · split at h <;> simp_all
        tauto
      · rcases List.mem_cons.mp h with h | h
        · simp [h]
        · rcases ih h with h | h <;> simp [h]

/-- Two canonical memories that read alike are equal. -/
theorem Memory.ext_of_read (z : S) {lo : Nat} {m n : Memory S} (hm : Memory.wfFrom z lo m = true)
    (hn : Memory.wfFrom z lo n = true) (h : ∀ i, m.read z i = n.read z i) : m = n := by
  induction m generalizing lo n with
  | nil =>
    cases n with
    | nil => rfl
    | cons cell n =>
      obtain ⟨a, x⟩ := cell
      have := h a
      simp [Memory.read] at this
      simp [Memory.wfFrom, this] at hn
  | cons cell m ih =>
    obtain ⟨a, x⟩ := cell
    have hw := hm
    simp only [Memory.wfFrom, Bool.and_eq_true, decide_eq_true_eq, Bool.not_eq_true', decide_eq_false_iff_not] at hw
    cases n with
    | nil =>
      have := h a
      simp [Memory.read] at this
      exact absurd this hw.1.2
    | cons cell' n =>
      obtain ⟨b, y⟩ := cell'
      have hv := hn
      simp only [Memory.wfFrom, Bool.and_eq_true, decide_eq_true_eq, Bool.not_eq_true', decide_eq_false_iff_not] at hv
      have hab : a = b := by
        rcases Nat.lt_trichotomy a b with hlt | heq | hgt
        · have h1 := h a
          have hb : b ≠ a := by omega
          simp only [Memory.read, if_true, hb, if_false] at h1
          rw [Memory.read_of_lt z hv.2 (by omega)] at h1
          exact absurd h1 hw.1.2
        · exact heq
        · have h1 := h b
          have hb : a ≠ b := by omega
          simp only [Memory.read, if_true, hb, if_false] at h1
          rw [Memory.read_of_lt z hw.2 (by omega)] at h1
          exact absurd h1.symm hv.1.2
      subst hab
      have hxy : x = y := by simpa [Memory.read] using h a
      subst hxy
      congr 1
      refine ih hw.2 hv.2 fun i => ?_
      by_cases hi : a = i
      · subst hi
        rw [Memory.read_of_lt z hw.2 (Nat.lt_succ_self _), Memory.read_of_lt z hv.2 (Nat.lt_succ_self _)]
      · simpa [Memory.read, hi] using h i

end

end Sys2Proof.Machine
end

