-- ==== Sys2Proof/Laws/Run.lean ====
section
/-! SUPPORT. What `run`, the frame of every command, can do, and when the decode checks pass. -/

namespace Sys2Proof.Machine

/-! ### The decode checks of R58 items 4 to 7 -/

/-- The decode checks pass exactly when each of them does. -/
theorem decodeChecks_ok_iff (i : Instr) (s : State) :
    decodeChecks i s = .ok () ↔
      (i.row.1.useV = true → i.row.2.v.toNat < s.cfg.nVoices) ∧
      (i.row.1.useC = true → i.row.2.c.toNat < s.regs.sys.nch) ∧
      (i.row.1.kind = .u → uOperandLegal s.prec i.row.2.opd = true) ∧
      (i.row.1.kind = .s → Ieee.isFinite s.prec i.row.2.opd = true) := by
  constructor
  · intro h
    simp only [decodeChecks] at h
    obtain ⟨h1, h⟩ := require_bind_ok h
    obtain ⟨h2, h⟩ := require_bind_ok h
    obtain ⟨h3, h⟩ := require_bind_ok h
    obtain ⟨h4, h⟩ := require_bind_ok h
    have h5 := require_ok_iff.mp h
    refine ⟨fun hv => ?_, fun hc => ?_, fun hk => ?_, fun hk => ?_⟩ <;> simp_all
  · rintro ⟨h1, h2, h3, h4⟩
    have hc : i.row.1.useC = true → s.regs.sys.nch ≠ 0 := fun h => by have := h2 h; omega
    have e1 : (!i.row.1.useV || decide (i.row.2.v.toNat < s.cfg.nVoices)) = true := by
      cases hv : i.row.1.useV <;> simp_all
    have e2 : (!i.row.1.useC || decide (s.regs.sys.nch ≠ 0)) = true := by
      cases hv : i.row.1.useC <;> simp_all
    have e3 : (!i.row.1.useC || decide (i.row.2.c.toNat < s.regs.sys.nch)) = true := by
      cases hv : i.row.1.useC <;> simp_all
    have e4 : (!decide (i.row.1.kind = .u) || uOperandLegal s.prec i.row.2.opd) = true := by
      by_cases hk : i.row.1.kind = .u <;> simp_all
    have e5 : (!decide (i.row.1.kind = .s) || Ieee.isFinite s.prec i.row.2.opd) = true := by
      by_cases hk : i.row.1.kind = .s <;> simp_all
    simp only [decodeChecks, e1, e2, e3, e4, e5, require_true, ok_bind]

/-- An integer operand below 2^32 passes item 6 and is read as itself. -/
theorem intOpd_legal {p : Prec} {n : BitVec 64} (h : IntOpd n) : uOperandLegal p n = true := by
  have : n.toNat % 2 ^ p.width ≤ n.toNat := Nat.mod_le _ _
  simp only [uOperandLegal, decide_eq_true_eq]
  exact Nat.lt_of_le_of_lt this h

theorem uOperand_of_intOpd {n : BitVec 64} (h : IntOpd n) : uOperand n = n.toNat := Nat.mod_eq_of_lt h

/-- The four commands that run when halted pass every decode check. -/
theorem decodeChecks_runsHalted {i : Instr} (s : State) (h : runsHalted i = true) : decodeChecks i s = .ok () := by
  cases i <;> simp_all [runsHalted] <;> rfl

/-! ### `run` -/

theorem run_completes {i : Instr} {s : State} {body : Result} {val : BitVec 64} {r : Regs Sample}
    (hr : s.regs.sys.halt = false ∨ runsHalted i = true) (hc : decodeChecks i s = .ok ()) (hb : body = .ok (val, r)) :
    run i s body = .next (complete s r val) := by
  rcases hr with hr | hr <;> simp [run, hr, hc, hb]

theorem run_faults {i : Instr} {s : State} {body : Result} {e : Cause} (hr : s.regs.sys.halt = false)
    (hc : decodeChecks i s = .ok ()) (hb : body = .error e) :
    run i s body = .next (faultEntry e (encode i).hdr s) := by
  simp [run, hr, hc, hb]

theorem run_check_faults {i : Instr} {s : State} {body : Result} {e : Cause} (hr : s.regs.sys.halt = false)
    (hc : decodeChecks i s = .error e) : run i s body = .next (faultEntry e (encode i).hdr s) := by
  simp [run, hr, hc]

theorem run_refused {i : Instr} {s : State} (body : Result) (hr : s.regs.sys.halt = true) (hi : runsHalted i = false) :
    run i s body = .next (refuse s) := by
  simp [run, hr, hi]

/-- Everything a command can do: it is refused, it faults, or it completes with what its own pseudocode gives. -/
theorem run_cases {i : Instr} {s t : State} {body : Result} (h : run i s body = .next t) :
    (s.regs.sys.halt = true ∧ runsHalted i = false ∧ t = refuse s) ∨
    (∃ e, (s.regs.sys.halt = false ∨ runsHalted i = true) ∧ (decodeChecks i s = .error e ∨ body = .error e) ∧
      t = faultEntry e (encode i).hdr s) ∨
    (∃ val r, (s.regs.sys.halt = false ∨ runsHalted i = true) ∧ decodeChecks i s = .ok () ∧ body = .ok (val, r) ∧
      t = complete s r val) := by
  simp only [run] at h
  split at h
  · next hh =>
    simp only [Bool.and_eq_true, Bool.not_eq_true'] at hh
    exact .inl ⟨hh.1, hh.2, by simpa using h.symm⟩
  · next hh =>
    have hr : s.regs.sys.halt = false ∨ runsHalted i = true := by
      cases h1 : s.regs.sys.halt <;> cases h2 : runsHalted i <;> simp_all
    split at h
    · next e he => exact .inr (.inl ⟨e, hr, .inl he, by simpa using h.symm⟩)
    · next hc =>
      split at h
      · next e => exact .inr (.inl ⟨e, hr, .inr rfl, by simpa using h.symm⟩)
      · next val r => exact .inr (.inr ⟨val, r, hr, hc, rfl, by simpa using h.symm⟩)

/-- A command always gives a next state: the machine never stops. -/
theorem run_total (i : Instr) (s : State) (body : Result) : ∃ t, run i s body = .next t := by
  simp only [run]
  repeat' split
  all_goals exact ⟨_, rfl⟩

/-- Every command but `SYS.RESET` is its own pseudocode run in the one frame. -/
theorem exec_eq_run (i : Instr) (s : State) (h : i ≠ .sysReset) : ∃ body, exec i s = run i s body := by
  cases i <;> first
    | exact absurd rfl h
    | (simp only [exec,
      execSysNop, execSysRdstat, execSysRdcause, execSysRdinfo, execSysSetch, execSysSetblk, execOscPrepare,
      execOscReset, execOscSetfreq, execOscSetphase, execOscSettype, execOscProcess, execDlyResize,
      execDlyReset, execDlyGet, execDlyGetlin, execDlyPush, execMdlPrepare, execMdlReset, execMdlSetmaxdelay,
      execMdlSetmaxdepth, execMdlSetdelay, execMdlSetdepth, execMdlSetrate, execMdlSetwet, execMdlProcess,
      execMdlLatency, execVbPrepare, execVbReset, execVbSetactive, execVbSetrate, execVbSetdepth,
      execVbSetdelay, execVbSetspread, execVbSetwidth, execVbSettype, execVbSetphase, execVbProcess,
      execVbSetmaxdelay, execVbSetmaxdepth, execEngPrepare, execEngReset, execEngSetmode, execEngSetmix,
      execEngSethpf, execEngSetlpf, execEngSetfbyp, execEngBegin, execEngIn, execEngStep, execEngOut,
      execEngLatency, execFltReset, execFltBoost, execFltCut, execFltHp, execFltLp]
       exact ⟨_, rfl⟩)

end Sys2Proof.Machine
end

