-- ==== Sys2Proof/Laws/Units.lean ====
section
/-! SUPPORT. One lemma per unit operation that says what it can do: the smoothers, the delay buffer, the voice, the
filters, the refresh. -/

namespace Sys2Proof.Machine

section
variable {S : Type}

/-- `SmSetTarget` keeps the smoother, jumps, or starts a ramp of `N` samples (R81). -/
theorem smSetTarget_cases (A : Arith S) (p : Smoother S) (v : S) :
    (A.eq v p.tgt = true ∧ smSetTarget A p v = p) ∨
    (A.eq v p.tgt = false ∧ p.n = 0 ∧ smSetTarget A p v = smSetBoth A p v) ∨
    (A.eq v p.tgt = false ∧ p.n ≠ 0 ∧
      smSetTarget A p v = { p with tgt := v, cnt := p.n, step := A.div (A.sub v p.cur) (A.ofNat p.n) }) := by
  cases h : A.eq v p.tgt <;> by_cases hn : p.n = 0 <;> simp [smSetTarget, h, hn]

/-- `SmNext` at rest, inside a ramp, and at its last step (R83). -/
theorem smNext_cases (A : Arith S) (p : Smoother S) :
    (p.cnt = 0 ∧ smNext A p = (p.tgt, p)) ∨
    (p.cnt = 1 ∧ smNext A p = (p.tgt, { p with cur := p.tgt, cnt := 0 })) ∨
    (2 ≤ p.cnt ∧ smNext A p = (A.add p.cur p.step, { p with cur := A.add p.cur p.step, cnt := p.cnt - 1 })) := by
  obtain ⟨cur, tgt, step, cnt, n⟩ := p
  match cnt with
  | 0 => simp [smNext]
  | 1 => simp [smNext]
  | k + 2 => simp [smNext]

/-- `SmSkip` lands on the target or stays inside the ramp (R85). -/
theorem smSkip_cases (A : Arith S) (p : Smoother S) (n : Nat) :
    (p.cnt ≤ n ∧ smSkip A p n = { p with cur := p.tgt, cnt := 0 }) ∨
    (n < p.cnt ∧ smSkip A p n = { p with cur := A.add p.cur (A.mul p.step (A.ofNat n)), cnt := p.cnt - n }) := by
  by_cases h : p.cnt ≤ n <;> simp [smSkip, h]
  omega

/-- An integer that is not negative is stored as it is, or as the greatest `u32`; any integer is stored as some `u32`. -/
theorem toU32_of_nonneg {z : Int} (h : 0 ≤ z) : toU32 z = min z.toNat 4294967295 := if_pos h

theorem toU32_lt (z : Int) : toU32 z < 2 ^ 32 := by
  unfold toU32
  split
  · omega
  · exact (Config.freeU32 z).isLt

/-! #### The invariant of R25, kept by all six operations (R86 (d)) -/

theorem smSettle_ok (A : Arith S) {p : Smoother S} (h : SmootherOk p) : SmootherOk (smSettle A p) :=
  ⟨fun _ => rfl, Nat.zero_le _, h.2.2⟩

theorem smReset_ok (A : Arith S) (p : Smoother S) (fs ramp : S) : SmootherOk (smReset A p fs ramp) :=
  ⟨fun _ => rfl, Nat.zero_le _, toU32_lt _⟩

theorem smSetTarget_ok (A : Arith S) {p : Smoother S} (v : S) (h : SmootherOk p) : SmootherOk (smSetTarget A p v) := by
  rcases smSetTarget_cases A p v with ⟨_, e⟩ | ⟨_, _, e⟩ | ⟨_, hn, e⟩ <;> rw [e]
  · exact h
  · exact ⟨fun _ => rfl, Nat.zero_le _, h.2.2⟩
  · exact ⟨fun h0 => absurd h0 hn, Nat.le_refl _, h.2.2⟩

theorem smNext_ok (A : Arith S) {p : Smoother S} (h : SmootherOk p) : SmootherOk (smNext A p).2 := by
  rcases smNext_cases A p with ⟨_, e⟩ | ⟨_, e⟩ | ⟨hc, e⟩ <;> rw [e]
  · exact h
  · exact ⟨fun _ => rfl, Nat.zero_le _, h.2.2⟩
  · refine ⟨fun h0 => ?_, ?_, h.2.2⟩
    · have : p.cnt - 1 = 0 := h0
      omega
    · have := h.2.1
      show p.cnt - 1 ≤ p.n
      omega

theorem smSkip_ok (A : Arith S) {p : Smoother S} (n : Nat) (h : SmootherOk p) : SmootherOk (smSkip A p n) := by
  rcases smSkip_cases A p n with ⟨_, e⟩ | ⟨hc, e⟩ <;> rw [e]
  · exact ⟨fun _ => rfl, Nat.zero_le _, h.2.2⟩
  · refine ⟨fun h0 => ?_, ?_, h.2.2⟩
    · have : p.cnt - n = 0 := h0
      omega
    · have := h.2.1
      show p.cnt - n ≤ p.n
      omega

theorem rest_ok (A : Arith S) (x : S) : SmootherOk (Smoother.rest A x) := ⟨fun _ => rfl, Nat.le_refl _, by simp [Smoother.rest]⟩

theorem default_smoother_ok [Inhabited S] : SmootherOk (default : Smoother S) :=
  ⟨fun _ => rfl, Nat.le_refl _, by show (0 : Nat) < 2 ^ 32; omega⟩

/-! #### The delay buffer -/

/-- `DlyResize` allocates or faults with `ALLOC` (R101). -/
theorem dlyResize_cases (K : Kit S) (n : Nat) (b : Dly S) :
    (1 ≤ n ∧ n ≤ K.P.dlyCap ∧ dlyResize K n b = .ok { size := n, cur := 0, ram := [] }) ∨
    (¬(1 ≤ n ∧ n ≤ K.P.dlyCap) ∧ dlyResize K n b = .error .alloc) := by
  by_cases h : 1 ≤ n ∧ n ≤ K.P.dlyCap
  · exact .inl ⟨h.1, h.2, by simp only [dlyResize, h, and_self, decide_true, require_true, ok_bind]; rfl⟩
  · exact .inr ⟨h, by simp [dlyResize, h]⟩

/-- `DlyGetLinear` reads between two neighbours or faults with `BUFFER_RANGE` (R104). -/
theorem dlyGetLinear_cases (A : Arith S) (t : S) (b : Dly S) :
    (A.le A.zero t = true ∧ A.lt t (A.ofNat b.size) = true ∧
      dlyGetLinear A t b = .ok (lerp A (b.ram.read A.zero (A.floorNat (dlyPos A t b)))
        (b.ram.read A.zero ((A.floorNat (dlyPos A t b) + 1) % b.size))
        (A.sub (dlyPos A t b) (A.ofNat (A.floorNat (dlyPos A t b)))))) ∨
    ((A.le A.zero t && A.lt t (A.ofNat b.size)) = false ∧ dlyGetLinear A t b = .error .bufferRange) := by
  cases h : (A.le A.zero t && A.lt t (A.ofNat b.size))
  · exact .inr ⟨rfl, by simp [dlyGetLinear, h]⟩
  · simp only [Bool.and_eq_true] at h
    exact .inl ⟨h.1, h.2, by simp only [dlyGetLinear, h.1, h.2, Bool.and_self, require_true, ok_bind]; rfl⟩

/-- The cursor stays inside the buffer (R105). -/
theorem dlyPush_cur_lt [DecidableEq S] (A : Arith S) (x : S) {b : Dly S} (hs : 0 < b.size) (hc : b.cur < b.size) :
    (dlyPush A x b).cur < b.size := by
  simp only [dlyPush]; split <;> omega

end

/-! #### The refresh and the coefficients -/

section
variable {S : Type}

/-- A refresh writes the four state-variable coefficients and nothing else, or faults with `PARAM_RANGE` (R156, R186). -/
theorem refreshCoefs_cases (K : Kit S) (fs : S) (r : Regs S) :
    (∃ a b c d, refreshCoefs K fs r = .ok { r with flt := { r.flt with hpg := a, hph := b, lpg := c, lph := d } }) ∨
    refreshCoefs K fs r = .error .paramRange := by
  simp only [refreshCoefs, svfCoef, smCur]
  cases h1 : (K.A.lt K.A.zero r.eng.hpfc.cur && K.A.lt r.eng.hpfc.cur (K.A.div fs (K.A.lit 2 1)))
  · right; simp
  · cases h2 : (K.A.lt K.A.zero r.eng.lpfc.cur && K.A.lt r.eng.lpfc.cur (K.A.div fs (K.A.lit 2 1)))
    · right; simp [pure, Except.pure]
    · left; exact ⟨_, _, _, _, rfl⟩

end

end Sys2Proof.Machine
end

