-- ==== Sys2Proof/Laws/PerInstr.lean ====
section
/-! SUPPORT. The family `RowInMap`: every command's own opcode selects its own row of the opcode map (R62, R63), with its
format, its fields pass the static checks (R58 items 2 and 3), and the map builds the command back from them. -/

namespace Sys2Proof.Laws.RowInMap

/-- The opcode map holds the command's row under the command's own opcode. -/
def Statement (i : Instr) : Prop :=
  ∃ build, opcodeMap i.row.2.op.toNat = some (i.row.1, build) ∧ build i.row.2 = i ∧
    (i.row.1.unusedClear i.row.2 && i.row.1.immLegal i.row.2) = true

theorem wave_ofCode_code (k : Wave) : Wave.ofCode k.code = k := by cases k <;> rfl

theorem mode_ofCode_code (k : Mode) : Mode.ofCode k.code = k := by cases k <;> rfl

theorem sysNop : Statement .sysNop := by
  exact ⟨_, rfl, rfl, by simp [Format.unusedClear, Format.immLegal, Instr.row, Format.plain]⟩

theorem sysReset : Statement .sysReset := by
  exact ⟨_, rfl, rfl, by simp [Format.unusedClear, Format.immLegal, Instr.row, Format.plain]⟩

theorem sysRdstat : Statement .sysRdstat := by
  exact ⟨_, rfl, rfl, by simp [Format.unusedClear, Format.immLegal, Instr.row, Format.plain]⟩

theorem sysRdcause : Statement .sysRdcause := by
  exact ⟨_, rfl, rfl, by simp [Format.unusedClear, Format.immLegal, Instr.row, Format.plain]⟩

theorem sysRdinfo : Statement .sysRdinfo := by
  exact ⟨_, rfl, rfl, by simp [Format.unusedClear, Format.immLegal, Instr.row, Format.plain]⟩

theorem sysSetch (n : BitVec 64) : Statement (.sysSetch n) := by
  exact ⟨_, rfl, rfl, by simp [Format.unusedClear, Format.immLegal, Instr.row, Format.plain]⟩

theorem sysSetblk (n : BitVec 64) : Statement (.sysSetblk n) := by
  exact ⟨_, rfl, rfl, by simp [Format.unusedClear, Format.immLegal, Instr.row, Format.plain]⟩

theorem oscPrepare (v c : BitVec 4) (fs : BitVec 64) : Statement (.oscPrepare v c fs) := by
  exact ⟨_, rfl, rfl, by simp [Format.unusedClear, Format.immLegal, Instr.row, Format.both]⟩

theorem oscReset (v c : BitVec 4) : Statement (.oscReset v c) := by
  exact ⟨_, rfl, rfl, by simp [Format.unusedClear, Format.immLegal, Instr.row, Format.both]⟩

theorem oscSetfreq (v c : BitVec 4) (hz : BitVec 64) : Statement (.oscSetfreq v c hz) := by
  exact ⟨_, rfl, rfl, by simp [Format.unusedClear, Format.immLegal, Instr.row, Format.both]⟩

theorem oscSetphase (v c : BitVec 4) (off : BitVec 64) : Statement (.oscSetphase v c off) := by
  exact ⟨_, rfl, rfl, by simp [Format.unusedClear, Format.immLegal, Instr.row, Format.both]⟩

theorem oscSettype (v c : BitVec 4) (k : Wave) : Statement (.oscSettype v c k) := by
  cases k <;>
  exact ⟨_, rfl, rfl, by simp [Format.unusedClear, Format.immLegal, Instr.row, Format.bothImm, Wave.code]⟩

theorem oscProcess (v c : BitVec 4) : Statement (.oscProcess v c) := by
  exact ⟨_, rfl, rfl, by simp [Format.unusedClear, Format.immLegal, Instr.row, Format.both]⟩

theorem dlyResize (v c : BitVec 4) (n : BitVec 64) : Statement (.dlyResize v c n) := by
  exact ⟨_, rfl, rfl, by simp [Format.unusedClear, Format.immLegal, Instr.row, Format.both]⟩

theorem dlyReset (v c : BitVec 4) : Statement (.dlyReset v c) := by
  exact ⟨_, rfl, rfl, by simp [Format.unusedClear, Format.immLegal, Instr.row, Format.both]⟩

theorem dlyGet (v c : BitVec 4) (d : BitVec 64) : Statement (.dlyGet v c d) := by
  exact ⟨_, rfl, rfl, by simp [Format.unusedClear, Format.immLegal, Instr.row, Format.both]⟩

theorem dlyGetlin (v c : BitVec 4) (t : BitVec 64) : Statement (.dlyGetlin v c t) := by
  exact ⟨_, rfl, rfl, by simp [Format.unusedClear, Format.immLegal, Instr.row, Format.both]⟩

theorem dlyPush (v c : BitVec 4) (x : BitVec 64) : Statement (.dlyPush v c x) := by
  exact ⟨_, rfl, rfl, by simp [Format.unusedClear, Format.immLegal, Instr.row, Format.both]⟩

theorem mdlPrepare (v : BitVec 4) (fs : BitVec 64) : Statement (.mdlPrepare v fs) := by
  exact ⟨_, rfl, rfl, by simp [Format.unusedClear, Format.immLegal, Instr.row, Format.voice]⟩

theorem mdlReset (v : BitVec 4) : Statement (.mdlReset v) := by
  exact ⟨_, rfl, rfl, by simp [Format.unusedClear, Format.immLegal, Instr.row, Format.voice]⟩

theorem mdlSetmaxdelay (v : BitVec 4) (sec : BitVec 64) : Statement (.mdlSetmaxdelay v sec) := by
  exact ⟨_, rfl, rfl, by simp [Format.unusedClear, Format.immLegal, Instr.row, Format.voice]⟩

theorem mdlSetmaxdepth (v : BitVec 4) (sec : BitVec 64) : Statement (.mdlSetmaxdepth v sec) := by
  exact ⟨_, rfl, rfl, by simp [Format.unusedClear, Format.immLegal, Instr.row, Format.voice]⟩

theorem mdlSetdelay (v c : BitVec 4) (t : BitVec 64) : Statement (.mdlSetdelay v c t) := by
  exact ⟨_, rfl, rfl, by simp [Format.unusedClear, Format.immLegal, Instr.row, Format.both]⟩

theorem mdlSetdepth (v c : BitVec 4) (d : BitVec 64) : Statement (.mdlSetdepth v c d) := by
  exact ⟨_, rfl, rfl, by simp [Format.unusedClear, Format.immLegal, Instr.row, Format.both]⟩

theorem mdlSetrate (v : BitVec 4) (hz : BitVec 64) : Statement (.mdlSetrate v hz) := by
  exact ⟨_, rfl, rfl, by simp [Format.unusedClear, Format.immLegal, Instr.row, Format.voice]⟩

theorem mdlSetwet (v : BitVec 4) (w : BitVec 64) : Statement (.mdlSetwet v w) := by
  exact ⟨_, rfl, rfl, by simp [Format.unusedClear, Format.immLegal, Instr.row, Format.voice]⟩

theorem mdlProcess (v c : BitVec 4) (x : BitVec 64) : Statement (.mdlProcess v c x) := by
  exact ⟨_, rfl, rfl, by simp [Format.unusedClear, Format.immLegal, Instr.row, Format.both]⟩

theorem mdlLatency (v : BitVec 4) : Statement (.mdlLatency v) := by
  exact ⟨_, rfl, rfl, by simp [Format.unusedClear, Format.immLegal, Instr.row, Format.voice]⟩

theorem vbPrepare (fs : BitVec 64) : Statement (.vbPrepare fs) := by
  exact ⟨_, rfl, rfl, by simp [Format.unusedClear, Format.immLegal, Instr.row, Format.plain]⟩

theorem vbReset : Statement .vbReset := by
  exact ⟨_, rfl, rfl, by simp [Format.unusedClear, Format.immLegal, Instr.row, Format.plain]⟩

theorem vbSetactive (n : BitVec 64) : Statement (.vbSetactive n) := by
  exact ⟨_, rfl, rfl, by simp [Format.unusedClear, Format.immLegal, Instr.row, Format.plain]⟩

theorem vbSetrate (hz : BitVec 64) : Statement (.vbSetrate hz) := by
  exact ⟨_, rfl, rfl, by simp [Format.unusedClear, Format.immLegal, Instr.row, Format.plain]⟩

theorem vbSetdepth (d : BitVec 64) : Statement (.vbSetdepth d) := by
  exact ⟨_, rfl, rfl, by simp [Format.unusedClear, Format.immLegal, Instr.row, Format.plain]⟩

theorem vbSetdelay (t : BitVec 64) : Statement (.vbSetdelay t) := by
  exact ⟨_, rfl, rfl, by simp [Format.unusedClear, Format.immLegal, Instr.row, Format.plain]⟩

theorem vbSetspread (x : BitVec 64) : Statement (.vbSetspread x) := by
  exact ⟨_, rfl, rfl, by simp [Format.unusedClear, Format.immLegal, Instr.row, Format.plain]⟩

theorem vbSetwidth (w : BitVec 64) : Statement (.vbSetwidth w) := by
  exact ⟨_, rfl, rfl, by simp [Format.unusedClear, Format.immLegal, Instr.row, Format.plain]⟩

theorem vbSettype (k : Wave) : Statement (.vbSettype k) := by
  cases k <;>
  exact ⟨_, rfl, rfl, by simp [Format.unusedClear, Format.immLegal, Instr.row, Format.imm, Wave.code]⟩

theorem vbSetphase (c : BitVec 4) (off : BitVec 64) : Statement (.vbSetphase c off) := by
  exact ⟨_, rfl, rfl, by simp [Format.unusedClear, Format.immLegal, Instr.row, Format.chan]⟩

theorem vbProcess (c : BitVec 4) (x : BitVec 64) : Statement (.vbProcess c x) := by
  exact ⟨_, rfl, rfl, by simp [Format.unusedClear, Format.immLegal, Instr.row, Format.chan]⟩

theorem vbSetmaxdelay (sec : BitVec 64) : Statement (.vbSetmaxdelay sec) := by
  exact ⟨_, rfl, rfl, by simp [Format.unusedClear, Format.immLegal, Instr.row, Format.plain]⟩

theorem vbSetmaxdepth (sec : BitVec 64) : Statement (.vbSetmaxdepth sec) := by
  exact ⟨_, rfl, rfl, by simp [Format.unusedClear, Format.immLegal, Instr.row, Format.plain]⟩

theorem engPrepare (fs : BitVec 64) : Statement (.engPrepare fs) := by
  exact ⟨_, rfl, rfl, by simp [Format.unusedClear, Format.immLegal, Instr.row, Format.plain]⟩

theorem engReset : Statement .engReset := by
  exact ⟨_, rfl, rfl, by simp [Format.unusedClear, Format.immLegal, Instr.row, Format.plain]⟩

theorem engSetmode (k : Mode) : Statement (.engSetmode k) := by
  cases k <;>
  exact ⟨_, rfl, rfl, by simp [Format.unusedClear, Format.immLegal, Instr.row, Format.imm, Mode.code]⟩

theorem engSetmix (m : BitVec 64) : Statement (.engSetmix m) := by
  exact ⟨_, rfl, rfl, by simp [Format.unusedClear, Format.immLegal, Instr.row, Format.plain]⟩

theorem engSethpf (hz : BitVec 64) : Statement (.engSethpf hz) := by
  exact ⟨_, rfl, rfl, by simp [Format.unusedClear, Format.immLegal, Instr.row, Format.plain]⟩

theorem engSetlpf (hz : BitVec 64) : Statement (.engSetlpf hz) := by
  exact ⟨_, rfl, rfl, by simp [Format.unusedClear, Format.immLegal, Instr.row, Format.plain]⟩

theorem engSetfbyp (hp lp : Bool) : Statement (.engSetfbyp hp lp) := by
  cases hp <;> cases lp <;>
  exact ⟨_, rfl, rfl, by simp [Format.unusedClear, Format.immLegal, Instr.row, Format.imm, fbypCode]⟩

theorem engBegin (byp : Bool) (n : BitVec 64) : Statement (.engBegin byp n) := by
  cases byp <;>
  exact ⟨_, rfl, by simp [Instr.row, flagCode], by simp [Format.unusedClear, Format.immLegal, Instr.row, Format.imm, flagCode]⟩

theorem engIn (c : BitVec 4) (x : BitVec 64) : Statement (.engIn c x) := by
  exact ⟨_, rfl, rfl, by simp [Format.unusedClear, Format.immLegal, Instr.row, Format.chan]⟩

theorem engStep : Statement .engStep := by
  exact ⟨_, rfl, rfl, by simp [Format.unusedClear, Format.immLegal, Instr.row, Format.plain]⟩

theorem engOut (c : BitVec 4) : Statement (.engOut c) := by
  exact ⟨_, rfl, rfl, by simp [Format.unusedClear, Format.immLegal, Instr.row, Format.chan]⟩

theorem engLatency : Statement .engLatency := by
  exact ⟨_, rfl, rfl, by simp [Format.unusedClear, Format.immLegal, Instr.row, Format.plain]⟩

theorem fltReset : Statement .fltReset := by
  exact ⟨_, rfl, rfl, by simp [Format.unusedClear, Format.immLegal, Instr.row, Format.plain]⟩

theorem fltBoost (c : BitVec 4) (x : BitVec 64) : Statement (.fltBoost c x) := by
  exact ⟨_, rfl, rfl, by simp [Format.unusedClear, Format.immLegal, Instr.row, Format.chan]⟩

theorem fltCut (c : BitVec 4) (x : BitVec 64) : Statement (.fltCut c x) := by
  exact ⟨_, rfl, rfl, by simp [Format.unusedClear, Format.immLegal, Instr.row, Format.chan]⟩

theorem fltHp (c : BitVec 4) (x : BitVec 64) : Statement (.fltHp c x) := by
  exact ⟨_, rfl, rfl, by simp [Format.unusedClear, Format.immLegal, Instr.row, Format.chan]⟩

theorem fltLp (c : BitVec 4) (x : BitVec 64) : Statement (.fltLp c x) := by
  exact ⟨_, rfl, rfl, by simp [Format.unusedClear, Format.immLegal, Instr.row, Format.chan]⟩

end Sys2Proof.Laws.RowInMap
end

