-- ==== Sys2Proof/Laws/Voices.lean ====
section
/-! SUPPORT. One lemma per operation of the modulated delay lines and of the voice bank that says once everything it can do:
what it leaves in each voice and channel, and which registers it leaves alone. -/

namespace Sys2Proof.Machine

section
variable {S : Type} [Inhabited S]

/-! ### Allocation (R112) -/

omit [Inhabited S] in
/-- `MdlSetMax`'s loop allocates the buffers of channels `0..n-1` of one voice. -/
theorem allocate_loop (K : Kit S) (v k n : Nat) (r : Regs S) (h : 1 ≤ k ∧ k ≤ K.P.dlyCap) :
    ∃ d, (loopE n (fun c r => do
        let b ← dlyResize K k (r.getDly v c)
        return r.setDly v c b) r : Except Cause (Regs S)) = .ok { r with dly := d } ∧
      ∀ u c, ({ r with dly := d } : Regs S).getDly u c =
        if u = v ∧ c < n then freshBuffer S k else r.getDly u c := by
  induction n with
  | zero => exact ⟨r.dly, rfl, fun u c => by simp⟩
  | succ n ih =>
    obtain ⟨d, hd, hg⟩ := ih
    simp only [loopE, hd, Except.bind]
    rcases dlyResize_cases K k (({ r with dly := d } : Regs S).getDly v n) with ⟨_, _, e⟩ | ⟨hn, _⟩
    · refine ⟨_, by rw [e]; rfl, fun u c => ?_⟩
      have := getDly_setDly ({ r with dly := d } : Regs S) v n u c (freshBuffer S k)
      refine this.trans ?_
      rw [hg]
      by_cases hc : c = n
      · subst hc; by_cases hu : u = v <;> simp [hu]
      · have : (c < n + 1) ↔ c < n := by omega
        simp [hc, this]
    · exact absurd h hn

/-- `MdlSetMax(v)` allocates every channel's buffer anew and writes nothing else, or faults with `ALLOC` (R112). -/
theorem mdlSetMax_cases (K : Kit S) (v : Nat) (r : Regs S) :
    (AllocOk K (r.getMdl v).maxDelay (r.getMdl v).fs ∧ ∃ d, mdlSetMax K v r = .ok { r with dly := d } ∧
      ∀ u c, ({ r with dly := d } : Regs S).getDly u c =
        if u = v ∧ c < r.sys.nch then freshBuffer S (bufferWords K.A (r.getMdl v).maxDelay (r.getMdl v).fs)
        else r.getDly u c) ∨
    (¬AllocOk K (r.getMdl v).maxDelay (r.getMdl v).fs ∧ mdlSetMax K v r = .error .alloc) := by
  by_cases h : AllocOk K (r.getMdl v).maxDelay (r.getMdl v).fs
  · obtain ⟨d, hd, hg⟩ := allocate_loop K v _ r.sys.nch r h
    refine .inl ⟨h, d, ?_, hg⟩
    simp only [AllocOk, bufferWords] at h
    simp only [mdlSetMax, h, and_self, decide_true, require_true, ok_bind]
    exact hd
  · refine .inr ⟨h, ?_⟩
    have hb : decide (1 ≤ ((K.A.ceil (K.A.mul (r.getMdl v).maxDelay (r.getMdl v).fs)).getD 0).toNat ∧
        ((K.A.ceil (K.A.mul (r.getMdl v).maxDelay (r.getMdl v).fs)).getD 0).toNat ≤ K.P.dlyCap) = false :=
      decide_eq_false h
    simp only [mdlSetMax, hb, require_false, error_bind]

/-! ### What a prepare or a reset leaves in a voice -/

/-- What `MdlPrepare` leaves in voice `v` (R111). -/
structure VoicePrepared (K : Kit S) (r r' : Regs S) (v : Nat) (fs : S) : Prop where
  osc : ∀ c, r'.getOsc v c = if c < r.sys.nch then oscPrepare K fs (r.getOsc v c) else r.getOsc v c
  dly : ∀ c, r'.getDly v c =
    if c < r.sys.nch then freshBuffer S (bufferWords K.A (r.getMdl v).maxDelay fs) else r.getDly v c
  dp : ∀ c, (r'.getMdl v).dp.get c =
    if c < r.sys.nch then smReset K.A ((r.getMdl v).dp.get c) fs (K.A.lit 2 10) else (r.getMdl v).dp.get c
  dt : ∀ c, (r'.getMdl v).dt.get c =
    if c < r.sys.nch then smReset K.A ((r.getMdl v).dt.get c) fs (K.A.lit 5 10) else (r.getMdl v).dt.get c
  mdl : r'.getMdl v = { r.getMdl v with prep := true, fs := fs, dt := (r'.getMdl v).dt, dp := (r'.getMdl v).dp }

/-- What `MdlReset` leaves in voice `v` (R113). -/
structure VoiceReset (A : Arith S) (r r' : Regs S) (v : Nat) : Prop where
  osc : ∀ c, r'.getOsc v c = if c < r.sys.nch then oscReset A (r.getOsc v c) else r.getOsc v c
  dly : ∀ c, r'.getDly v c = if c < r.sys.nch then freshBuffer S (r.getDly v c).size else r.getDly v c
  dp : ∀ c, (r'.getMdl v).dp.get c =
    if c < r.sys.nch then smSettle A ((r.getMdl v).dp.get c) else (r.getMdl v).dp.get c
  dt : ∀ c, (r'.getMdl v).dt.get c =
    if c < r.sys.nch then smSettle A ((r.getMdl v).dt.get c) else (r.getMdl v).dt.get c
  mdl : r'.getMdl v = { r.getMdl v with dt := (r'.getMdl v).dt, dp := (r'.getMdl v).dp }

/-- Voice `v` is the same in both. -/
structure VoiceSame (r r' : Regs S) (v : Nat) : Prop where
  osc : ∀ c, r'.getOsc v c = r.getOsc v c
  dly : ∀ c, r'.getDly v c = r.getDly v c
  mdl : r'.getMdl v = r.getMdl v

/-- The registers outside the voices are the same in both. -/
structure OutsideSame (r r' : Regs S) : Prop where
  sys : r'.sys = r.sys
  vb : r'.vb = r.vb
  flt : r'.flt = r.flt
  eng : r'.eng = r.eng

theorem VoiceSame.refl (r : Regs S) (v : Nat) : VoiceSame r r v := ⟨fun _ => rfl, fun _ => rfl, rfl⟩

omit [Inhabited S] in
theorem OutsideSame.refl (r : Regs S) : OutsideSame r r := ⟨rfl, rfl, rfl, rfl⟩

omit [Inhabited S] in
theorem OutsideSame.trans {r s t : Regs S} (h : OutsideSame r s) (k : OutsideSame s t) : OutsideSame r t :=
  ⟨k.sys.trans h.sys, k.vb.trans h.vb, k.flt.trans h.flt, k.eng.trans h.eng⟩

/-- `MdlPrepare(v, fs)` prepares the voice and leaves everything else, or faults with `ALLOC` (R111). -/
theorem mdlPrepare_cases (K : Kit S) (v : Nat) (fs : S) (r : Regs S) :
    (AllocOk K (r.getMdl v).maxDelay fs ∧ ∃ r', mdlPrepare K v fs r = .ok r' ∧ VoicePrepared K r r' v fs ∧
      (∀ u, u ≠ v → VoiceSame r r' u) ∧ OutsideSame r r') ∨
    (¬AllocOk K (r.getMdl v).maxDelay fs ∧ mdlPrepare K v fs r = .error .alloc) := by
  have hm : (r.setMdl v { r.getMdl v with fs := fs }).getMdl v = { r.getMdl v with fs := fs } := by
    simp [getMdl_setMdl]
  rcases mdlSetMax_cases K v (r.setMdl v { r.getMdl v with fs := fs }) with ⟨ha, d, hd, hg⟩ | ⟨ha, hd⟩
  · rw [hm] at ha hg
    refine .inl ⟨ha, mdlPrepareChans K v fs { r.setMdl v { r.getMdl v with fs := fs } with dly := d },
      by simp only [mdlPrepare, hd, ok_bind]; rfl, ?_, ?_, ⟨rfl, rfl, rfl, rfl⟩⟩
    · refine ⟨fun c => ?_, fun c => ?_, fun c => ?_, fun c => ?_, ?_⟩
      · simp only [mdlPrepareChans, getOsc_setMdl]
        simp [Regs.getOsc, Bank.get_update]
      · exact (hg v c).trans (by simp)
      · simp [mdlPrepareChans, Bank.get_update, Regs.getMdl, Regs.setMdl]
      · simp [mdlPrepareChans, Bank.get_update, Regs.getMdl, Regs.setMdl]
      · simp [mdlPrepareChans, Regs.getMdl, Regs.setMdl]
    · intro u hu
      refine ⟨fun c => ?_, fun c => ?_, ?_⟩
      · simp only [mdlPrepareChans, getOsc_setMdl]
        simp [Regs.getOsc, hu]
      · exact (hg u c).trans (by simp [hu])
      · simp [mdlPrepareChans, Regs.getMdl, Regs.setMdl, hu]
  · rw [hm] at ha
    exact .inr ⟨ha, by simp only [mdlPrepare, hd, error_bind]⟩

/-- `MdlReset(v)` resets the voice and leaves everything else (R113). -/
theorem mdlReset_spec (A : Arith S) (v : Nat) (r : Regs S) :
    VoiceReset A r (mdlReset A v r) v ∧ (∀ u, u ≠ v → VoiceSame r (mdlReset A v r) u) ∧
      OutsideSame r (mdlReset A v r) := by
  refine ⟨⟨fun c => ?_, fun c => ?_, fun c => ?_, fun c => ?_, ?_⟩, fun u hu => ⟨fun c => ?_, fun c => ?_, ?_⟩,
    ⟨rfl, rfl, rfl, rfl⟩⟩
  · simp [mdlReset, Regs.getOsc, Regs.setMdl, Bank.get_update]
  · simp only [mdlReset, Regs.getDly, Regs.setMdl, Bank.get_put_same, Bank.get_update]
    split <;> rfl
  · simp [mdlReset, Regs.getMdl, Regs.setMdl, Bank.get_update]
  · simp [mdlReset, Regs.getMdl, Regs.setMdl, Bank.get_update]
  · simp [mdlReset, Regs.getMdl, Regs.setMdl]
  · simp [mdlReset, Regs.getOsc, Regs.setMdl, hu]
  · simp [mdlReset, Regs.getDly, Regs.setMdl, hu]
  · simp [mdlReset, Regs.getMdl, Regs.setMdl, hu]

/-- `for v in 0..n-1: MdlReset(v)` resets those voices and leaves everything else (R132). -/
theorem mdlResetUpto_spec (A : Arith S) (n : Nat) (r : Regs S) :
    (∀ v < n, VoiceReset A r (mdlResetUpto A n r) v) ∧ (∀ v, n ≤ v → VoiceSame r (mdlResetUpto A n r) v) ∧
      OutsideSame r (mdlResetUpto A n r) := by
  induction n with
  | zero => exact ⟨fun v h => absurd h (Nat.not_lt_zero v), fun v _ => VoiceSame.refl r v, OutsideSame.refl r⟩
  | succ n ih =>
    obtain ⟨i1, i2, i3⟩ := ih
    obtain ⟨m1, m2, m3⟩ := mdlReset_spec A n (mdlResetUpto A n r)
    have hn : (mdlResetUpto A n r).sys.nch = r.sys.nch := by rw [i3.sys]
    have hs := i2 n (Nat.le_refl n)
    refine ⟨fun v hv => ?_, fun v hv => ?_, i3.trans m3⟩
    · by_cases h : v = n
      · subst h
        refine ⟨fun c => ?_, fun c => ?_, fun c => ?_, fun c => ?_, ?_⟩
        · rw [mdlResetUpto, m1.osc, hs.osc, hn]
        · rw [mdlResetUpto, m1.dly, hs.dly, hn]
        · rw [mdlResetUpto, m1.dp, hs.mdl, hn]
        · rw [mdlResetUpto, m1.dt, hs.mdl, hn]
        · have := m1.mdl
          rw [hs.mdl] at this
          exact this
      · have hlt : v < n := by omega
        have k := m2 v h
        have j := i1 v hlt
        refine ⟨fun c => ?_, fun c => ?_, fun c => ?_, fun c => ?_, ?_⟩
        · rw [mdlResetUpto, k.osc, j.osc]
        · rw [mdlResetUpto, k.dly, j.dly]
        · rw [mdlResetUpto, k.mdl, j.dp]
        · rw [mdlResetUpto, k.mdl, j.dt]
        · rw [mdlResetUpto, k.mdl]
          exact j.mdl
    · have k := m2 v (by omega)
      have j := i2 v (by omega)
      exact ⟨fun c => by rw [mdlResetUpto, k.osc, j.osc], fun c => by rw [mdlResetUpto, k.dly, j.dly],
        by rw [mdlResetUpto, k.mdl, j.mdl]⟩

/-- `for v in 0..n-1: MdlPrepare(v, fs)` prepares those voices and leaves everything else, or faults with `ALLOC` when one of
them cannot be allocated (R131). -/
theorem mdlPrepares_cases (K : Kit S) (n : Nat) (fs : S) (r : Regs S) :
    ((∀ v < n, AllocOk K (r.getMdl v).maxDelay fs) ∧ ∃ r', loopE n (fun v r => mdlPrepare K v fs r) r = .ok r' ∧
      (∀ v < n, VoicePrepared K r r' v fs) ∧ (∀ v, n ≤ v → VoiceSame r r' v) ∧ OutsideSame r r') ∨
    ((∃ v < n, ¬AllocOk K (r.getMdl v).maxDelay fs) ∧ loopE n (fun v r => mdlPrepare K v fs r) r = .error .alloc) := by
  induction n with
  | zero => exact .inl ⟨fun v h => absurd h (Nat.not_lt_zero v), r, rfl, fun v h => absurd h (Nat.not_lt_zero v),
      fun v _ => VoiceSame.refl r v, OutsideSame.refl r⟩
  | succ n ih =>
    rcases ih with ⟨ha, r', hr, i1, i2, i3⟩ | ⟨⟨v, hv, hb⟩, he⟩
    · have hs := i2 n (Nat.le_refl n)
      have hn : r'.sys.nch = r.sys.nch := by rw [i3.sys]
      rcases mdlPrepare_cases K n fs r' with ⟨hA, r'', hr'', m1, m2, m3⟩ | ⟨hA, he⟩
      · rw [hs.mdl] at hA
        refine .inl ⟨fun v hv => ?_, r'', by simp only [loopE, hr, Except.bind, hr''], fun v hv => ?_, fun v hv => ?_,
          i3.trans m3⟩
        · by_cases h : v = n
          · subst h; exact hA
          · exact ha v (by omega)
        · by_cases h : v = n
          · subst h
            refine ⟨fun c => ?_, fun c => ?_, fun c => ?_, fun c => ?_, ?_⟩
            · rw [m1.osc, hs.osc, hn]
            · rw [m1.dly, hs.dly, hn, hs.mdl]
            · rw [m1.dp, hs.mdl, hn]
            · rw [m1.dt, hs.mdl, hn]
            · have := m1.mdl
              rw [hs.mdl] at this
              exact this
          · have k := m2 v h
            have j := i1 v (by omega)
            refine ⟨fun c => ?_, fun c => ?_, fun c => ?_, fun c => ?_, ?_⟩
            · rw [k.osc, j.osc]
            · rw [k.dly, j.dly]
            · rw [k.mdl, j.dp]
            · rw [k.mdl, j.dt]
            · rw [k.mdl]
              exact j.mdl
        · have k := m2 v (by omega)
          have j := i2 v (by omega)
          exact ⟨fun c => by rw [k.osc, j.osc], fun c => by rw [k.dly, j.dly], by rw [k.mdl, j.mdl]⟩
      · rw [hs.mdl] at hA
        exact .inr ⟨⟨n, Nat.lt_succ_self n, hA⟩, by simp only [loopE, hr, Except.bind, he]⟩
    · exact .inr ⟨⟨v, by omega, hb⟩, by simp only [loopE, he, Except.bind]⟩

/-- A new bound in one voice, and the reallocation once it is prepared (R114, R116): what both setters can do, with `set` the
write of the bound. -/
theorem mdlBound_cases (K : Kit S) (v : Nat) (set : Mdl S → Mdl S) (r : Regs S) (hp : ∀ m, (set m).prep = m.prep)
    (hf : ∀ m, (set m).fs = m.fs) :
    let r₁ := r.setMdl v (set (r.getMdl v))
    let go := if (r₁.getMdl v).prep then mdlSetMax K v r₁ else .ok r₁
    (((r.getMdl v).prep = true → AllocOk K (set (r.getMdl v)).maxDelay (r.getMdl v).fs) ∧ ∃ r', go = .ok r' ∧
      (∀ u, r'.getMdl u = if u = v then set (r.getMdl u) else r.getMdl u) ∧
      (∀ u c, r'.getDly u c = if u = v ∧ (r.getMdl u).prep = true ∧ c < r.sys.nch then
        freshBuffer S (bufferWords K.A (set (r.getMdl u)).maxDelay (r.getMdl u).fs) else r.getDly u c) ∧
      r'.osc = r.osc ∧ OutsideSame r r' ∧ ((r.getMdl v).prep = false → r' = r₁)) ∨
    ((r.getMdl v).prep = true ∧ ¬AllocOk K (set (r.getMdl v)).maxDelay (r.getMdl v).fs ∧ go = .error .alloc) := by
  intro r₁ go
  have hm : r₁.getMdl v = set (r.getMdl v) := by simp [r₁, getMdl_setMdl]
  have hmu : ∀ u, r₁.getMdl u = if u = v then set (r.getMdl u) else r.getMdl u := by
    intro u
    simp only [r₁, getMdl_setMdl]
    by_cases h : u = v <;> simp [h]
  cases hpr : (r.getMdl v).prep with
  | false =>
    have hgo : go = .ok r₁ := by simp [go, hm, hp, hpr]
    refine .inl ⟨by simp, r₁, hgo, hmu, fun u c => ?_, rfl, ⟨rfl, rfl, rfl, rfl⟩, fun _ => rfl⟩
    by_cases h : u = v
    · subst h; simp [hpr, r₁]
    · simp [h, r₁]
  | true =>
    have hgo : go = mdlSetMax K v r₁ := by simp [go, hm, hp, hpr]
    rcases mdlSetMax_cases K v r₁ with ⟨ha, d, hd, hg⟩ | ⟨ha, hd⟩
    · rw [hm, hf] at ha hg
      refine .inl ⟨fun _ => ha, _, hgo.trans hd, hmu, fun u c => ?_, rfl, ⟨rfl, rfl, rfl, rfl⟩, by simp⟩
      rw [hg]
      by_cases h : u = v
      · subst h; simp [hpr, r₁]
      · simp [h, r₁]
    · rw [hm, hf] at ha
      exact .inr ⟨rfl, ha, hgo.trans hd⟩

/-- The same loop over voices `0..n-1` (R143, R144). -/
theorem mdlBounds_cases (K : Kit S) (set : Mdl S → Mdl S) (hp : ∀ m, (set m).prep = m.prep) (hf : ∀ m, (set m).fs = m.fs)
    (f : Nat → Regs S → Except Cause (Regs S))
    (hF : ∀ v r, f v r =
      if ((r.setMdl v (set (r.getMdl v))).getMdl v).prep then mdlSetMax K v (r.setMdl v (set (r.getMdl v)))
      else .ok (r.setMdl v (set (r.getMdl v)))) (n : Nat) (r : Regs S) :
    ((∀ v < n, (r.getMdl v).prep = true → AllocOk K (set (r.getMdl v)).maxDelay (r.getMdl v).fs) ∧
      ∃ r', loopE n f r = .ok r' ∧ (∀ u, r'.getMdl u = if u < n then set (r.getMdl u) else r.getMdl u) ∧
      (∀ u c, r'.getDly u c = if u < n ∧ (r.getMdl u).prep = true ∧ c < r.sys.nch then
        freshBuffer S (bufferWords K.A (set (r.getMdl u)).maxDelay (r.getMdl u).fs) else r.getDly u c) ∧
      r'.osc = r.osc ∧ OutsideSame r r') ∨
    ((∃ v < n, (r.getMdl v).prep = true ∧ ¬AllocOk K (set (r.getMdl v)).maxDelay (r.getMdl v).fs) ∧
      loopE n f r = .error .alloc) := by
  induction n with
  | zero => exact .inl ⟨fun v h => absurd h (Nat.not_lt_zero v), r, rfl, fun u => by simp, fun u c => by simp, rfl,
      OutsideSame.refl r⟩
  | succ n ih =>
    rcases ih with ⟨ha, r', hr, i1, i2, i3, i4⟩ | ⟨⟨v, hv, hb⟩, he⟩
    · have hn : r'.getMdl n = r.getMdl n := by rw [i1]; simp
      have hc : r'.sys.nch = r.sys.nch := by rw [i4.sys]
      rcases mdlBound_cases K n set r' hp hf with ⟨hA, r'', hr'', m1, m2, m3, m4, _⟩ | ⟨hP, hA, he⟩
      · rw [← hF] at hr''
        refine .inl ⟨fun v hv => ?_, r'', by simp only [loopE, hr, Except.bind, hr''], fun u => ?_, fun u c => ?_,
          m3.trans i3, i4.trans m4⟩
        · by_cases h : v = n
          · subst h; rw [hn] at hA; exact hA
          · exact ha v (by omega)
        · rw [m1, i1]
          by_cases h : u = n
          · subst h; simp
          · have : u < n + 1 ↔ u < n := by omega
            simp [h, this]
        · rw [m2, i2, i1]
          by_cases h : u = n
          · subst h; simp [hc]
          · have : u < n + 1 ↔ u < n := by omega
            simp [h, this]
      · rw [hn] at hP hA
        rw [← hF] at he
        exact .inr ⟨⟨n, Nat.lt_succ_self n, hP, hA⟩, by simp only [loopE, hr, Except.bind, he]⟩
    · exact .inr ⟨⟨v, by omega, hb⟩, by simp only [loopE, he, Except.bind]⟩

end

end Sys2Proof.Machine
end

