-- ==== Sys2Proof/Laws/Process.lean ====
section
/-! SUPPORT. One lemma per processing operation (the voice, the bank, a frame of the engine) that says once everything it can
do: its result, what it leaves in each voice, channel and filter, and which registers it leaves alone. -/

namespace Sys2Proof.Machine

section
variable {S : Type} [Inhabited S] [DecidableEq S]

/-! ### One voice (R120) -/

/-- One sample of channel `c` run through voice `v`, in every register it writes. -/
structure VoiceRan (K : Kit S) (r r' : Regs S) (v c : Nat) (x : S) : Prop where
  osc : r'.getOsc v c = (oscProcess K (r.getOsc v c)).2
  dly : r'.getDly v c = dlyPush K.A x (r.getDly v c)
  dt : (r'.getMdl v).dt.get c = (smNext K.A ((r.getMdl v).dt.get c)).2
  dp : (r'.getMdl v).dp.get c = (smNext K.A ((r.getMdl v).dp.get c)).2

/-- Channel `c` of voice `v` is the same in both. -/
structure CellSame (r r' : Regs S) (v c : Nat) : Prop where
  osc : r'.getOsc v c = r.getOsc v c
  dly : r'.getDly v c = r.getDly v c
  dt : (r'.getMdl v).dt.get c = (r.getMdl v).dt.get c
  dp : (r'.getMdl v).dp.get c = (r.getMdl v).dp.get c

omit [DecidableEq S] in
theorem CellSame.refl (r : Regs S) (v c : Nat) : CellSame r r v c := ⟨rfl, rfl, rfl, rfl⟩

omit [DecidableEq S] in
theorem CellSame.trans {r s t : Regs S} {v c : Nat} (h : CellSame r s v c) (k : CellSame s t v c) : CellSame r t v c :=
  ⟨k.osc.trans h.osc, k.dly.trans h.dly, k.dt.trans h.dt, k.dp.trans h.dp⟩

/-- A voice's scalar registers are the same in both. -/
def ScalarsSame (r r' : Regs S) : Prop := ∀ u, r'.getMdl u = { r.getMdl u with dt := (r'.getMdl u).dt, dp := (r'.getMdl u).dp }

omit [DecidableEq S] in
theorem ScalarsSame.refl (r : Regs S) : ScalarsSame r r := fun _ => rfl

omit [DecidableEq S] in
theorem ScalarsSame.trans {r s t : Regs S} (h : ScalarsSame r s) (k : ScalarsSame s t) : ScalarsSame r t := by
  intro u
  rw [k u, h u]

omit [DecidableEq S] in
/-- A cell that is the same has the same read delay, in range or not, and the same output. -/
theorem CellSame.readDelay {K : Kit S} {r s : Regs S} {v c : Nat} (h : CellSame r s v c) (k : ScalarsSame r s) :
    readDelay K s v c = readDelay K r v c := by
  have hf : (s.getMdl v).fs = (r.getMdl v).fs := by rw [k v]
  simp only [Machine.readDelay, h.osc, h.dt, h.dp, hf]

omit [DecidableEq S] in
theorem CellSame.readOk {K : Kit S} {r s : Regs S} {v c : Nat} (h : CellSame r s v c) (k : ScalarsSame r s) :
    ReadOk K s v c ↔ ReadOk K r v c := by
  simp only [ReadOk, h.readDelay k, h.dly]

omit [DecidableEq S] in
theorem CellSame.voiceOut {K : Kit S} {r s : Regs S} {v c : Nat} (h : CellSame r s v c) (k : ScalarsSame r s) (x : S) :
    voiceOut K s v c x = voiceOut K r v c x := by
  have hw : (s.getMdl v).wet = (r.getMdl v).wet := by rw [k v]
  simp only [Machine.voiceOut, h.readDelay k, h.dly, hw]

theorem CellSame.ran {K : Kit S} {r s t : Regs S} {v c : Nat} {x : S} (h : CellSame r s v c) (k : VoiceRan K s t v c x) :
    VoiceRan K r t v c x :=
  ⟨by rw [k.osc, h.osc], by rw [k.dly, h.dly], by rw [k.dt, h.dt], by rw [k.dp, h.dp]⟩

theorem VoiceRan.keep {K : Kit S} {r s t : Regs S} {v c : Nat} {x : S} (h : VoiceRan K r s v c x) (k : CellSame s t v c) :
    VoiceRan K r t v c x :=
  ⟨by rw [k.osc, h.osc], by rw [k.dly, h.dly], by rw [k.dt, h.dt], by rw [k.dp, h.dp]⟩

/-- `MdlProcess(v, c, x)` answers the voice's output and advances the one channel of the one voice, or faults with
`BUFFER_RANGE` (R120). -/
theorem mdlProcess_cases (K : Kit S) (v c : Nat) (x : S) (r : Regs S) :
    (ReadOk K r v c ∧ ∃ r', mdlProcess K v c x r = .ok (voiceOut K r v c x, r') ∧ VoiceRan K r r' v c x ∧
      (∀ u d, ¬(u = v ∧ d = c) → CellSame r r' u d) ∧ ScalarsSame r r' ∧ OutsideSame r r') ∨
    (¬ReadOk K r v c ∧ mdlProcess K v c x r = .error .bufferRange) := by
  have hd : mdlDelay K.A (r.getMdl v).fs (oscProcess K (r.getOsc v c)).1 (smNext K.A ((r.getMdl v).dp.get c)).1
      (smNext K.A ((r.getMdl v).dt.get c)).1 = readDelay K r v c := rfl
  rcases dlyGetLinear_cases K.A (readDelay K r v c) (r.getDly v c) with ⟨h1, h2, e⟩ | ⟨h, e⟩
  · left
    refine ⟨⟨h1, h2⟩, ((r.setOsc v c (oscProcess K (r.getOsc v c)).2).setMdl v
      { r.getMdl v with
        dp := (r.getMdl v).dp.put c (smNext K.A ((r.getMdl v).dp.get c)).2
        dt := (r.getMdl v).dt.put c (smNext K.A ((r.getMdl v).dt.get c)).2 }).setDly v c (dlyPush K.A x (r.getDly v c)),
      ?_, ?_, ?_, ?_, ⟨rfl, rfl, rfl, rfl⟩⟩
    · simp only [mdlProcess, hd, e, ok_bind]
      rfl
    · refine ⟨?_, ?_, ?_, ?_⟩ <;> simp [getOsc_setOsc, getDly_setDly, getMdl_setMdl]
    · intro u d hud
      have h' : ¬(u = v ∧ d = c) := hud
      refine ⟨?_, ?_, ?_, ?_⟩
      · simp [getOsc_setOsc, h']
      · simp [getDly_setDly, h']
      · simp only [getMdl_setDly, getMdl_setMdl]
        by_cases hu : u = v
        · subst hu
          have : d ≠ c := fun hc => h' ⟨rfl, hc⟩
          simp [this]
        · simp [hu]
      · simp only [getMdl_setDly, getMdl_setMdl]
        by_cases hu : u = v
        · subst hu
          have : d ≠ c := fun hc => h' ⟨rfl, hc⟩
          simp [this]
        · simp [hu]
    · intro u
      simp only [getMdl_setDly, getMdl_setMdl]
      by_cases hu : u = v
      · subst hu; simp
      · simp [hu]
  · right
    refine ⟨fun ⟨k1, k2⟩ => ?_, ?_⟩
    · simp [k1, k2] at h
    · simp only [mdlProcess, hd, e, error_bind]

/-! ### The voice bank (R142) -/

/-- The sum of the active voices among `0..n-1`, from 0 in ascending order. -/
def bankSum (K : Kit S) (r : Regs S) (c : Nat) (x : S) (active n : Nat) : S :=
  (List.range n).foldl (fun sum v => if v < active then K.A.add sum (voiceOut K r v c x) else sum) K.A.zero

theorem bankVoices_cases (K : Kit S) (c : Nat) (x : S) (active n : Nat) (r : Regs S) :
    ((∀ v < n, ReadOk K r v c) ∧ ∃ r', loopE n (vbVoice K c x active) (K.A.zero, r) = .ok (bankSum K r c x active n, r') ∧
      (∀ v < n, VoiceRan K r r' v c x) ∧ (∀ v d, ¬(v < n ∧ d = c) → CellSame r r' v d) ∧ ScalarsSame r r' ∧
      OutsideSame r r') ∨
    ((∃ v < n, ¬ReadOk K r v c) ∧ loopE n (vbVoice K c x active) (K.A.zero, r) = .error .bufferRange) := by
  induction n with
  | zero => exact .inl ⟨fun v h => absurd h (Nat.not_lt_zero v), r, rfl, fun v h => absurd h (Nat.not_lt_zero v),
      fun v d _ => CellSame.refl r v d, ScalarsSame.refl r, OutsideSame.refl r⟩
  | succ n ih =>
    rcases ih with ⟨ha, r', hr, i1, i2, i3, i4⟩ | ⟨⟨v, hv, hb⟩, he⟩
    · have hs : CellSame r r' n c := i2 n c (fun h => absurd h.1 (Nat.lt_irrefl n))
      rcases mdlProcess_cases K n c x r' with ⟨hA, r'', hr'', m1, m2, m3, m4⟩ | ⟨hA, he⟩
      · refine .inl ⟨fun v hv => ?_, r'', ?_, fun v hv => ?_, fun v d hvd => ?_, i3.trans m3, i4.trans m4⟩
        · by_cases h : v = n
          · subst h; exact (hs.readOk i3).mp hA
          · exact ha v (by omega)
        · simp only [loopE, hr, Except.bind, vbVoice, hr'', ok_bind]
          simp only [bankSum, List.range_succ, List.foldl_append, List.foldl_cons, List.foldl_nil, hs.voiceOut i3]
          rfl
        · by_cases h : v = n
          · subst h; exact hs.ran m1
          · exact (i1 v (by omega)).keep (m2 v c (fun h' => h h'.1))
        · exact (i2 v d (fun h => hvd ⟨by omega, h.2⟩)).trans (m2 v d (fun h => hvd ⟨by omega, h.2⟩))
      · exact .inr ⟨⟨n, Nat.lt_succ_self n, fun h => hA ((hs.readOk i3).mpr h)⟩,
          by simp only [loopE, hr, Except.bind, vbVoice, he, error_bind]⟩
    · exact .inr ⟨⟨v, by omega, hb⟩, by simp only [loopE, he, Except.bind]⟩

/-- `VbProcess(c, x)` answers the bank's output and advances channel `c` of every voice, or faults with `BUFFER_RANGE`
(R142). -/
theorem vbProcess_cases (K : Kit S) (c : Nat) (x : S) (r : Regs S) :
    ((∀ v < K.P.nVoices, ReadOk K r v c) ∧ ∃ r', vbProcess K c x r = .ok (bankOut K r c x, r') ∧
      (∀ v < K.P.nVoices, VoiceRan K r r' v c x) ∧ (∀ v d, ¬(v < K.P.nVoices ∧ d = c) → CellSame r r' v d) ∧
      ScalarsSame r r' ∧ OutsideSame r r') ∨
    ((∃ v < K.P.nVoices, ¬ReadOk K r v c) ∧ vbProcess K c x r = .error .bufferRange) := by
  rcases bankVoices_cases K c x r.vb.active K.P.nVoices r with ⟨h, r', hr, k⟩ | ⟨h, he⟩
  · exact .inl ⟨h, r', by simp only [vbProcess, hr, ok_bind]; rfl, k⟩
  · exact .inr ⟨h, by simp only [vbProcess, he, error_bind]⟩

omit [DecidableEq S] in
/-- A bank whose channel `c` is the same answers the same. -/
theorem bankOut_same {K : Kit S} {r s : Regs S} {c : Nat} (h : ∀ v, CellSame r s v c) (k : ScalarsSame r s)
    (o : OutsideSame r s) (x : S) : bankOut K s c x = bankOut K r c x := by
  have hv : ∀ v, Machine.voiceOut K s v c x = Machine.voiceOut K r v c x := fun v => (h v).voiceOut k x
  simp only [bankOut, o.vb, hv]

/-! ### The wet signals of a frame (R180) -/

/-- The wet samples of channels `0..n-1`: each is the bank's output on the channel's input, and every voice has run on each
of these channels; or a voice faults with `BUFFER_RANGE`. -/
theorem wetVoices_cases (K : Kit S) (n : Nat) (r : Regs S) :
    ((∀ c < n, ∀ v < K.P.nVoices, ReadOk K r v c) ∧ ∃ w r', wetVoices K n r = .ok (w, r') ∧
      (∀ c < n, w.get c = bankOut K r c (r.eng.inp.get c)) ∧
      (∀ v < K.P.nVoices, ∀ c < n, VoiceRan K r r' v c (r.eng.inp.get c)) ∧
      (∀ v c, ¬(v < K.P.nVoices ∧ c < n) → CellSame r r' v c) ∧ ScalarsSame r r' ∧ OutsideSame r r') ∨
    ((∃ c < n, ∃ v < K.P.nVoices, ¬ReadOk K r v c) ∧ wetVoices K n r = .error .bufferRange) := by
  induction n with
  | zero => exact .inl ⟨fun c h => absurd h (Nat.not_lt_zero c), [], r, rfl, fun c h => absurd h (Nat.not_lt_zero c),
      fun v _ c h => absurd h (Nat.not_lt_zero c), fun v c _ => CellSame.refl r v c, ScalarsSame.refl r,
      OutsideSame.refl r⟩
  | succ n ih =>
    rcases ih with ⟨ha, w, r', hr, i1, i2, i3, i4, i5⟩ | ⟨⟨c, hc, v, hv, hb⟩, he⟩
    · have hs : ∀ v, CellSame r r' v n := fun v => i3 v n (fun h => absurd h.2 (Nat.lt_irrefl n))
      have hin : r'.eng.inp.get n = r.eng.inp.get n := by rw [i5.eng]
      rcases vbProcess_cases K n (r'.eng.inp.get n) r' with ⟨hA, r'', hr'', m1, m2, m3, m4⟩ | ⟨⟨v, hv, hA⟩, he⟩
      · refine .inl ⟨fun c hc v hv => ?_, w.put n (bankOut K r' n (r'.eng.inp.get n)), r'', ?_, fun c hc => ?_,
          fun v hv c hc => ?_, fun v c hvc => ?_, i4.trans m3, i5.trans m4⟩
        · by_cases h : c = n
          · subst h; exact ((hs v).readOk i4).mp (hA v hv)
          · exact ha c (by omega) v hv
        · have hw : loopE n (fun c a => do
              let (y, r) ← vbProcess K c (a.2.eng.inp.get c) a.2
              return (Bank.put a.1 c y, r)) (([] : Bank S), r) = Except.ok (w, r') := hr
          simp only [wetVoices, loopE]
          rw [hw]
          simp only [Except.bind, hr'', ok_bind]
          rfl
        · by_cases h : c = n
          · subst h
            rw [Bank.get_put_same, hin, bankOut_same hs i4 i5]
          · rw [Bank.get_put_other _ _ _ _ h]
            exact i1 c (by omega)
        · by_cases h : c = n
          · subst h
            rw [← hin]
            exact (hs v).ran (m1 v hv)
          · exact (i2 v hv c (by omega)).keep (m2 v c (fun h' => h h'.2))
        · exact (i3 v c (fun h => hvc ⟨h.1, by omega⟩)).trans (m2 v c (fun h => hvc ⟨h.1, by omega⟩))
      · refine .inr ⟨⟨n, Nat.lt_succ_self n, v, hv, fun h => hA (((hs v).readOk i4).mpr h)⟩, ?_⟩
        have hw : loopE n (fun c a => do
            let (y, r) ← vbProcess K c (a.2.eng.inp.get c) a.2
            return (Bank.put a.1 c y, r)) (([] : Bank S), r) = Except.ok (w, r') := hr
        simp only [wetVoices, loopE]
        rw [hw]
        simp only [Except.bind, he, error_bind]
    · refine .inr ⟨⟨c, by omega, v, hv, hb⟩, ?_⟩
      have hw : loopE n (fun c a => do
          let (y, r) ← vbProcess K c (a.2.eng.inp.get c) a.2
          return (Bank.put a.1 c y, r)) (([] : Bank S), r) = Except.error .bufferRange := he
      simp only [wetVoices, loopE]
      rw [hw]
      rfl

end

section
variable {S : Type} [Inhabited S]

/-! ### The filters of a frame (R155, R180) -/

/-- The high-pass part of `SvfPair` on channel `c`. -/
def pairHigh (K : Kit S) (f : Flt S) (c : Nat) (hpByp : Bool) (w : S) : S :=
  if hpByp then w else svfHigh K (f.hp.get c) f.hpg f.hph w

/-- The low-pass part of `SvfPair` on channel `c`. -/
def pairLow (K : Kit S) (f : Flt S) (c : Nat) (hpByp lpByp : Bool) (w : S) : S :=
  if lpByp then pairHigh K f c hpByp w else svfLow K (f.lp.get c) f.lpg f.lph (pairHigh K f c hpByp w)

/-- `SvfPair(c, w)` runs the filters that are not bypassed and writes their states only (R155). -/
theorem svfPair_spec (K : Kit S) (c : Nat) (hpByp lpByp : Bool) (w : S) (f : Flt S) :
    svfPair K c hpByp lpByp w f = (pairLow K f c hpByp lpByp w,
      { f with
        hp := if hpByp then f.hp else f.hp.put c (svfNext K (f.hp.get c) f.hpg f.hph w)
        lp := if lpByp then f.lp else f.lp.put c (svfNext K (f.lp.get c) f.lpg f.lph (pairHigh K f c hpByp w)) }) := by
  cases hpByp <;> cases lpByp <;> rfl

/-- The pass over channels `0..n-1`: every channel's filters run once, on that channel's own states. -/
theorem wetFilters_spec (K : Kit S) (n : Nat) (hpByp lpByp : Bool) (w : Bank S) (f : Flt S) :
    (∀ c, (wetFilters K n hpByp lpByp (w, f)).1.get c =
      if c < n then pairLow K f c hpByp lpByp (w.get c) else w.get c) ∧
    (∀ c, (wetFilters K n hpByp lpByp (w, f)).2.hp.get c =
      if c < n ∧ hpByp = false then svfNext K (f.hp.get c) f.hpg f.hph (w.get c) else f.hp.get c) ∧
    (∀ c, (wetFilters K n hpByp lpByp (w, f)).2.lp.get c =
      if c < n ∧ lpByp = false then svfNext K (f.lp.get c) f.lpg f.lph (pairHigh K f c hpByp (w.get c))
      else f.lp.get c) ∧
    { (wetFilters K n hpByp lpByp (w, f)).2 with hp := f.hp, lp := f.lp } = f := by
  induction n with
  | zero => exact ⟨fun c => by simp [wetFilters], fun c => by simp [wetFilters], fun c => by simp [wetFilters], rfl⟩
  | succ n ih =>
    obtain ⟨i1, i2, i3, i4⟩ := ih
    generalize hg : wetFilters K n hpByp lpByp (w, f) = a at i1 i2 i3 i4
    obtain ⟨w', f'⟩ := a
    have e1 : f'.hpg = f.hpg := by have := congrArg Flt.hpg i4; exact this
    have e2 : f'.hph = f.hph := by have := congrArg Flt.hph i4; exact this
    have e3 : f'.lpg = f.lpg := by have := congrArg Flt.lpg i4; exact this
    have e4 : f'.lph = f.lph := by have := congrArg Flt.lph i4; exact this
    have h1 : f'.hp.get n = f.hp.get n := by simpa using i2 n
    have h2 : f'.lp.get n = f.lp.get n := by simpa using i3 n
    have h3 : w'.get n = w.get n := by simpa using i1 n
    have p1 : ∀ x, pairHigh K f' n hpByp x = pairHigh K f n hpByp x := fun x => by simp [pairHigh, h1, e1, e2]
    have p2 : ∀ x, pairLow K f' n hpByp lpByp x = pairLow K f n hpByp lpByp x := fun x => by
      simp [pairLow, p1, h2, e3, e4]
    have hlt : ∀ c, c ≠ n → (c < n + 1 ↔ c < n) := fun c hc => by omega
    simp only [wetFilters, hg, svfPair_spec, p2, h3]
    refine ⟨fun c => ?_, fun c => ?_, fun c => ?_, ?_⟩
    · by_cases hc : c = n
      · subst hc; simp
      · simp only [Bank.get_put_other _ _ _ _ hc, hlt c hc]
        exact i1 c
    · by_cases hc : c = n
      · subst hc; cases hpByp <;> simp_all
      · have := i2 c
        cases hpByp <;> simp_all
    · by_cases hc : c = n
      · subst hc; cases lpByp <;> simp_all
      · have := i3 c
        cases lpByp <;> simp_all
    · rw [← i4]

/-! ### The outputs of a frame (R180 to R185, R189) -/

/-- `Mix` by its formulas (R182 to R185), on any filters. -/
def mixValue (A : Arith S) (k : Mode) (c : Nat) (d a b m : S) (f : Flt S) : S :=
  let dry := fun x => A.mul x (A.sub (A.lit 1 1) m)
  match k with
  | .stereo => A.add (dry d) (A.mul (A.sub a b) m)
  | .mono => A.add (dry d) (A.mul (A.mul (A.add a b) m) (A.div (A.lit 1 1) (A.sqrt (A.lit 2 1))))
  | .dimension =>
    A.add (dry (biquadOut A (f.boost.get c) f.bcoef d)) (A.mul (A.sub a (biquadOut A (f.cut.get c) f.ccoef b)) m)
  | .vibrato => A.add (dry d) (A.mul a m)

/-- `Mix` answers its formula; only DIMENSION writes, and only the two shelf states of the channel (R182 to R185). -/
theorem mix_spec (A : Arith S) (k : Mode) (c : Nat) (d a b m : S) (f : Flt S) :
    mix A k c d a b m f = (mixValue A k c d a b m f,
      if k = .dimension then
        { f with
          boost := f.boost.put c (biquadNext A (f.boost.get c) f.bcoef d)
          cut := f.cut.put c (biquadNext A (f.cut.get c) f.ccoef b) }
      else f) := by
  cases k <;> rfl

/-- The output channels `0..n-1` of a frame: each output, each mix smoother and each shelf state once, nothing else. -/
theorem frameChannels_spec (A : Arith S) (nch : Nat) (w : Bank S) (n : Nat) (r : Regs S) :
    let r' := frameChannels A nch w n r
    let e := r.eng
    let wetB := fun c => w.get ((c + 1) % nch)
    (∀ c, r'.eng.out.get c = if c < n then
      (if e.bypL then e.inp.get c
        else mixValue A e.modeL c (e.inp.get c) (w.get c) (wetB c) (smNext A (e.mix.get c)).1 r.flt)
      else e.out.get c) ∧
    (∀ c, r'.eng.mix.get c = if c < n then (smNext A (e.mix.get c)).2 else e.mix.get c) ∧
    (∀ c, r'.flt.boost.get c = if c < n ∧ e.modeL = .dimension then
      biquadNext A (r.flt.boost.get c) r.flt.bcoef (e.inp.get c) else r.flt.boost.get c) ∧
    (∀ c, r'.flt.cut.get c = if c < n ∧ e.modeL = .dimension then
      biquadNext A (r.flt.cut.get c) r.flt.ccoef (wetB c) else r.flt.cut.get c) ∧
    r' = { r with
      flt := { r.flt with boost := r'.flt.boost, cut := r'.flt.cut }
      eng := { e with mix := r'.eng.mix, out := r'.eng.out } } := by
  intro r' e wetB
  simp only [r']
  clear r'
  induction n with
  | zero => exact ⟨fun c => by simp [frameChannels, e], fun c => by simp [frameChannels, e], fun c => by simp [frameChannels],
      fun c => by simp [frameChannels], rfl⟩
  | succ n ih =>
    obtain ⟨i1, i2, i3, i4, i5⟩ := ih
    simp only [frameChannels]
    generalize frameChannels A nch w n r = q at i1 i2 i3 i4 i5 ⊢
    have hm : q.eng.modeL = e.modeL := by rw [i5]
    have hb : q.eng.bypL = e.bypL := by rw [i5]
    have hi : q.eng.inp = e.inp := by rw [i5]
    have hbc : q.flt.bcoef = r.flt.bcoef := by rw [i5]
    have hcc : q.flt.ccoef = r.flt.ccoef := by rw [i5]
    have h1 : q.flt.boost.get n = r.flt.boost.get n := by simpa using i3 n
    have h2 : q.flt.cut.get n = r.flt.cut.get n := by simpa using i4 n
    have h3 : q.eng.mix.get n = e.mix.get n := by simpa using i2 n
    have hv : ∀ x y z m, mixValue A e.modeL n x y z m q.flt = mixValue A e.modeL n x y z m r.flt := by
      intro x y z m
      cases e.modeL <;> simp [mixValue, h1, h2, hbc, hcc]
    have hlt : ∀ c, c ≠ n → (c < n + 1 ↔ c < n) := fun c hc => by omega
    simp only [frameChannel, mix_spec, hm, hb, hi, h3, hv]
    refine ⟨fun c => ?_, fun c => ?_, fun c => ?_, fun c => ?_, ?_⟩
    · by_cases hc : c = n
      · subst hc; simp [wetB]
      · simp only [Bank.get_put_other _ _ _ _ hc, hlt c hc]
        exact i1 c
    · by_cases hc : c = n
      · subst hc; simp
      · simp only [Bank.get_put_other _ _ _ _ hc, hlt c hc]
        exact i2 c
    · by_cases hd : e.modeL = .dimension
      · by_cases hc : c = n
        · subst hc; simp [hd, h1, hbc]
        · simpa [hd, hc, hlt c hc] using i3 c
      · simpa [hd] using i3 c
    · by_cases hd : e.modeL = .dimension
      · by_cases hc : c = n
        · subst hc; simp [hd, h2, hcc, wetB]
        · simpa [hd, hc, hlt c hc] using i4 c
      · simpa [hd] using i4 c
    · rw [i5]
      by_cases hd : e.modeL = .dimension <;> simp [hd]

/-! ### The cutoff refresh (R156, R186) -/

omit [Inhabited S] in
theorem svfCoef_cases (K : Kit S) (fc fs : S) :
    (CutoffOk K.A fc fs ∧ svfCoef K fc fs = .ok (svfGains K fc fs)) ∨
    (¬CutoffOk K.A fc fs ∧ svfCoef K fc fs = .error .paramRange) := by
  cases h : (K.A.lt K.A.zero fc && K.A.lt fc (K.A.div fs (K.A.lit 2 1)))
  · refine .inr ⟨fun ⟨h1, h2⟩ => by simp [h1, h2] at h, ?_⟩
    simp only [svfCoef, h, require_false, error_bind]
  · simp only [Bool.and_eq_true] at h
    refine .inl ⟨h, ?_⟩
    simp only [svfCoef, h, Bool.and_self, require_true, ok_bind]
    rfl

omit [Inhabited S] in
/-- A refresh of the coefficients from two cutoffs inside their range, or the fault `PARAM_RANGE` (R156, R186). -/
theorem refreshCoefs_spec (K : Kit S) (fs : S) (r : Regs S) :
    (CutoffOk K.A r.eng.hpfc.cur fs ∧ CutoffOk K.A r.eng.lpfc.cur fs ∧
      refreshCoefs K fs r = .ok { r with flt := { r.flt with
        hpg := (svfGains K r.eng.hpfc.cur fs).1, hph := (svfGains K r.eng.hpfc.cur fs).2,
        lpg := (svfGains K r.eng.lpfc.cur fs).1, lph := (svfGains K r.eng.lpfc.cur fs).2 } }) ∨
    (¬(CutoffOk K.A r.eng.hpfc.cur fs ∧ CutoffOk K.A r.eng.lpfc.cur fs) ∧ refreshCoefs K fs r = .error .paramRange) := by
  rcases svfCoef_cases K r.eng.hpfc.cur fs with ⟨h1, e1⟩ | ⟨h1, e1⟩
  · rcases svfCoef_cases K r.eng.lpfc.cur fs with ⟨h2, e2⟩ | ⟨h2, e2⟩
    · exact .inl ⟨h1, h2, by simp only [refreshCoefs, smCur, e1, ok_bind, e2]; rfl⟩
    · exact .inr ⟨fun h => h2 h.2, by simp only [refreshCoefs, smCur, e1, ok_bind, e2, error_bind]⟩
  · exact .inr ⟨fun h => h1 h.1, by simp only [refreshCoefs, smCur, e1, error_bind]⟩

/-! ### One frame (R180) -/

/-- The frame before the refresh: the wet signals `w`, the voices run to `q`, the filters run, the outputs mixed and the
counters moved. -/
def frameBody (K : Kit S) (r q : Regs S) (w : Bank S) : Regs S :=
  let a := wetFilters K r.sys.nch r.eng.hpByp r.eng.lpByp (w, q.flt)
  let r' := frameChannels K.A r.sys.nch a.1 r.sys.nch { q with flt := a.2 }
  { r' with eng := { r'.eng with rem := r'.eng.rem - 1, chcnt := r'.eng.chcnt + 1 } }

/-- The body of a frame whose voices have run: every output is mixed by the latched mode, or is the input under bypass; the
filters and mix smoothers of channels below `NCH` advance; the counters move; nothing else changes. -/
theorem frameBody_spec (K : Kit S) (r q : Regs S) (w : Bank S) (o : OutsideSame r q)
    (hw : ∀ c < r.sys.nch, w.get c = bankOut K r c (r.eng.inp.get c)) :
    let t := frameBody K r q w
    let e := r.eng
    let f := r.flt
    let nch := r.sys.nch
    (∀ c, t.eng.out.get c = if c < nch then (if e.bypL = true then e.inp.get c else mixOut K r c) else e.out.get c) ∧
    (∀ c, t.eng.mix.get c = if c < nch then (smNext K.A (e.mix.get c)).2 else e.mix.get c) ∧
    (∀ c, t.flt.hp.get c = if c < nch ∧ e.hpByp = false then
      svfNext K (f.hp.get c) f.hpg f.hph (bankOut K r c (e.inp.get c)) else f.hp.get c) ∧
    (∀ c, t.flt.lp.get c = if c < nch ∧ e.lpByp = false then
      svfNext K (f.lp.get c) f.lpg f.lph (wetHigh K r c) else f.lp.get c) ∧
    (∀ c, t.flt.boost.get c = if c < nch ∧ e.modeL = .dimension then
      biquadNext K.A (f.boost.get c) f.bcoef (e.inp.get c) else f.boost.get c) ∧
    (∀ c, t.flt.cut.get c = if c < nch ∧ e.modeL = .dimension then
      biquadNext K.A (f.cut.get c) f.ccoef (wetOut K r ((c + 1) % nch)) else f.cut.get c) ∧
    t = { q with
      flt := { f with boost := t.flt.boost, cut := t.flt.cut, hp := t.flt.hp, lp := t.flt.lp }
      eng := { e with mix := t.eng.mix, out := t.eng.out, rem := e.rem - 1, chcnt := e.chcnt + 1 } } := by
  intro t e f nch
  obtain ⟨a1, a2, a3, a4⟩ := wetFilters_spec K nch e.hpByp e.lpByp w q.flt
  have ht : t = frameBody K r q w := rfl
  simp only [frameBody] at ht
  generalize hg : wetFilters K nch e.hpByp e.lpByp (w, q.flt) = a at a1 a2 a3 a4
  obtain ⟨w', f'⟩ := a
  obtain ⟨b1, b2, b3, b4, b5⟩ := frameChannels_spec K.A nch w' nch { q with flt := f' }
  have hg' : wetFilters K r.sys.nch r.eng.hpByp r.eng.lpByp (w, q.flt) = (w', f') := hg
  rw [hg'] at ht
  have hb : nch = r.sys.nch := rfl
  rw [← hb] at ht
  generalize frameChannels K.A nch w' nch { q with flt := f' } = u at b1 b2 b3 b4 b5 ht
  have hqf : q.flt = f := o.flt
  have hqe : q.eng = e := o.eng
  rw [hqf] at a2 a3 a4 a1
  simp only [hqe] at b1 b2 b3 b4 b5
  have c1 : f'.boost = f.boost := by have := congrArg Flt.boost a4; exact this
  have c2 : f'.cut = f.cut := by have := congrArg Flt.cut a4; exact this
  have c3 : f'.bcoef = f.bcoef := by have := congrArg Flt.bcoef a4; exact this
  have c4 : f'.ccoef = f.ccoef := by have := congrArg Flt.ccoef a4; exact this
  simp only at a1 a2 a3
  have wet : ∀ c < nch, w'.get c = wetOut K r c := fun c hc => by
    rw [a1, if_pos hc, hw c hc]
    rfl
  have wetNext : ∀ c < nch, w'.get ((c + 1) % nch) = wetOut K r ((c + 1) % nch) := fun c hc =>
    wet _ (Nat.mod_lt _ (by omega))
  have uflt : u.flt = { f' with boost := u.flt.boost, cut := u.flt.cut } := by have := congrArg Regs.flt b5; exact this
  have uhp : u.flt.hp = f'.hp := by rw [uflt]
  have ulp : u.flt.lp = f'.lp := by rw [uflt]
  refine ⟨fun c => ?_, fun c => ?_, fun c => ?_, fun c => ?_, fun c => ?_, fun c => ?_, ?_⟩
  · rw [ht]
    simp only
    rw [b1]
    by_cases hc : c < nch
    · simp only [hc, if_true, wet c hc, wetNext c hc]
      by_cases hbp : e.bypL = true
      · simp [hbp]
      · simp only [hbp]
        show mixValue _ _ _ _ _ _ _ f' = _
        simp only [mixOut, mixValue, c1, c2, c3, c4]
        rfl
    · simp [hc]
  · rw [ht]
    exact b2 c
  · rw [ht]
    simp only [uhp]
    rw [a2]
    by_cases hc : c < nch
    · rw [hw c hc]
    · simp [hc]
  · rw [ht]
    simp only [ulp]
    rw [a3]
    by_cases hc : c < nch
    · rw [hw c hc]
      rfl
    · simp [hc]
  · rw [ht]
    simp only
    rw [b3]
    simp only [c1, c3]
  · rw [ht]
    simp only
    rw [b4]
    by_cases hc : c < nch
    · simp only [c2, c4, wetNext c hc]
    · simp [hc, c2]
  · rw [ht]
    simp only
    have d1 : u.eng = { e with mix := u.eng.mix, out := u.eng.out } := by have := congrArg Regs.eng b5; exact this
    have d2 : u.flt = { f with boost := u.flt.boost, cut := u.flt.cut, hp := u.flt.hp, lp := u.flt.lp } := by
      rw [uflt, ← a4]
    have d3 : u = { q with flt := u.flt, eng := u.eng } := by rw [b5]
    rw [d3]
    simp only [Regs.mk.injEq, true_and]
    refine ⟨d2, ?_⟩
    rw [d1]

/-- A frame runs every voice on every channel, then its body, then the refresh when it is due; it faults with `BUFFER_RANGE`
when a voice's read is out of range, and with `PARAM_RANGE` when a cutoff to be refreshed is. -/
theorem engFrame_cases [DecidableEq S] (K : Kit S) (r : Regs S) :
    ((∀ c < r.sys.nch, ∀ v < K.P.nVoices, ReadOk K r v c) ∧ ∃ w q, wetVoices K r.sys.nch r = .ok (w, q) ∧
      engFrame K r =
        (if (frameBody K r q w).eng.chcnt = K.P.chunk ∨ (frameBody K r q w).eng.rem = 0
          then refresh K (frameBody K r q w) else .ok (frameBody K r q w)) ∧
      (∀ c < r.sys.nch, w.get c = bankOut K r c (r.eng.inp.get c)) ∧
      (∀ v < K.P.nVoices, ∀ c < r.sys.nch, VoiceRan K r q v c (r.eng.inp.get c)) ∧
      (∀ v c, ¬(v < K.P.nVoices ∧ c < r.sys.nch) → CellSame r q v c) ∧ ScalarsSame r q ∧ OutsideSame r q) ∨
    ((∃ c < r.sys.nch, ∃ v < K.P.nVoices, ¬ReadOk K r v c) ∧ engFrame K r = .error .bufferRange) := by
  rcases wetVoices_cases K r.sys.nch r with ⟨h, w, q, hw, h1, h2, h3, h4, h5⟩ | ⟨h, hw⟩
  · refine .inl ⟨h, w, q, hw, ?_, h1, h2, h3, h4, h5⟩
    simp only [engFrame, hw, ok_bind, frameBody, h5.eng]
  · exact .inr ⟨h, by simp only [engFrame, hw, error_bind]⟩

end

end Sys2Proof.Machine
end

