-- ==== Sys2Proof/Tests/Slice0.lean ====
section
/-! SUPPORT. Tests: words written out from the spec's encodings, single steps with the results spec/95_test_vectors.md gives
(the vector's id stands in each name or docstring), and for every obligation with hypotheses a state that meets them. -/

namespace Sys2Proof.Tests
open Sys2Proof.Machine

/-! ### WellFormed: an operand wider than the operand field -/

theorem test_wf_refuses_wide_integer : (Instr.dlyGet 0 0 0x100000000).uOperandFits .binary32 = false := by decide
theorem test_wf_refuses_wide_sample : (Instr.dlyPush 0 0 0x13F800000).sOperandFits .binary32 = false := by decide
theorem test_wf_refuses_both :
    (Instr.dlyGet 0 0 0x100000000).wf .binary32 = false ∧ (Instr.dlyPush 0 0 0x13F800000).wf .binary32 = false := by decide
theorem test_wf_accepts_the_greatest :
    (Instr.dlyGet 15 15 0xFFFFFFFF).wf .binary32 = true ∧ (Instr.dlyGet 15 15 0xFFFFFFFFFFFFFFFF).wf .binary64 = true := by
  decide

/-! ### Decode: every command, its word written from R55, R56 and R62 -/

/-- What a 64-bit command word of a `W = 32` block decodes to. -/
def reads (n : Nat) : Except Reject Instr := decode .binary32 (CmdWord.ofBits .binary32 n)

theorem test_decode_sys :
    reads 0x0000000000000000 = .ok .sysNop ∧ reads 0x0100000000000000 = .ok .sysReset ∧
    reads 0x0200000000000000 = .ok .sysRdstat ∧ reads 0x0300000000000000 = .ok .sysRdcause ∧
    reads 0x0400000000000000 = .ok .sysRdinfo ∧ reads 0x0500000000000002 = .ok (.sysSetch 2) ∧
    reads 0x0600000000000200 = .ok (.sysSetblk 512) := by decide

theorem test_decode_osc :
    reads 0x103100004741B000 = .ok (.oscPrepare 3 1 0x4741B000) ∧ reads 0x1121000000000000 = .ok (.oscReset 2 1) ∧
    reads 0x120100003F000000 = .ok (.oscSetfreq 0 1 0x3F000000) ∧
    reads 0x1310000000000000 = .ok (.oscSetphase 1 0 0) ∧ reads 0x1401000100000000 = .ok (.oscSettype 0 1 .sine) ∧
    reads 0x1401000000000000 = .ok (.oscSettype 0 1 .triangle) ∧ reads 0x15F0000000000000 = .ok (.oscProcess 15 0) := by
  decide

theorem test_decode_dly :
    reads 0x2011000000000004 = .ok (.dlyResize 1 1 4) ∧ reads 0x2111000000000000 = .ok (.dlyReset 1 1) ∧
    reads 0x2211000000000002 = .ok (.dlyGet 1 1 2) ∧ reads 0x231100003F000000 = .ok (.dlyGetlin 1 1 0x3F000000) ∧
    reads 0x2411000040400000 = .ok (.dlyPush 1 1 0x40400000) := by decide

theorem test_decode_mdl :
    reads 0x3000000041000000 = .ok (.mdlPrepare 0 0x41000000) ∧ reads 0x3120000000000000 = .ok (.mdlReset 2) ∧
    reads 0x3210000040000000 = .ok (.mdlSetmaxdelay 1 0x40000000) ∧
    reads 0x330000003E800000 = .ok (.mdlSetmaxdepth 0 0x3E800000) ∧
    reads 0x343000003F000000 = .ok (.mdlSetdelay 3 0 0x3F000000) ∧
    reads 0x350100003E800000 = .ok (.mdlSetdepth 0 1 0x3E800000) ∧
    reads 0x360000003F000000 = .ok (.mdlSetrate 0 0x3F000000) ∧ reads 0x370000003F000000 = .ok (.mdlSetwet 0 0x3F000000) ∧
    reads 0x380000003F800000 = .ok (.mdlProcess 0 0 0x3F800000) ∧ reads 0x3910000000000000 = .ok (.mdlLatency 1) := by
  decide

theorem test_decode_vb :
    reads 0x4000000041000000 = .ok (.vbPrepare 0x41000000) ∧ reads 0x4100000000000000 = .ok .vbReset ∧
    reads 0x4200000000000004 = .ok (.vbSetactive 4) ∧ reads 0x430000003F000000 = .ok (.vbSetrate 0x3F000000) ∧
    reads 0x440000003E000000 = .ok (.vbSetdepth 0x3E000000) ∧ reads 0x450000003B000000 = .ok (.vbSetdelay 0x3B000000) ∧
    reads 0x460000003F800000 = .ok (.vbSetspread 0x3F800000) ∧ reads 0x470000003F000000 = .ok (.vbSetwidth 0x3F000000) ∧
    reads 0x4800000100000000 = .ok (.vbSettype .sine) ∧ reads 0x490100003E800000 = .ok (.vbSetphase 1 0x3E800000) ∧
    reads 0x4A00000041000000 = .ok (.vbProcess 0 0x41000000) ∧
    reads 0x4B00000040000000 = .ok (.vbSetmaxdelay 0x40000000) ∧
    reads 0x4C0000003E800000 = .ok (.vbSetmaxdepth 0x3E800000) := by decide

theorem test_decode_eng :
    reads 0x50000000473B8000 = .ok (.engPrepare 0x473B8000) ∧ reads 0x5100000000000000 = .ok .engReset ∧
    reads 0x5200000200000000 = .ok (.engSetmode .dimension) ∧ reads 0x5200000300000000 = .ok (.engSetmode .vibrato) ∧
    reads 0x530000003F000000 = .ok (.engSetmix 0x3F000000) ∧ reads 0x5400000042800000 = .ok (.engSethpf 0x42800000) ∧
    reads 0x5500000043800000 = .ok (.engSetlpf 0x43800000) ∧
    reads 0x5600000100000000 = .ok (.engSetfbyp true false) ∧ reads 0x5600000200000000 = .ok (.engSetfbyp false true) := by
  decide

theorem test_decode_eng_block :
    reads 0x5700000100000002 = .ok (.engBegin true 2) ∧ reads 0x58010000BF800000 = .ok (.engIn 1 0xBF800000) ∧
    reads 0x5900000000000000 = .ok .engStep ∧ reads 0x5A01000000000000 = .ok (.engOut 1) ∧
    reads 0x5B00000000000000 = .ok .engLatency := by decide

theorem test_decode_flt :
    reads 0x6000000000000000 = .ok .fltReset ∧ reads 0x610100003F800000 = .ok (.fltBoost 1 0x3F800000) ∧
    reads 0x620000003F800000 = .ok (.fltCut 0 0x3F800000) ∧ reads 0x630000003F800000 = .ok (.fltHp 0 0x3F800000) ∧
    reads 0x640000003F800000 = .ok (.fltLp 0 0x3F800000) := by decide

/-- Vectors N10 to N13, and the order of the static checks. -/
theorem test_decode_illegal :
    reads 0x0700000000000000 = .error .undefinedOpcode ∧ reads 0xFFFFFFFFFFFFFFFF = .error .undefinedOpcode ∧
    reads 0x0010000000000000 = .error .unusedField ∧ reads 0x0000000000000001 = .error .unusedField ∧
    reads 0x5200000400000000 = .error .badImmediate ∧ reads 0x1400000200000000 = .error .badImmediate ∧
    reads 0x5700000200000002 = .error .badImmediate ∧ reads 0x5201000400000000 = .error .unusedField := by decide

/-- `OSC.SETFREQ v0 c1 0.5` in a byte stream, least significant byte first (R47, R65), and a stream that ends too early. -/
theorem test_decode_bytes :
    decodeBytes .binary32 [0x00, 0x00, 0x00, 0x3F, 0x00, 0x00, 0x01, 0x12, 0xAA] =
      .ok (.oscSetfreq 0 1 0x3F000000, [0xAA]) ∧
    decodeBytes .binary32 [0x00, 0x00, 0x00, 0x3F, 0x00, 0x00, 0x01] = .error .truncated := by decide

/-- A `W = 64` block: twelve bytes, and an integer operand above bit 31 is carried to the check of R58 item 6. -/
theorem test_decode_wide :
    decode .binary64 ⟨0x12010000, 0x3FE0000000000000⟩ = .ok (.oscSetfreq 0 1 0x3FE0000000000000) ∧
    decode .binary64 ⟨0x05000000, 0x100000002⟩ = .ok (.sysSetch 0x100000002) ∧ Prec.binary64.wordBytes = 12 := by decide

/-- The host's numbering of an opcode-table row. -/
theorem test_decode_table_word :
    decodeTableWord 32 0x59000000 = some .engStep ∧ decodeTableWord 64 0x0000000205000000 = some (.sysSetch 2) ∧
    decodeTableWord 32 0x07000000 = none := by decide

/-! ### Single steps -/

/-- A number as a sample word. -/
def num (a : Nat) (b : Nat := 1) : Sample := Ieee.lit .binary32 a b

/-- R12: `round(2.5) = 3`, `round(-2.5) = -3`; `floor` goes down and `ceil` up on both sides of 0. -/
theorem test_integers_of_both_signs :
    let x := num 5 2
    let y := Ieee.neg .binary32 x
    Ieee.roundInt .binary32 x = 3 ∧ Ieee.roundInt .binary32 y = -3 ∧ Ieee.floor .binary32 x = 2 ∧
    Ieee.floor .binary32 y = -3 ∧ Ieee.ceil .binary32 x = some 3 ∧ Ieee.ceil .binary32 y = some (-2) ∧
    Ieee.roundInt .binary32 (Ieee.neg .binary32 (num 1 4)) = 0 := by decide

/-- R12 over the real numbers. -/
theorem test_round_over_reals : Arith.real.round (5 / 2) = 3 ∧ Arith.real.round (-(5 / 2)) = -3 := by
  norm_num [Arith.real]

/-- The configurations of spec/95 section 0. -/
def cfgT : Params Sample := { Params.default .binary32 with tableSize := 8 }
def cfgE : Params Sample := { cfgT with chunk := 4, cutoffRamp := num 1 128, mixRamp := num 1 256 }

/-- A block after reset, its registers changed by `f`. -/
def build (P : Params Sample) (f : Regs Sample → Regs Sample) : State :=
  { State.reset with cfg := P, regs := f (Regs.reset (Arith.ieee .binary32) P) }

def channels (n : Nat) (r : Regs Sample) : Regs Sample := { r with sys := { r.sys with nch := n } }

/-- A block after reset and `SYS.SETCH 2`. -/
def two : State := build cfgT (channels 2)

/-- A block halted by `SYS.SETCH 0` (vector Y4). -/
def halted : State := build cfgT fun r => { r with sys := { r.sys with halt := true, cause := 3, info := 0x05000000 } }

/-- The state after one command word. -/
def after (s : State) (hdr : BitVec 32) (opd : BitVec 64) : State :=
  match step { s with port := [⟨hdr, opd⟩] } with
  | .next t => t
  | .fault _ | .refused _ => s

def answers (s : State) (hdr : BitVec 32) (opd : BitVec 64) : Bool × BitVec 64 :=
  let t := after s hdr opd
  (t.resp.fault, t.resp.val)

set_option maxRecDepth 20000 in
theorem test_nop_y5 : answers halted 0x00000000 0 = (true, 3) ∧ after halted 0x00000000 0 = refuse halted := by decide
theorem test_rdstat_y1_y3 : answers State.reset 0x02000000 0 = (false, 0) ∧ answers two 0x02000000 0 = (false, 0x1000) := by
  decide
theorem test_rdcause_y6 : answers halted 0x03000000 0 = (false, 3) := by decide
theorem test_rdinfo_y7 : answers halted 0x04000000 0 = (false, 0x05000000) := by decide
theorem test_rdstat_y8 : answers halted 0x02000000 0 = (false, 1) := by decide
set_option maxRecDepth 20000 in
theorem test_reset_y10 : after halted 0x01000000 0 = build cfgT id ∧ answers halted 0x01000000 0 = (false, 0) := by decide
set_option maxRecDepth 20000 in
theorem test_reset_refused_y16 : after halted 0x01100000 0 = refuse halted := by decide
set_option maxRecDepth 20000 in
theorem test_setch_y4 : after (build cfgT id) 0x05000000 0 = { halted with resp := ⟨true, 3⟩ } := by decide
theorem test_setch_y12 :
    let s := build cfgT fun r => { (channels 2 r).updateMdls 4 fun _ m => { m with prep := true } with
      eng := { r.eng with prep := true }, vb := { r.vb with prep := true } }
    (after s 0x05000000 1).regs = (build cfgT (channels 1)).regs ∧ (after s 0x05000000 2).regs = s.regs := by decide
theorem test_setblk_y15 : (after two 0x06000000 512).regs.sys = { two.regs.sys with blkHint := 512 } := by decide

/-- Vectors N14 to N19: the decode checks and their order. -/
theorem test_checks_n14_to_n19 :
    answers two 0x36400000 0 = (true, 1) ∧ answers two 0x58020000 0 = (true, 1) ∧
    answers State.reset 0x58000000 0 = (true, 3) ∧ answers two 0x53000000 0x7FC00000 = (true, 10) ∧
    answers two 0x53000000 0x7F800000 = (true, 10) ∧ answers State.reset 0x24000000 0x7FC00000 = (true, 3) := by decide

/-- An oscillator of voice 0, channel 0, after `SYS.SETCH 2`, prepared at 8 Hz. -/
def withOsc (f : Osc Sample → Osc Sample) : State :=
  build cfgT fun r => (channels 2 r).setOsc 0 0 (f { r.getOsc 0 0 with prep := true, fs := num 8 })

theorem test_osc_prepare_o3 :
    (after (build cfgT fun r => (channels 2 r).setOsc 0 0 { r.getOsc 0 0 with freq := num 1 4 }) 0x10000000
        0x41000000).regs.getOsc 0 0 =
      { two.regs.getOsc 0 0 with prep := true, fs := num 8, freq := num 1 4, delta := num 1 2 } := by decide
theorem test_osc_prepare_o16 : answers (withOsc id) 0x10000000 0 = (true, 8) := by decide
theorem test_osc_reset_o14 :
    ((after (withOsc fun o => { o with pos := num 2, delta := num 1 }) 0x11000000 0).regs.getOsc 0 0).pos = 0 ∧
    ((after (withOsc fun o => { o with pos := num 2, delta := num 1 }) 0x11000000 0).regs.getOsc 0 0).delta = num 1 := by
  decide
theorem test_osc_setfreq_o2_o9 :
    ((after two 0x12000000 0x3E800000).regs.getOsc 0 0).delta = 0 ∧
    ((after (withOsc id) 0x12000000 0xBFC00000).regs.getOsc 0 0).delta = 0xC0400000 := by decide
theorem test_osc_setphase_o5 :
    ((after (withOsc id) 0x13000000 0x3E800000).regs.getOsc 0 0).ph = ⟨num 1 4, num 1 4, 0, 0, 0⟩ := by decide
theorem test_osc_settype_o15 : ((after (withOsc id) 0x14000001 0).regs.getOsc 0 0).type = .sine := by decide
theorem test_osc_process_o1 : answers two 0x15000000 0 = (true, 2) ∧ (after two 0x15000000 0).regs.sys.info = 0x15000000 := by
  decide
/-- Vectors O8 and O10: the position wraps upward and downward. -/
theorem test_osc_process_position :
    ((after (withOsc fun o => { o with pos := num 3, delta := num 15 2 }) 0x15000000 0).regs.getOsc 0 0).pos = num 5 2 ∧
    ((after (withOsc fun o => { o with pos := num 5 2, delta := 0xC0400000 }) 0x15000000 0).regs.getOsc 0 0).pos =
      num 15 2 := by decide

/-- The buffer of voice 1, channel 1, after `SYS.SETCH 2`. -/
def withDly (b : Dly Sample) : State := build cfgT fun r => (channels 2 r).setDly 1 1 b

/-- The buffers after vectors B3 and B7. -/
def b3 : Dly Sample := { size := 4, cur := 1, ram := [(0, num 1), (2, num 3), (3, num 2)] }
def b7 : Dly Sample := { size := 4, cur := 3, ram := [(0, num 5), (1, num 4), (2, num 3), (3, num 2)] }

theorem test_dly_resize_b2 : (after (withDly b7) 0x20110000 4).regs.getDly 1 1 = ⟨4, 0, []⟩ := by decide
theorem test_dly_resize_b14_b15 : answers two 0x20110000 0 = (true, 7) ∧ answers two 0x20110000 262145 = (true, 7) := by decide
theorem test_dly_reset_b13 : (after (withDly b7) 0x21110000 0).regs.getDly 1 1 = ⟨4, 0, []⟩ := by decide
theorem test_dly_get_b4 :
    answers (withDly b3) 0x22110000 0 = (false, num 3) ∧ answers (withDly b3) 0x22110000 1 = (false, num 2) ∧
    answers (withDly b3) 0x22110000 2 = (false, num 1) ∧ answers (withDly b3) 0x22110000 3 = (false, 0) := by decide
theorem test_dly_get_b10 :
    answers (withDly b7) 0x22110000 4 = (true, 5) ∧ (after (withDly b7) 0x22110000 4).regs.sys.info = 0x22110000 := by decide
theorem test_dly_getlin_b5_b6_b9 :
    answers (withDly b3) 0x23110000 (num 5 2) = (false, num 1 2) ∧ answers (withDly b3) 0x23110000 (num 7 2) = (false, num 3 2) ∧
    answers (withDly b3) 0x23110000 (num 15 4) = (false, num 9 4) ∧
    answers (withDly b7) 0x23110000 (num 7 2) = (false, num 7 2) := by decide
theorem test_dly_getlin_b11_b12 :
    answers (withDly b7) 0x23110000 (num 4) = (true, 5) ∧ answers (withDly b7) 0x23110000 0xBE800000 = (true, 5) := by decide
theorem test_dly_push_b7 :
    (after (withDly { b7 with cur := 0, ram := [(0, num 1), (1, num 4), (2, num 3), (3, num 2)] }) 0x24110000
      (num 5)).regs.getDly 1 1 = b7 := by decide
theorem test_dly_push_zero_b3 :
    (after (withDly b3) 0x24110000 0).regs.getDly 1 1 = { b3 with cur := 0 } ∧ answers two 0x24110000 (num 1) = (true, 2) := by
  decide

/-- Voice 0 after `SYS.SETCH 2`. -/
def withMdl (f : Mdl Sample → Mdl Sample) : State := build cfgT fun r => (channels 2 r).setMdl 0 (f (r.getMdl 0))

theorem test_mdl_prepare_p3 :
    let t := after two 0x30000000 0x41000000
    (t.regs.getDly 0 0).size = 8 ∧ (t.regs.getDly 0 1).size = 8 ∧ (t.regs.getDly 1 0).size = 0 ∧
    ((t.regs.getMdl 0).dt.get 1).n = 4 ∧ ((t.regs.getMdl 0).dp.get 0).n = 1 ∧ (t.regs.getMdl 0).prep = true ∧
    (t.regs.getOsc 0 1).prep = true := by decide
theorem test_mdl_prepare_l2 : answers State.reset 0x30000000 0x41000000 = (true, 3) := by decide
theorem test_mdl_reset :
    let t := after (withMdl fun m => { m with dp := [⟨num 1 4, 0, 0xBE800000, 1, 1⟩] }) 0x31000000 0
    (t.regs.getMdl 0).dp.get 0 = ⟨0, 0, 0, 0, 1⟩ := by decide
theorem test_mdl_setmaxdelay_l6_l7 :
    answers two 0x32000000 0 = (true, 8) ∧
    answers (withMdl fun m => { m with prep := true, fs := num 48000 }) 0x32000000 (num 8) = (true, 7) := by decide
theorem test_mdl_setmaxdepth_p3 : (after two 0x33000000 0x3E800000).regs.getMdl 0 = { two.regs.getMdl 0 with maxDepth := num 1 4 } := by
  decide
theorem test_mdl_setdelay_l3 :
    let s := withMdl fun m => { m with maxDepth := num 1 4 }
    ((after s 0x34000000 (num 1 2)).regs.getMdl 0).dt.get 0 = ⟨num 1 2, num 1 2, 0, 0, 0⟩ ∧
    answers s 0x34000000 (num 3 4) = (true, 4) ∧ answers s 0x34000000 0 = (true, 4) := by decide
theorem test_mdl_setdepth_l4 :
    let s := withMdl fun m => { m with maxDepth := num 1 4 }
    ((after s 0x35000000 (num 1 4)).regs.getMdl 0).dp.get 0 = ⟨num 1 4, num 1 4, 0, 0, 0⟩ ∧
    answers s 0x35000000 (num 3 8) = (true, 8) ∧ answers s 0x35000000 0xBF000000 = (true, 8) := by decide
theorem test_mdl_setrate_p3 :
    let t := after two 0x36000000 0x3F000000
    (t.regs.getOsc 0 0).freq = num 1 2 ∧ (t.regs.getOsc 0 1).freq = num 1 2 ∧ (t.regs.getOsc 1 0).freq = 0 := by decide
theorem test_mdl_setwet_l5 : answers two 0x37000000 (num 1) = (false, 0) ∧ answers two 0x37000000 (num 3 2) = (true, 8) := by
  decide
/-- Vector L1, and the blend of program P3, `16*0.5 + 8*0.5`. -/
theorem test_mdl_process_l1_p3 :
    answers two 0x38000000 (num 1) = (true, 2) ∧
    mdlBlend (Arith.ieee .binary32) (num 1 2) (num 16) (num 8) = num 12 := by decide
/-- Program P3: LFO at 1, so the delay is `(0.25 + 1*0.25)*8 = 4`. -/
theorem test_mdl_delay_p3 : mdlDelay (Arith.ieee .binary32) (num 8) (num 1) (num 1 4) (num 1 4) = num 4 := by decide
theorem test_mdl_latency_l8 :
    answers (withMdl fun m => { m with prep := true, fs := num 8, dt := [Smoother.rest (Arith.ieee .binary32) (num 5 16)] })
      0x39000000 0 = (false, 3) := by decide

theorem test_vb_prepare_p4 :
    let t := after two 0x40000000 0x41000000
    (t.regs.getDly 3 1).size = 8 ∧ answers t 0x02000000 0 = (false, 0x000F1004) := by decide
theorem test_vb_reset :
    let s := build cfgT fun r => (channels 2 r).setDly 3 1 b7
    (after s 0x41000000 0).regs.getDly 3 1 = ⟨4, 0, []⟩ := by decide
theorem test_vb_setactive_v1 :
    (after two 0x42000000 4).regs.vb.active = 4 ∧ answers two 0x42000000 0 = (true, 6) ∧ answers two 0x42000000 5 = (true, 6) := by
  decide
theorem test_vb_setrate : ((after two 0x43000000 (num 1 2)).regs.getOsc 3 1).freq = num 1 2 := by decide
theorem test_vb_setdepth_v8 : answers two 0x44000000 (num 1 8) = (true, 8) ∧ answers two 0x44000000 0 = (false, 0) := by decide
theorem test_vb_setdelay_v2_v5 :
    ((after two 0x45000000 (num 1 4)).regs.getMdl 3).dt.get 1 = ⟨num 1 4, num 1 4, 0, 0, 0⟩ ∧
    answers two 0x45000000 (num 1) = (true, 4) := by decide
/-- Vector V6: voice 2's bound refuses the whole command. -/
theorem test_vb_setdelay_v6 :
    answers (build cfgT fun r => (channels 2 r).setMdl 2 { r.getMdl 2 with maxDepth := num 999 1000 }) 0x45000000
      (num 2 1000) = (true, 4) := by decide
theorem test_vb_setspread_v7 : answers two 0x46000000 (num 3 2) = (true, 8) ∧ answers two 0x46000000 (num 1) = (false, 0) := by
  decide
theorem test_vb_setwidth_v7 : answers two 0x47000000 0xBDCCCCCD = (true, 8) ∧
    ((after two 0x47000000 (num 1)).regs.getMdl 0).dt.get 0 = ⟨num 5 1000, num 5 1000, 0, 0, 0⟩ := by decide
theorem test_vb_settype : ((after two 0x48000001 0).regs.getOsc 3 1).type = .sine ∧ (after two 0x48000001 0).regs.vb.ltype = .sine := by
  decide
theorem test_vb_setphase :
    ((after two 0x49010000 (num 1 4)).regs.getOsc 3 1).ph.cur = num 1 4 ∧ ((after two 0x49010000 (num 1 4)).regs.getOsc 3 0).ph.cur = 0 := by
  decide
theorem test_vb_process_v11 : answers two 0x4A000000 (num 1) = (true, 2) := by decide
set_option maxRecDepth 20000 in
/-- The gain of vector V9: `8 * (1/sqrt(4)) = 4`. -/
theorem test_vb_gain_v9 :
    let A := Arith.ieee .binary32
    A.mul (num 8) (A.div (A.lit 1 1) (A.sqrt (A.ofNat 4))) = num 4 := by decide
theorem test_vb_setmaxdelay : ((after two 0x4B000000 (num 2)).regs.getMdl 3).maxDelay = num 2 := by decide
theorem test_vb_setmaxdepth : ((after two 0x4C000000 (num 1 4)).regs.getMdl 3).maxDepth = num 1 4 := by decide

/-- Vector F1. -/
theorem test_biquad_f1 :
    let A := Arith.ieee .binary32
    let k : Coefs Sample := ⟨num 1 2, num 1 4, num 1 8, 0xBF000000, num 1 4⟩
    biquad A ⟨0, 0⟩ k (num 1) = (num 1 2, ⟨num 1 2, 0⟩) ∧ biquad A ⟨num 1 2, 0⟩ k 0 = (num 1 2, ⟨num 1 4, 0xBE000000⟩) ∧
    biquad A ⟨num 1 4, 0xBE000000⟩ k 0 = (num 1 4, ⟨0, 0xBD800000⟩) := by decide
/-- Vector F3. -/
theorem test_svf_f3 :
    let A := Arith.ieee .binary32
    svf A (num 2) ⟨0, 0⟩ (num 1) (num 1 4) (num 1) = (num 1 4, num 1 4, ⟨num 1 2, num 1 2⟩) ∧
    svf A (num 2) ⟨num 1 2, num 1 2⟩ (num 1) (num 1 4) (num 1) = (0xBE800000, num 3 4, ⟨0, num 1⟩) := by decide

/-- A block prepared at 1024 Hz (program P5), as far as the tests look. -/
def prepared (f : Eng Sample → Eng Sample) : State :=
  build cfgE fun r => { channels 2 r with
    eng := f { r.eng with
      prep := true
      fs := num 1024
      hpfc := { Smoother.rest (Arith.ieee .binary32) (num 32) with n := 8 }
      lpfc := { Smoother.rest (Arith.ieee .binary32) (num 256) with n := 8 } } }

theorem test_flt_reset : (after (build cfgT fun r => { r with flt := { r.flt with hp := [⟨num 1, num 1⟩] } }) 0x60000000 0).regs.flt.hp.get 0 = ⟨0, 0⟩ := by
  decide
theorem test_flt_boost_f2 : answers (prepared id) 0x61000000 (num 3) = (false, num 3) := by decide
theorem test_flt_cut_f2 : answers (prepared id) 0x62000000 (num 3) = (false, num 3) := by decide
theorem test_flt_hp_f11 : answers two 0x63000000 (num 1) = (true, 2) := by decide
set_option maxRecDepth 20000 in
theorem test_flt_lp : answers two 0x64000000 (num 1) = (true, 2) ∧ answers (prepared id) 0x64010000 (num 1) = (false, 0) := by decide

/-- Program P5: what `ENG.PREPARE 1024.0` leaves. -/
theorem test_eng_prepare_p5 :
    let t := after (prepared fun e => { e with prep := false, fs := 0 }) 0x50000000 0x44800000
    t.resp = ⟨false, 0⟩ ∧ t.regs.eng.prep = true ∧ t.regs.eng.fs = num 1024 ∧ (t.regs.eng.mix.get 1).n = 4 ∧
    t.regs.eng.hpfc.n = 8 ∧ (t.regs.getDly 3 1).size = 1024 ∧ ((t.regs.getMdl 3).dt.get 0).n = 512 ∧
    ((t.regs.getMdl 3).dp.get 0).n = 204 ∧ (t.regs.getOsc 3 1).ph.n = 51 := by decide
theorem test_eng_prepare_e9_e10 : answers two 0x50000000 (num 32000) = (true, 8) ∧ answers two 0x50000000 (num 400) = (true, 8) := by
  decide
theorem test_eng_reset :
    let t := after (prepared fun e => { e with rem := 3, chcnt := 2, inp := [num 1], hpfc := ⟨num 32, num 64, num 4, 8, 8⟩ }) 0x51000000 0
    t.regs.eng.rem = 0 ∧ t.regs.eng.chcnt = 0 ∧ t.regs.eng.inp.get 0 = 0 ∧ t.regs.eng.hpfc = ⟨num 64, num 64, 0, 0, 8⟩ := by decide
theorem test_eng_setmode_p5 :
    (after (prepared id) 0x52000003 0).regs.eng.mode = .vibrato ∧ (after (prepared id) 0x52000003 0).regs.eng.modeL = .stereo := by
  decide
theorem test_eng_setmix_p5 :
    (after (prepared fun e => { e with mix := [⟨num 1 2, num 1 2, 0, 0, 4⟩, ⟨num 1 2, num 1 2, 0, 0, 4⟩] }) 0x53000000
      (num 1)).regs.eng.mix.get 1 = ⟨num 1 2, num 1, num 1 8, 4, 4⟩ := by decide
theorem test_eng_sethpf_p5 : (after (prepared id) 0x54000000 0x42800000).regs.eng.hpfc = ⟨num 32, num 64, num 4, 8, 8⟩ := by
  decide
theorem test_eng_setlpf_e11 : answers (prepared id) 0x55000000 (num 512) = (true, 8) ∧ answers (prepared id) 0x55000000 (num 511) = (false, 0) := by
  decide
theorem test_eng_setfbyp : (after two 0x56000001 0).regs.eng.hpByp = true ∧ (after two 0x56000001 0).regs.eng.lpByp = false := by decide
theorem test_eng_begin_p5 :
    (after (prepared fun e => { e with mode := .vibrato, chcnt := 3 }) 0x57000001 2).regs.eng =
      { (prepared id).regs.eng with mode := .vibrato, modeL := .vibrato, bypL := true, rem := 2 } := by decide
theorem test_eng_begin_e7_e8 : answers (prepared fun e => { e with rem := 1 }) 0x57000000 4 = (true, 9) ∧ answers two 0x57000000 4 = (true, 2) := by
  decide
theorem test_eng_in_out :
    (after two 0x58010000 0xBF800000).regs.eng.inp = [0, 0xBF800000] ∧
    answers (prepared fun e => { e with out := [0, num 3] }) 0x5A010000 0 = (false, num 3) := by decide
theorem test_eng_step_e6 : answers (prepared id) 0x59000000 0 = (true, 9) ∧ answers two 0x59000000 0 = (true, 2) := by decide
/-- The prepared block with a base delay of 1/512 s. -/
def delayed : State :=
  { prepared id with regs := (prepared id).regs.setMdl 0 { Mdl.reset (Arith.ieee .binary32) cfgE with
      dt := [Smoother.rest (Arith.ieee .binary32) (num 1 512)] } }

theorem test_eng_latency_p5 :
    answers delayed 0x5B000000 0 =
      (false, 2) := by decide

set_option maxRecDepth 20000 in
/-- Vectors E1, E3 and E4. -/
theorem test_mix_e1_e3_e4 :
    let A := Arith.ieee .binary32
    let f := Flt.reset A cfgT
    (mix A .stereo 0 (num 1) (num 1 2) (num 1 4) (num 1 2) f).1 = num 5 8 ∧
    (mix A .stereo 0 (num 1) (num 1 2) (num 1 4) (num 1) f).1 = num 1 4 ∧
    (mix A .vibrato 0 (num 1) (num 1 2) (num 1 4) (num 1 2) f).1 = num 3 4 ∧
    (mix A .dimension 0 (num 1) (num 1 2) (num 1 4) (num 1 2) f).1 = num 5 8 ∧
    (mix A .mono 0 (num 1) (num 1 2) (num 1 4) 0 f).1 = num 1 := by decide

/-- Vectors M1 to M3 and M7: setting a target. -/
theorem test_smoother_targets :
    let A := Arith.ieee .binary32
    smSetTarget A ⟨0, 0, 0, 0, 0⟩ (num 1) = ⟨num 1, num 1, 0, 0, 0⟩ ∧ smReset A ⟨0, 0, 0, 0, 0⟩ (num 8) (num 1 2) = ⟨0, 0, 0, 0, 4⟩ ∧
    smSetTarget A ⟨0, 0, 0, 0, 4⟩ (num 1) = ⟨0, num 1, num 1 4, 4, 4⟩ ∧
    smSetTarget A ⟨num 1 2, num 1, num 1 4, 2, 4⟩ 0 = ⟨num 1 2, 0, 0xBE000000, 4, 4⟩ := by decide
/-- Vectors M4, M5, M6 and M12: samples and skips. -/
theorem test_smoother_ramps :
    let A := Arith.ieee .binary32
    smNext A ⟨0, num 1, num 1 4, 4, 4⟩ = (num 1 4, ⟨num 1 4, num 1, num 1 4, 3, 4⟩) ∧
    smSkip A ⟨0, num 1, num 1 4, 4, 4⟩ 3 = ⟨num 3 4, num 1, num 1 4, 1, 4⟩ ∧
    smSkip A ⟨num 3 4, num 1, num 1 4, 1, 4⟩ 100 = ⟨num 1, num 1, num 1 4, 0, 4⟩ ∧
    smNext A ⟨num 1 4, 0, 0xBE800000, 1, 1⟩ = (0, ⟨0, 0, 0xBE800000, 0, 1⟩) := by decide

/-! ### Witnesses: states that meet the hypotheses of the obligations, at the ends of the ranges -/

/-- A build with three table entries, so that two neighbours always have the same sign: two voices, two channels. -/
def cfgW : Params Sample :=
  { Params.default .binary32 with nVoices := 2, tableSize := 3, dlyCap := 16, chunk := 2, maxDelayReset := num 1 256 }

set_option maxRecDepth 20000 in
theorem cfgW_legal : cfgW.legal (Arith.ieee .binary32) .binary32 = true := by decide

/-- After `SYS.SETCH 2`, its registers changed by `f`. -/
def small (f : Regs Sample → Regs Sample) : State := build cfgW fun r => f (channels 2 r)

/-- Nothing prepared. -/
def fresh : State := small id

/-- An oscillator prepared at 1024 Hz, at rest on table entry `i`. -/
def oscAt (i : Nat) : Osc Sample :=
  { Osc.reset (Arith.ieee .binary32) with prep := true, fs := num 1024, type := .sine, pos := num i }

/-- A voice prepared at 1024 Hz, its base delay two samples. -/
def voiceW : Mdl Sample :=
  { Mdl.reset (Arith.ieee .binary32) cfgW with
    prep := true
    fs := num 1024
    dt := List.replicate 2 { Smoother.rest (Arith.ieee .binary32) (num 1 512) with n := 4 }
    dp := List.replicate 2 { Smoother.rest (Arith.ieee .binary32) 0 with n := 4 } }

/-- Everything prepared at 1024 Hz, every oscillator on table entry `i`, every buffer of `n` words, a block open with `k`
frames to go. -/
def ready (i n k : Nat) : State :=
  small fun r =>
    { r with
      osc := List.replicate 2 (List.replicate 2 (oscAt i))
      dly := List.replicate 2 (List.replicate 2 { size := n, cur := 0, ram := [(1, num 7)] })
      mdl := List.replicate 2 voiceW
      vb := { r.vb with prep := true }
      eng :=
        { r.eng with
          prep := true
          fs := num 1024
          rem := k
          hpfc := { Smoother.rest (Arith.ieee .binary32) (num 32) with n := 8 }
          lpfc := { Smoother.rest (Arith.ieee .binary32) (num 256) with n := 8 } } }

/-- Whatever finite words the ROM holds, one of the three table entries gives a finite oscillator output. -/
theorem osc_finite : ∃ i < 3,
    Ieee.isFinite .binary32 (oscProcess ⟨Arith.ieee .binary32, cfgW⟩ (oscAt i)).1 = true := by
  let y := fun i => rom (Arith.ieee .binary32) 3 .sine i
  have hy : ∀ i, Ieee.isFinite .binary32 (y i) = true := fun i => finite_finiteWord _
  have e0 : (oscProcess ⟨Arith.ieee .binary32, cfgW⟩ (oscAt 0)).1 = lerp (Arith.ieee .binary32) (y 0) (y 1) 0 := rfl
  have e1 : (oscProcess ⟨Arith.ieee .binary32, cfgW⟩ (oscAt 1)).1 = lerp (Arith.ieee .binary32) (y 1) (y 2) 0 := rfl
  have e2 : (oscProcess ⟨Arith.ieee .binary32, cfgW⟩ (oscAt 2)).1 = lerp (Arith.ieee .binary32) (y 2) (y 0) 0 := rfl
  have h : ∀ a b c : Bool, a = b ∨ b = c ∨ c = a := by decide
  rcases h (Ieee.isNeg .binary32 (y 0)) (Ieee.isNeg .binary32 (y 1)) (Ieee.isNeg .binary32 (y 2)) with h | h | h
  · exact ⟨0, by decide, e0 ▸ finite_lerp (hy _) (hy _) h⟩
  · exact ⟨1, by decide, e1 ▸ finite_lerp (hy _) (hy _) h⟩
  · exact ⟨2, by decide, e2 ▸ finite_lerp (hy _) (hy _) h⟩

/-- On one of the three, every voice reads two samples back: at depth 0 the oscillator does not move the delay (S12). -/
theorem read_delay : ∃ i < 3, ∀ n k, ∀ v < 2, ∀ c < 2,
    readDelay (ready i n k).kit (ready i n k).regs v c = num 2 := by
  obtain ⟨i, hi, h⟩ := osc_finite
  refine ⟨i, hi, fun n k v hv c hc => ?_⟩
  have key : ∀ o, Ieee.isFinite .binary32 o = true →
      Ieee.mul .binary32 (Ieee.add .binary32 (num 1 512)
        (Ieee.mul .binary32 (Ieee.mul .binary32 (Ieee.add .binary32 o (num 1)) (num 1 2)) 0)) (num 1024) = num 2 := by
    intro o ho
    have h1 := finite_mul_small (finite_add_small ho (y := num 1) (by decide) (by decide)) (y := num 1 2)
      (by decide) (by decide)
    rcases mul_zero_cases h1 with e | e <;> rw [e] <;> decide
  have hk := key _ h
  interval_cases v <;> interval_cases c <;> exact hk

theorem ready_kit (i n k : Nat) : (ready i n k).kit = ⟨Arith.ieee .binary32, cfgW⟩ := rfl

theorem ready_dly (i n k : Nat) {v c : Nat} (hv : v < 2) (hc : c < 2) :
    (ready i n k).regs.getDly v c = { size := n, cur := 0, ram := [(1, num 7)] } := by
  interval_cases v <;> interval_cases c <;> rfl

theorem ready_reads : ∃ i < 3, ∀ k, ∀ v < 2, ∀ c < 2, ReadOk (ready i 3 k).kit (ready i 3 k).regs v c ∧
    ((ready i 3 k).regs.getDly v c).ram.wf 0 = true := by
  obtain ⟨i, hi, h⟩ := read_delay
  refine ⟨i, hi, fun k v hv c hc => ?_⟩
  rw [ReadOk, h 3 k v hv c hc, ready_dly i 3 k hv hc, ready_kit]
  decide

/-- With two words the read at two samples is the first delay outside. -/
theorem ready_reads_outside : ∃ i < 3, ∀ k, ∀ v < 2, ∀ c < 2, ¬ReadOk (ready i 2 k).kit (ready i 2 k).regs v c := by
  obtain ⟨i, hi, h⟩ := read_delay
  refine ⟨i, hi, fun k v hv c hc => ?_⟩
  rw [ReadOk, h 2 k v hv c hc, ready_dly i 2 k hv hc, ready_kit]
  decide

/-! #### Encoding and the step -/

theorem witness_DecodeOfEncode :
    (Instr.dlyGet 15 15 0xFFFFFFFF).wf .binary32 = true ∧ (Instr.oscPrepare 0 15 0xFFFFFFFFFFFFFFFF).wf .binary64 = true ∧
    Instr.sysNop.wf .binary32 = true := by decide

/-- The second word has operand bits that a `binary32` block has no lines for. -/
theorem witness_EncodeOfDecode :
    decode .binary64 ⟨0x24FF0000, 0xFFFFFFFFFFFFFFFF⟩ = .ok (.dlyPush 15 15 0xFFFFFFFFFFFFFFFF) ∧
    decode .binary32 ⟨0x24FF0000, 0xFFFFFFFF3F800000⟩ = .ok (.dlyPush 15 15 0x3F800000) := by decide

/-- Both ends of every undefined range of R64, and the defined opcodes beside them. -/
theorem witness_UndefinedOpcodes :
    let op := fun k : Nat => (decode .binary32 ⟨BitVec.ofNat 32 (k * 16777216), 0⟩).toOption.isSome
    ([0x07, 0x0F, 0x16, 0x1F, 0x25, 0x2F, 0x3A, 0x3F, 0x4D, 0x4F, 0x5C, 0x5F, 0x65, 0xFF].all fun k => !op k) = true ∧
    ([0x00, 0x06, 0x10, 0x15, 0x20, 0x24, 0x30, 0x39, 0x40, 0x4C, 0x50, 0x5B, 0x60, 0x64].all op) = true := by decide

theorem witness_ByteStream :
    (CmdWord.mk 0xFFFFFFFF 0xFFFFFFFF).opd.toNat < 2 ^ Prec.binary32.width ∧
    (CmdWord.mk 0x12010000 0xFFFFFFFFFFFFFFFF).opd.toNat < 2 ^ Prec.binary64.width := by decide

theorem witness_StepRunsTheCommand :
    let s := { fresh with port := [⟨0x5A010000, 0⟩, ⟨0x59000000, 0⟩] }
    s.port = ⟨0x5A010000, 0⟩ :: [⟨0x59000000, 0⟩] ∧ decode s.prec ⟨0x5A010000, 0⟩ = .ok (.engOut 1) := by decide

theorem witness_StepWithoutACommand :
    fresh.port = [] ∧ Running fresh ∧ decode fresh.prec ⟨0x07000000, 0⟩ = .error .undefinedOpcode ∧
    halted.regs.sys.halt = true ∧ decode halted.prec ⟨0, 1⟩ = .error .unusedField := by decide

/-- One command that completes and one that faults. -/
theorem witness_FaultsArePrecise :
    Running fresh ∧ (∃ t, exec (.sysSetch 1) fresh = .next t ∧ t.resp.fault = false) ∧
    ∃ t, exec (.sysSetch 3) fresh = .next t ∧ t.resp.fault = true :=
  ⟨rfl, ⟨_, rfl, rfl⟩, ⟨_, rfl, rfl⟩⟩

theorem witness_Halted :
    halted.regs.sys.halt = true ∧ decode halted.prec ⟨0x01000000, 0⟩ = .ok .sysReset ∧
    decode halted.prec ⟨0x02000000, 0⟩ = .ok .sysRdstat ∧ decode halted.prec ⟨0x03000000, 0⟩ = .ok .sysRdcause ∧
    decode halted.prec ⟨0x04000000, 0⟩ = .ok .sysRdinfo ∧ Running (after halted 0x01000000 0) := by decide

/-- A word that is refused when halted: `SYS.NOP`, and an illegal word. -/
theorem witness_Halted_refused :
    (∀ i, decode halted.prec ⟨0, 0⟩ = .ok i → runsHalted i = false) ∧
    ∀ i, decode halted.prec ⟨0, 1⟩ = .ok i → runsHalted i = false :=
  ⟨fun i h => by cases h; rfl, fun i h => nomatch h⟩

/-- A `binary64` block, whose operand can be too large for an integer. -/
def wide : State := { fresh with prec := .binary64 }

theorem witness_CheckOrder :
    Running fresh ∧ Running wide ∧ fresh.cfg.nVoices ≤ (Instr.mdlLatency 2).row.2.v.toNat ∧
    VoiceOk fresh 1 ∧ (build cfgW id).regs.sys.nch = 0 ∧ fresh.regs.sys.nch ≠ 0 ∧
    fresh.regs.sys.nch ≤ (Instr.engOut 2).row.2.c.toNat ∧ ChanOk fresh 1 ∧
    2 ^ 32 ≤ (Instr.dlyGet 1 1 0x100000000).row.2.opd.toNat % 2 ^ wide.prec.width ∧
    Ieee.isFinite fresh.prec (Instr.dlyPush 1 1 0x7F800000).row.2.opd = false := by decide

/-! #### Faults -/

theorem witness_SequenceFaults :
    let s := ready 0 3 1
    Running s ∧ FiniteOpd s 0x3F800000 ∧ IntOpd 1 ∧ IntOpd 2 ∧ 0 < s.regs.eng.rem ∧ 2 ≤ s.cfg.nChMax ∧ VoiceOk s 1 ∧
    ChanOk s 1 ∧ s.regs.eng.prep = true ∧ Closed (ready 0 3 0) ∧ (ready 0 3 0).regs.eng.prep = true := by decide

theorem witness_NotPreparedFaults :
    Running fresh ∧ FiniteOpd fresh 0x3F800000 ∧ IntOpd 0xFFFFFFFF ∧ VoiceOk fresh 1 ∧ ChanOk fresh 1 ∧
    (fresh.regs.getOsc 1 1).prep = false ∧ (fresh.regs.getDly 1 1).size = 0 ∧ (fresh.regs.getMdl 1).prep = false ∧
    fresh.regs.vb.prep = false ∧ fresh.regs.eng.prep = false := by decide

theorem witness_CountFaults :
    Running fresh ∧ FiniteOpd fresh 0x44800000 ∧ IntOpd 0 ∧ IntOpd 3 ∧ IntOpd 0xFFFFFFFF ∧ fresh.cfg.nChMax < 3 ∧
    fresh.cfg.nVoices < 3 ∧ (build cfgW id).regs.sys.nch = 0 ∧ Closed (build cfgW id) ∧ VoiceOk (build cfgW id) 1 := by
  decide

/-- The first values outside each range: 0 and the least number below 0, the least above `MAXDEPTH` and above 1, half the
sample rate, and 400 Hz. -/
theorem witness_ParameterFaults :
    let s := ready 0 3 0
    let A := s.kit.A
    Running s ∧ Closed s ∧ VoiceOk s 1 ∧ ChanOk s 1 ∧ s.regs.sys.nch ≠ 0 ∧ FiniteOpd s 0 ∧ ¬(A.lt A.zero (sOperand s 0) = true) ∧
    FiniteOpd s 0x80000001 ∧ A.le A.zero (sOperand s 0x80000001) = false ∧
    FiniteOpd s 1 ∧ ¬(A.le (sOperand s 1) (s.regs.getMdl 1).maxDepth = true) ∧
    FiniteOpd s 0x3F800001 ∧ ¬(A.le (sOperand s 0x3F800001) (A.lit 1 1) = true) := by decide

theorem witness_ParameterFaults_cutoffs :
    let s := ready 0 3 0
    let A := s.kit.A
    s.regs.eng.prep = true ∧ FiniteOpd s (num 512) ∧ A.lt (sOperand s (num 512)) (A.div s.regs.eng.fs (A.lit 2 1)) = false ∧
    FiniteOpd s (num 400) ∧ ¬(A.lt (A.lit 400 1) (sOperand s (num 400)) = true) ∧
    ¬(A.lt s.regs.eng.lpfc.tgt (A.div (sOperand s (num 512)) (A.lit 2 1)) = true) := by decide

/-- A target of 0, one at the upper bound, and a bank whose base delay is at that bound. -/
theorem witness_DelayTargetFaults :
    let s := small fun r => { r with vb := { r.vb with baseDelay := num 1 256 } }
    let A := s.kit.A
    let upper := A.sub (s.regs.getMdl 1).maxDelay (s.regs.getMdl 1).maxDepth
    Running s ∧ VoiceOk s 1 ∧ ChanOk s 1 ∧ FiniteOpd s 0 ∧ FiniteOpd s (num 1 256) ∧
    ¬(A.lt A.zero (sOperand s 0) = true) ∧ ¬(A.lt (sOperand s (num 1 256)) upper = true) ∧
    ¬(A.lt A.zero (spreadDelay s.kit (sOperand s 0) 0 0 0 0) = true) ∧
    ¬(A.lt (spreadDelay s.kit (num 1 256) (sOperand s 0) 0 1 1) upper = true) ∧
    ¬(A.lt (spreadDelay s.kit (num 1 256) 0 (sOperand s 0) 1 0) upper = true) ∧
    A.le A.zero (sOperand s 0) = true ∧ A.le (sOperand s 0) (A.lit 1 1) = true := by decide

theorem witness_BufferRangeFaults :
    let s := ready 0 3 1
    let A := s.kit.A
    let b := s.regs.getDly 1 1
    Running s ∧ VoiceOk s 1 ∧ ChanOk s 1 ∧ 0 < b.size ∧ IntOpd 3 ∧ b.size ≤ (3 : BitVec 64).toNat ∧
    FiniteOpd s 0x80000001 ∧ A.le A.zero (sOperand s 0x80000001) = false ∧
    FiniteOpd s (num 3) ∧ A.lt (sOperand s (num 3)) (A.ofNat b.size) = false := by decide

/-- A block in which every voice reads outside its buffer. -/
theorem witness_BufferRangeFaults_voices : ∃ i < 3,
    let s := ready i 2 1
    Running s ∧ (s.regs.getMdl 1).prep = true ∧ s.regs.vb.prep = true ∧ s.regs.eng.prep = true ∧ 0 < s.regs.eng.rem ∧
    s.regs.sys.nch = 2 ∧ s.cfg.nVoices = 2 ∧ ¬ReadOk s.kit s.regs 1 1 ∧ ¬ReadOk s.kit s.regs 0 0 := by
  obtain ⟨i, hi, h⟩ := ready_reads_outside
  exact ⟨i, hi, rfl, rfl, rfl, rfl, Nat.one_pos, rfl, rfl, h 1 1 (by decide) 1 (by decide), h 1 0 (by decide) 0 (by decide)⟩

/-- Sizes of 0 and of `DLY_CAP + 1` words, offered and computed. -/
theorem witness_AllocationFaults :
    let s := ready 0 3 0
    let A := s.kit.A
    Running s ∧ Closed s ∧ VoiceOk s 1 ∧ ChanOk s 1 ∧ IntOpd 0 ∧ IntOpd 17 ∧ s.cfg.dlyCap < (17 : BitVec 64).toNat ∧
    s.regs.sys.nch ≠ 0 ∧ FiniteOpd s (num 4097) ∧ A.lt A.zero (sOperand s (num 4097)) = true ∧
    bufferWords A (s.regs.getMdl 1).maxDelay (sOperand s (num 4097)) = 17 ∧ ¬AllocOk s.kit (s.regs.getMdl 1).maxDelay (sOperand s (num 4097)) ∧
    (s.regs.getMdl 1).prep = true ∧ FiniteOpd s (num 1) ∧ ¬AllocOk s.kit (sOperand s (num 1)) (s.regs.getMdl 1).fs ∧
    A.lt (A.lit 400 1) (sOperand s (num 4097)) = true ∧
    A.lt s.regs.eng.hpfc.tgt (A.div (sOperand s (num 4097)) (A.lit 2 1)) = true ∧
    A.lt s.regs.eng.lpfc.tgt (A.div (sOperand s (num 4097)) (A.lit 2 1)) = true := by decide

/-- A voice whose stored bound no longer fits its sample rate: only a depth bound is set, and the same product fails. -/
theorem witness_AllocationFaults_maxdepth :
    let s := small fun r => r.setMdl 1 { r.getMdl 1 with prep := true, fs := num 8192 }
    Running s ∧ Closed s ∧ FiniteOpd s 0 ∧ s.kit.A.le s.kit.A.zero (sOperand s 0) = true ∧ VoiceOk s 1 ∧
    (s.regs.getMdl 1).prep = true ∧ ¬AllocOk s.kit (s.regs.getMdl 1).maxDelay (s.regs.getMdl 1).fs := by decide

/-! #### System commands, oscillators, buffers -/

theorem witness_ResetLeaves : State.reset.prec = State.reset.prec ∧ halted.prec = State.reset.prec ∧
    (build (Params.default .binary32) id).cfg = State.reset.cfg := ⟨rfl, rfl, rfl⟩

theorem witness_SystemReads : Running fresh ∧ fresh.regs.sys.nch ≤ 16 ∧ fresh.cfg.nVoices ≤ 16 := by decide

/-- The old count, and both ends of the range of new ones. -/
theorem witness_SystemSetters :
    Running fresh ∧ Closed fresh ∧ IntOpd 0xFFFFFFFF ∧ IntOpd 1 ∧ IntOpd 2 ∧ fresh.cfg.nChMax = (2 : BitVec 64).toNat ∧
    (2 : BitVec 64).toNat = fresh.regs.sys.nch ∧ (1 : BitVec 64).toNat ≠ fresh.regs.sys.nch := by decide

theorem witness_OscPrepares :
    Admits fresh 1 1 ∧ Admits fresh 0 0 ∧ FiniteOpd fresh 1 ∧ Closed fresh ∧
    fresh.kit.A.lt fresh.kit.A.zero (sOperand fresh 1) = true ∧
    0 ≤ fresh.kit.A.floor (fresh.kit.A.mul fresh.cfg.phaseRamp (sOperand fresh 1)) := by decide

/-- The target set again, a new target without a ramp and one with a ramp; an oscillator before and after its prepare. -/
theorem witness_OscSetters :
    let s := small fun r => r.setOsc 1 1 { r.getOsc 1 1 with prep := true, ph := { (r.getOsc 1 1).ph with n := 51 } }
    Admits s 1 1 ∧ Admits s 0 1 ∧ FiniteOpd s 0 ∧ FiniteOpd s 0x3F800000 ∧ (s.regs.getOsc 0 1).prep = false ∧
    (s.regs.getOsc 1 1).prep = true ∧ s.kit.A.eq (sOperand s 0) (s.regs.getOsc 1 1).ph.tgt = true ∧
    s.kit.A.eq (sOperand s 0x3F800000) (s.regs.getOsc 0 1).ph.tgt = false ∧ (s.regs.getOsc 0 1).ph.n = 0 ∧
    s.kit.A.eq (sOperand s 0x3F800000) (s.regs.getOsc 1 1).ph.tgt = false ∧ (s.regs.getOsc 1 1).ph.n ≠ 0 := by decide

theorem witness_OscProcesses : Admits (ready 0 3 0) 1 1 ∧ ((ready 0 3 0).regs.getOsc 1 1).prep = true := by decide

/-- Both ends of the range of sizes. -/
theorem witness_DlyAllocates :
    Admits fresh 1 1 ∧ Closed fresh ∧ IntOpd 1 ∧ IntOpd 16 ∧ (16 : BitVec 64).toNat = fresh.cfg.dlyCap := by decide

/-- Both ends of the range of whole delays, and a fraction between the last word and `SIZE`. -/
theorem witness_DlyReads :
    let s := ready 0 3 0
    Admits s 1 1 ∧ 0 < (s.regs.getDly 1 1).size ∧ IntOpd 0 ∧ IntOpd 2 ∧
    (2 : BitVec 64).toNat + 1 = (s.regs.getDly 1 1).size ∧ FiniteOpd s 0 ∧ s.kit.A.le s.kit.A.zero (sOperand s 0) = true ∧
    FiniteOpd s (num 11 4) ∧ s.kit.A.le s.kit.A.zero (sOperand s (num 11 4)) = true ∧
    s.kit.A.lt (sOperand s (num 11 4)) (s.kit.A.ofNat (s.regs.getDly 1 1).size) = true := by decide

/-- A cursor at 0 and one at the last word. -/
theorem witness_DlyPushes :
    let s := small fun r => (r.setDly 1 1 ⟨3, 2, [(1, num 7)]⟩).setDly 0 1 ⟨3, 0, [(1, num 7)]⟩
    Admits s 1 1 ∧ Admits s 0 1 ∧ FiniteOpd s 0x40400000 ∧ 0 < (s.regs.getDly 1 1).size ∧
    0 < (s.regs.getDly 0 1).size ∧ (s.regs.getDly 1 1).ram.wf 0 = true ∧ (s.regs.getDly 0 1).ram.wf 0 = true ∧
    (s.regs.getDly 1 1).cur = 2 ∧ (s.regs.getDly 0 1).cur = 0 := by decide

/-- Three pushes and a read two samples back, in a buffer of three words: the greatest delay and the fewest pushes. -/
theorem witness_DelayRoundTrip :
    let xs : List Sample := [0x3F800000, 0x40000000, 0x40400000]
    let s := { small fun r => r.setDly 1 1 ⟨3, 1, [(1, num 7)]⟩ with
      port := xs.map (fun x => encode (.dlyPush 1 1 x)) ++ [encode (.dlyGet 1 1 2)] }
    Admits s 1 1 ∧ (∀ x ∈ xs, Ieee.isFinite s.prec x = true ∧ x.toNat < 2 ^ s.prec.width) ∧ IntOpd 2 ∧
    BufferOk s.cfg.dlyCap (s.regs.getDly 1 1) ∧ (2 : BitVec 64).toNat < (s.regs.getDly 1 1).size ∧
    (2 : BitVec 64).toNat + 1 ≤ xs.length := by
  intro xs s
  have hb : s.regs.getDly 1 1 = ⟨3, 1, [(1, num 7)]⟩ := rfl
  have hc : s.cfg.dlyCap = 16 := rfl
  refine ⟨⟨rfl, Nat.one_lt_two, Nat.one_lt_two⟩, ?_, by decide, ?_, by rw [hb]; decide, by decide⟩
  · have hp : s.prec = .binary32 := rfl
    rw [hp]
    exact List.forall_mem_cons.mpr ⟨by decide, List.forall_mem_cons.mpr ⟨by decide, List.forall_mem_cons.mpr ⟨by decide, nofun⟩⟩⟩
  · rw [hb, hc]
    exact ⟨by decide, by decide, by decide, by decide, by decide⟩

theorem witness_UnitFrames :
    (∃ t, exec (.engOut 1) fresh = .next t) ∧ writesDly (.engOut 1) = false ∧ writesOsc (.engOut 1) = false ∧
    writesMdl (.engOut 1) = false ∧ writesVb (.engOut 1) = false ∧ writesFlt (.engOut 1) = false ∧
    writesEng (.engOut 1) = false ∧ writesSys (.engOut 1) = false :=
  ⟨⟨_, rfl⟩, rfl, rfl, rfl, rfl, rfl, rfl, rfl⟩

theorem witness_IndexFrames :
    (∃ t, exec (.dlyPush 1 1 0x3F800000) (ready 0 3 0) = .next t ∧ t.resp.fault = false) ∧
    (Instr.dlyPush 1 1 0x3F800000).row.1.useV = true ∧ (Instr.dlyPush 1 1 0x3F800000).row.1.useC = true ∧
    0 ≠ (Instr.dlyPush 1 1 0x3F800000).row.2.v.toNat ∧ 0 ≠ (Instr.dlyPush 1 1 0x3F800000).row.2.c.toNat :=
  ⟨⟨_, rfl, rfl⟩, rfl, rfl, by decide, by decide⟩

/-! #### Voices and the bank -/

/-- Sample rates that need one word and `DLY_CAP` words. -/
theorem witness_MdlPrepares :
    let A := fresh.kit.A
    Running fresh ∧ VoiceOk fresh 1 ∧ Closed fresh ∧ fresh.regs.sys.nch ≠ 0 ∧ FiniteOpd fresh (num 1) ∧
    A.lt A.zero (sOperand fresh (num 1)) = true ∧ AllocOk fresh.kit (fresh.regs.getMdl 1).maxDelay (sOperand fresh (num 1)) ∧
    FiniteOpd fresh (num 4096) ∧ AllocOk fresh.kit (fresh.regs.getMdl 1).maxDelay (sOperand fresh (num 4096)) ∧
    bufferWords A (fresh.regs.getMdl 1).maxDelay (sOperand fresh (num 4096)) = fresh.cfg.dlyCap := by decide

/-- A voice not prepared, and one prepared. -/
theorem witness_MdlBounds :
    let s := ready 0 3 0
    Running fresh ∧ VoiceOk fresh 1 ∧ Closed fresh ∧ FiniteOpd fresh (num 1 64) ∧ (fresh.regs.getMdl 1).prep = false ∧
    fresh.kit.A.lt fresh.kit.A.zero (sOperand fresh (num 1 64)) = true ∧ fresh.kit.A.le fresh.kit.A.zero (sOperand fresh 0) = true ∧
    Running s ∧ VoiceOk s 1 ∧ Closed s ∧ FiniteOpd s (num 1 64) ∧ FiniteOpd s 0 ∧ (s.regs.getMdl 1).prep = true ∧
    s.kit.A.lt s.kit.A.zero (sOperand s (num 1 64)) = true ∧ AllocOk s.kit (sOperand s (num 1 64)) (s.regs.getMdl 1).fs ∧
    s.kit.A.le s.kit.A.zero (sOperand s 0) = true ∧ AllocOk s.kit (s.regs.getMdl 1).maxDelay (s.regs.getMdl 1).fs := by decide

theorem witness_MdlTargets :
    let m := fresh.regs.getMdl 1
    let A := fresh.kit.A
    Admits fresh 1 1 ∧ FiniteOpd fresh 1 ∧ A.lt A.zero (sOperand fresh 1) = true ∧
    A.lt (sOperand fresh 1) (A.sub m.maxDelay m.maxDepth) = true ∧ FiniteOpd fresh 0 ∧
    A.le A.zero (sOperand fresh 0) = true ∧ A.le (sOperand fresh 0) m.maxDepth = true := by decide

theorem witness_MdlScalars :
    let s := ready 0 3 0
    let A := s.kit.A
    Running s ∧ VoiceOk s 1 ∧ FiniteOpd s (num 1) ∧ A.le A.zero (sOperand s (num 1)) = true ∧
    A.le (sOperand s (num 1)) (A.lit 1 1) = true ∧ (s.regs.getMdl 1).prep = true ∧
    A.round (A.mul ((s.regs.getMdl 1).dt.get 0).cur (s.regs.getMdl 1).fs) = 2 := by decide

theorem witness_MdlProcesses : ∃ i < 3,
    let s := ready i 3 0
    Admits s 1 1 ∧ FiniteOpd s 0x7F7FFFFF ∧ (s.regs.getMdl 1).prep = true ∧ ReadOk s.kit s.regs 1 1 ∧
    (s.regs.getDly 1 1).ram.wf 0 = true := by
  obtain ⟨i, hi, h⟩ := ready_reads
  exact ⟨i, hi, ⟨rfl, Nat.one_lt_two, Nat.one_lt_two⟩, rfl, rfl, h 0 1 (by decide) 1 (by decide)⟩

theorem witness_VbPrepares :
    let A := fresh.kit.A
    Running fresh ∧ FiniteOpd fresh (num 1024) ∧ Closed fresh ∧ fresh.regs.sys.nch ≠ 0 ∧
    A.lt A.zero (sOperand fresh (num 1024)) = true ∧
    ∀ v < fresh.cfg.nVoices, AllocOk fresh.kit (fresh.regs.getMdl v).maxDelay (sOperand fresh (num 1024)) := by decide

/-- The greatest count, and a depth inside every voice's bound. -/
theorem witness_VbSetters :
    let A := fresh.kit.A
    Running fresh ∧ FiniteOpd fresh 0 ∧ IntOpd 1 ∧ IntOpd 2 ∧ (2 : BitVec 64).toNat = fresh.cfg.nVoices ∧ ChanOk fresh 1 ∧
    ∀ v < fresh.cfg.nVoices, A.le A.zero (sOperand fresh 0) = true ∧ A.le (sOperand fresh 0) (fresh.regs.getMdl v).maxDepth = true := by
  decide

/-- A base delay inside every bound; a spread and a width of 0 and of 1 that keep the targets inside. -/
theorem witness_VbSpreads :
    let s := small fun r => { r with vb := { r.vb with baseDelay := num 1 512 } }
    let K := s.kit
    let inside := fun base spread width => ∀ v < s.cfg.nVoices, ∀ c < s.cfg.nChMax,
      K.A.lt K.A.zero (spreadDelay K base spread width v c) = true ∧
      K.A.lt (spreadDelay K base spread width v c) (K.A.sub (s.regs.getMdl v).maxDelay (s.regs.getMdl v).maxDepth) = true
    Running s ∧ FiniteOpd s 0 ∧ FiniteOpd s (num 1) ∧ FiniteOpd s (num 1 512) ∧ inside (num 1 512) 0 0 ∧
    K.A.le K.A.zero (num 1) = true ∧ K.A.le (num 1) (K.A.lit 1 1) = true ∧ inside (num 1 512) 1 0 ∧ inside (num 1 512) 0 (num 1) := by
  decide

/-- Prepared voices, whose buffers are allocated anew. -/
theorem witness_VbBounds :
    let s := ready 0 3 0
    let A := s.kit.A
    Running s ∧ Closed s ∧ FiniteOpd s (num 1 64) ∧ FiniteOpd s 0 ∧ A.lt A.zero (sOperand s (num 1 64)) = true ∧
    A.le A.zero (sOperand s 0) = true ∧
    (∀ v < s.cfg.nVoices, (s.regs.getMdl v).prep = true ∧ AllocOk s.kit (sOperand s (num 1 64)) (s.regs.getMdl v).fs ∧
      AllocOk s.kit (s.regs.getMdl v).maxDelay (s.regs.getMdl v).fs) := by decide

theorem witness_VbProcesses : ∃ i < 3,
    let s := ready i 3 0
    Running s ∧ ChanOk s 1 ∧ FiniteOpd s 0x7F7FFFFF ∧ s.regs.vb.prep = true ∧
    ∀ v < s.cfg.nVoices, ReadOk s.kit s.regs v 1 ∧ (s.regs.getDly v 1).ram.wf 0 = true := by
  obtain ⟨i, hi, h⟩ := ready_reads
  exact ⟨i, hi, rfl, Nat.one_lt_two, rfl, rfl, fun v hv => h 0 v hv 1 (by decide)⟩

/-! #### Filters and the engine -/

theorem witness_FilterCommands :
    Running (ready 0 3 0) ∧ FiniteOpd (ready 0 3 0) 0x7F7FFFFF ∧ ChanOk (ready 0 3 0) 1 ∧ (ready 0 3 0).regs.eng.prep = true := by
  decide

theorem witness_EngPrepares :
    let s := small fun r => { r with eng := (ready 0 3 0).regs.eng }
    let A := s.kit.A
    let x := sOperand s (num 1024)
    Running s ∧ Closed s ∧ s.regs.sys.nch ≠ 0 ∧ FiniteOpd s (num 1024) ∧ A.lt (A.lit 400 1) x = true ∧
    CutoffOk A s.regs.eng.hpfc.tgt x ∧ CutoffOk A s.regs.eng.lpfc.tgt x ∧
    ∀ v < s.cfg.nVoices, AllocOk s.kit (s.regs.getMdl v).maxDelay x := by decide

/-- A prepared engine with a block open, and one not prepared. -/
theorem witness_EngResets :
    let s := ready 0 3 2
    Running s ∧ s.regs.eng.prep = true ∧ CutoffOk s.kit.A s.regs.eng.hpfc.tgt s.regs.eng.fs ∧
    CutoffOk s.kit.A s.regs.eng.lpfc.tgt s.regs.eng.fs ∧ Running fresh ∧ fresh.regs.eng.prep = false := by decide

theorem witness_EngSetters :
    let s := ready 0 3 0
    let A := s.kit.A
    Running s ∧ FiniteOpd s (num 1) ∧ A.le A.zero (sOperand s (num 1)) = true ∧ A.le (sOperand s (num 1)) (A.lit 1 1) = true ∧
    A.lt A.zero (sOperand s (num 511)) = true ∧ s.regs.eng.prep = true ∧ FiniteOpd s (num 511) ∧
    A.lt (sOperand s (num 511)) (A.div s.regs.eng.fs (A.lit 2 1)) = true := by decide

/-- Block lengths 0 and the greatest. -/
theorem witness_EngBlock :
    let s := ready 0 3 0
    Running s ∧ FiniteOpd s 0xBF800000 ∧ IntOpd 0 ∧ IntOpd 0xFFFFFFFF ∧ s.regs.eng.prep = true ∧ Closed s ∧ ChanOk s 1 ∧
    s.kit.A.round (s.kit.A.mul ((s.regs.getMdl 0).dt.get 0).cur s.regs.eng.fs) = 2 := by decide

/-- A frame inside a sub-block, and the last frame of a block, whose cutoffs are refreshed. -/
theorem witness_EngSteps : ∃ i < 3, ∀ k, k = 1 ∨ k = 2 →
    let s := ready i 3 k
    Running s ∧ s.regs.eng.prep = true ∧ 0 < s.regs.eng.rem ∧ (RefreshDue s ↔ k = 1) ∧
    (∀ v < s.cfg.nVoices, ∀ c < s.regs.sys.nch, ReadOk s.kit s.regs v c ∧ (s.regs.getDly v c).ram.wf 0 = true) ∧
    CutoffOk s.kit.A (smSkip s.kit.A s.regs.eng.hpfc (s.regs.eng.chcnt + 1)).cur s.regs.eng.fs ∧
    CutoffOk s.kit.A (smSkip s.kit.A s.regs.eng.lpfc (s.regs.eng.chcnt + 1)).cur s.regs.eng.fs := by
  obtain ⟨i, hi, h⟩ := ready_reads
  refine ⟨i, hi, fun k hk => ?_⟩
  have hr : RefreshDue (ready i 3 k) ↔ k = 1 := by
    show (0 + 1 = 2 ∨ k = 1) ↔ k = 1
    omega
  have hc : CutoffOk (Arith.ieee .binary32) (num 32) (num 1024) ∧ CutoffOk (Arith.ieee .binary32) (num 256) (num 1024) := by
    decide
  exact ⟨rfl, rfl, (by omega : 0 < k), hr, h k, hc.1, hc.2⟩

/-- A frame that completes, with and without bypass. -/
theorem witness_BypassKeepsRunning : ∃ i < 3, ∀ b, ∃ t,
    exec .engStep { ready i 3 2 with
      regs := { (ready i 3 2).regs with eng := { (ready i 3 2).regs.eng with bypL := b } } } = .next t ∧
    t.resp.fault = false := by
  obtain ⟨i, hi, h⟩ := ready_reads
  refine ⟨i, hi, fun b => ?_⟩
  let s := { ready i 3 2 with regs := { (ready i 3 2).regs with eng := { (ready i 3 2).regs.eng with bypL := b } } }
  rcases engFrame_cases s.kit s.regs with ⟨_, w, q, _, e, e1, e2, e3, e4, e5⟩ | ⟨⟨c, hc, v, hv, hn⟩, _⟩
  · have hb := (frameBody_spec s.kit s.regs q w e5 e1).2.2.2.2.2.2
    have hf : engFrame s.kit s.regs = .ok (frameBody s.kit s.regs q w) := by
      rw [e, hb]
      rfl
    refine ⟨complete s (frameBody s.kit s.regs q w) 0, run_completes (i := .engStep) (s := s) (.inl rfl) rfl ?_, rfl⟩
    show (engFrame s.kit s.regs).bind (fun r => .ok (0, r)) = _
    rw [hf]
    rfl
  · exact absurd (h 2 v hv c hc).1 hn

theorem witness_ModeIsLatched : ∃ t, exec .engStep (ready 0 3 0) = .next t := ⟨_, rfl⟩

/-! #### Invariants -/

/-- The oscillators and voices of `ready`, and what reads past its two voices and two channels. -/
theorem ready_cases (i n k v c : Nat) :
    ((ready i n k).regs.getOsc v c = oscAt i ∨ (ready i n k).regs.getOsc v c = default) ∧
    ((ready i n k).regs.getDly v c = ⟨n, 0, [(1, num 7)]⟩ ∨ (ready i n k).regs.getDly v c = default) ∧
    ((ready i n k).regs.getMdl v = voiceW ∨ (ready i n k).regs.getMdl v = default) := by
  have two_rows : ∀ {α : Type} [Inhabited α] (a : α),
      Bank.get (Bank.get (List.replicate 2 (List.replicate 2 a)) v) c = a ∨
        Bank.get (Bank.get (List.replicate 2 (List.replicate 2 a)) v) c = default := by
    intro α _ a
    rw [Bank.get_replicate]
    split
    · rw [Bank.get_replicate]
      split <;> simp
    · exact .inr rfl
  refine ⟨two_rows _, two_rows _, ?_⟩
  show Bank.get (List.replicate 2 voiceW) v = voiceW ∨ Bank.get (List.replicate 2 voiceW) v = default
  rw [Bank.get_replicate]
  split
  · exact .inl rfl
  · exact .inr rfl

/-- A ramp is started by the command that waits. -/
theorem witness_SmoothersKept :
    let s := { ready 0 3 2 with port := [⟨0x55000000, num 300⟩] }
    SmoothersOk s ∧ ∃ t, step s = .next t ∧ t.regs.eng.lpfc = ⟨num 256, num 300, num 11 2, 8, 8⟩ := by
  have hb : ∀ (p : Smoother Sample), p.cnt = 0 ∧ p.cur = p.tgt ∧ p.n ≤ 8 → SmootherOk p :=
    fun p ⟨h1, h2, h3⟩ => ⟨fun _ => h2, by omega, by omega⟩
  have key : ∀ (x : Smoother Sample) (i : Nat), x.cnt = 0 ∧ x.cur = x.tgt ∧ x.n ≤ 8 →
      SmootherOk (Bank.get (List.replicate 2 x) i) := by
    intro x i hx
    rw [Bank.get_replicate]
    split
    · exact hb _ hx
    · exact hb _ (by decide)
  have hd : ∀ c, SmootherOk (Bank.get ([] : Bank (Smoother Sample)) c) := fun c => hb _ ⟨rfl, rfl, Nat.zero_le _⟩
  refine ⟨⟨fun v c => ?_, fun v c => ?_, fun v c => ?_, fun c => key _ c (by decide), hb _ (by decide), hb _ (by decide)⟩,
    _, rfl, by decide⟩
  · rcases (ready_cases 0 3 2 v c).1 with e | e <;> exact hb _ (by rw [show _ = _ from e]; decide)
  · rcases (ready_cases 0 3 2 v c).2.2 with e | e <;> rw [show _ = _ from e]
    · exact key _ c (by decide)
    · exact hd c
  · rcases (ready_cases 0 3 2 v c).2.2 with e | e <;> rw [show _ = _ from e]
    · exact key _ c (by decide)
    · exact hd c

/-- An oscillator is run from the last table entry. -/
theorem witness_PositionsKept :
    let s := { ready 2 3 2 with port := [⟨0x15110000, 0⟩] }
    PositionsOk s ∧ ∃ t, step s = .next t ∧ t.resp.fault = false := by
  refine ⟨⟨by decide, fun v c => ?_⟩, _, rfl, rfl⟩
  rcases (ready_cases 2 3 2 v c).1 with e | e <;> rw [show _ = _ from e] <;> decide

/-- A word is pushed, and the cursor leaves 0 for the last word. -/
theorem witness_BuffersKept :
    let s := { ready 0 3 2 with port := [⟨0x24110000, 0x3F800000⟩] }
    BuffersOk s ∧ ∃ t, step s = .next t ∧ (t.regs.getDly 1 1).cur = 2 := by
  refine ⟨fun v c => ?_, _, rfl, rfl⟩
  rcases (ready_cases 0 3 2 v c).2.1 with e | e <;> rw [show _ = _ from e] <;>
    exact ⟨by decide, by decide, by decide, by decide, by decide⟩

/-- An open block on a prepared engine, the channel count at its greatest; the command faults. -/
theorem witness_ControlKept :
    let s := { ready 0 3 2 with port := [⟨0x05000000, 2⟩] }
    ControlOk s ∧ ∃ t, step s = .next t ∧ t.regs.sys.cause = 9 :=
  ⟨⟨by decide, by decide, by decide, by decide, by decide, by decide, by decide, by decide, by decide, by decide, by decide⟩,
    _, rfl, rfl⟩

/-! #### The reference reading -/

theorem witness_RomOverReals : 2 ≤ (Params.default .binary32).tableSize ∧ 2 ≤ cfgW.tableSize := by decide

/-- A ramp of four samples after its first. -/
theorem witness_SmootherOverReals :
    let p : Smoother ℝ := { cur := 1 / 4, tgt := 1, step := 1 / 4, cnt := 3, n := 4 }
    SmootherOk p ∧ OnRamp p ∧ 0 < p.cnt ∧ (2 : ℝ) ≠ p.tgt ∧ 0 < p.n := by
  refine ⟨⟨fun h => absurd (h : _ = 0) (by decide), by decide, by decide⟩, ?_, by decide, by norm_num, by decide⟩
  norm_num [OnRamp]

/-- A build over the real numbers. -/
noncomputable def paramsR : Params ℝ :=
  { nVoices := 4, nChMax := 2, tableSize := 8, dlyCap := 16, chunk := 4, maxDelayReset := 1, phaseRamp := 0, mixRamp := 0,
    cutoffRamp := 0, svfQ := 1, hpfReset := 1, lpfReset := 1 }

theorem witness_OscillatorOverReals :
    let o : Osc ℝ := Osc.reset Arith.real
    2 ≤ paramsR.tableSize ∧ o.pos = 0 ∧ o.ph.cnt = 0 ∧ o.ph.tgt = 0 := ⟨by decide, rfl, rfl, rfl⟩

/-- A voice of one channel at 8 Hz, its delay on the way from 1/4 s to 1/2 s, its depth at its bound of 1/4 s. -/
noncomputable def voiceR : Mdl ℝ :=
  { prep := true, fs := 8, maxDelay := 1, maxDepth := 1 / 4, wet := 1,
    dt := [{ cur := 1 / 4, tgt := 1 / 2, step := 1 / 16, cnt := 4, n := 4 }],
    dp := [{ cur := 1 / 4, tgt := 1 / 4, step := 0, cnt := 0, n := 1 }] }

theorem witness_DelaysOverReals :
    let b : Dly ℝ := { size := 8, cur := 7, ram := [] }
    let r := ((Regs.reset Arith.real paramsR).setMdl 0 voiceR).setDly 0 0 b
    let m := r.getMdl 0
    b.cur < b.size ∧ 7 < b.size ∧ 2 ≤ paramsR.tableSize ∧
    SmootherOk (m.dt.get 0) ∧ OnRamp (m.dt.get 0) ∧ (0 < (m.dt.get 0).cur ∧ (m.dt.get 0).cur < m.maxDelay - m.maxDepth) ∧
    (0 < (m.dt.get 0).tgt ∧ (m.dt.get 0).tgt < m.maxDelay - m.maxDepth) ∧
    SmootherOk (m.dp.get 0) ∧ OnRamp (m.dp.get 0) ∧ (0 ≤ (m.dp.get 0).cur ∧ (m.dp.get 0).cur ≤ m.maxDepth) ∧
    (0 ≤ (m.dp.get 0).tgt ∧ (m.dp.get 0).tgt ≤ m.maxDepth) ∧ 0 < m.fs ∧ (r.getDly 0 0).size = ⌈m.maxDelay * m.fs⌉₊ := by
  intro b r m
  have hm : m = voiceR := rfl
  have hs : (r.getDly 0 0).size = 8 := rfl
  rw [hm, hs]
  refine ⟨by decide, by decide, by decide, ⟨fun h => absurd (h : _ = 0) (by decide), by decide, by decide⟩, ?_, ?_, ?_,
    ⟨fun _ => rfl, by decide, by decide⟩, ?_, ?_, ?_, ?_, ?_⟩
  all_goals norm_num [voiceR, OnRamp, Bank.get]

theorem witness_SpreadAndGainOverReals :
    1 ≤ paramsR.nVoices ∧ paramsR.nVoices = 4 ∧ (Regs.reset Arith.real paramsR).vb.active ≤ paramsR.nVoices := by
  refine ⟨by decide, rfl, ?_⟩
  show 1 ≤ 4
  decide

theorem witness_FiltersOverReals :
    (0 : ℝ) < 200 ∧ (200 : ℝ) < 48000 / 2 ∧ (0 : ℝ) < 13 / 10 ∧ 0 < paramsR.svfQ ∧ (20 : ℝ) < 48000 / 2 := by
  norm_num [paramsR]

theorem witness_MixesOverReals : Mode.vibrato ≠ Mode.dimension ∧ Mode.mono ≠ Mode.dimension ∧ Mode.stereo ≠ Mode.dimension := by
  decide

end Sys2Proof.Tests
end

