-- ==== Sys2Proof/Proofs/StepLaws.lean ====
section
/-! SUPPORT. What a step can do, once for all commands (spec/00_scope.md R18), and the obligations on the step itself. -/

namespace Sys2Proof.Machine

/-! ### The cases of a step -/

theorem step_waits {s : State} (hp : s.port = []) : step s = .next s := by
  simp [step, takeWord, hp]

theorem step_illegal {s : State} {w : CmdWord} {rest : List CmdWord} {e : Reject} (hp : s.port = w :: rest)
    (hd : decode s.prec w = .error e) : step s = .next (illegalWord w { s with port := rest }) := by
  simp [step, takeWord, hp, hd]

theorem step_command {s : State} {w : CmdWord} {rest : List CmdWord} {i : Instr} (hp : s.port = w :: rest)
    (hd : decode s.prec w = .ok i) : step s = exec i { s with port := rest } := by
  simp [step, takeWord, hp, hd]

/-- Everything a step can do: wait, answer an illegal word, or run the command of the next word (R18, R64). -/
theorem step_cases {s t : State} (h : step s = .next t) :
    (s.port = [] ∧ t = s) ∨
    (∃ w rest e, s.port = w :: rest ∧ decode s.prec w = .error e ∧ t = illegalWord w { s with port := rest }) ∨
    (∃ w rest i, s.port = w :: rest ∧ decode s.prec w = .ok i ∧ exec i { s with port := rest } = .next t) := by
  cases hp : s.port with
  | nil =>
    rw [step_waits hp] at h
    exact .inl ⟨rfl, by simpa using h.symm⟩
  | cons w rest =>
    cases hd : decode s.prec w with
    | error e =>
      rw [step_illegal hp hd] at h
      exact .inr (.inl ⟨w, rest, e, rfl, hd, by simpa using h.symm⟩)
    | ok i =>
      rw [step_command hp hd] at h
      exact .inr (.inr ⟨w, rest, i, rfl, hd, h⟩)

/-! ### An illegal word -/

/-- An illegal word is refused, or is a fault entry with the word's header (R58, R202, R203). -/
theorem illegalWord_cases (w : CmdWord) (s : State) :
    illegalWord w s = refuse s ∨ illegalWord w s = faultEntry .illegalCommand w.hdr s := by
  cases hh : s.regs.sys.halt <;> simp [illegalWord, hh]

/-! ### What no step writes -/

/-- `PREC`, the parameters of R5 and the words still on the port are the same in both. -/
structure BuildSame (s t : State) : Prop where
  prec : t.prec = s.prec
  cfg : t.cfg = s.cfg
  port : t.port = s.port

theorem illegalWord_buildSame (w : CmdWord) (s : State) : BuildSame s (illegalWord w s) := by
  rcases illegalWord_cases w s with e | e <;> rw [e] <;> exact ⟨rfl, rfl, rfl⟩

theorem run_buildSame {i : Instr} {s t : State} {body : Result} (h : run i s body = .next t) : BuildSame s t := by
  rcases run_cases h with ⟨_, _, rfl⟩ | ⟨_, _, _, rfl⟩ | ⟨_, _, _, _, _, rfl⟩ <;> exact ⟨rfl, rfl, rfl⟩

theorem exec_sysReset (s : State) : exec .sysReset s = .next (resetEntry s) := rfl

theorem exec_buildSame {i : Instr} {s t : State} (h : exec i s = .next t) : BuildSame s t := by
  by_cases hi : i = .sysReset
  · subst hi
    obtain rfl : resetEntry s = t := by simpa [exec_sysReset] using h
    exact ⟨rfl, rfl, rfl⟩
  · obtain ⟨body, hb⟩ := exec_eq_run i s hi
    exact run_buildSame (hb ▸ h)

/-- No command stops the machine: a fault of the spec is a next state (R203). -/
theorem exec_total (i : Instr) (s : State) : ∃ t, exec i s = .next t := by
  by_cases hi : i = .sysReset
  · exact ⟨_, hi ▸ exec_sysReset s⟩
  · obtain ⟨body, hb⟩ := exec_eq_run i s hi
    exact hb ▸ run_total i s body

theorem step_total (s : State) : ∃ t, step s = .next t := by
  cases hp : s.port with
  | nil => exact ⟨_, step_waits hp⟩
  | cons w rest =>
    cases hd : decode s.prec w with
    | error e => exact ⟨_, step_illegal hp hd⟩
    | ok i => exact step_command hp hd ▸ exec_total i _

/-- A step takes one word off the port and leaves the build alone (R18, R19). -/
theorem step_buildSame {s t : State} (h : step s = .next t) : BuildSame { s with port := s.port.tail } t := by
  rcases step_cases h with ⟨hp, rfl⟩ | ⟨w, rest, _, hp, _, rfl⟩ | ⟨w, rest, i, hp, _, he⟩
  · exact ⟨rfl, rfl, by simp [hp]⟩
  · simpa [hp] using illegalWord_buildSame w { s with port := rest }
  · simpa [hp] using exec_buildSame he

/-- Settles O6: a step whose port begins with a word that decodes runs the decoded command. -/
theorem stepRunsTheCommand : Obligations.StepRunsTheCommand :=
  fun _ _ _ _ hp hd => step_command hp hd

/-- Settles O8: every step has a next state, and `step_buildSame` says what that state shares with the one before. -/
theorem stepIsTotal : Obligations.StepIsTotal := by
  intro s
  obtain ⟨t, ht⟩ := step_total s
  obtain ⟨hprec, hcfg, hport⟩ := step_buildSame ht
  exact ⟨t, ht, hprec, hcfg, hport⟩

end Sys2Proof.Machine
end

