-- ==== Sys2Proof/Proofs/Yields.lean ====
section
/-! SUPPORT. What a command's own pseudocode gives when it completes, by the parts the pseudocode is built of: a value, a
check, a sequence, a loop. -/

namespace Sys2Proof.Machine

/-- Every value the pseudocode completes with has the property; a fault gives none (R9). -/
def Yields {α : Type} (P : α → Prop) (x : Except Cause α) : Prop := ∀ a, x = .ok a → P a

section
variable {α β : Type} {P : α → Prop} {Q : β → Prop}

theorem Yields.pure {a : α} (h : P a) : Yields P (pure a) := by
  intro b hb
  obtain rfl : a = b := by simpa [Pure.pure, Except.pure] using hb
  exact h

theorem Yields.error (e : Cause) : Yields P (.error e) := fun _ h => by cases h

/-- After a check the rest may use that the check held. -/
theorem Yields.require {c : Bool} {e : Cause} {f : Unit → Except Cause α} (h : c = true → Yields P (f ())) :
    Yields P (require c e >>= f) := by
  intro a ha
  obtain ⟨hc, ha⟩ := require_bind_ok ha
  exact h hc a ha

theorem Yields.bind {x : Except Cause β} {f : β → Except Cause α} (hx : Yields Q x) (hf : ∀ b, Q b → Yields P (f b)) :
    Yields P (x >>= f) := by
  intro a ha
  obtain ⟨b, hb, ha⟩ := bind_ok ha
  exact hf b (hx b hb) a ha

/-- A sequence whose first part's value does not matter. -/
theorem Yields.anyBind {x : Except Cause β} {f : β → Except Cause α} (hf : ∀ b, Yields P (f b)) : Yields P (x >>= f) :=
  Yields.bind (Q := fun _ => True) (fun _ _ => trivial) fun b _ => hf b

theorem Yields.loopE {n : Nat} {f : Nat → α → Except Cause α} {a : α} (h0 : P a) (hf : ∀ k b, P b → Yields P (f k b)) :
    Yields P (loopE n f a) :=
  fun _ h => loopE_invariant (fun _ => P) h h0 fun k b _ _ hb hk => hf k b hb _ hk

end

/-- What holds of the registers before a command, after a fault entry and of every completed result holds after the
command. -/
theorem run_regs {P : Regs Sample → Prop} {i : Instr} {s t : State} {body : Result} (h : run i s body = .next t)
    (same : P s.regs) (fault : ∀ e hdr, P (faultEntry e hdr s).regs) (done : Yields (fun a => P a.2) body) : P t.regs := by
  rcases run_cases h with ⟨_, _, rfl⟩ | ⟨e, _, _, rfl⟩ | ⟨val, r, _, _, hb, rfl⟩
  · exact same
  · exact fault e _
  · exact done _ hb

end Sys2Proof.Machine
end

