-- ==== Sys2Proof/Proofs/Oscillators.lean ====
section
/-! SUPPORT. The oscillators under every command: which commands leave them alone, and that a property which every
oscillator operation of R91 to R96 keeps is kept by every command. -/

namespace Sys2Proof.Machine

/-- The property holds of every oscillator. -/
def AllOscs {S : Type} [Inhabited S] (Q : Osc S → Prop) (r : Regs S) : Prop := ∀ v c, Q (r.getOsc v c)

/-- A property of an oscillator that every operation on one keeps, and that holds at reset and beyond the rows. -/
structure OscInvariant {S : Type} [Inhabited S] (K : Kit S) (Q : Osc S → Prop) : Prop where
  beyond : Q default
  atReset : Q (Osc.reset K.A)
  prepare : ∀ fs o, Q o → Q (oscPrepare K fs o)
  reset : ∀ o, Q o → Q (oscReset K.A o)
  setFreq : ∀ hz o, Q o → Q (oscSetFreq K hz o)
  setPhase : ∀ off o, Q o → Q (oscSetPhase K.A off o)
  setType : ∀ k o, Q o → Q { o with type := k }
  process : ∀ o, Q o → Q (oscProcess K o).2

/-! ### Writes to the oscillators' rows -/

section
variable {S : Type} [Inhabited S] {Q : Osc S → Prop} {r r' : Regs S}

theorem AllOscs.of_osc_eq (h : AllOscs Q r) (e : r'.osc = r.osc) : AllOscs Q r' := by
  intro v c
  simpa only [Regs.getOsc, e] using h v c

theorem AllOscs.setOsc (h : AllOscs Q r) {v c : Nat} {o : Osc S} (ho : Q o) : AllOscs Q (r.setOsc v c o) := by
  intro u d
  rw [getOsc_setOsc]
  split
  · exact ho
  · exact h u d

theorem AllOscs.updateOscs (h : AllOscs Q r) {nv nc : Nat} {f : Osc S → Osc S} (hf : ∀ o, Q o → Q (f o)) :
    AllOscs Q (r.updateOscs nv nc f) := by
  intro v c
  rw [getOsc_updateOscs]
  split
  · exact hf _ (h v c)
  · exact h v c

/-- One voice's row, its first oscillators updated alike (R118). -/
theorem AllOscs.updateRow (h : AllOscs Q r) {v n : Nat} {f : Osc S → Osc S} (hf : ∀ o, Q o → Q (f o)) :
    AllOscs Q { r with osc := r.osc.put v ((r.osc.get v).update n fun _ o => f o) } := by
  intro u c
  simp only [Regs.getOsc, Bank.get_put]
  split
  · rw [Bank.get_update]
    split
    · exact hf _ (h v c)
    · exact h v c
  · exact h u c

/-- One channel's oscillator in the first voices, updated alike (R141). -/
theorem AllOscs.updateColumn (h : AllOscs Q r) {n c : Nat} {f : Osc S → Osc S} (hf : ∀ o, Q o → Q (f o)) :
    AllOscs Q { r with osc := r.osc.update n fun _ row => row.put c (f (row.get c)) } := by
  intro v d
  simp only [Regs.getOsc, Bank.get_update]
  split
  · rw [Bank.get_put]
    split
    · exact hf _ (h v c)
    · exact h v d
  · exact h v d

end

/-! ### The operations on voices, the bank and the engine -/

section
variable {S : Type} [Inhabited S] {Q : Osc S → Prop} {K : Kit S} (hQ : OscInvariant K Q) {r : Regs S}
include hQ

theorem allOscs_reset : AllOscs Q (Regs.reset K.A K.P) := by
  intro v c
  simp only [Regs.getOsc, Regs.reset, Bank.get_replicate]
  split
  · rw [Bank.get_replicate]
    split
    · exact hQ.atReset
    · exact hQ.beyond
  · exact hQ.beyond

theorem mdlPrepare_allOscs (v : Nat) (fs : S) (h : AllOscs Q r) : Yields (AllOscs Q) (mdlPrepare K v fs r) := by
  rcases mdlPrepare_cases K v fs r with ⟨_, r', he, prepared, others, _⟩ | ⟨_, he⟩ <;> rw [he]
  · refine Yields.pure fun u c => ?_
    by_cases hu : u = v
    · rw [hu, prepared.osc]
      split
      · exact hQ.prepare _ _ (h v c)
      · exact h v c
    · rw [(others u hu).osc]
      exact h u c
  · exact Yields.error _

theorem vbPrepare_allOscs (fs : S) (h : AllOscs Q r) : Yields (AllOscs Q) (vbPrepare K fs r) :=
  .bind (.loopE h fun v _ hr => mdlPrepare_allOscs hQ v fs hr) fun _ hr => .pure hr

theorem mdlReset_allOscs (v : Nat) (h : AllOscs Q r) : AllOscs Q (mdlReset K.A v r) := by
  obtain ⟨done, others, _⟩ := mdlReset_spec K.A v r
  intro u c
  by_cases hu : u = v
  · rw [hu, done.osc]
    split
    · exact hQ.reset _ (h v c)
    · exact h v c
  · rw [(others u hu).osc]
    exact h u c

theorem mdlResetUpto_allOscs (n : Nat) (h : AllOscs Q r) : AllOscs Q (mdlResetUpto K.A n r) := by
  induction n with
  | zero => exact h
  | succ n ih => exact mdlReset_allOscs hQ n ih

theorem vbReset_allOscs (h : AllOscs Q r) : AllOscs Q (vbReset K r) := mdlResetUpto_allOscs hQ _ h

/-- Registers whose oscillators have each run once or not at all. -/
theorem allOscs_of_ran_or_same {r' : Regs S} (h : AllOscs Q r)
    (ran : ∀ v c, r'.getOsc v c = (oscProcess K (r.getOsc v c)).2 ∨ r'.getOsc v c = r.getOsc v c) : AllOscs Q r' := by
  intro v c
  rcases ran v c with e | e <;> rw [e]
  · exact hQ.process _ (h v c)
  · exact h v c

variable [DecidableEq S]

theorem mdlProcess_allOscs (v c : Nat) (x : S) (h : AllOscs Q r) :
    Yields (fun a => AllOscs Q a.2) (mdlProcess K v c x r) := by
  rcases mdlProcess_cases K v c x r with ⟨_, r', he, ran, same, _⟩ | ⟨_, he⟩ <;> rw [he]
  · refine Yields.pure (allOscs_of_ran_or_same hQ h fun u d => ?_)
    by_cases hud : u = v ∧ d = c
    · obtain ⟨rfl, rfl⟩ := hud
      exact .inl ran.osc
    · exact .inr (same u d hud).osc
  · exact Yields.error _

theorem vbProcess_allOscs (c : Nat) (x : S) (h : AllOscs Q r) : Yields (fun a => AllOscs Q a.2) (vbProcess K c x r) := by
  rcases vbProcess_cases K c x r with ⟨_, r', he, ran, same, _⟩ | ⟨_, he⟩ <;> rw [he]
  · refine Yields.pure (allOscs_of_ran_or_same hQ h fun u d => ?_)
    by_cases hud : u < K.P.nVoices ∧ d = c
    · obtain ⟨hu, rfl⟩ := hud
      exact .inl (ran u hu).osc
    · exact .inr (same u d hud).osc
  · exact Yields.error _

end

section
variable {S : Type} [Inhabited S] (K : Kit S) (r : Regs S)

omit [Inhabited S] in
theorem refreshCoefs_osc (fs : S) : Yields (fun r' => r'.osc = r.osc) (refreshCoefs K fs r) := by
  rcases refreshCoefs_cases K fs r with ⟨_, _, _, _, he⟩ | he <;> rw [he]
  · exact Yields.pure rfl
  · exact Yields.error _

omit [Inhabited S] in
theorem refresh_osc : Yields (fun r' => r'.osc = r.osc) (refresh K r) :=
  .bind (refreshCoefs_osc K _ _) fun _ hr => .pure hr

theorem frameChannels_osc (nch : Nat) (w : Bank S) (n : Nat) : (frameChannels K.A nch w n r).osc = r.osc := by
  obtain ⟨_, _, _, _, h⟩ := frameChannels_spec K.A nch w n r
  have e := congrArg Regs.osc h
  exact e

theorem frameBody_osc (q : Regs S) (w : Bank S) : (frameBody K r q w).osc = q.osc :=
  frameChannels_osc K _ _ _ _

end

section
variable {S : Type} [Inhabited S] {Q : Osc S → Prop} {K : Kit S} (hQ : OscInvariant K Q) {r : Regs S}
include hQ

theorem engPrepare_allOscs (fs : S) (h : AllOscs Q r) : Yields (AllOscs Q) (engPrepare K fs r) :=
  .bind (vbPrepare_allOscs hQ fs h) fun _ hr => .bind (refreshCoefs_osc K _ fs) fun _ he => .pure (hr.of_osc_eq he)

theorem engReset_allOscs (h : AllOscs Q r) : Yields (AllOscs Q) (engReset K r) := by
  have hv : AllOscs Q (vbReset K r) := vbReset_allOscs hQ h
  simp only [engReset]
  split
  · exact .bind (refreshCoefs_osc K _ _) fun _ he => .pure (hv.of_osc_eq he)
  · exact Yields.pure hv

/-- A frame runs each oscillator of the voices on the channels below `NCH` once (R180). -/
theorem engFrame_allOscs [DecidableEq S] (h : AllOscs Q r) : Yields (AllOscs Q) (engFrame K r) := by
  rcases engFrame_cases K r with ⟨_, w, q, _, he, _, ran, same, _⟩ | ⟨_, he⟩ <;> rw [he]
  · have hq : AllOscs Q q := allOscs_of_ran_or_same hQ h fun v c => by
      by_cases hvc : v < K.P.nVoices ∧ c < r.sys.nch
      · exact .inl (ran v hvc.1 c hvc.2).osc
      · exact .inr (same v c hvc).osc
    have hb : AllOscs Q (frameBody K r q w) := hq.of_osc_eq (frameBody_osc K r q w)
    split
    · exact fun r' hr => hb.of_osc_eq (refresh_osc K _ r' hr)
    · exact Yields.pure hb
  · exact Yields.error _

end

/-! ### The operations that leave the oscillators alone -/

section
variable {S : Type} [Inhabited S]

theorem mdlSetMax_osc (K : Kit S) (v : Nat) (r : Regs S) : Yields (fun r' => r'.osc = r.osc) (mdlSetMax K v r) := by
  rcases mdlSetMax_cases K v r with ⟨_, d, he, _⟩ | ⟨_, he⟩ <;> rw [he]
  · exact Yields.pure rfl
  · exact Yields.error _

theorem mdlSetMaxDelay_osc (K : Kit S) (v : Nat) (x : S) (r : Regs S) :
    Yields (fun r' => r'.osc = r.osc) (mdlSetMaxDelay K v x r) := by
  simp only [mdlSetMaxDelay]
  split
  · exact mdlSetMax_osc K v _
  · exact Yields.pure rfl

theorem mdlSetMaxDepth_osc (K : Kit S) (v : Nat) (x : S) (r : Regs S) :
    Yields (fun r' => r'.osc = r.osc) (mdlSetMaxDepth K v x r) := by
  simp only [mdlSetMaxDepth]
  split
  · exact mdlSetMax_osc K v _
  · exact Yields.pure rfl

omit [Inhabited S] in
/-- A loop whose every pass leaves the oscillators alone. -/
theorem loopE_osc {f : Nat → Regs S → Except Cause (Regs S)} (hf : ∀ k r, Yields (fun r' => r'.osc = r.osc) (f k r))
    (n : Nat) (r : Regs S) : Yields (fun r' => r'.osc = r.osc) (loopE n f r) :=
  .loopE rfl fun k b hb r' hr => (hf k b r' hr).trans hb

theorem vbRetarget_osc (K : Kit S) (base spread width : S) (r : Regs S) :
    Yields (fun r' => r'.osc = r.osc) (vbRetarget K base spread width r) :=
  .require fun _ => .pure rfl

end

theorem setChannels_osc (K : Kit Sample) (n : Nat) (r : Regs Sample) : (setChannels K n r).osc = r.osc := by
  unfold setChannels
  split <;> rfl

/-! ### Every command -/

theorem run_osc {i : Instr} {s t : State} {body : Result} (h : run i s body = .next t)
    (done : Yields (fun a => a.2.osc = s.regs.osc) body) : t.regs.osc = s.regs.osc :=
  run_regs (P := fun r => r.osc = s.regs.osc) h rfl (fun _ _ => rfl) done

theorem run_allOscs {Q : Osc Sample → Prop} {i : Instr} {s t : State} {body : Result} (h : run i s body = .next t)
    (hs : AllOscs Q s.regs) (done : Yields (fun a => AllOscs Q a.2) body) : AllOscs Q t.regs :=
  run_regs h hs (fun _ _ => hs) done

/-- The commands outside the list of R26's "written by" column leave every oscillator alone, whatever their outcome. -/
theorem exec_osc {i : Instr} {s t : State} (h : exec i s = .next t) (hw : writesOsc i = false) :
    t.regs.osc = s.regs.osc := by
  unfold exec at h
  cases i with
  | sysNop | sysRdstat | sysRdcause | sysRdinfo | sysSetblk | dlyReset | engSetmode | engSetfbyp | engIn | engOut | fltReset =>
    exact run_osc h (.pure rfl)
  | sysSetch => exact run_osc h (.require fun _ => .require fun _ => .pure (setChannels_osc _ _ _))
  | dlyPush | mdlSetwet | mdlLatency | vbSetactive | vbSetdepth | engSetmix | engSethpf | engSetlpf | engLatency
  | fltBoost | fltCut | fltHp | fltLp => exact run_osc h (.require fun _ => .pure rfl)
  | engBegin => exact run_osc h (.require fun _ => .require fun _ => .pure rfl)
  | dlyResize | dlyGet | dlyGetlin => exact run_osc h (.require fun _ => .anyBind fun _ => .pure rfl)
  | mdlSetdelay | mdlSetdepth => exact run_osc h (.anyBind fun _ => .pure rfl)
  | mdlSetmaxdelay => exact run_osc h (.require fun _ => .require fun _ => .bind (mdlSetMaxDelay_osc _ _ _ _) fun _ e => .pure e)
  | mdlSetmaxdepth => exact run_osc h (.require fun _ => .require fun _ => .bind (mdlSetMaxDepth_osc _ _ _ _) fun _ e => .pure e)
  | vbSetdelay => exact run_osc h (.bind (vbRetarget_osc _ _ _ _ _) fun _ e => .pure e)
  | vbSetspread | vbSetwidth => exact run_osc h (.require fun _ => .bind (vbRetarget_osc _ _ _ _ _) fun _ e => .pure e)
  | vbSetmaxdelay =>
    exact run_osc h (.require fun _ => .require fun _ =>
      .bind (loopE_osc (fun v r => mdlSetMaxDelay_osc _ v _ r) _ _) fun _ e => .pure e)
  | vbSetmaxdepth =>
    exact run_osc h (.require fun _ => .require fun _ =>
      .bind (loopE_osc (fun v r => mdlSetMaxDepth_osc _ v _ r) _ _) fun _ e => .pure e)
  | _ => cases hw

/-- Every command keeps what every oscillator operation keeps. -/
theorem exec_allOscs {Q : Osc Sample → Prop} {i : Instr} {s t : State} (hQ : OscInvariant s.kit Q)
    (h : exec i s = .next t) (hs : AllOscs Q s.regs) : AllOscs Q t.regs := by
  cases hw : writesOsc i with
  | false => exact hs.of_osc_eq (exec_osc h hw)
  | true =>
    unfold exec at h
    cases i with
    | sysReset =>
      obtain rfl : resetEntry s = t := by simpa [execSysReset] using h
      exact allOscs_reset hQ
    | oscPrepare v c =>
      exact run_allOscs h hs (.require fun _ => .require fun _ => .pure (hs.setOsc (hQ.prepare _ _ (hs _ _))))
    | oscReset v c => exact run_allOscs h hs (.pure (hs.setOsc (hQ.reset _ (hs _ _))))
    | oscSetfreq v c => exact run_allOscs h hs (.pure (hs.setOsc (hQ.setFreq _ _ (hs _ _))))
    | oscSetphase v c => exact run_allOscs h hs (.pure (hs.setOsc (hQ.setPhase _ _ (hs _ _))))
    | oscSettype v c k => exact run_allOscs h hs (.pure (hs.setOsc (hQ.setType _ _ (hs _ _))))
    | oscProcess v c => exact run_allOscs h hs (.require fun _ => .pure (hs.setOsc (hQ.process _ (hs _ _))))
    | mdlPrepare v =>
      exact run_allOscs h hs (.require fun _ => .require fun _ => .require fun _ =>
        .bind (mdlPrepare_allOscs hQ _ _ hs) fun _ hr => .pure hr)
    | mdlReset v => exact run_allOscs h hs (.pure (mdlReset_allOscs hQ _ hs))
    | mdlSetrate v => exact run_allOscs h hs (.pure (hs.updateRow (hQ.setFreq _)))
    | mdlProcess v c =>
      exact run_allOscs h hs (.require fun _ => .bind (mdlProcess_allOscs hQ _ _ _ hs) fun _ hr => .pure hr)
    | vbPrepare =>
      exact run_allOscs h hs (.require fun _ => .require fun _ => .require fun _ =>
        .bind (vbPrepare_allOscs hQ _ hs) fun _ hr => .pure hr)
    | vbReset => exact run_allOscs h hs (.pure (vbReset_allOscs hQ hs))
    | vbSetrate => exact run_allOscs h hs (.pure (AllOscs.updateOscs hs (hQ.setFreq _)))
    | vbSettype k => exact run_allOscs h hs (.pure (AllOscs.updateOscs hs (hQ.setType k)))
    | vbSetphase c => exact run_allOscs h hs (.pure (hs.updateColumn (hQ.setPhase _)))
    | vbProcess c =>
      exact run_allOscs h hs (.require fun _ => .bind (vbProcess_allOscs hQ _ _ hs) fun _ hr => .pure hr)
    | engPrepare =>
      exact run_allOscs h hs (.require fun _ => .require fun _ => .require fun _ => .require fun _ =>
        .bind (engPrepare_allOscs hQ _ hs) fun _ hr => .pure hr)
    | engReset => exact run_allOscs h hs (.bind (engReset_allOscs hQ hs) fun _ hr => .pure hr)
    | engStep =>
      exact run_allOscs h hs (.require fun _ => .require fun _ => .bind (engFrame_allOscs hQ hs) fun _ hr => .pure hr)
    | _ => cases hw

theorem illegalWord_osc (w : CmdWord) (s : State) : (illegalWord w s).regs.osc = s.regs.osc := by
  rcases illegalWord_cases w s with e | e <;> rw [e] <;> rfl

/-- Every step keeps what every oscillator operation keeps. -/
theorem step_allOscs {Q : Osc Sample → Prop} {s t : State} (hQ : OscInvariant s.kit Q) (h : step s = .next t)
    (hs : AllOscs Q s.regs) : AllOscs Q t.regs := by
  rcases step_cases h with ⟨_, rfl⟩ | ⟨w, rest, _, _, _, rfl⟩ | ⟨w, rest, i, _, _, he⟩
  · exact hs
  · exact hs.of_osc_eq (illegalWord_osc w { s with port := rest })
  · exact exec_allOscs (s := { s with port := rest }) hQ he hs

end Sys2Proof.Machine
end

