-- ==== Sys2Proof/Proofs/Positions.lean ====
section
/-! SUPPORT. The table position of an oscillator stays in `[0, TABLE_SIZE)` (spec/10_state.md R26). -/

namespace Sys2Proof.Machine
open Sys2Proof.Ieee

/-- `+0` is a number of `[0, n)`. -/
theorem inRange_zero (p : Prec) {n : Nat} (hn : 0 < n) : inRange p n 0 = true := by
  have hzero : isFinite p 0 = true ∧ isNeg p 0 = false ∧ units p 0 = 0 := by cases p <;> decide
  obtain ⟨hfin, hsign, hunits⟩ := hzero
  have hlt : 0 < n <<< unitExp p := by
    rw [Nat.shiftLeft_eq]
    positivity
  simp only [inRange, hfin, hsign, hunits, hlt, Bool.not_false, Bool.and_self, decide_true]

theorem inRange_keepBelow (p : Prec) {n : Nat} (hn : 0 < n) (y : Sample) : inRange p n (keepBelow p n y) = true := by
  unfold keepBelow
  split
  · assumption
  · exact inRange_zero p hn

/-- `wrap` answers a number of `[0, n)` for every operand, finite or not (R13, U6). -/
theorem inRange_wrap (p : Prec) {n : Nat} (hn : 0 < n) (x : Sample) : inRange p n (Ieee.wrap p x n) = true := by
  unfold Ieee.wrap
  split <;> exact inRange_keepBelow p hn _

/-- A prepare and the resets put the position at 0, `OscProcess` wraps it, and the setters leave it (R91 to R96). -/
theorem oscInvariant_position (p : Prec) (P : Params Sample) (hT : 0 < P.tableSize) :
    OscInvariant { A := Arith.ieee p, P := P } fun o => inRange p P.tableSize o.pos = true where
  beyond := inRange_zero p hT
  atReset := inRange_zero p hT
  prepare _ _ _ := inRange_zero p hT
  reset _ _ := inRange_zero p hT
  setFreq _ _ h := h
  setPhase _ _ h := h
  setType _ _ h := h
  process _ _ := inRange_wrap p hT _

/-- Settles O50: the position is a property that every oscillator operation keeps, so every step keeps it. -/
theorem positionsKept : Obligations.PositionsKept := by
  intro s t ⟨hT, hpos⟩ h
  obtain ⟨hprec, hcfg, _⟩ := step_buildSame h
  have hQ : OscInvariant s.kit fun o => inRange s.prec s.cfg.tableSize o.pos = true :=
    oscInvariant_position s.prec s.cfg (by omega)
  have ht : AllOscs (fun o => inRange s.prec s.cfg.tableSize o.pos = true) t.regs := step_allOscs hQ h hpos
  rw [PositionsOk, hprec, hcfg]
  exact ⟨hT, ht⟩

end Sys2Proof.Machine
end

/-! SUPPORT. The status word (spec/10_state.md R24) and the system commands that write nothing. -/

namespace Sys2Proof.Machine

/-! ### The fields of the status word, bit by bit -/

theorem getLsbD_flagBit (b : Bool) {pos : Nat} (hp : pos < 32) (k : Nat) :
    (flagBit b pos).getLsbD k = (b && decide (k = pos)) := by
  cases b with
  | false => simp [flagBit]
  | true =>
    by_cases hk : k = pos
    · simp [flagBit, hk, hp]
    · by_cases hlt : k < pos
      · simp [flagBit, hk, hlt]
      · have hne : k - pos ≠ 0 := by omega
        simp [flagBit, hk, hne]

/-- The codes of the four modes fit two bits (R61, R69). -/
theorem getLsbD_modeCode (m : Mode) {k : Nat} (hk : 2 ≤ k) : m.code.getLsbD k = false := by
  have hlt : m.code.toNat < 2 ^ k :=
    calc m.code.toNat < 2 ^ 2 := by cases m <;> decide
      _ ≤ 2 ^ k := Nat.pow_le_pow_right (by decide) hk
  exact Nat.testBit_lt_two_pow hlt

theorem getLsbD_modeField (m : Mode) {pos : Nat} (hp : pos + 2 ≤ 32) (k : Nat) :
    (m.code.setWidth 32 <<< pos).getLsbD k = (decide (pos ≤ k) && m.code.getLsbD (k - pos)) := by
  rw [BitVec.getLsbD_shiftLeft, BitVec.getLsbD_setWidth]
  by_cases h2 : 2 ≤ k - pos
  · simp only [getLsbD_modeCode m h2, Bool.and_false]
  · have h32 : k < 32 := by omega
    have h32' : k - pos < 32 := by omega
    by_cases hlo : k < pos
    · have hle : ¬pos ≤ k := by omega
      simp [hlo, hle]
    · have hle : pos ≤ k := by omega
      simp [hlo, h32, h32', hle]

theorem getLsbD_countField (n k : Nat) :
    (BitVec.ofNat 32 (n % 32) <<< 11).getLsbD k = (decide (11 ≤ k ∧ k < 16) && n.testBit (k - 11)) := by
  have h5 : n % 32 = n % 2 ^ 5 := rfl
  rw [BitVec.getLsbD_shiftLeft, BitVec.getLsbD_ofNat, h5, Nat.testBit_mod_two_pow]
  by_cases h : 11 ≤ k ∧ k < 16
  · have h32 : k < 32 := by omega
    have h32' : k - 11 < 32 := by omega
    have h5' : k - 11 < 5 := by omega
    simp [h, h32, h32', h5']
  · by_cases hlo : k < 11
    · simp [hlo, h]
    · have h5' : ¬k - 11 < 5 := by omega
      simp [h5', h]

/-- Bit `16 + v` is the flag of voice `v`, for the voices the block has (R24). -/
theorem getLsbD_mdlPrepBits (r : Regs Sample) {n : Nat} (hn : n ≤ 16) (k : Nat) :
    (mdlPrepBits r n).getLsbD k = (decide (16 ≤ k ∧ k - 16 < n) && (r.getMdl (k - 16)).prep) := by
  induction n with
  | zero => simp [mdlPrepBits]
  | succ n ih =>
    rw [mdlPrepBits, BitVec.getLsbD_or, ih (by omega), getLsbD_flagBit _ (by omega)]
    by_cases hk : k = 16 + n
    · subst hk
      simp
    · have hiff : (16 ≤ k ∧ k - 16 < n + 1) ↔ (16 ≤ k ∧ k - 16 < n) := by omega
      simp only [hk, hiff, decide_false, Bool.and_false, Bool.or_false]

/-- The response carries the status word's bits and zeros above them (R60). -/
theorem getLsbD_zeroExtended (x : BitVec 32) (k : Nat) : (x.setWidth 64).getLsbD k = x.getLsbD k := by
  rw [BitVec.getLsbD_setWidth]
  by_cases hk : k < 64
  · simp [hk]
  · simp [hk, BitVec.getLsbD_of_ge x k (by omega)]

/-- The answer of `SYS.RDSTAT`. -/
def statusVal (s : State) : BitVec 64 := (statusWord s.kit s.regs).setWidth 64

theorem statusVal_lt (s : State) : (statusVal s).toNat < 2 ^ 32 := by
  rw [statusVal, BitVec.toNat_setWidth_of_le (by decide)]
  exact (statusWord s.kit s.regs).isLt

section
variable {s : State} (hn : s.cfg.nVoices ≤ 16)
include hn

/-- The status word bit by bit: each field where R24 puts it. -/
theorem getLsbD_statusVal (k : Nat) :
    (statusVal s).getLsbD k =
      (s.regs.sys.halt && decide (k = 0) || s.regs.eng.prep && decide (k = 1) || s.regs.vb.prep && decide (k = 2)
        || decide (0 < s.regs.eng.rem) && decide (k = 3) || s.regs.eng.bypL && decide (k = 4)
        || decide (5 ≤ k) && s.regs.eng.modeL.code.getLsbD (k - 5)
        || decide (7 ≤ k) && s.regs.eng.mode.code.getLsbD (k - 7)
        || s.regs.eng.hpByp && decide (k = 9) || s.regs.eng.lpByp && decide (k = 10)
        || decide (11 ≤ k ∧ k < 16) && s.regs.sys.nch.testBit (k - 11)
        || decide (16 ≤ k ∧ k - 16 < s.cfg.nVoices) && (s.regs.getMdl (k - 16)).prep) := by
  rw [statusVal, getLsbD_zeroExtended]
  simp only [statusWord, BitVec.getLsbD_or, getLsbD_mdlPrepBits s.regs (n := s.kit.P.nVoices) hn, getLsbD_countField,
    getLsbD_modeField _ (show 5 + 2 ≤ 32 by decide), getLsbD_modeField _ (show 7 + 2 ≤ 32 by decide),
    getLsbD_flagBit _ (show 0 < 32 by decide), getLsbD_flagBit _ (show 1 < 32 by decide),
    getLsbD_flagBit _ (show 2 < 32 by decide), getLsbD_flagBit _ (show 3 < 32 by decide),
    getLsbD_flagBit _ (show 4 < 32 by decide), getLsbD_flagBit _ (show 9 < 32 by decide),
    getLsbD_flagBit _ (show 10 < 32 by decide)]
  rfl

theorem statusVal_modeL : (statusVal s).extractLsb' 5 2 = s.regs.eng.modeL.code.setWidth 2 := by
  ext j hj
  rw [BitVec.getElem_extractLsb', getLsbD_statusVal hn]
  have hbit : j = 0 ∨ j = 1 := by omega
  rcases hbit with rfl | rfl <;> simp

theorem statusVal_mode : (statusVal s).extractLsb' 7 2 = s.regs.eng.mode.code.setWidth 2 := by
  ext j hj
  rw [BitVec.getElem_extractLsb', getLsbD_statusVal hn, getLsbD_modeCode _ (show 2 ≤ 7 + j - 5 by omega)]
  have hbit : j = 0 ∨ j = 1 := by omega
  rcases hbit with rfl | rfl <;> simp

/-- From bit 11 on there are only the channel count and the voices' flags. -/
theorem getLsbD_statusVal_high {k : Nat} (hk : 11 ≤ k) :
    (statusVal s).getLsbD k = (decide (k < 16) && s.regs.sys.nch.testBit (k - 11)
      || decide (16 ≤ k ∧ k - 16 < s.cfg.nVoices) && (s.regs.getMdl (k - 16)).prep) := by
  have hne : ∀ j < 11, k ≠ j := fun j hj => by omega
  rw [getLsbD_statusVal hn, getLsbD_modeCode _ (show 2 ≤ k - 5 by omega), getLsbD_modeCode _ (show 2 ≤ k - 7 by omega)]
  simp [hne, hk]

theorem statusVal_nch (hnch : s.regs.sys.nch ≤ 16) : ((statusVal s).extractLsb' 11 5).toNat = s.regs.sys.nch := by
  have hfield : (statusVal s).extractLsb' 11 5 = BitVec.ofNat 5 s.regs.sys.nch := by
    refine BitVec.eq_of_getLsbD_eq fun j hj => ?_
    have hin : 11 + j < 16 := by omega
    have hout : ¬16 ≤ 11 + j := by omega
    rw [BitVec.getLsbD_extractLsb', getLsbD_statusVal_high hn (Nat.le_add_right 11 j), BitVec.getLsbD_ofNat]
    simp [hj, hin, hout]
  rw [hfield, BitVec.toNat_ofNat]
  omega

theorem statusVal_mdlPrep (v : Nat) :
    (statusVal s).getLsbD (16 + v) = (decide (v < s.cfg.nVoices) && (s.regs.getMdl v).prep) := by
  rw [getLsbD_statusVal_high hn (by omega)]
  simp

end

/-! ### The commands -/

/-- Settles O20: the reads complete, halted or not, with their registers unchanged; the status word is read bit by bit. -/
theorem systemReads : Obligations.SystemReads := by
  intro s
  refine ⟨fun hrun => run_completes (.inl hrun) rfl rfl, run_completes (.inr rfl) rfl rfl, run_completes (.inr rfl) rfl rfl,
    statusVal s, run_completes (.inr rfl) rfl rfl, fun hnch hn => ?_⟩
  refine ⟨?_, ?_, ?_, ?_, ?_, statusVal_modeL hn, statusVal_mode hn, ?_, ?_, statusVal_nch hn hnch,
    fun v _ => statusVal_mdlPrep hn v, statusVal_lt s⟩ <;>
    rw [getLsbD_statusVal hn]
  · simp
  · simp
  · simp
  · simp
  · simp
  · rw [getLsbD_modeCode _ (show 2 ≤ 9 - 5 by decide), getLsbD_modeCode _ (show 2 ≤ 9 - 7 by decide)]
    simp
  · rw [getLsbD_modeCode _ (show 2 ≤ 10 - 5 by decide), getLsbD_modeCode _ (show 2 ≤ 10 - 7 by decide)]
    simp

end Sys2Proof.Machine

/-! SUPPORT. What a step keeps, from what every command keeps; and what the composite operations leave: the bank's prepare,
a new bound, and the engine's prepare, reset and frame. -/

namespace Sys2Proof.Machine

/-- What the port and the response do not touch, a fault entry keeps and every command keeps, every step keeps (R18). -/
theorem step_keeps {P : State → Prop} {s t : State} (port : ∀ s words, P s → P { s with port := words })
    (refused : ∀ s, P s → P (refuse s)) (faulted : ∀ e hdr s, P s → Running s → P (faultEntry e hdr s))
    (ran : ∀ i s t, P s → exec i s = .next t → P t) (h : step s = .next t) (hs : P s) : P t := by
  rcases step_cases h with ⟨_, rfl⟩ | ⟨w, rest, _, _, _, rfl⟩ | ⟨w, rest, i, _, _, he⟩
  · exact hs
  · cases hh : s.regs.sys.halt with
    | true => simpa [illegalWord, hh] using refused _ (port s rest hs)
    | false => simpa [illegalWord, hh] using faulted .illegalCommand w.hdr _ (port s rest hs) hh
  · exact ran i _ t (port s rest hs) he

section
variable {S : Type} [Inhabited S]

/-! ### The bank prepared (R131) -/

/-- What `VbPrepare` leaves: each voice prepared on allocated buffers, and outside the voices one flag written (R131). -/
structure BankPrepared (K : Kit S) (fs : S) (r r' : Regs S) : Prop where
  alloc : ∀ v < K.P.nVoices, AllocOk K (r.getMdl v).maxDelay fs
  voices : ∀ v < K.P.nVoices, VoicePrepared K r r' v fs
  others : ∀ v, K.P.nVoices ≤ v → VoiceSame r r' v
  sys : r'.sys = r.sys
  vb : r'.vb = { r.vb with prep := true }
  flt : r'.flt = r.flt
  eng : r'.eng = r.eng

theorem vbPrepare_yields (K : Kit S) (fs : S) (r : Regs S) : Yields (BankPrepared K fs r) (vbPrepare K fs r) := by
  unfold vbPrepare
  rcases mdlPrepares_cases K K.P.nVoices fs r with ⟨alloc, q, he, voices, others, outside⟩ | ⟨_, he⟩ <;> rw [he]
  · refine Yields.pure ⟨alloc, fun v hv => ?_, fun v hv => ?_, outside.sys, by rw [outside.vb], outside.flt, outside.eng⟩
    · obtain ⟨osc, dly, dp, dt, mdl⟩ := voices v hv
      exact ⟨osc, dly, dp, dt, mdl⟩
    · obtain ⟨osc, dly, mdl⟩ := others v hv
      exact ⟨osc, dly, mdl⟩
  · exact Yields.error _

/-! ### A new bound (R114, R116, R143, R144) -/

/-- A buffer that is the same or allocated anew with a legal size (R101). -/
def Reallocated (K : Kit S) (b b' : Dly S) : Prop :=
  b' = b ∨ ∃ n, 1 ≤ n ∧ n ≤ K.P.dlyCap ∧ b' = freshBuffer S n

/-- What the setters of a bound leave: the oscillators, every line's smoothers and `PREP` flag, and the registers outside
the voices; a buffer is the same or allocated anew. -/
structure Rebounded (K : Kit S) (r r' : Regs S) : Prop where
  osc : r'.osc = r.osc
  dly : ∀ v c, Reallocated K (r.getDly v c) (r'.getDly v c)
  dt : ∀ v, (r'.getMdl v).dt = (r.getMdl v).dt
  dp : ∀ v, (r'.getMdl v).dp = (r.getMdl v).dp
  prep : ∀ v, (r'.getMdl v).prep = (r.getMdl v).prep
  outside : OutsideSame r r'

omit [Inhabited S] in
theorem Reallocated.trans {K : Kit S} {b₁ b₂ b₃ : Dly S} (h : Reallocated K b₁ b₂) (k : Reallocated K b₂ b₃) :
    Reallocated K b₁ b₃ := by
  rcases k with rfl | fresh
  · exact h
  · exact .inr fresh

theorem Rebounded.refl (K : Kit S) (r : Regs S) : Rebounded K r r :=
  ⟨rfl, fun _ _ => .inl rfl, fun _ => rfl, fun _ => rfl, fun _ => rfl, .refl r⟩

theorem Rebounded.trans {K : Kit S} {r₁ r₂ r₃ : Regs S} (h : Rebounded K r₁ r₂) (k : Rebounded K r₂ r₃) :
    Rebounded K r₁ r₃ where
  osc := k.osc.trans h.osc
  dly v c := (h.dly v c).trans (k.dly v c)
  dt v := (k.dt v).trans (h.dt v)
  dp v := (k.dp v).trans (h.dp v)
  prep v := (k.prep v).trans (h.prep v)
  outside := h.outside.trans k.outside

theorem Rebounded.setMdl {K : Kit S} {r : Regs S} {v : Nat} {m : Mdl S} (hdt : m.dt = (r.getMdl v).dt)
    (hdp : m.dp = (r.getMdl v).dp) (hprep : m.prep = (r.getMdl v).prep) : Rebounded K r (r.setMdl v m) := by
  refine ⟨rfl, fun _ _ => .inl rfl, fun u => ?_, fun u => ?_, fun u => ?_, ⟨rfl, rfl, rfl, rfl⟩⟩ <;>
    by_cases hu : u = v <;> simp [getMdl_setMdl, hu, hdt, hdp, hprep]

theorem mdlSetMax_rebounded (K : Kit S) (v : Nat) (r : Regs S) : Yields (Rebounded K r) (mdlSetMax K v r) := by
  rcases mdlSetMax_cases K v r with ⟨⟨hlo, hhi⟩, d, he, hd⟩ | ⟨_, he⟩ <;> rw [he]
  · refine Yields.pure ⟨rfl, fun u c => ?_, fun _ => rfl, fun _ => rfl, fun _ => rfl, ⟨rfl, rfl, rfl, rfl⟩⟩
    rw [hd]
    split
    · exact .inr ⟨_, hlo, hhi, rfl⟩
    · exact .inl rfl
  · exact Yields.error _

theorem mdlSetMaxDelay_rebounded (K : Kit S) (v : Nat) (x : S) (r : Regs S) :
    Yields (Rebounded K r) (mdlSetMaxDelay K v x r) := by
  have hset : Rebounded K r (r.setMdl v { r.getMdl v with maxDelay := x }) := .setMdl rfl rfl rfl
  simp only [mdlSetMaxDelay]
  split
  · exact fun r' h => hset.trans (mdlSetMax_rebounded K v _ r' h)
  · exact Yields.pure hset

theorem mdlSetMaxDepth_rebounded (K : Kit S) (v : Nat) (x : S) (r : Regs S) :
    Yields (Rebounded K r) (mdlSetMaxDepth K v x r) := by
  have hset : Rebounded K r (r.setMdl v { r.getMdl v with maxDepth := x }) := .setMdl rfl rfl rfl
  simp only [mdlSetMaxDepth]
  split
  · exact fun r' h => hset.trans (mdlSetMax_rebounded K v _ r' h)
  · exact Yields.pure hset

/-- The setters of the bank run the voices' setters one after the other (R143, R144). -/
theorem loopE_rebounded {K : Kit S} {f : Nat → Regs S → Except Cause (Regs S)}
    (hf : ∀ v r, Yields (Rebounded K r) (f v r)) (n : Nat) (r : Regs S) : Yields (Rebounded K r) (loopE n f r) :=
  .loopE (.refl K r) fun v q hq r' h => hq.trans (hf v q r' h)

/-! ### The engine's prepare, reset and frame (R171, R172, R180, R186) -/

omit [Inhabited S] in
theorem refreshCoefs_yields (K : Kit S) (fs : S) (r : Regs S) :
    Yields (fun r' => ∃ f, r' = { r with flt := f }) (refreshCoefs K fs r) := by
  rcases refreshCoefs_cases K fs r with ⟨_, _, _, _, he⟩ | he <;> rw [he]
  · exact Yields.pure ⟨_, rfl⟩
  · exact Yields.error _

omit [Inhabited S] in
/-- A refresh writes the filters, skips both cutoffs ahead and starts a new sub-block (R186). -/
theorem refresh_yields (K : Kit S) (r : Regs S) :
    Yields (fun r' => ∃ f, r' = { r with
      flt := f
      eng := { r.eng with
        hpfc := smSkip K.A r.eng.hpfc r.eng.chcnt, lpfc := smSkip K.A r.eng.lpfc r.eng.chcnt, chcnt := 0 } })
      (refresh K r) :=
  .bind (refreshCoefs_yields K _ _) fun _ ⟨f, hf⟩ => .pure ⟨f, by rw [hf]⟩

/-- `ENG.PREPARE` prepares the bank, then writes the filters and the engine (R171). -/
theorem engPrepare_yields (K : Kit S) (fs : S) (r : Regs S) :
    Yields (fun r' => ∃ q f, BankPrepared K fs r q ∧
      r' = { q with flt := f, eng := { engResetRamps K fs r.eng with chcnt := 0, prep := true } }) (engPrepare K fs r) := by
  refine .bind (vbPrepare_yields K fs r) fun q hq => .bind (refreshCoefs_yields K fs _) fun q' hq' => ?_
  obtain ⟨f, rfl⟩ := hq'
  exact .pure ⟨q, fltReset K f, hq, by rw [hq.eng]⟩

/-- `ENG.RESET` resets the bank, then writes the filters and the engine (R172). -/
theorem engReset_yields (K : Kit S) (r : Regs S) :
    Yields (fun r' => ∃ f, r' = { vbReset K r with flt := f, eng := { engSettle K r.eng with rem := 0, chcnt := 0 } })
      (engReset K r) := by
  obtain ⟨_, _, outside⟩ := mdlResetUpto_spec K.A K.P.nVoices r
  have heng : (vbReset K r).eng = r.eng := outside.eng
  simp only [engReset]
  split
  · refine .bind (refreshCoefs_yields K _ _) fun q hq => ?_
    obtain ⟨f, rfl⟩ := hq
    exact .pure ⟨f, by rw [heng]⟩
  · exact Yields.pure ⟨fltReset K (vbReset K r).flt, by rw [heng]⟩

/-- What a frame leaves (R180): the voices have run on the channels below `NCH`, the mix smoothers have advanced, and the
frame counters have moved; a refresh has skipped the cutoffs ahead when the sub-block or the block ends. -/
structure FrameRan [DecidableEq S] (K : Kit S) (r r' : Regs S) : Prop where
  readOk : ∀ c < r.sys.nch, ∀ v < K.P.nVoices, ReadOk K r v c
  ran : ∀ v < K.P.nVoices, ∀ c < r.sys.nch, VoiceRan K r r' v c (r.eng.inp.get c)
  same : ∀ v c, ¬(v < K.P.nVoices ∧ c < r.sys.nch) → CellSame r r' v c
  scalars : ScalarsSame r r'
  sys : r'.sys = r.sys
  vb : r'.vb = r.vb
  mix : ∀ c, r'.eng.mix.get c = if c < r.sys.nch then (smNext K.A (r.eng.mix.get c)).2 else r.eng.mix.get c
  hpfc : r'.eng.hpfc = r.eng.hpfc ∨ ∃ n, r'.eng.hpfc = smSkip K.A r.eng.hpfc n
  lpfc : r'.eng.lpfc = r.eng.lpfc ∨ ∃ n, r'.eng.lpfc = smSkip K.A r.eng.lpfc n
  prep : r'.eng.prep = r.eng.prep
  rem : r'.eng.rem = r.eng.rem - 1
  chcnt : r'.eng.chcnt = 0 ∨ r'.eng.chcnt = r.eng.chcnt + 1 ∧ r'.eng.chcnt ≠ K.P.chunk

theorem engFrame_yields [DecidableEq S] (K : Kit S) (r : Regs S) : Yields (FrameRan K r) (engFrame K r) := by
  rcases engFrame_cases K r with ⟨readOk, w, q, _, he, hw, ran, same, scalars, outside⟩ | ⟨_, he⟩ <;> rw [he]
  · obtain ⟨_, hmix, _, _, _, _, hbody⟩ := frameBody_spec K r q w outside hw
    generalize frameBody K r q w = t at hmix hbody ⊢
    have rows : ∀ v c, CellSame q t v c := fun v c => by rw [hbody]; exact ⟨rfl, rfl, rfl, rfl⟩
    have hscalars : ScalarsSame r t := fun v => by rw [hbody]; exact scalars v
    have hsys : t.sys = r.sys := by rw [hbody]; exact outside.sys
    have hvb : t.vb = r.vb := by rw [hbody]; exact outside.vb
    have heng : t.eng = { r.eng with mix := t.eng.mix, out := t.eng.out, rem := r.eng.rem - 1, chcnt := r.eng.chcnt + 1 } :=
      congrArg Regs.eng hbody
    have hprep : t.eng.prep = r.eng.prep := by rw [heng]
    have hrem : t.eng.rem = r.eng.rem - 1 := by rw [heng]
    have hhpfc : t.eng.hpfc = r.eng.hpfc := by rw [heng]
    have hlpfc : t.eng.lpfc = r.eng.lpfc := by rw [heng]
    have hchcnt : t.eng.chcnt = r.eng.chcnt + 1 := by rw [heng]
    split
    · intro r' h
      obtain ⟨f, rfl⟩ := refresh_yields K t r' h
      exact ⟨readOk, fun v hv c hc => (ran v hv c hc).keep ((rows v c).trans ⟨rfl, rfl, rfl, rfl⟩),
        fun v c hvc => (same v c hvc).trans ((rows v c).trans ⟨rfl, rfl, rfl, rfl⟩), hscalars, hsys, hvb, hmix,
        .inr ⟨_, by rw [hhpfc]⟩, .inr ⟨_, by rw [hlpfc]⟩, hprep, hrem, .inl rfl⟩
    · next hdue =>
      exact Yields.pure ⟨readOk, fun v hv c hc => (ran v hv c hc).keep (rows v c),
        fun v c hvc => (same v c hvc).trans (rows v c), hscalars, hsys, hvb, hmix, .inl hhpfc, .inl hlpfc, hprep, hrem,
        .inr ⟨hchcnt, fun hc => hdue (.inl hc)⟩⟩
  · exact Yields.error _

end

end Sys2Proof.Machine

/-! SUPPORT. Which units a command leaves alone (spec/10_state.md, the "written by" columns). -/

namespace Sys2Proof.Machine

/-- What the results of a completed command leave alone: the units that the command's own lists do not name, the oscillators
apart (`exec_osc` has those), and the registers of the halted state. -/
structure UnitsKept (i : Instr) (r r' : Regs Sample) : Prop where
  dly : writesDly i = false → r'.dly = r.dly
  mdl : writesMdl i = false → r'.mdl = r.mdl
  vb : writesVb i = false → r'.vb = r.vb
  flt : writesFlt i = false → r'.flt = r.flt
  eng : writesEng i = false → r'.eng = r.eng
  sys : writesSys i = false → r'.sys = r.sys
  halt : r'.sys.halt = r.sys.halt
  cause : r'.sys.cause = r.sys.cause

section
variable {i : Instr} {r : Regs Sample}

theorem UnitsKept.refl (i : Instr) (r : Regs Sample) : UnitsKept i r r :=
  ⟨fun _ => rfl, fun _ => rfl, fun _ => rfl, fun _ => rfl, fun _ => rfl, fun _ => rfl, rfl, rfl⟩

theorem UnitsKept.trans {r₁ r₂ r₃ : Regs Sample} (h : UnitsKept i r₁ r₂) (k : UnitsKept i r₂ r₃) : UnitsKept i r₁ r₃ where
  dly w := (k.dly w).trans (h.dly w)
  mdl w := (k.mdl w).trans (h.mdl w)
  vb w := (k.vb w).trans (h.vb w)
  flt w := (k.flt w).trans (h.flt w)
  eng w := (k.eng w).trans (h.eng w)
  sys w := (k.sys w).trans (h.sys w)
  halt := k.halt.trans h.halt
  cause := k.cause.trans h.cause

/-- A unit that the lists name needs no frame. -/
theorem not_written {b : Bool} (hb : b = true) {P : Prop} (w : b = false) : P := by simp [hb] at w

/-! ### One rule for each unit that is written -/

theorem UnitsKept.writeOsc (x : Bank (Bank (Osc Sample))) : UnitsKept i r { r with osc := x } :=
  { UnitsKept.refl i r with }

theorem UnitsKept.writeDly (x : Bank (Bank (Dly Sample))) (h : writesDly i = true) : UnitsKept i r { r with dly := x } :=
  { UnitsKept.refl i r with dly := not_written h }

theorem UnitsKept.writeMdl (x : Bank (Mdl Sample)) (h : writesMdl i = true) : UnitsKept i r { r with mdl := x } :=
  { UnitsKept.refl i r with mdl := not_written h }

theorem UnitsKept.writeVb (x : Vb Sample) (h : writesVb i = true) : UnitsKept i r { r with vb := x } :=
  { UnitsKept.refl i r with vb := not_written h }

theorem UnitsKept.writeFlt (x : Flt Sample) (h : writesFlt i = true) : UnitsKept i r { r with flt := x } :=
  { UnitsKept.refl i r with flt := not_written h }

theorem UnitsKept.writeEng (x : Eng Sample) (h : writesEng i = true) : UnitsKept i r { r with eng := x } :=
  { UnitsKept.refl i r with eng := not_written h }

theorem UnitsKept.writeSys (x : Sys) (h : writesSys i = true) (hh : x.halt = r.sys.halt) (hc : x.cause = r.sys.cause) :
    UnitsKept i r { r with sys := x } :=
  { UnitsKept.refl i r with sys := not_written h, halt := hh, cause := hc }

/-- The operations on voices write nothing outside them. -/
theorem UnitsKept.writeVoices {r' : Regs Sample} (hd : writesDly i = true) (hm : writesMdl i = true)
    (h : OutsideSame r r') : UnitsKept i r r' where
  dly := not_written hd
  mdl := not_written hm
  vb _ := h.vb
  flt _ := h.flt
  eng _ := h.eng
  sys _ := h.sys
  halt := by rw [h.sys]
  cause := by rw [h.sys]

end

/-! ### The operations -/

section
variable {i : Instr} {K : Kit Sample} {r : Regs Sample}

theorem mdlPrepare_outside (v : Nat) (fs : Sample) : Yields (OutsideSame r) (mdlPrepare K v fs r) := by
  rcases mdlPrepare_cases K v fs r with ⟨_, r', he, _, _, outside⟩ | ⟨_, he⟩ <;> rw [he]
  · exact Yields.pure outside
  · exact Yields.error _

theorem mdlProcess_outside (v c : Nat) (x : Sample) : Yields (fun a => OutsideSame r a.2) (mdlProcess K v c x r) := by
  rcases mdlProcess_cases K v c x r with ⟨_, r', he, _, _, _, outside⟩ | ⟨_, he⟩ <;> rw [he]
  · exact Yields.pure outside
  · exact Yields.error _

theorem vbProcess_outside (c : Nat) (x : Sample) : Yields (fun a => OutsideSame r a.2) (vbProcess K c x r) := by
  rcases vbProcess_cases K c x r with ⟨_, r', he, _, _, _, outside⟩ | ⟨_, he⟩ <;> rw [he]
  · exact Yields.pure outside
  · exact Yields.error _

theorem vbRetarget_kept (base spread width : Sample) (hv : writesVb i = true) (hm : writesMdl i = true) :
    Yields (UnitsKept i r) (vbRetarget K base spread width r) :=
  .require fun _ => .pure ((UnitsKept.writeVb _ hv).trans (.writeMdl _ hm))

theorem setChannels_kept (n : Nat) (hm : writesMdl i = true) (hv : writesVb i = true) (he : writesEng i = true)
    (hs : writesSys i = true) : UnitsKept i r (setChannels K n r) := by
  unfold setChannels
  split
  · exact .refl i r
  · exact ⟨fun _ => rfl, not_written hm, not_written hv, fun _ => rfl, not_written he, not_written hs, rfl, rfl⟩

end

/-! ### Every command -/

/-- Everything a command can do: it is refused (R202), it takes a fault (R203), it completes and leaves alone the units that
its lists do not name, or it is the reset (R71). -/
inductive CommandOutcome (i : Instr) (s : State) : State → Prop
  | refused : CommandOutcome i s (refuse s)
  | faulted (e : Cause) (hdr : BitVec 32) : CommandOutcome i s (faultEntry e hdr s)
  | completed (val : BitVec 64) (r : Regs Sample) (kept : UnitsKept i s.regs r) : CommandOutcome i s (complete s r val)
  | reset (h : i = .sysReset) : CommandOutcome i s (resetEntry s)

theorem run_outcome {i j : Instr} {s t : State} {body : Result} (h : run j s body = .next t)
    (done : Yields (fun a => UnitsKept i s.regs a.2) body) : CommandOutcome i s t := by
  rcases run_cases h with ⟨_, _, rfl⟩ | ⟨e, _, _, rfl⟩ | ⟨val, r, _, _, hb, rfl⟩
  · exact .refused
  · exact .faulted e _
  · exact .completed val r (done _ hb)

theorem exec_outcome {i : Instr} {s t : State} (h : exec i s = .next t) : CommandOutcome i s t := by
  unfold exec at h
  cases i with
  | sysReset =>
    obtain rfl : resetEntry s = t := by simpa [execSysReset] using h
    exact .reset rfl
  | sysNop | sysRdstat | sysRdcause | sysRdinfo | engOut => exact run_outcome h (.pure (.refl _ _))
  | mdlLatency | engLatency => exact run_outcome h (.require fun _ => .pure (.refl _ _))
  | dlyGet | dlyGetlin => exact run_outcome h (.require fun _ => .anyBind fun _ => .pure (.refl _ _))
  | sysSetch => exact run_outcome h (.require fun _ => .require fun _ => .pure (setChannels_kept _ rfl rfl rfl rfl))
  | sysSetblk => exact run_outcome h (.pure (.writeSys _ rfl rfl rfl))
  | oscReset | oscSetfreq | oscSetphase | oscSettype | mdlSetrate | vbSetphase =>
    exact run_outcome h (.pure (.writeOsc _))
  | oscProcess => exact run_outcome h (.require fun _ => .pure (.writeOsc _))
  | oscPrepare => exact run_outcome h (.require fun _ => .require fun _ => .pure (.writeOsc _))
  | dlyResize => exact run_outcome h (.require fun _ => .anyBind fun _ => .pure (.writeDly _ rfl))
  | dlyReset => exact run_outcome h (.pure (.writeDly _ rfl))
  | dlyPush => exact run_outcome h (.require fun _ => .pure (.writeDly _ rfl))
  | mdlPrepare =>
    exact run_outcome h (.require fun _ => .require fun _ => .require fun _ =>
      .bind (mdlPrepare_outside _ _) fun _ o => .pure (.writeVoices rfl rfl o))
  | mdlReset v => exact run_outcome h (.pure (.writeVoices rfl rfl (mdlReset_spec _ v.toNat s.regs).2.2))
  | mdlSetmaxdelay =>
    exact run_outcome h (.require fun _ => .require fun _ =>
      .bind (mdlSetMaxDelay_rebounded _ _ _ _) fun _ b => .pure (.writeVoices rfl rfl b.outside))
  | mdlSetmaxdepth =>
    exact run_outcome h (.require fun _ => .require fun _ =>
      .bind (mdlSetMaxDepth_rebounded _ _ _ _) fun _ b => .pure (.writeVoices rfl rfl b.outside))
  | mdlSetdelay | mdlSetdepth => exact run_outcome h (.anyBind fun _ => .pure (.writeMdl _ rfl))
  | mdlSetwet => exact run_outcome h (.require fun _ => .pure (.writeMdl _ rfl))
  | mdlProcess =>
    exact run_outcome h (.require fun _ => .bind (mdlProcess_outside _ _ _) fun _ o => .pure (.writeVoices rfl rfl o))
  | vbPrepare =>
    exact run_outcome h (.require fun _ => .require fun _ => .require fun _ =>
      .bind (vbPrepare_yields _ _ _) fun q b => .pure
        ⟨nofun, nofun, nofun, fun _ => b.flt, fun _ => b.eng, fun _ => b.sys, congrArg Sys.halt b.sys,
          congrArg Sys.cause b.sys⟩)
  | vbReset => exact run_outcome h (.pure (.writeVoices rfl rfl (mdlResetUpto_spec _ _ s.regs).2.2))
  | vbSetactive => exact run_outcome h (.require fun _ => .pure (.writeVb _ rfl))
  | vbSetrate | vbSettype => exact run_outcome h (.pure ((UnitsKept.writeVb _ rfl).trans (.writeOsc _)))
  | vbSetdepth => exact run_outcome h (.require fun _ => .pure ((UnitsKept.writeVb _ rfl).trans (.writeMdl _ rfl)))
  | vbSetdelay => exact run_outcome h (.bind (vbRetarget_kept _ _ _ rfl rfl) fun _ k => .pure k)
  | vbSetspread | vbSetwidth =>
    exact run_outcome h (.require fun _ => .bind (vbRetarget_kept _ _ _ rfl rfl) fun _ k => .pure k)
  | vbProcess =>
    exact run_outcome h (.require fun _ => .bind (vbProcess_outside _ _) fun _ o => .pure (.writeVoices rfl rfl o))
  | vbSetmaxdelay =>
    exact run_outcome h (.require fun _ => .require fun _ =>
      .bind (loopE_rebounded (fun v r => mdlSetMaxDelay_rebounded _ v _ r) _ _) fun _ b =>
        .pure (.writeVoices rfl rfl b.outside))
  | vbSetmaxdepth =>
    exact run_outcome h (.require fun _ => .require fun _ =>
      .bind (loopE_rebounded (fun v r => mdlSetMaxDepth_rebounded _ v _ r) _ _) fun _ b =>
        .pure (.writeVoices rfl rfl b.outside))
  | engPrepare =>
    refine run_outcome h (.require fun _ => .require fun _ => .require fun _ => .require fun _ =>
      .bind (engPrepare_yields _ _ _) fun r' hr => .pure ?_)
    obtain ⟨q, f, bank, rfl⟩ := hr
    exact ⟨nofun, nofun, nofun, nofun, nofun, fun _ => bank.sys, congrArg Sys.halt bank.sys, congrArg Sys.cause bank.sys⟩
  | engReset =>
    refine run_outcome h (.bind (engReset_yields _ _) fun r' hr => .pure ?_)
    obtain ⟨f, rfl⟩ := hr
    obtain ⟨_, _, outside⟩ := mdlResetUpto_spec s.kit.A s.kit.P.nVoices s.regs
    exact (UnitsKept.writeVoices rfl rfl outside).trans ((UnitsKept.writeFlt f rfl).trans (.writeEng _ rfl))
  | engStep =>
    exact run_outcome h (.require fun _ => .require fun _ => .bind (engFrame_yields _ _) fun _ ran => .pure
      ⟨nofun, nofun, fun _ => ran.vb, nofun, nofun, fun _ => ran.sys, congrArg Sys.halt ran.sys,
        congrArg Sys.cause ran.sys⟩)
  | engSetmode | engSetfbyp | engIn => exact run_outcome h (.pure (.writeEng _ rfl))
  | engSetmix | engSethpf | engSetlpf => exact run_outcome h (.require fun _ => .pure (.writeEng _ rfl))
  | engBegin => exact run_outcome h (.require fun _ => .require fun _ => .pure (.writeEng _ rfl))
  | fltReset => exact run_outcome h (.pure (.writeFlt _ rfl))
  | fltBoost | fltCut | fltHp | fltLp => exact run_outcome h (.require fun _ => .pure (.writeFlt _ rfl))

section
variable {i : Instr} {s t : State} (h : exec i s = .next t)
include h

/-- What a fault entry and a completed command leave alone, every command but the reset does. -/
theorem exec_same {α : Type} {f : Regs Sample → α} {writes : Instr → Bool} (hw : writes i = false)
    (reset : writes .sysReset = true) (faulted : ∀ e hdr, f (faultEntry e hdr s).regs = f s.regs)
    (completed : ∀ r, UnitsKept i s.regs r → f r = f s.regs) : f t.regs = f s.regs := by
  cases exec_outcome h with
  | refused => rfl
  | faulted e hdr => exact faulted e hdr
  | completed _ r kept => exact completed r kept
  | reset hi => exact not_written reset (hi ▸ hw)

theorem exec_dly (hw : writesDly i = false) : t.regs.dly = s.regs.dly :=
  exec_same h (f := Regs.dly) hw rfl (fun _ _ => rfl) fun _ kept => kept.dly hw

theorem exec_mdl (hw : writesMdl i = false) : t.regs.mdl = s.regs.mdl :=
  exec_same h (f := Regs.mdl) hw rfl (fun _ _ => rfl) fun _ kept => kept.mdl hw

theorem exec_vb (hw : writesVb i = false) : t.regs.vb = s.regs.vb :=
  exec_same h (f := Regs.vb) hw rfl (fun _ _ => rfl) fun _ kept => kept.vb hw

theorem exec_flt (hw : writesFlt i = false) : t.regs.flt = s.regs.flt :=
  exec_same h (f := Regs.flt) hw rfl (fun _ _ => rfl) fun _ kept => kept.flt hw

theorem exec_eng (hw : writesEng i = false) : t.regs.eng = s.regs.eng :=
  exec_same h (f := Regs.eng) hw rfl (fun _ _ => rfl) fun _ kept => kept.eng hw

theorem exec_nch (hw : writesSys i = false) : t.regs.sys.nch = s.regs.sys.nch :=
  exec_same h (f := fun r => r.sys.nch) hw rfl (fun _ _ => rfl) fun _ kept => congrArg Sys.nch (kept.sys hw)

theorem exec_blkHint (hw : writesSys i = false) : t.regs.sys.blkHint = s.regs.sys.blkHint :=
  exec_same h (f := fun r => r.sys.blkHint) hw rfl (fun _ _ => rfl) fun _ kept => congrArg Sys.blkHint (kept.sys hw)

end

/-- Equal rows of buffers read alike in two states of the same build. -/
theorem dram_of_dly_eq {s t : State} (hd : t.regs.dly = s.regs.dly) (hp : t.prec = s.prec) (v c k : Nat) :
    t.regs.dram t.kit.A v c k = s.regs.dram s.kit.A v c k := by
  simp only [Regs.dram, Regs.getDly, hd, kit_A, hp]

/-- Settles O29: the frame of every command, unit by unit. -/
theorem unitFrames : Obligations.UnitFrames := by
  intro i s t h
  have hprec : t.prec = s.prec := (exec_buildSame h).prec
  refine ⟨fun hw v c => ?_, exec_osc h, exec_mdl h, exec_vb h, exec_flt h, exec_eng h,
    fun hw => ⟨exec_nch h hw, exec_blkHint h hw⟩⟩
  have hget : t.regs.getDly v c = s.regs.getDly v c := by simp only [Regs.getDly, exec_dly h hw]
  exact ⟨by rw [hget], by rw [hget], dram_of_dly_eq (exec_dly h hw) hprec v c⟩

end Sys2Proof.Machine

/-! SUPPORT. What the commands that work on whole voices leave in the voices. -/

namespace Sys2Proof.Machine

/-- The commands that allocate, prepare, reset or run voices (R111 to R120, R131 to R144, R171, R172, R180). -/
def worksOnVoices : Instr → Bool
  | .mdlPrepare _ _ | .mdlReset _ | .mdlSetmaxdelay _ _ | .mdlSetmaxdepth _ _ | .mdlProcess _ _ _
  | .vbPrepare _ | .vbReset | .vbProcess _ _ | .vbSetmaxdelay _ | .vbSetmaxdepth _
  | .engPrepare _ | .engReset | .engStep => true
  | _ => false

section
variable {S : Type} [Inhabited S] [DecidableEq S]

/-- Everything such a command can leave in the voices: all are as before, or some are prepared on allocated buffers, or some
are reset, or some have a new bound, or some channels of some have run on readable buffers. -/
inductive VoicesStep (K : Kit S) (r r' : Regs S) : Prop
  | same (voices : ∀ v, VoiceSame r r' v)
  | prepared (fs : S) (counted : r.sys.nch ≠ 0)
      (voices : ∀ v, AllocOk K (r.getMdl v).maxDelay fs ∧ VoicePrepared K r r' v fs ∨ VoiceSame r r' v)
  | reset (voices : ∀ v, VoiceReset K.A r r' v ∨ VoiceSame r r' v)
  | rebounded (voices : Rebounded K r r')
  | ran (cells : ∀ v c, (ReadOk K r v c ∧ ∃ x, VoiceRan K r r' v c x) ∨ CellSame r r' v c) (scalars : ScalarsSame r r')

variable {K : Kit S} {r : Regs S}

theorem mdlPrepare_voicesStep (v : Nat) (fs : S) (counted : r.sys.nch ≠ 0) :
    Yields (VoicesStep K r) (mdlPrepare K v fs r) := by
  rcases mdlPrepare_cases K v fs r with ⟨alloc, q, he, prepared, others, _⟩ | ⟨_, he⟩ <;> rw [he]
  · refine Yields.pure (.prepared fs counted fun u => ?_)
    by_cases hu : u = v
    · subst hu
      exact .inl ⟨alloc, prepared⟩
    · exact .inr (others u hu)
  · exact Yields.error _

omit [DecidableEq S] in
theorem VoicePrepared.keep {q t : Regs S} {v : Nat} {fs : S} (h : VoicePrepared K r q v fs) (k : VoiceSame q t v) :
    VoicePrepared K r t v fs :=
  ⟨fun c => by rw [k.osc, h.osc], fun c => by rw [k.dly, h.dly], fun c => by rw [k.mdl, h.dp],
    fun c => by rw [k.mdl, h.dt], by rw [k.mdl]; exact h.mdl⟩

omit [DecidableEq S] in
theorem VoiceReset.keep {A : Arith S} {q t : Regs S} {v : Nat} (h : VoiceReset A r q v) (k : VoiceSame q t v) :
    VoiceReset A r t v :=
  ⟨fun c => by rw [k.osc, h.osc], fun c => by rw [k.dly, h.dly], fun c => by rw [k.mdl, h.dp],
    fun c => by rw [k.mdl, h.dt], by rw [k.mdl]; exact h.mdl⟩

omit [DecidableEq S] in
theorem VoiceSame.trans {q t : Regs S} {v : Nat} (h : VoiceSame r q v) (k : VoiceSame q t v) : VoiceSame r t v :=
  ⟨fun c => by rw [k.osc, h.osc], fun c => by rw [k.dly, h.dly], by rw [k.mdl, h.mdl]⟩

theorem BankPrepared.voicesStep {fs : S} {q t : Regs S} (h : BankPrepared K fs r q) (counted : r.sys.nch ≠ 0)
    (k : ∀ v, VoiceSame q t v) : VoicesStep K r t := by
  refine .prepared fs counted fun v => ?_
  by_cases hv : v < K.P.nVoices
  · exact .inl ⟨h.alloc v hv, (h.voices v hv).keep (k v)⟩
  · exact .inr ((h.others v (Nat.le_of_not_lt hv)).trans (k v))

theorem mdlReset_voicesStep (v : Nat) : VoicesStep K r (mdlReset K.A v r) := by
  obtain ⟨done, others, _⟩ := mdlReset_spec K.A v r
  refine .reset fun u => ?_
  by_cases hu : u = v
  · subst hu
    exact .inl done
  · exact .inr (others u hu)

theorem vbReset_voicesStep {t : Regs S} (k : ∀ v, VoiceSame (vbReset K r) t v) : VoicesStep K r t := by
  obtain ⟨done, others, _⟩ := mdlResetUpto_spec K.A K.P.nVoices r
  refine .reset fun v => ?_
  by_cases hv : v < K.P.nVoices
  · exact .inl ((done v hv).keep (k v))
  · exact .inr ((others v (Nat.le_of_not_lt hv)).trans (k v))

theorem mdlProcess_voicesStep (v c : Nat) (x : S) : Yields (fun a => VoicesStep K r a.2) (mdlProcess K v c x r) := by
  rcases mdlProcess_cases K v c x r with ⟨readOk, q, he, ran, same, scalars, _⟩ | ⟨_, he⟩ <;> rw [he]
  · refine Yields.pure (.ran (fun u d => ?_) scalars)
    by_cases hud : u = v ∧ d = c
    · obtain ⟨rfl, rfl⟩ := hud
      exact .inl ⟨readOk, x, ran⟩
    · exact .inr (same u d hud)
  · exact Yields.error _

theorem vbProcess_voicesStep (c : Nat) (x : S) : Yields (fun a => VoicesStep K r a.2) (vbProcess K c x r) := by
  rcases vbProcess_cases K c x r with ⟨readOk, q, he, ran, same, scalars, _⟩ | ⟨_, he⟩ <;> rw [he]
  · refine Yields.pure (.ran (fun u d => ?_) scalars)
    by_cases hud : u < K.P.nVoices ∧ d = c
    · obtain ⟨hu, rfl⟩ := hud
      exact .inl ⟨readOk u hu, x, ran u hu⟩
    · exact .inr (same u d hud)
  · exact Yields.error _

theorem FrameRan.voicesStep {r' : Regs S} (h : FrameRan K r r') : VoicesStep K r r' := by
  refine .ran (fun v c => ?_) h.scalars
  by_cases hvc : v < K.P.nVoices ∧ c < r.sys.nch
  · exact .inl ⟨h.readOk c hvc.2 v hvc.1, _, h.ran v hvc.1 c hvc.2⟩
  · exact .inr (h.same v c hvc)

end

theorem run_voicesStep {i : Instr} {s t : State} {body : Result} (h : run i s body = .next t)
    (done : Yields (fun a => VoicesStep s.kit s.regs a.2) body) : VoicesStep s.kit s.regs t.regs :=
  run_regs h (.same (.refl s.regs)) (fun _ _ => .same fun _ => ⟨fun _ => rfl, fun _ => rfl, rfl⟩) done

/-- Every outcome of a command that works on whole voices is one of `VoicesStep`'s. -/
theorem exec_voicesStep {i : Instr} {s t : State} (h : exec i s = .next t) (hw : worksOnVoices i = true) :
    VoicesStep s.kit s.regs t.regs := by
  unfold exec at h
  cases i with
  | mdlPrepare =>
    exact run_voicesStep h (.require fun _ => .require fun counted => .require fun _ =>
      .bind (mdlPrepare_voicesStep _ _ (by simpa using counted)) fun _ v => .pure v)
  | mdlReset => exact run_voicesStep h (.pure (mdlReset_voicesStep _))
  | mdlSetmaxdelay =>
    exact run_voicesStep h (.require fun _ => .require fun _ =>
      .bind (mdlSetMaxDelay_rebounded _ _ _ _) fun _ b => .pure (.rebounded b))
  | mdlSetmaxdepth =>
    exact run_voicesStep h (.require fun _ => .require fun _ =>
      .bind (mdlSetMaxDepth_rebounded _ _ _ _) fun _ b => .pure (.rebounded b))
  | mdlProcess => exact run_voicesStep h (.require fun _ => .bind (mdlProcess_voicesStep _ _ _) fun _ v => .pure v)
  | vbPrepare =>
    exact run_voicesStep h (.require fun _ => .require fun counted => .require fun _ =>
      .bind (vbPrepare_yields _ _ _) fun _ b => .pure (b.voicesStep (by simpa using counted) (.refl _)))
  | vbReset => exact run_voicesStep h (.pure (vbReset_voicesStep (.refl _)))
  | vbProcess => exact run_voicesStep h (.require fun _ => .bind (vbProcess_voicesStep _ _) fun _ v => .pure v)
  | vbSetmaxdelay =>
    exact run_voicesStep h (.require fun _ => .require fun _ =>
      .bind (loopE_rebounded (fun v r => mdlSetMaxDelay_rebounded _ v _ r) _ _) fun _ b => .pure (.rebounded b))
  | vbSetmaxdepth =>
    exact run_voicesStep h (.require fun _ => .require fun _ =>
      .bind (loopE_rebounded (fun v r => mdlSetMaxDepth_rebounded _ v _ r) _ _) fun _ b => .pure (.rebounded b))
  | engPrepare =>
    refine run_voicesStep h (.require fun _ => .require fun counted => .require fun _ => .require fun _ =>
      .bind (engPrepare_yields _ _ _) fun r' hr => .pure ?_)
    obtain ⟨q, f, bank, rfl⟩ := hr
    exact bank.voicesStep (by simpa using counted) fun _ => ⟨fun _ => rfl, fun _ => rfl, rfl⟩
  | engReset =>
    refine run_voicesStep h (.bind (engReset_yields _ _) fun r' hr => .pure ?_)
    obtain ⟨f, rfl⟩ := hr
    exact vbReset_voicesStep fun _ => ⟨fun _ => rfl, fun _ => rfl, rfl⟩
  | engStep =>
    exact run_voicesStep h (.require fun _ => .require fun _ => .bind (engFrame_yields _ _) fun _ ran =>
      .pure ran.voicesStep)
  | _ => cases hw

end Sys2Proof.Machine

/-! SUPPORT. Every command takes every smoother one operation on (spec/10_state.md R25, R86). -/

namespace Sys2Proof.Machine

section
variable {S : Type}

/-- A smoother left alone or taken one operation of R80 to R85 on. -/
inductive SmStep (A : Arith S) (p : Smoother S) : Smoother S → Prop
  | same : SmStep A p p
  | reset (fs ramp : S) : SmStep A p (smReset A p fs ramp)
  | settle : SmStep A p (smSettle A p)
  | setTarget (x : S) : SmStep A p (smSetTarget A p x)
  | next : SmStep A p (smNext A p).2
  | skip (n : Nat) : SmStep A p (smSkip A p n)

/-- Each operation keeps R25 (R86 (d)). -/
theorem SmStep.ok {A : Arith S} {p q : Smoother S} (h : SmStep A p q) (hp : SmootherOk p) : SmootherOk q := by
  cases h with
  | same => exact hp
  | reset fs ramp => exact smReset_ok A p fs ramp
  | settle => exact smSettle_ok A hp
  | setTarget x => exact smSetTarget_ok A x hp
  | next => exact smNext_ok A hp
  | skip n => exact smSkip_ok A n hp

theorem SmStep.of_eq {A : Arith S} {p q : Smoother S} (h : q = p) : SmStep A p q := h ▸ .same

variable [Inhabited S]

/-- The same for each smoother of a row. -/
def RowStep (A : Arith S) (ps qs : Bank (Smoother S)) : Prop := ∀ c, SmStep A (ps.get c) (qs.get c)

theorem RowStep.of_eq {A : Arith S} {ps qs : Bank (Smoother S)} (h : qs = ps) : RowStep A ps qs :=
  fun _ => .of_eq (by rw [h])

theorem RowStep.put {A : Arith S} {ps : Bank (Smoother S)} {c : Nat} {q : Smoother S} (h : SmStep A (ps.get c) q) :
    RowStep A ps (ps.put c q) := by
  intro d
  rw [Bank.get_put]
  split
  · next hd => exact hd ▸ h
  · exact .same

theorem RowStep.update {A : Arith S} (ps : Bank (Smoother S)) (n : Nat) {f : Nat → Smoother S → Smoother S}
    (h : ∀ c p, SmStep A p (f c p)) : RowStep A ps (ps.update n f) := by
  intro c
  rw [Bank.get_update]
  split
  · exact h c _
  · exact .same

/-- Registers that are one operation on below a bound and the same beyond it. -/
theorem RowStep.of_below {A : Arith S} {ps qs : Bank (Smoother S)} {n : Nat} {f : Smoother S → Smoother S}
    (hf : ∀ p, SmStep A p (f p)) (h : ∀ c, qs.get c = if c < n then f (ps.get c) else ps.get c) : RowStep A ps qs := by
  intro c
  rw [h]
  split
  · exact hf _
  · exact .same

/-! ### The lines' smoothers -/

/-- The delay and depth smoothers of a line. -/
structure LineStep (A : Arith S) (m m' : Mdl S) : Prop where
  dt : RowStep A m.dt m'.dt
  dp : RowStep A m.dp m'.dp

theorem LineStep.of_eq {A : Arith S} {m m' : Mdl S} (hdt : m'.dt = m.dt) (hdp : m'.dp = m.dp) : LineStep A m m' :=
  ⟨.of_eq hdt, .of_eq hdp⟩

theorem LineStep.refl (A : Arith S) (m : Mdl S) : LineStep A m m := .of_eq rfl rfl

/-- The same for every line of the block. -/
def LinesStep (A : Arith S) (r r' : Regs S) : Prop := ∀ v, LineStep A (r.getMdl v) (r'.getMdl v)

variable {K : Kit S} {r : Regs S}

theorem LinesStep.of_mdl_eq {A : Arith S} {r' : Regs S} (h : r'.mdl = r.mdl) : LinesStep A r r' :=
  fun _ => by simp only [Regs.getMdl, h, LineStep.refl]

theorem LinesStep.setMdl {A : Arith S} {v : Nat} {m : Mdl S} (h : LineStep A (r.getMdl v) m) :
    LinesStep A r (r.setMdl v m) := by
  intro u
  rw [getMdl_setMdl]
  split
  · next hu => exact hu ▸ h
  · exact .refl A _

theorem LinesStep.updateMdls {A : Arith S} {n : Nat} {f : Nat → Mdl S → Mdl S} (h : ∀ v m, LineStep A m (f v m)) :
    LinesStep A r (r.updateMdls n f) := by
  intro v
  rw [getMdl_updateMdls]
  split
  · exact h v _
  · exact .refl A _

theorem VoiceSame.lineStep {A : Arith S} {r' : Regs S} {v : Nat} (h : VoiceSame r r' v) :
    LineStep A (r.getMdl v) (r'.getMdl v) := by
  rw [h.mdl]
  exact .refl A _

theorem VoicePrepared.lineStep {r' : Regs S} {v : Nat} {fs : S} (h : VoicePrepared K r r' v fs) :
    LineStep K.A (r.getMdl v) (r'.getMdl v) :=
  ⟨.of_below (fun _ => .reset _ _) h.dt, .of_below (fun _ => .reset _ _) h.dp⟩

theorem VoiceReset.lineStep {A : Arith S} {r' : Regs S} {v : Nat} (h : VoiceReset A r r' v) :
    LineStep A (r.getMdl v) (r'.getMdl v) :=
  ⟨.of_below (fun _ => .settle) h.dt, .of_below (fun _ => .settle) h.dp⟩

/-- A prepare, a reset or a run takes each smoother of a voice one operation on, and a new bound none. -/
theorem VoicesStep.linesStep [DecidableEq S] {r' : Regs S} (h : VoicesStep K r r') : LinesStep K.A r r' := by
  intro v
  cases h with
  | same voices => exact (voices v).lineStep
  | prepared fs _ voices =>
    rcases voices v with ⟨_, prepared⟩ | same
    · exact prepared.lineStep
    · exact same.lineStep
  | reset voices =>
    rcases voices v with reset | same
    · exact reset.lineStep
    · exact same.lineStep
  | rebounded voices => exact .of_eq (voices.dt v) (voices.dp v)
  | ran cells _ =>
    refine ⟨fun c => ?_, fun c => ?_⟩ <;> rcases cells v c with ⟨_, x, ran⟩ | same
    · exact ran.dt ▸ .next
    · exact .of_eq same.dt
    · exact ran.dp ▸ .next
    · exact .of_eq same.dp

theorem vbRetarget_linesStep (base spread width : S) : Yields (LinesStep K.A r) (vbRetarget K base spread width r) :=
  .require fun _ => .pure (.updateMdls fun _ _ => ⟨.update _ _ fun _ _ => .setTarget _, .of_eq rfl⟩)

/-! ### The engine's smoothers -/

/-- The mix and cutoff smoothers of the engine. -/
structure EngineStep (A : Arith S) (e e' : Eng S) : Prop where
  mix : RowStep A e.mix e'.mix
  hpfc : SmStep A e.hpfc e'.hpfc
  lpfc : SmStep A e.lpfc e'.lpfc

theorem EngineStep.of_eq {A : Arith S} {e e' : Eng S} (hmix : e'.mix = e.mix) (hhpfc : e'.hpfc = e.hpfc)
    (hlpfc : e'.lpfc = e.lpfc) : EngineStep A e e' :=
  ⟨.of_eq hmix, .of_eq hhpfc, .of_eq hlpfc⟩

theorem FrameRan.engineStep [DecidableEq S] {r' : Regs S} (h : FrameRan K r r') : EngineStep K.A r.eng r'.eng := by
  refine ⟨.of_below (fun _ => .next) h.mix, ?_, ?_⟩
  · rcases h.hpfc with e | ⟨n, e⟩ <;> rw [e]
    · exact .same
    · exact .skip n
  · rcases h.lpfc with e | ⟨n, e⟩ <;> rw [e]
    · exact .same
    · exact .skip n

end

theorem setChannels_linesStep (K : Kit Sample) (n : Nat) (r : Regs Sample) : LinesStep K.A r (setChannels K n r) := by
  unfold setChannels
  split
  · exact .of_mdl_eq rfl
  · exact LinesStep.updateMdls fun _ _ => .of_eq rfl rfl

theorem setChannels_engineStep (K : Kit Sample) (n : Nat) (r : Regs Sample) :
    EngineStep K.A r.eng (setChannels K n r).eng := by
  unfold setChannels
  split <;> exact .of_eq rfl rfl rfl

/-! ### Every command -/

theorem run_linesStep {i : Instr} {s t : State} {body : Result} (h : run i s body = .next t)
    (done : Yields (fun a => LinesStep s.kit.A s.regs a.2) body) : LinesStep s.kit.A s.regs t.regs :=
  run_regs h (.of_mdl_eq rfl) (fun _ _ => .of_mdl_eq rfl) done

/-- Every command but `SYS.RESET` takes each delay and depth smoother at most one operation on. -/
theorem exec_linesStep {i : Instr} {s t : State} (h : exec i s = .next t) (hi : i ≠ .sysReset) :
    LinesStep s.kit.A s.regs t.regs := by
  cases hv : worksOnVoices i with
  | true => exact (exec_voicesStep h hv).linesStep
  | false =>
    cases hw : writesMdl i with
    | false => exact .of_mdl_eq (exec_mdl h hw)
    | true =>
      unfold exec at h
      cases i with
      | sysReset => exact absurd rfl hi
      | sysSetch => exact run_linesStep h (.require fun _ => .require fun _ => .pure (setChannels_linesStep _ _ _))
      | mdlSetdelay =>
        exact run_linesStep h (.bind (.require fun _ => .pure ⟨.put (.setTarget _), .of_eq rfl⟩) fun m l =>
          .pure (.setMdl l))
      | mdlSetdepth =>
        exact run_linesStep h (.bind (.require fun _ => .pure ⟨.of_eq rfl, .put (.setTarget _)⟩) fun m l =>
          .pure (.setMdl l))
      | mdlSetwet => exact run_linesStep h (.require fun _ => .pure (.setMdl (.of_eq rfl rfl)))
      | vbSetdepth =>
        exact run_linesStep h (.require fun _ => .pure
          (LinesStep.updateMdls fun _ _ => ⟨.of_eq rfl, .update _ _ fun _ _ => .setTarget _⟩))
      | vbSetdelay => exact run_linesStep h (.bind (vbRetarget_linesStep _ _ _) fun _ l => .pure l)
      | vbSetspread | vbSetwidth =>
        exact run_linesStep h (.require fun _ => .bind (vbRetarget_linesStep _ _ _) fun _ l => .pure l)
      | mdlPrepare | mdlReset | mdlSetmaxdelay | mdlSetmaxdepth | mdlProcess | vbPrepare | vbReset | vbProcess
      | vbSetmaxdelay | vbSetmaxdepth | engPrepare | engReset | engStep => cases hv
      | _ => cases hw

theorem run_engineStep {i : Instr} {s t : State} {body : Result} (h : run i s body = .next t)
    (done : Yields (fun a => EngineStep s.kit.A s.regs.eng a.2.eng) body) : EngineStep s.kit.A s.regs.eng t.regs.eng :=
  run_regs (P := fun r => EngineStep s.kit.A s.regs.eng r.eng) h (.of_eq rfl rfl rfl) (fun _ _ => .of_eq rfl rfl rfl) done

/-- Every command but `SYS.RESET` takes each mix and cutoff smoother at most one operation on. -/
theorem exec_engineStep {i : Instr} {s t : State} (h : exec i s = .next t) (hi : i ≠ .sysReset) :
    EngineStep s.kit.A s.regs.eng t.regs.eng := by
  cases hw : writesEng i with
  | false =>
    rw [exec_eng h hw]
    exact .of_eq rfl rfl rfl
  | true =>
    unfold exec at h
    cases i with
    | sysReset => exact absurd rfl hi
    | sysSetch => exact run_engineStep h (.require fun _ => .require fun _ => .pure (setChannels_engineStep _ _ _))
    | engPrepare =>
      refine run_engineStep h (.require fun _ => .require fun _ => .require fun _ => .require fun _ =>
        .bind (engPrepare_yields _ _ _) fun r' hr => .pure ?_)
      obtain ⟨q, f, bank, rfl⟩ := hr
      exact ⟨.update _ _ fun _ _ => .reset _ _, .reset _ _, .reset _ _⟩
    | engReset =>
      refine run_engineStep h (.bind (engReset_yields _ _) fun r' hr => .pure ?_)
      obtain ⟨f, rfl⟩ := hr
      exact ⟨.update _ _ fun _ _ => .settle, .settle, .settle⟩
    | engSetmode | engSetfbyp | engIn => exact run_engineStep h (.pure (.of_eq rfl rfl rfl))
    | engSetmix =>
      exact run_engineStep h (.require fun _ => .pure ⟨.update _ _ fun _ _ => .setTarget _, .same, .same⟩)
    | engSethpf => exact run_engineStep h (.require fun _ => .pure ⟨.of_eq rfl, .setTarget _, .same⟩)
    | engSetlpf => exact run_engineStep h (.require fun _ => .pure ⟨.of_eq rfl, .same, .setTarget _⟩)
    | engBegin => exact run_engineStep h (.require fun _ => .require fun _ => .pure (.of_eq rfl rfl rfl))
    | engStep =>
      exact run_engineStep h (.require fun _ => .require fun _ => .bind (engFrame_yields _ _) fun _ ran =>
        .pure ran.engineStep)
    | _ => cases hw

/-! ### The invariant -/

/-- The oscillators' operations on the phase smoother are among those of R80 to R85. -/
theorem oscInvariant_phase {S : Type} [Inhabited S] (K : Kit S) : OscInvariant K fun o => SmootherOk o.ph where
  beyond := default_smoother_ok
  atReset := rest_ok K.A K.A.zero
  prepare fs o _ := smReset_ok K.A o.ph fs K.P.phaseRamp
  reset _ h := smSettle_ok K.A h
  setFreq _ _ h := h
  setPhase off _ h := smSetTarget_ok K.A off h
  setType _ _ h := h
  process _ h := smNext_ok K.A h

theorem resetRow_ok (A : Arith Sample) (x : Sample) (n c : Nat) :
    SmootherOk (Bank.get (List.replicate n (Smoother.rest A x)) c) := by
  rw [Bank.get_replicate]
  split
  · exact rest_ok A x
  · exact default_smoother_ok

/-- After `SYS.RESET` every smoother rests (R220). -/
theorem smoothersOk_resetEntry (s : State) : SmoothersOk (resetEntry s) := by
  have lines : ∀ v, (∀ c, SmootherOk (((resetEntry s).regs.getMdl v).dt.get c)) ∧
      ∀ c, SmootherOk (((resetEntry s).regs.getMdl v).dp.get c) := fun v => by
    have hget : (resetEntry s).regs.getMdl v = if v < s.cfg.nVoices then Mdl.reset s.kit.A s.kit.P else default :=
      Bank.get_replicate _ _ _
    rw [hget]
    split
    · exact ⟨resetRow_ok _ _ _, resetRow_ok _ _ _⟩
    · exact ⟨fun _ => default_smoother_ok, fun _ => default_smoother_ok⟩
  exact ⟨allOscs_reset (oscInvariant_phase s.kit), fun v => (lines v).1, fun v => (lines v).2, resetRow_ok _ _ _,
    rest_ok _ _, rest_ok _ _⟩

theorem exec_smoothersOk {i : Instr} {s t : State} (hs : SmoothersOk s) (h : exec i s = .next t) : SmoothersOk t := by
  by_cases hi : i = .sysReset
  · subst hi
    obtain rfl : resetEntry s = t := by simpa [exec_sysReset] using h
    exact smoothersOk_resetEntry s
  · obtain ⟨phase, delay, depth, mix, hpfc, lpfc⟩ := hs
    have lines := exec_linesStep h hi
    have engine := exec_engineStep h hi
    exact ⟨exec_allOscs (oscInvariant_phase s.kit) h phase, fun v c => ((lines v).dt c).ok (delay v c),
      fun v c => ((lines v).dp c).ok (depth v c), fun c => (engine.mix c).ok (mix c), engine.hpfc.ok hpfc,
      engine.lpfc.ok lpfc⟩

/-- Settles O49: every command takes every smoother at most one operation on, and each operation keeps R25. -/
theorem smoothersKept : Obligations.SmoothersKept :=
  fun _ _ hs h => step_keeps (P := SmoothersOk) (fun _ _ k => k) (fun _ k => k) (fun _ _ _ k _ => k)
    (fun _ _ _ => exec_smoothersOk) h hs

end Sys2Proof.Machine

/-! SUPPORT. Every command takes every delay buffer one operation on (spec/10_state.md R27, spec/20_memory.md R40, R41). -/

namespace Sys2Proof.Machine

section
variable {S : Type} [DecidableEq S]

/-- A buffer left alone, allocated with a legal size, cleared, or pushed once while it is allocated (R101, R102, R105). -/
inductive DlyStep (K : Kit S) (b : Dly S) : Dly S → Prop
  | same : DlyStep K b b
  | alloc (n : Nat) (pos : 1 ≤ n) (le : n ≤ K.P.dlyCap) : DlyStep K b (freshBuffer S n)
  | reset : DlyStep K b (dlyReset b)
  | push (x : S) (pos : 0 < b.size) : DlyStep K b (dlyPush K.A x b)

theorem DlyStep.of_eq {K : Kit S} {b b' : Dly S} (h : b' = b) : DlyStep K b b' := h ▸ .same

theorem Reallocated.dlyStep {K : Kit S} {b b' : Dly S} (h : Reallocated K b b') : DlyStep K b b' := by
  rcases h with rfl | ⟨n, hpos, hle, rfl⟩
  · exact .same
  · exact .alloc n hpos hle

omit [DecidableEq S] in
theorem dlyResize_reallocated (K : Kit S) (n : Nat) (b : Dly S) : Yields (Reallocated K b) (dlyResize K n b) := by
  rcases dlyResize_cases K n b with ⟨hpos, hle, he⟩ | ⟨_, he⟩ <;> rw [he]
  · exact Yields.pure (.inr ⟨n, hpos, hle, rfl⟩)
  · exact Yields.error _

/-- An allocated buffer stays allocated. -/
theorem DlyStep.size_pos {K : Kit S} {b b' : Dly S} (h : DlyStep K b b') (hb : 0 < b.size) : 0 < b'.size := by
  cases h with
  | same | reset | push => exact hb
  | alloc n pos => exact pos

/-- The same for every buffer of the block. -/
def BuffersStep (K : Kit S) (r r' : Regs S) : Prop := ∀ v c, DlyStep K (r.getDly v c) (r'.getDly v c)

variable {K : Kit S} {r r' : Regs S}

theorem BuffersStep.of_dly_eq (h : r'.dly = r.dly) : BuffersStep K r r' :=
  fun _ _ => .of_eq (by simp only [Regs.getDly, h])

theorem BuffersStep.setDly {v c : Nat} {b : Dly S} (h : DlyStep K (r.getDly v c) b) : BuffersStep K r (r.setDly v c b) := by
  intro u d
  rw [getDly_setDly]
  split
  · next hud => exact hud.1 ▸ hud.2 ▸ h
  · exact .same

/-! ### The operations -/

variable [Inhabited S]

omit [DecidableEq S] in
/-- No delay lies inside an empty buffer (R104). -/
def NoDelayBelowZero (A : Arith S) : Prop := ∀ t, ¬(A.le A.zero t = true ∧ A.lt t (A.ofNat 0) = true)

omit [DecidableEq S] in
/-- A buffer that can be read is allocated. -/
theorem size_pos_of_readOk (hA : NoDelayBelowZero K.A) {v c : Nat} (h : ReadOk K r v c) : 0 < (r.getDly v c).size := by
  by_contra h0
  have hsize : (r.getDly v c).size = 0 := by omega
  rw [ReadOk, hsize] at h
  exact hA _ h

theorem VoiceSame.dlyStep {v : Nat} (h : VoiceSame r r' v) (c : Nat) : DlyStep K (r.getDly v c) (r'.getDly v c) :=
  .of_eq (h.dly c)

theorem VoicePrepared.dlyStep {v : Nat} {fs : S} (ha : AllocOk K (r.getMdl v).maxDelay fs)
    (h : VoicePrepared K r r' v fs) (c : Nat) : DlyStep K (r.getDly v c) (r'.getDly v c) := by
  rw [h.dly]
  split
  · exact .alloc _ ha.1 ha.2
  · exact .same

theorem VoiceReset.dlyStep {v : Nat} (h : VoiceReset K.A r r' v) (c : Nat) :
    DlyStep K (r.getDly v c) (r'.getDly v c) := by
  rw [h.dly]
  split
  · exact .reset
  · exact .same

/-- A prepare allocates the buffers of a voice, a reset clears them, a new bound may allocate them anew, and a run pushes on
readable ones. -/
theorem VoicesStep.buffersStep (hA : NoDelayBelowZero K.A) (h : VoicesStep K r r') : BuffersStep K r r' := by
  intro v c
  cases h with
  | same voices => exact (voices v).dlyStep c
  | prepared fs _ voices =>
    rcases voices v with ⟨alloc, prepared⟩ | same
    · exact prepared.dlyStep alloc c
    · exact same.dlyStep c
  | reset voices =>
    rcases voices v with reset | same
    · exact reset.dlyStep c
    · exact same.dlyStep c
  | rebounded voices => exact (voices.dly v c).dlyStep
  | ran cells _ =>
    rcases cells v c with ⟨readOk, x, ran⟩ | same
    · exact ran.dly ▸ .push x (size_pos_of_readOk hA readOk)
    · exact .of_eq same.dly

end

/-- In a binary format, `0 ≤ t` and `t < 0` do not hold together (R194). -/
theorem noDelayBelowZero_ieee (p : Prec) : NoDelayBelowZero (Arith.ieee p) := by
  rintro t ⟨hle, hlt⟩
  have hzero : Ieee.ofNat p 0 = 0 := by cases p <;> decide
  replace hle : Ieee.le p 0 t = true := hle
  replace hlt : Ieee.lt p t (Ieee.ofNat p 0) = true := hlt
  rw [hzero] at hlt
  simp only [Ieee.le, Ieee.lt, Bool.and_eq_true, decide_eq_true_eq] at hle hlt
  omega

/-! ### Every command -/

theorem run_buffersStep {i : Instr} {s t : State} {body : Result} (h : run i s body = .next t)
    (done : Yields (fun a => BuffersStep s.kit s.regs a.2) body) : BuffersStep s.kit s.regs t.regs :=
  run_regs h (.of_dly_eq rfl) (fun _ _ => .of_dly_eq rfl) done

/-- Every command but `SYS.RESET` takes each buffer at most one operation on. -/
theorem exec_buffersStep {i : Instr} {s t : State} (h : exec i s = .next t) (hi : i ≠ .sysReset) :
    BuffersStep s.kit s.regs t.regs := by
  cases hv : worksOnVoices i with
  | true => exact (exec_voicesStep h hv).buffersStep (noDelayBelowZero_ieee s.prec)
  | false =>
    cases hw : writesDly i with
    | false => exact .of_dly_eq (exec_dly h hw)
    | true =>
      unfold exec at h
      cases i with
      | sysReset => exact absurd rfl hi
      | dlyResize => exact run_buffersStep h (.require fun _ => .bind (dlyResize_reallocated _ _ _) fun _ b =>
          .pure (.setDly b.dlyStep))
      | dlyReset => exact run_buffersStep h (.pure (.setDly .reset))
      | dlyPush =>
        exact run_buffersStep h (.require fun hsize =>
          .pure (.setDly (.push _ (Nat.pos_of_ne_zero (by simpa using hsize)))))
      | mdlPrepare | mdlReset | mdlSetmaxdelay | mdlSetmaxdepth | mdlProcess | vbPrepare | vbReset | vbProcess
      | vbSetmaxdelay | vbSetmaxdepth | engPrepare | engReset | engStep => cases hv
      | _ => cases hw

/-! ### The invariant -/

/-- A buffer whose words are all 0, its cursor at 0, keeps R27 and R40. -/
theorem bufferOk_fresh {cap n : Nat} (h : n ≤ cap) : BufferOk cap (freshBuffer Sample n) :=
  ⟨h, id, fun _ => rfl, rfl, nofun⟩

/-- A push keeps the cursor inside the buffer and the memory canonical, and lists the cursor's word at most (R105). -/
theorem bufferOk_push {cap : Nat} {p : Prec} {b : Dly Sample} (x : Sample) (pos : 0 < b.size) (h : BufferOk cap b) :
    BufferOk cap (dlyPush (Arith.ieee p) x b) := by
  obtain ⟨size, cursor, _, canonical, listed⟩ := h
  refine ⟨size, fun _ => dlyPush_cur_lt _ x pos (cursor pos), fun h0 => absurd h0 (Nat.ne_of_gt pos),
    Memory.write_wf 0 canonical b.cur x, fun cell hcell => ?_⟩
  rcases Memory.mem_write _ b.ram b.cur x cell hcell with rfl | old
  · exact cursor pos
  · exact listed cell old

/-- Each operation keeps R27 and R40. -/
theorem DlyStep.ok {p : Prec} {P : Params Sample} {b b' : Dly Sample} (h : DlyStep { A := Arith.ieee p, P := P } b b')
    (hb : BufferOk P.dlyCap b) : BufferOk P.dlyCap b' := by
  cases h with
  | same => exact hb
  | alloc n _ le => exact bufferOk_fresh le
  | reset => exact bufferOk_fresh (n := b.size) hb.1
  | push x pos => exact bufferOk_push x pos hb

/-- After `SYS.RESET` every buffer is empty (R220). -/
theorem buffersOk_resetEntry (s : State) : BuffersOk (resetEntry s) := by
  intro v c
  have hempty : (resetEntry s).regs.getDly v c = freshBuffer Sample 0 := by
    show (Bank.get (Bank.get (List.replicate s.cfg.nVoices (List.replicate s.cfg.nChMax Dly.reset)) v) c) = _
    rw [Bank.get_replicate]
    split
    · rw [Bank.get_replicate]
      split <;> rfl
    · rfl
  rw [hempty]
  exact bufferOk_fresh (Nat.zero_le _)

theorem exec_buffersOk {i : Instr} {s t : State} (hs : BuffersOk s) (h : exec i s = .next t) : BuffersOk t := by
  by_cases hi : i = .sysReset
  · subst hi
    obtain rfl : resetEntry s = t := by simpa [exec_sysReset] using h
    exact buffersOk_resetEntry s
  · have buffers := exec_buffersStep h hi
    intro v c
    rw [(exec_buildSame h).cfg]
    exact (buffers v c).ok (hs v c)

/-- Settles O51: every command takes every buffer at most one operation on, and each operation keeps R27 and R40. -/
theorem buffersKept : Obligations.BuffersKept :=
  fun _ _ hs h => step_keeps (P := BuffersOk) (fun _ _ k => k) (fun _ k => k) (fun _ _ _ k _ => k)
    (fun _ _ _ => exec_buffersOk) h hs

end Sys2Proof.Machine

/-! SUPPORT. The rules of the control registers (spec/10_state.md R23, R29, R36, spec/60_exceptions.md R205). -/

namespace Sys2Proof.Machine

/-! ### `PREP` of the oscillators -/

section
variable {S : Type} [Inhabited S] {K : Kit S} {r r' : Regs S}

/-- A prepared oscillator stays prepared. -/
def OscsGrow (r r' : Regs S) : Prop := ∀ v c, (r.getOsc v c).prep = true → (r'.getOsc v c).prep = true

theorem OscsGrow.of_osc_eq (h : r'.osc = r.osc) : OscsGrow r r' := by
  intro v c
  simp only [Regs.getOsc, h, imp_self]

theorem OscsGrow.setOsc {v c : Nat} {o : Osc S} (h : (r.getOsc v c).prep = true → o.prep = true) :
    OscsGrow r (r.setOsc v c o) := by
  intro u d hp
  rw [getOsc_setOsc]
  split
  · next hud => exact h (hud.1 ▸ hud.2 ▸ hp)
  · exact hp

theorem OscsGrow.updateOscs {nv nc : Nat} {f : Osc S → Osc S} (hf : ∀ o, (f o).prep = o.prep) :
    OscsGrow r (r.updateOscs nv nc f) := by
  intro v c hp
  rw [getOsc_updateOscs]
  split
  · rwa [hf]
  · exact hp

theorem OscsGrow.updateRow {v n : Nat} {f : Osc S → Osc S} (hf : ∀ o, (f o).prep = o.prep) :
    OscsGrow r { r with osc := r.osc.put v ((r.osc.get v).update n fun _ o => f o) } := by
  intro u c hp
  simp only [Regs.getOsc, Bank.get_put] at hp ⊢
  split
  · next hu =>
    rw [Bank.get_update]
    split
    · rwa [hf, ← hu]
    · rwa [← hu]
  · exact hp

theorem OscsGrow.updateColumn {n c : Nat} {f : Osc S → Osc S} (hf : ∀ o, (f o).prep = o.prep) :
    OscsGrow r { r with osc := r.osc.update n fun _ row => row.put c (f (row.get c)) } := by
  intro v d hp
  simp only [Regs.getOsc, Bank.get_update] at hp ⊢
  split
  · rw [Bank.get_put]
    split
    · next hd => rwa [hf, ← hd]
    · exact hp
  · exact hp

theorem VoicePrepared.oscs_grow {v c : Nat} {fs : S} (h : VoicePrepared K r r' v fs) (hp : (r.getOsc v c).prep = true) :
    (r'.getOsc v c).prep = true := by
  rw [h.osc]
  split
  · rfl
  · exact hp

theorem VoiceReset.oscs_grow {A : Arith S} {v c : Nat} (h : VoiceReset A r r' v) (hp : (r.getOsc v c).prep = true) :
    (r'.getOsc v c).prep = true := by
  rw [h.osc]
  split <;> exact hp

theorem VoiceSame.oscs_grow {v c : Nat} (h : VoiceSame r r' v) (hp : (r.getOsc v c).prep = true) :
    (r'.getOsc v c).prep = true := by
  rwa [h.osc]

/-- A prepare sets the flag, and a reset, a new bound and a run leave it. -/
theorem VoicesStep.oscsGrow [DecidableEq S] (h : VoicesStep K r r') : OscsGrow r r' := by
  intro v c hp
  cases h with
  | same voices => exact (voices v).oscs_grow hp
  | prepared fs _ voices =>
    rcases voices v with ⟨_, prepared⟩ | same
    · exact prepared.oscs_grow hp
    · exact same.oscs_grow hp
  | reset voices =>
    rcases voices v with reset | same
    · exact reset.oscs_grow hp
    · exact same.oscs_grow hp
  | rebounded voices => simpa only [Regs.getOsc, voices.osc] using hp
  | ran cells _ =>
    rcases cells v c with ⟨_, x, ran⟩ | same
    · rw [ran.osc]
      exact hp
    · rwa [same.osc]

end

theorem run_oscsGrow {i : Instr} {s t : State} {body : Result} (h : run i s body = .next t)
    (done : Yields (fun a => OscsGrow s.regs a.2) body) : OscsGrow s.regs t.regs :=
  run_regs h (.of_osc_eq rfl) (fun _ _ => .of_osc_eq rfl) done

/-- No command but `SYS.RESET` clears `PREP` of an oscillator (R26). -/
theorem exec_oscsGrow {i : Instr} {s t : State} (h : exec i s = .next t) (hi : i ≠ .sysReset) :
    OscsGrow s.regs t.regs := by
  cases hv : worksOnVoices i with
  | true => exact (exec_voicesStep h hv).oscsGrow
  | false =>
    cases hw : writesOsc i with
    | false => exact .of_osc_eq (exec_osc h hw)
    | true =>
      unfold exec at h
      cases i with
      | sysReset => exact absurd rfl hi
      | oscPrepare => exact run_oscsGrow h (.require fun _ => .require fun _ => .pure (.setOsc fun _ => rfl))
      | oscReset | oscSetfreq | oscSetphase | oscSettype => exact run_oscsGrow h (.pure (.setOsc id))
      | oscProcess => exact run_oscsGrow h (.require fun _ => .pure (.setOsc id))
      | mdlSetrate => exact run_oscsGrow h (.pure (.updateRow fun _ => rfl))
      | vbSetrate | vbSettype => exact run_oscsGrow h (.pure (OscsGrow.updateOscs fun _ => rfl))
      | vbSetphase => exact run_oscsGrow h (.pure (.updateColumn fun _ => rfl))
      | mdlPrepare | mdlReset | mdlProcess | vbPrepare | vbReset | vbProcess | engPrepare | engReset | engStep => cases hv
      | _ => cases hw

/-! ### `PREP` of the delay lines -/

section
variable {S : Type} [Inhabited S] {K : Kit S} {r r' : Regs S}

/-- Voice `v` can run: there is a channel count, and on the channels below it the oscillators are prepared and the buffers
allocated (R28). -/
def VoiceReady (r : Regs S) (v : Nat) : Prop :=
  r.sys.nch ≠ 0 ∧ ∀ c < r.sys.nch, (r.getOsc v c).prep = true ∧ 0 < (r.getDly v c).size

theorem VoiceReady.grow {v : Nat} (h : VoiceReady r v) (nch : r'.sys.nch = r.sys.nch) (oscs : OscsGrow r r')
    (buffers : ∀ v c, 0 < (r.getDly v c).size → 0 < (r'.getDly v c).size) : VoiceReady r' v := by
  obtain ⟨counted, parts⟩ := h
  refine ⟨by rwa [nch], fun c hc => ?_⟩
  obtain ⟨osc, dly⟩ := parts c (nch ▸ hc)
  exact ⟨oscs v c osc, buffers v c dly⟩

theorem VoicePrepared.voiceReady {v : Nat} {fs : S} (h : VoicePrepared K r r' v fs) (counted : r.sys.nch ≠ 0)
    (alloc : AllocOk K (r.getMdl v).maxDelay fs) (nch : r'.sys.nch = r.sys.nch) : VoiceReady r' v := by
  refine ⟨by rwa [nch], fun c hc => ?_⟩
  rw [nch] at hc
  rw [h.osc, h.dly, if_pos hc, if_pos hc]
  exact ⟨rfl, alloc.1⟩

/-- A prepared line stays prepared, and a line that becomes prepared can run. -/
structure LinesReady (r r' : Regs S) : Prop where
  kept : ∀ v, (r.getMdl v).prep = true → (r'.getMdl v).prep = true
  ready : ∀ v, (r'.getMdl v).prep = true → (r.getMdl v).prep = true ∨ VoiceReady r' v

theorem LinesReady.of_prep_eq (h : ∀ v, (r'.getMdl v).prep = (r.getMdl v).prep) : LinesReady r r' :=
  ⟨fun v hp => (h v).trans hp, fun v hp => .inl ((h v).symm.trans hp)⟩

theorem LinesReady.of_mdl_eq (h : r'.mdl = r.mdl) : LinesReady r r' :=
  .of_prep_eq fun _ => by simp only [Regs.getMdl, h]

theorem LinesReady.setMdl {v : Nat} {m : Mdl S} (h : m.prep = (r.getMdl v).prep) : LinesReady r (r.setMdl v m) := by
  refine .of_prep_eq fun u => ?_
  rw [getMdl_setMdl]
  split
  · next hu => rw [h, hu]
  · rfl

theorem LinesReady.updateMdls {q : Regs S} {n : Nat} {f : Nat → Mdl S → Mdl S} (hq : q.mdl = r.mdl)
    (h : ∀ v m, (f v m).prep = m.prep) : LinesReady r (q.updateMdls n f) := by
  refine .of_prep_eq fun v => ?_
  have hget : q.getMdl v = r.getMdl v := by simp only [Regs.getMdl, hq]
  rw [getMdl_updateMdls, hget]
  split
  · exact h v _
  · rfl

theorem VoicesStep.linesReady [DecidableEq S] (h : VoicesStep K r r') (nch : r'.sys.nch = r.sys.nch) :
    LinesReady r r' := by
  cases h with
  | same voices => exact .of_prep_eq fun v => by rw [(voices v).mdl]
  | prepared fs counted voices =>
    refine ⟨fun v hp => ?_, fun v hp => ?_⟩ <;> rcases voices v with ⟨alloc, prepared⟩ | same
    · rw [prepared.mdl]
    · rwa [same.mdl]
    · exact .inr (prepared.voiceReady counted alloc nch)
    · exact .inl (by rwa [same.mdl] at hp)
  | reset voices =>
    refine .of_prep_eq fun v => ?_
    rcases voices v with reset | same
    · rw [reset.mdl]
    · rw [same.mdl]
  | rebounded voices => exact .of_prep_eq voices.prep
  | ran _ scalars => exact .of_prep_eq fun v => by rw [scalars v]

theorem mdlSetDelay_prep (A : Arith S) (c : Nat) (x : S) (m : Mdl S) :
    Yields (fun m' => m'.prep = m.prep) (mdlSetDelay A c x m) := .require fun _ => .pure rfl

theorem mdlSetDepth_prep (A : Arith S) (c : Nat) (x : S) (m : Mdl S) :
    Yields (fun m' => m'.prep = m.prep) (mdlSetDepth A c x m) := .require fun _ => .pure rfl

theorem vbRetarget_linesReady (base spread width : S) : Yields (LinesReady r) (vbRetarget K base spread width r) :=
  .require fun _ => .pure (.updateMdls rfl fun _ _ => rfl)

end

/-- The commands that keep the channel count: all but the reset and `SYS.SETCH` (R23). -/
def keepsCount : Instr → Bool
  | .sysReset | .sysSetch _ => false
  | _ => true

theorem exec_nch_same {i : Instr} {s t : State} (h : exec i s = .next t) (hi : keepsCount i = true) :
    t.regs.sys.nch = s.regs.sys.nch := by
  cases hw : writesSys i with
  | false => exact exec_nch h hw
  | true =>
    unfold exec at h
    cases i with
    | sysSetblk => exact run_regs (P := fun r => r.sys.nch = s.regs.sys.nch) h rfl (fun _ _ => rfl) (.pure rfl)
    | sysReset | sysSetch => cases hi
    | _ => cases hw

theorem run_linesReady {i : Instr} {s t : State} {body : Result} (h : run i s body = .next t)
    (done : Yields (fun a => LinesReady s.regs a.2) body) : LinesReady s.regs t.regs :=
  run_regs h (.of_mdl_eq rfl) (fun _ _ => .of_mdl_eq rfl) done

theorem exec_linesReady {i : Instr} {s t : State} (h : exec i s = .next t) (hi : keepsCount i = true) :
    LinesReady s.regs t.regs := by
  cases hv : worksOnVoices i with
  | true => exact (exec_voicesStep h hv).linesReady (exec_nch_same h hi)
  | false =>
    cases hw : writesMdl i with
    | false => exact .of_mdl_eq (exec_mdl h hw)
    | true =>
      unfold exec at h
      cases i with
      | sysReset | sysSetch => cases hi
      | mdlSetdelay => exact run_linesReady h (.bind (mdlSetDelay_prep _ _ _ _) fun _ e => .pure (.setMdl e))
      | mdlSetdepth => exact run_linesReady h (.bind (mdlSetDepth_prep _ _ _ _) fun _ e => .pure (.setMdl e))
      | mdlSetwet => exact run_linesReady h (.require fun _ => .pure (.setMdl rfl))
      | vbSetdepth => exact run_linesReady h (.require fun _ => .pure (.updateMdls rfl fun _ _ => rfl))
      | vbSetdelay => exact run_linesReady h (.bind (vbRetarget_linesReady _ _ _) fun _ l => .pure l)
      | vbSetspread | vbSetwidth =>
        exact run_linesReady h (.require fun _ => .bind (vbRetarget_linesReady _ _ _) fun _ l => .pure l)
      | mdlPrepare | mdlReset | mdlSetmaxdelay | mdlSetmaxdepth | mdlProcess | vbPrepare | vbReset | vbProcess
      | vbSetmaxdelay | vbSetmaxdepth | engPrepare | engReset | engStep => cases hv
      | _ => cases hw

/-! ### The voice bank -/

/-- `ACTIVE` stays or is written in its range; a prepared bank stays prepared, and a bank that becomes prepared has a channel
count and prepared voices (R29, R131, R133). -/
structure BankStep (P : Params Sample) (r r' : Regs Sample) : Prop where
  active : r'.vb.active = r.vb.active ∨ 1 ≤ r'.vb.active ∧ r'.vb.active ≤ P.nVoices
  kept : r.vb.prep = true → r'.vb.prep = true
  ready : r'.vb.prep = true → r.vb.prep = true ∨ r'.sys.nch ≠ 0 ∧ ∀ v < P.nVoices, (r'.getMdl v).prep = true

theorem BankStep.of_prep_eq {P : Params Sample} {r r' : Regs Sample} (active : r'.vb.active = r.vb.active)
    (prep : r'.vb.prep = r.vb.prep) : BankStep P r r' :=
  ⟨.inl active, prep.trans, fun hp => .inl (prep.symm.trans hp)⟩

theorem BankStep.of_vb_eq {P : Params Sample} {r r' : Regs Sample} (h : r'.vb = r.vb) : BankStep P r r' :=
  .of_prep_eq (by rw [h]) (by rw [h])

theorem BankPrepared.bankStep {K : Kit Sample} {fs : Sample} {r r' : Regs Sample} (h : BankPrepared K fs r r')
    (counted : r.sys.nch ≠ 0) : BankStep K.P r r' :=
  ⟨.inl (by rw [h.vb]), fun _ => by rw [h.vb], fun _ => .inr ⟨by rwa [h.sys], fun v hv => by rw [(h.voices v hv).mdl]⟩⟩

theorem vbRetarget_bankStep (K : Kit Sample) (base spread width : Sample) (r : Regs Sample) :
    Yields (BankStep K.P r) (vbRetarget K base spread width r) :=
  .require fun _ => .pure (.of_prep_eq rfl rfl)

theorem run_bankStep {i : Instr} {s t : State} {body : Result} (h : run i s body = .next t)
    (done : Yields (fun a => BankStep s.cfg s.regs a.2) body) : BankStep s.cfg s.regs t.regs :=
  run_regs h (.of_vb_eq rfl) (fun _ _ => .of_vb_eq rfl) done

theorem exec_bankStep {i : Instr} {s t : State} (h : exec i s = .next t) (hi : keepsCount i = true) :
    BankStep s.cfg s.regs t.regs := by
  cases hw : writesVb i with
  | false => exact .of_vb_eq (exec_vb h hw)
  | true =>
    unfold exec at h
    cases i with
    | sysReset | sysSetch => cases hi
    | vbPrepare =>
      exact run_bankStep h (.require fun _ => .require fun counted => .require fun _ =>
        .bind (vbPrepare_yields _ _ _) fun _ b => .pure (b.bankStep (by simpa using counted)))
    | vbSetactive =>
      exact run_bankStep h (.require fun range =>
        .pure ⟨.inr (by simpa using range), id, .inl⟩)
    | vbSetrate | vbSettype => exact run_bankStep h (.pure (.of_prep_eq rfl rfl))
    | vbSetdepth => exact run_bankStep h (.require fun _ => .pure (.of_prep_eq rfl rfl))
    | vbSetdelay => exact run_bankStep h (.bind (vbRetarget_bankStep _ _ _ _ _) fun _ b => .pure b)
    | vbSetspread | vbSetwidth =>
      exact run_bankStep h (.require fun _ => .bind (vbRetarget_bankStep _ _ _ _ _) fun _ b => .pure b)
    | engPrepare =>
      refine run_bankStep h (.require fun _ => .require fun counted => .require fun _ => .require fun _ =>
        .bind (engPrepare_yields _ _ _) fun r' hr => .pure ?_)
      obtain ⟨q, f, bank, rfl⟩ := hr
      obtain ⟨active, kept, ready⟩ := bank.bankStep (by simpa using counted)
      exact ⟨active, kept, ready⟩
    | _ => cases hw

/-! ### The engine's counters -/

/-- `CHCNT` stays, is cleared, or counts a frame short of the sub-block; `REM` falls, or is a `u32` written on a prepared
engine; a prepared engine stays prepared, and one that becomes prepared has a prepared bank (R34, R36, R171, R178, R180). -/
structure EngineMoves (P : Params Sample) (r r' : Regs Sample) : Prop where
  chcnt : r'.eng.chcnt = r.eng.chcnt ∨ r'.eng.chcnt = 0 ∨ r'.eng.chcnt = r.eng.chcnt + 1 ∧ r'.eng.chcnt ≠ P.chunk
  rem : r'.eng.rem ≤ r.eng.rem ∨ r'.eng.rem < 2 ^ 32 ∧ r'.eng.prep = true
  kept : r.eng.prep = true → r'.eng.prep = true
  ready : r'.eng.prep = true → r.eng.prep = true ∨ r'.vb.prep = true

theorem EngineMoves.of_counters_eq {P : Params Sample} {r r' : Regs Sample} (chcnt : r'.eng.chcnt = r.eng.chcnt)
    (rem : r'.eng.rem = r.eng.rem) (prep : r'.eng.prep = r.eng.prep) : EngineMoves P r r' :=
  ⟨.inl chcnt, .inl (Nat.le_of_eq rem), prep.trans, fun hp => .inl (prep.symm.trans hp)⟩

theorem EngineMoves.of_eng_eq {P : Params Sample} {r r' : Regs Sample} (h : r'.eng = r.eng) : EngineMoves P r r' :=
  .of_counters_eq (by rw [h]) (by rw [h]) (by rw [h])

theorem FrameRan.engineMoves {K : Kit Sample} {r r' : Regs Sample} (h : FrameRan K r r') : EngineMoves K.P r r' :=
  ⟨.inr h.chcnt, .inl (by rw [h.rem]; exact Nat.sub_le _ 1), h.prep.trans, fun hp => .inl (h.prep.symm.trans hp)⟩

theorem run_engineMoves {i : Instr} {s t : State} {body : Result} (h : run i s body = .next t)
    (done : Yields (fun a => EngineMoves s.cfg s.regs a.2) body) : EngineMoves s.cfg s.regs t.regs :=
  run_regs h (.of_eng_eq rfl) (fun _ _ => .of_eng_eq rfl) done

theorem exec_engineMoves {i : Instr} {s t : State} (h : exec i s = .next t) (hi : keepsCount i = true) :
    EngineMoves s.cfg s.regs t.regs := by
  cases hw : writesEng i with
  | false => exact .of_eng_eq (exec_eng h hw)
  | true =>
    unfold exec at h
    cases i with
    | sysReset | sysSetch => cases hi
    | engPrepare =>
      refine run_engineMoves h (.require fun _ => .require fun _ => .require fun _ => .require fun _ =>
        .bind (engPrepare_yields _ _ _) fun r' hr => .pure ?_)
      obtain ⟨q, f, bank, rfl⟩ := hr
      exact ⟨.inr (.inl rfl), .inl (Nat.le_refl _), fun _ => rfl, fun _ => .inr (congrArg Vb.prep bank.vb)⟩
    | engReset =>
      refine run_engineMoves h (.bind (engReset_yields _ _) fun r' hr => .pure ?_)
      obtain ⟨f, rfl⟩ := hr
      exact ⟨.inr (.inl rfl), .inl (Nat.zero_le _), id, .inl⟩
    | engSetmode | engSetfbyp | engIn => exact run_engineMoves h (.pure (.of_counters_eq rfl rfl rfl))
    | engSetmix | engSethpf | engSetlpf =>
      exact run_engineMoves h (.require fun _ => .pure (.of_counters_eq rfl rfl rfl))
    | engBegin =>
      exact run_engineMoves h (.require fun prep => .require fun _ =>
        .pure ⟨.inr (.inl rfl), .inr ⟨Nat.mod_lt _ (by decide), prep⟩, id, .inl⟩)
    | engStep =>
      exact run_engineMoves h (.require fun _ => .require fun _ => .bind (engFrame_yields _ _) fun _ ran =>
        .pure ran.engineMoves)
    | _ => cases hw

/-! ### The invariant -/

/-- `CAUSE` is 0 exactly when the block is not halted, and never above 10 (R205). -/
def HaltOk (y : Sys) : Prop := (y.halt = false ↔ y.cause = 0) ∧ y.cause.toNat ≤ 10

theorem haltOk_faultEntry (e : Cause) (hdr : BitVec 32) (s : State) : HaltOk (faultEntry e hdr s).regs.sys := by
  rw [HaltOk, faultEntry_halt, faultEntry_cause]
  cases e <;> decide

theorem haltOk_reset : HaltOk Sys.reset := ⟨by decide, by decide⟩

theorem exec_haltOk {i : Instr} {s t : State} (hs : HaltOk s.regs.sys) (h : exec i s = .next t) : HaltOk t.regs.sys := by
  cases exec_outcome h with
  | refused => exact hs
  | faulted e hdr => exact haltOk_faultEntry e hdr s
  | completed val r kept =>
    rw [complete_regs, HaltOk, kept.halt, kept.cause]
    exact hs
  | reset => exact haltOk_reset

/-- The rules of `ControlOk` that are not about the halted state, by name. -/
structure CountersOk (P : Params Sample) (r : Regs Sample) : Prop where
  chunk : 1 ≤ P.chunk
  nch : r.sys.nch ≤ P.nChMax
  active : 1 ≤ r.vb.active ∧ r.vb.active ≤ P.nVoices
  chcnt : r.eng.chcnt < P.chunk
  rem : r.eng.rem < 2 ^ 32
  opened : 0 < r.eng.rem → r.eng.prep = true
  bank : r.eng.prep = true → r.vb.prep = true
  lines : r.vb.prep = true → r.sys.nch ≠ 0 ∧ ∀ v < P.nVoices, (r.getMdl v).prep = true
  voices : ∀ v < P.nVoices, (r.getMdl v).prep = true → VoiceReady r v

theorem controlOk_iff (s : State) : ControlOk s ↔ CountersOk s.cfg s.regs ∧ HaltOk s.regs.sys := by
  constructor
  · rintro ⟨chunk, nch, active, chcnt, rem, opened, bank, lines, voices, halt⟩
    exact ⟨⟨chunk, nch, active, chcnt, rem, opened, bank, lines, voices⟩, halt⟩
  · rintro ⟨⟨chunk, nch, active, chcnt, rem, opened, bank, lines, voices⟩, halt⟩
    exact ⟨chunk, nch, active, chcnt, rem, opened, bank, lines, voices, halt⟩

/-- Commands that keep the channel count keep the rules. -/
theorem CountersOk.step {P : Params Sample} {r r' : Regs Sample} (h : CountersOk P r) (nch : r'.sys.nch = r.sys.nch)
    (oscs : OscsGrow r r') (buffers : ∀ v c, 0 < (r.getDly v c).size → 0 < (r'.getDly v c).size) (lines : LinesReady r r')
    (bank : BankStep P r r') (engine : EngineMoves P r r') : CountersOk P r' where
  chunk := h.chunk
  nch := nch ▸ h.nch
  active := by
    rcases bank.active with e | range
    · exact e ▸ h.active
    · exact range
  chcnt := by
    have := h.chcnt
    have := h.chunk
    rcases engine.chcnt with e | e | ⟨e, hne⟩ <;> omega
  rem := by
    rcases engine.rem with hle | ⟨hlt, _⟩
    · exact Nat.lt_of_le_of_lt hle h.rem
    · exact hlt
  opened hrem := by
    rcases engine.rem with hle | ⟨_, prep⟩
    · exact engine.kept (h.opened (Nat.lt_of_lt_of_le hrem hle))
    · exact prep
  bank hp := by
    rcases engine.ready hp with old | new
    · exact bank.kept (h.bank old)
    · exact new
  lines hp := by
    rcases bank.ready hp with old | new
    · obtain ⟨counted, prepared⟩ := h.lines old
      exact ⟨nch ▸ counted, fun v hv => lines.kept v (prepared v hv)⟩
    · exact new
  voices v hv hp := by
    rcases lines.ready v hp with old | new
    · exact (h.voices v hv old).grow nch oscs buffers
    · exact new

theorem exec_countersOk {i : Instr} {s t : State} (hs : CountersOk s.cfg s.regs) (h : exec i s = .next t)
    (hi : keepsCount i = true) : CountersOk s.cfg t.regs := by
  have hne : i ≠ .sysReset := fun e => by simp [e, keepsCount] at hi
  exact hs.step (exec_nch_same h hi) (exec_oscsGrow h hne) (fun v c => (exec_buffersStep h hne v c).size_pos)
    (exec_linesReady h hi) (exec_bankStep h hi) (exec_engineMoves h hi)

/-- A new channel count of a closed block clears every `PREP` flag above the oscillators' (R75). -/
theorem setChannels_countersOk {K : Kit Sample} {n : Nat} {r : Regs Sample} (h : CountersOk K.P r) (hn : n ≤ K.P.nChMax)
    (closed : r.eng.rem = 0) : CountersOk K.P (setChannels K n r) := by
  unfold setChannels
  split
  · exact h
  · refine ⟨h.chunk, hn, h.active, h.chcnt, h.rem, fun hrem => ?_, nofun, nofun, fun v hv hp => ?_⟩
    · exact absurd hrem (by simp [closed])
    · replace hp : ((r.updateMdls K.P.nVoices fun _ m => { m with prep := false }).getMdl v).prep = true := hp
      rw [getMdl_updateMdls, if_pos hv] at hp
      cases hp

/-- After a reset nothing is prepared and every counter is at its reset value (R220). -/
theorem countersOk_reset {K : Kit Sample} (chunk : 1 ≤ K.P.chunk) (voices : 1 ≤ K.P.nVoices) :
    CountersOk K.P (Regs.reset K.A K.P) := by
  have unprepared : ∀ v, ((Regs.reset K.A K.P).getMdl v).prep = false := fun v => by
    simp only [Regs.getMdl, Regs.reset, Bank.get_replicate]
    split <;> rfl
  refine ⟨chunk, Nat.zero_le _, ⟨Nat.le_refl 1, voices⟩, chunk, Nat.two_pow_pos 32, nofun, nofun, nofun, fun v _ hp => ?_⟩
  exact absurd hp (by simp [unprepared v])

theorem exec_controlOk {i : Instr} {s t : State} (hs : ControlOk s) (h : exec i s = .next t) : ControlOk t := by
  rw [controlOk_iff] at hs ⊢
  obtain ⟨counters, halt⟩ := hs
  refine ⟨?_, exec_haltOk halt h⟩
  rw [(exec_buildSame h).cfg]
  cases hi : keepsCount i with
  | true => exact exec_countersOk counters h hi
  | false =>
    unfold exec at h
    cases i with
    | sysReset =>
      obtain rfl : resetEntry s = t := by simpa [execSysReset] using h
      exact countersOk_reset (K := s.kit) counters.chunk (counters.active.1.trans counters.active.2)
    | sysSetch n =>
      refine run_regs (P := CountersOk s.cfg) h counters (fun _ _ => ?_)
        (.require fun range => .require fun closed => .pure ?_)
      · exact { counters with }
      · simp only [decide_eq_true_eq, beq_iff_eq] at range closed
        exact setChannels_countersOk (K := s.kit) counters range.2 closed
    | _ => cases hi

/-- Settles O52: a step keeps the halted state's rules by its outcome, and the counters' rules unit by unit. -/
theorem controlKept : Obligations.ControlKept :=
  fun _ _ hs h => step_keeps (P := ControlOk) (fun _ _ k => k) (fun _ k => k)
    (fun e hdr s k _ => (controlOk_iff _).mpr ⟨{ ((controlOk_iff s).mp k).1 with }, haltOk_faultEntry e hdr s⟩)
    (fun _ _ _ => exec_controlOk) h hs

end Sys2Proof.Machine

/-! SUPPORT. Command words in a byte stream (spec/20_memory.md R47): the bytes of a number, least significant first, read
back give the number, and the number of a command word gives back the word. -/

namespace Sys2Proof

@[simp] theorem length_leBytes (k n : Nat) : (leBytes k n).length = k := by
  induction k generalizing n with
  | zero => rfl
  | succ k ih => simp [leBytes, ih]

theorem getElem?_leBytes {k j : Nat} (n : Nat) (hj : j < k) :
    (leBytes k n)[j]? = some (BitVec.ofNat 8 (n / 256 ^ j)) := by
  induction k generalizing n j with
  | zero => exact absurd hj (Nat.not_lt_zero j)
  | succ k ih =>
    cases j with
    | zero => simp [leBytes]
    | succ j =>
      have hrest : (leBytes k (n / 256))[j]? = some (BitVec.ofNat 8 (n / 256 / 256 ^ j)) := ih _ (Nat.lt_of_succ_lt_succ hj)
      rw [Nat.div_div_eq_div_mul, ← Nat.pow_succ'] at hrest
      simpa [leBytes] using hrest

theorem ofLeBytes_leBytes (k n : Nat) : ofLeBytes (leBytes k n) = n % 256 ^ k := by
  induction k generalizing n with
  | zero => simp [leBytes, ofLeBytes, Nat.mod_one]
  | succ k ih =>
    calc ofLeBytes (leBytes (k + 1) n) = n % 256 + 256 * (n / 256 % 256 ^ k) := by
          simp [leBytes, ofLeBytes, ih]
      _ = n % 256 ^ (k + 1) := by rw [Nat.pow_succ', Nat.mod_mul]

/-- The bytes of a command word hold its `32 + W` bits exactly (R55). -/
theorem wordBytes_pow (p : Prec) : 256 ^ p.wordBytes = 2 ^ 32 * 2 ^ p.width := by
  cases p <;> rfl

theorem toBits_lt (p : Prec) (w : CmdWord) : w.toBits p < 256 ^ p.wordBytes := by
  have hhdr : w.hdr.toNat < 2 ^ 32 := w.hdr.isLt
  have hopd : w.opd.toNat % 2 ^ p.width < 2 ^ p.width := Nat.mod_lt _ (Nat.two_pow_pos _)
  rw [wordBytes_pow]
  calc w.toBits p < (w.hdr.toNat + 1) * 2 ^ p.width := by rw [CmdWord.toBits, Nat.succ_mul]; omega
    _ ≤ 2 ^ 32 * 2 ^ p.width := Nat.mul_le_mul_right _ hhdr

/-- A command word whose operand fits `W` bits is the word of its `32 + W` bits (R55). -/
theorem ofBits_toBits {p : Prec} {w : CmdWord} (h : w.opd.toNat < 2 ^ p.width) : CmdWord.ofBits p (w.toBits p) = w := by
  have hpos : 0 < 2 ^ p.width := Nat.two_pow_pos _
  have hhdr : w.toBits p / 2 ^ p.width = w.hdr.toNat := by
    rw [CmdWord.toBits, Nat.mul_comm, Nat.mul_add_div hpos, Nat.mod_eq_of_lt h, Nat.div_eq_of_lt h, Nat.add_zero]
  have hopd : w.toBits p % 2 ^ p.width = w.opd.toNat := by
    rw [CmdWord.toBits, Nat.mul_add_mod_self_right, Nat.mod_mod, Nat.mod_eq_of_lt h]
  obtain ⟨hdr, opd⟩ := w
  simp only [CmdWord.ofBits, hhdr, hopd, BitVec.ofNat_toNat, BitVec.setWidth_eq]

@[simp] theorem length_toBytes (p : Prec) (w : CmdWord) : (w.toBytes p).length = p.wordBytes := length_leBytes _ _

theorem ofBytes_toBytes {p : Prec} {w : CmdWord} (rest : List Byte) (h : w.opd.toNat < 2 ^ p.width) :
    CmdWord.ofBytes p (w.toBytes p ++ rest) = some (w, rest) := by
  have hlen : ¬(w.toBytes p ++ rest).length < p.wordBytes := by simp
  have hnum : ofLeBytes (w.toBytes p) = w.toBits p := by
    rw [CmdWord.toBytes, ofLeBytes_leBytes, Nat.mod_eq_of_lt (toBits_lt p w)]
  rw [CmdWord.ofBytes, if_neg hlen, List.take_left' (length_toBytes p w), List.drop_left' (length_toBytes p w), hnum,
    ofBits_toBits h]

/-- Settles O4: length and bytes from `leBytes`, the reading back from its inverse `ofLeBytes`. -/
theorem byteStream : Obligations.ByteStream :=
  fun p w rest h => ⟨length_toBytes p w, fun _ hk => getElem?_leBytes _ hk, ofBytes_toBytes rest h⟩

end Sys2Proof

/-! SUPPORT. The decode checks by a command's format (spec/30_encoding.md R58 items 4 to 7). -/

namespace Sys2Proof.Machine

/-- The operand passes the check of its kind (R58 items 6 and 7). -/
def OperandOk (s : State) (x : BitVec 64) : OpdKind → Prop
  | .none => True
  | .u => IntOpd x
  | .s => FiniteOpd s x

section
variable {i : Instr} {s : State} {v c : BitVec 4} {op : BitVec 8} {x : BitVec 64} {kind : OpdKind}

theorem decodeChecks_of_row {m : Format} {f : Fields} (row : i.row = (m, f)) (hv : m.useV = true → VoiceOk s f.v)
    (hc : m.useC = true → ChanOk s f.c) (hx : OperandOk s f.opd m.kind) : decodeChecks i s = .ok () := by
  rw [decodeChecks_ok_iff, row]
  refine ⟨hv, hc, fun (hk : m.kind = .u) => ?_, fun (hk : m.kind = .s) => ?_⟩ <;> rw [hk] at hx
  · exact intOpd_legal hx
  · exact hx

theorem decodeChecks_both (row : i.row = (.both kind, ⟨op, v, c, 0, x⟩)) (hv : VoiceOk s v) (hc : ChanOk s c)
    (hx : OperandOk s x kind) : decodeChecks i s = .ok () :=
  decodeChecks_of_row row (fun _ => hv) (fun _ => hc) hx

theorem decodeChecks_voice (row : i.row = (.voice kind, ⟨op, v, 0, 0, x⟩)) (hv : VoiceOk s v)
    (hx : OperandOk s x kind) : decodeChecks i s = .ok () :=
  decodeChecks_of_row row (fun _ => hv) nofun hx

theorem decodeChecks_plain (row : i.row = (.plain kind, ⟨op, 0, 0, 0, x⟩)) (hx : OperandOk s x kind) :
    decodeChecks i s = .ok () :=
  decodeChecks_of_row row nofun nofun hx

end

/-- A check that holds lets the rest run. -/
theorem require_bind_of {β : Type} {b : Bool} {e : Cause} {f : Unit → Except Cause β} (h : b = true) :
    (require b e >>= f) = f () := by
  simp [h]

/-- The check that no block is open (R225). -/
theorem closed_check {s : State} (h : Closed s) : (s.regs.eng.rem == 0) = true := beq_iff_eq.mpr h

/-- The check that there is a channel count (R75). -/
theorem counted_check {s : State} (h : s.regs.sys.nch ≠ 0) : (s.regs.sys.nch != 0) = true := bne_iff_ne.mpr h

end Sys2Proof.Machine

/-! SUPPORT. Allocation that fails (spec/60_exceptions.md R205 code 7, spec/43_delay_buffer.md R101,
spec/44_modulated_delay_line.md R112): the operations that allocate, when a size is 0 or above `DLY_CAP`. -/

namespace Sys2Proof.Machine

section
variable {S : Type} {K : Kit S}

theorem dlyResize_alloc {n : Nat} (b : Dly S) (h : ¬(1 ≤ n ∧ n ≤ K.P.dlyCap)) : dlyResize K n b = .error .alloc := by
  rcases dlyResize_cases K n b with ⟨hlo, hhi, _⟩ | ⟨_, he⟩
  · exact absurd ⟨hlo, hhi⟩ h
  · exact he

variable [Inhabited S] {r : Regs S}

theorem mdlPrepare_alloc {v : Nat} {fs : S} (h : ¬AllocOk K (r.getMdl v).maxDelay fs) :
    mdlPrepare K v fs r = .error .alloc := by
  rcases mdlPrepare_cases K v fs r with ⟨ha, _⟩ | ⟨_, he⟩
  · exact absurd ha h
  · exact he

theorem vbPrepare_alloc {fs : S} (h : ∃ u < K.P.nVoices, ¬AllocOk K (r.getMdl u).maxDelay fs) :
    vbPrepare K fs r = .error .alloc := by
  obtain ⟨u, hu, hbad⟩ := h
  rcases mdlPrepares_cases K K.P.nVoices fs r with ⟨ha, _⟩ | ⟨_, he⟩
  · exact absurd (ha u hu) hbad
  · rw [vbPrepare, he, error_bind]

theorem engPrepare_alloc {fs : S} (h : ∃ u < K.P.nVoices, ¬AllocOk K (r.getMdl u).maxDelay fs) :
    engPrepare K fs r = .error .alloc := by
  rw [engPrepare, vbPrepare_alloc h, error_bind]

/-- `f` writes a bound of one voice by `set`, which leaves `PREP` and `FS` alone, and reallocates a prepared voice's buffers:
the shape of both setters of a bound (R114, R116). -/
structure SetsBound (K : Kit S) (set : Mdl S → Mdl S) (f : Nat → Regs S → Except Cause (Regs S)) : Prop where
  prep : ∀ m, (set m).prep = m.prep
  fs : ∀ m, (set m).fs = m.fs
  eq : ∀ v r, f v r =
    if ((r.setMdl v (set (r.getMdl v))).getMdl v).prep then mdlSetMax K v (r.setMdl v (set (r.getMdl v)))
    else .ok (r.setMdl v (set (r.getMdl v)))

theorem mdlSetMaxDelay_setsBound (x : S) :
    SetsBound K (fun m => { m with maxDelay := x }) fun v r => mdlSetMaxDelay K v x r :=
  ⟨fun _ => rfl, fun _ => rfl, fun _ _ => rfl⟩

theorem mdlSetMaxDepth_setsBound (x : S) :
    SetsBound K (fun m => { m with maxDepth := x }) fun v r => mdlSetMaxDepth K v x r :=
  ⟨fun _ => rfl, fun _ => rfl, fun _ _ => rfl⟩

variable {set : Mdl S → Mdl S} {f : Nat → Regs S → Except Cause (Regs S)}

theorem SetsBound.alloc (hf : SetsBound K set f) {v : Nat} (prep : (r.getMdl v).prep = true)
    (h : ¬AllocOk K (set (r.getMdl v)).maxDelay (r.getMdl v).fs) : f v r = .error .alloc := by
  rw [hf.eq]
  rcases mdlBound_cases K v set r hf.prep hf.fs with ⟨ha, _⟩ | ⟨_, _, he⟩
  · exact absurd (ha prep) h
  · exact he

theorem SetsBound.loop_alloc (hf : SetsBound K set f) {n : Nat}
    (h : ∃ u < n, (r.getMdl u).prep = true ∧ ¬AllocOk K (set (r.getMdl u)).maxDelay (r.getMdl u).fs) :
    loopE n f r = .error .alloc := by
  obtain ⟨u, hu, prep, hbad⟩ := h
  rcases mdlBounds_cases K set hf.prep hf.fs f hf.eq n r with ⟨ha, _⟩ | ⟨_, he⟩
  · exact absurd (ha u hu prep) hbad
  · exact he

end

/-- Settles O18: every check before the allocation holds, and the allocation of the unit that does not fit faults. -/
theorem allocationFaults : Obligations.AllocationFaults := by
  intro s v c x n hrun closed hx hn A y m
  have hclosed := closed_check closed
  refine ⟨fun hv hc hsize => ?_, fun hpos => ⟨fun hv hnch hbad => ?_, fun hv prep hbad => ?_, fun hnch hbad => ?_,
    fun hbad => ?_⟩, fun hnonneg => ⟨fun hv prep hbad => ?_, fun hbad => ?_⟩, fun hnch hrate hhp hlp hbad => ?_⟩
  · have hsize' : ¬(1 ≤ uOperand n ∧ uOperand n ≤ s.kit.P.dlyCap) := by
      rw [uOperand_of_intOpd hn, kit_P]
      omega
    refine run_faults hrun (decodeChecks_both rfl hv hc hn) ?_
    rw [require_bind_of hclosed, dlyResize_alloc _ hsize', error_bind]
  · refine run_faults hrun (decodeChecks_voice rfl hv hx) ?_
    rw [require_bind_of hclosed, require_bind_of (counted_check hnch), require_bind_of hpos, mdlPrepare_alloc hbad, error_bind]
  · refine run_faults hrun (decodeChecks_voice rfl hv hx) ?_
    rw [require_bind_of hclosed, require_bind_of hpos, (mdlSetMaxDelay_setsBound y).alloc prep hbad, error_bind]
  · refine run_faults hrun (decodeChecks_plain rfl hx) ?_
    rw [require_bind_of hclosed, require_bind_of (counted_check hnch), require_bind_of hpos, vbPrepare_alloc hbad, error_bind]
  · refine run_faults hrun (decodeChecks_plain rfl hx) ?_
    rw [require_bind_of hclosed, require_bind_of hpos, (mdlSetMaxDelay_setsBound y).loop_alloc hbad, error_bind]
  · refine run_faults hrun (decodeChecks_voice rfl hv hx) ?_
    rw [require_bind_of hclosed, require_bind_of hnonneg, (mdlSetMaxDepth_setsBound y).alloc prep hbad, error_bind]
  · refine run_faults hrun (decodeChecks_plain rfl hx) ?_
    rw [require_bind_of hclosed, require_bind_of hnonneg, (mdlSetMaxDepth_setsBound y).loop_alloc hbad, error_bind]
  · have hcutoffs : (belowNyquist A s.regs.eng.hpfc.tgt y && belowNyquist A s.regs.eng.lpfc.tgt y) = true :=
      Bool.and_eq_true_iff.mpr ⟨hhp, hlp⟩
    refine run_faults hrun (decodeChecks_plain rfl hx) ?_
    rw [require_bind_of hclosed, require_bind_of (counted_check hnch), require_bind_of hrate, require_bind_of hcutoffs,
      engPrepare_alloc hbad, error_bind]

end Sys2Proof.Machine

/-! SUPPORT. The delay buffer commands that allocate, reset and read (spec/43_delay_buffer.md R101 to R104). -/

namespace Sys2Proof.Machine

/-- Every word of a buffer just allocated or reset reads 0 (R41). -/
theorem dram_setDly_fresh (A : Arith Sample) (r : Regs Sample) (v c n k : Nat) :
    (r.setDly v c (freshBuffer Sample n)).dram A v c k = A.zero := by
  rw [Regs.dram, getDly_setDly, if_pos ⟨rfl, rfl⟩]
  rfl

theorem dlyResize_fresh {S : Type} {K : Kit S} {n : Nat} (b : Dly S) (hlo : 1 ≤ n) (hhi : n ≤ K.P.dlyCap) :
    dlyResize K n b = .ok (freshBuffer S n) := by
  rcases dlyResize_cases K n b with ⟨_, _, he⟩ | ⟨hbad, _⟩
  · exact he
  · exact absurd ⟨hlo, hhi⟩ hbad

theorem exec_dlyReset (s : State) (v c : BitVec 4) :
    exec (.dlyReset v c) s = run (.dlyReset v c) s
      (.ok (0, s.regs.setDly v.toNat c.toNat (freshBuffer Sample (s.regs.getDly v.toNat c.toNat).size))) := rfl

/-- Settles O25: the buffer that both commands leave is a fresh one, of the new and of the old size. -/
theorem dlyAllocates : Obligations.DlyAllocates := by
  intro s v c n ⟨hrun, hv, hc⟩ hn A
  refine ⟨fun closed hlo hhi => ⟨freshBuffer Sample n.toNat, ?_, rfl, rfl, dram_setDly_fresh A s.regs _ _ _⟩,
    freshBuffer Sample (s.regs.getDly v.toNat c.toNat).size, ?_, rfl, rfl, dram_setDly_fresh A s.regs _ _ _⟩
  · refine run_completes (.inl hrun) (decodeChecks_both rfl hv hc hn) ?_
    rw [require_bind_of (closed_check closed), uOperand_of_intOpd hn, dlyResize_fresh _ hlo hhi, ok_bind]
    rfl
  · rw [Completes, exec_dlyReset]
    exact run_completes (.inl hrun) (decodeChecks_both (kind := .none) rfl hv hc trivial) rfl

theorem dlyGet_read {S : Type} {A : Arith S} {d : Nat} {b : Dly S} (h : d < b.size) :
    dlyGet A d b = .ok (b.ram.read A.zero ((b.cur + d + 1) % b.size)) := by
  rw [dlyGet, require_bind_of (decide_eq_true h)]
  rfl

/-- A fractional read inside the buffer is the interpolated word at its delay (R104). -/
theorem dlyGetLinear_read {S : Type} {A : Arith S} {t : S} {b : Dly S} (hlo : A.le A.zero t = true)
    (hhi : A.lt t (A.ofNat b.size) = true) : dlyGetLinear A t b = .ok (tapAt A b t) := by
  rcases dlyGetLinear_cases A t b with ⟨_, _, he⟩ | ⟨hbad, _⟩
  · exact he
  · simp [hlo, hhi] at hbad

/-- Settles O26: both reads answer their word with the registers they found. -/
theorem dlyReads : Obligations.DlyReads := by
  intro s v c opd ⟨hrun, hv, hc⟩ hsize A b t M p i
  have allocated : (b.size != 0) = true := bne_iff_ne.mpr hsize.ne'
  refine ⟨fun hopd hd => ?_, fun hopd hlo hhi => ?_⟩
  · refine run_completes (.inl hrun) (decodeChecks_both rfl hv hc hopd) ?_
    rw [require_bind_of allocated, uOperand_of_intOpd hopd, dlyGet_read hd, ok_bind]
    rfl
  · refine run_completes (.inl hrun) (decodeChecks_both rfl hv hc hopd) ?_
    rw [require_bind_of allocated, dlyGetLinear_read hlo hhi, ok_bind]
    rfl

end Sys2Proof.Machine

/-! SUPPORT. The wavetables over the real numbers (spec/20_memory.md R44, R45). -/

namespace Sys2Proof.Machine

theorem romAngle_real (T i : Nat) : romAngle Arith.real T i = 2 * Real.pi * ((i : ℝ) / T) - Real.pi := by
  simp only [romAngle, Arith.real]
  push_cast
  ring

theorem romEntry_sine_real (T i : Nat) :
    romEntry Arith.real T .sine i = -Real.sin (2 * Real.pi * ((i : ℝ) / T)) := by
  rw [← Real.sin_sub_pi, ← romAngle_real]
  rfl

/-- The triangle word is `2 / PI` times any angle of `[-PI/2, PI/2]` that has the sine of `theta(i)` (R44). -/
theorem romEntry_triangle_real {T i : Nat} {x : ℝ} (hsin : Real.sin x = Real.sin (romAngle Arith.real T i))
    (hlo : -(Real.pi / 2) ≤ x) (hhi : x ≤ Real.pi / 2) : romEntry Arith.real T .triangle i = 2 / Real.pi * x := by
  have harcsin : Real.arcsin (Real.sin (romAngle Arith.real T i)) = x := by rw [← hsin, Real.arcsin_sin hlo hhi]
  have hentry : romEntry Arith.real T .triangle i =
      (2 : ℕ) / (1 : ℕ) / Real.pi * Real.arcsin (Real.sin (romAngle Arith.real T i)) := rfl
  rw [hentry, harcsin]
  norm_num

/-- The three pieces of the triangle: `theta` runs from `-PI` to `PI`, and the angle of `[-PI/2, PI/2]` with its sine is
`-PI - theta`, then `theta`, then `PI - theta` (R45). -/
theorem romEntry_triangle_pieces {T i : Nat} (hi : i < T) :
    ((i : ℝ) / T ≤ 1 / 4 → romEntry Arith.real T .triangle i = -4 * ((i : ℝ) / T)) ∧
    (1 / 4 ≤ (i : ℝ) / T → (i : ℝ) / T ≤ 3 / 4 → romEntry Arith.real T .triangle i = -2 + 4 * ((i : ℝ) / T)) ∧
    (3 / 4 ≤ (i : ℝ) / T → romEntry Arith.real T .triangle i = 4 - 4 * ((i : ℝ) / T)) := by
  have hT : (0 : ℝ) < T := by exact_mod_cast Nat.zero_lt_of_lt hi
  have hp0 : 0 ≤ (i : ℝ) / T := by positivity
  have hp1 : (i : ℝ) / T ≤ 1 := (div_le_one hT).mpr (by exact_mod_cast hi.le)
  have hangle := romAngle_real T i
  generalize (i : ℝ) / T = p at hp0 hp1 hangle ⊢
  have hpi := Real.pi_pos
  refine ⟨fun h => ?_, fun h h' => ?_, fun h => ?_⟩
  · have hsin : Real.sin (-2 * Real.pi * p) = Real.sin (romAngle Arith.real T i) := by
      rw [hangle, Real.sin_sub_pi, ← Real.sin_neg]
      ring_nf
    rw [romEntry_triangle_real hsin (by nlinarith) (by nlinarith)]
    field_simp
    ring
  · rw [romEntry_triangle_real (congrArg Real.sin hangle.symm) (by nlinarith) (by nlinarith)]
    field_simp
    ring
  · have hsin : Real.sin (2 * Real.pi - 2 * Real.pi * p) = Real.sin (romAngle Arith.real T i) := by
      rw [hangle, Real.sin_sub_pi, Real.sin_two_pi_sub]
    rw [romEntry_triangle_real hsin (by nlinarith) (by nlinarith)]
    field_simp
    ring

theorem abs_romEntry_real_le_one (T : Nat) (k : Wave) (i : Nat) : |romEntry Arith.real T k i| ≤ 1 := by
  cases k with
  | sine => exact Real.abs_sin_le_one _
  | triangle =>
    have hpi := Real.pi_pos
    have harcsin : |Real.arcsin (Real.sin (romAngle Arith.real T i))| ≤ Real.pi / 2 :=
      abs_le.mpr ⟨Real.neg_pi_div_two_le_arcsin _, Real.arcsin_le_pi_div_two _⟩
    rw [romEntry_triangle_real (Real.sin_arcsin (Real.neg_one_le_sin _) (Real.sin_le_one _))
      (Real.neg_pi_div_two_le_arcsin _) (Real.arcsin_le_pi_div_two _), abs_mul, abs_of_pos (by positivity)]
    calc 2 / Real.pi * |Real.arcsin (Real.sin (romAngle Arith.real T i))| ≤ 2 / Real.pi * (Real.pi / 2) := by gcongr
      _ = 1 := by field_simp

/-- The words below the guard entry are the computed ones, and the guard entry copies word 0 (R43). -/
theorem rom_of_lt {S : Type} (A : Arith S) {T i : Nat} (t : Wave) (hi : i < T) : rom A T t i = romEntry A T t i := by
  rw [rom, if_neg hi.ne]

theorem rom_guard {S : Type} (A : Arith S) (T : Nat) (t : Wave) : rom A T t T = romEntry A T t 0 := by
  rw [rom, if_pos rfl]

theorem abs_rom_real_le_one (T : Nat) (k : Wave) (i : Nat) : |rom Arith.real T k i| ≤ 1 :=
  abs_romEntry_real_le_one T k _

/-- An interpolation of two numbers of `[-1, 1]` is a convex combination of them (R14). -/
theorem abs_lerp_real_le_one {a b x : ℝ} (ha : |a| ≤ 1) (hb : |b| ≤ 1) (h0 : 0 ≤ x) (h1 : x ≤ 1) :
    |lerp Arith.real a b x| ≤ 1 := by
  have hconvex : lerp Arith.real a b x = (1 - x) * a + x * b := by
    simp only [lerp, Arith.real]
    ring
  rw [abs_le] at ha hb ⊢
  rw [hconvex]
  constructor <;> nlinarith

/-- Settles O54: the pieces of each table from its angle, the guard entry from word 0, the range from the entries' range. -/
theorem romOverReals : Obligations.RomOverReals := by
  intro T hT
  have hpos : 0 < T := by omega
  refine ⟨fun i hi => ?_, ?_, ?_, fun k i _ => abs_rom_real_le_one T k i, fun k i x _ h0 h1 =>
    abs_lerp_real_le_one (abs_rom_real_le_one T k i) (abs_rom_real_le_one T k (i + 1)) h0 h1.le⟩
  · simp only [rom_of_lt _ _ hi]
    exact ⟨romEntry_sine_real T i, romEntry_triangle_pieces hi⟩
  · rw [rom_guard, romEntry_sine_real]
    simp
  · obtain ⟨first, _, _⟩ := romEntry_triangle_pieces hpos
    rw [rom_guard, first (by simp)]
    simp

end Sys2Proof.Machine

/-! SUPPORT. The command encoding both ways (spec/30_encoding.md R55 to R64): the header and its fields, the opcode map read
backwards, and `decode` as the inverse of `encode`. -/

namespace Sys2Proof

/-! ### Header and fields (R56) -/

section
variable (f : Fields)

@[simp] theorem extractLsb'_header_op : f.header.extractLsb' 24 8 = f.op := by
  rw [Fields.header, BitVec.extractLsb'_append_eq_of_le (by decide), BitVec.extractLsb'_append_eq_of_le (by decide)]
  exact BitVec.extractLsb'_append_eq_left

@[simp] theorem extractLsb'_header_v : f.header.extractLsb' 20 4 = f.v := by
  rw [Fields.header, BitVec.extractLsb'_append_eq_of_le (by decide), BitVec.extractLsb'_append_eq_of_le (by decide)]
  exact BitVec.extractLsb'_append_eq_right

@[simp] theorem extractLsb'_header_c : f.header.extractLsb' 16 4 = f.c := by
  rw [Fields.header, BitVec.extractLsb'_append_eq_of_le (by decide)]
  exact BitVec.extractLsb'_append_eq_right

@[simp] theorem extractLsb'_header_imm : f.header.extractLsb' 0 16 = f.imm := BitVec.extractLsb'_append_eq_right

end

/-- The four header fields cover the header. -/
theorem header_fields (p : Prec) (w : CmdWord) : (w.fields p).header = w.hdr := by
  have hopv : w.hdr.extractLsb' 24 8 ++ w.hdr.extractLsb' 20 4 = w.hdr.extractLsb' 20 12 :=
    BitVec.extractLsb'_append_extractLsb'_eq_extractLsb' rfl
  have hopvc : w.hdr.extractLsb' 20 12 ++ w.hdr.extractLsb' 16 4 = w.hdr.extractLsb' 16 16 :=
    BitVec.extractLsb'_append_extractLsb'_eq_extractLsb' rfl
  calc (w.fields p).header
      = w.hdr.extractLsb' 24 8 ++ w.hdr.extractLsb' 20 4 ++ w.hdr.extractLsb' 16 4 ++ w.hdr.extractLsb' 0 16 := rfl
    _ = w.hdr.extractLsb' 16 16 ++ w.hdr.extractLsb' 0 16 := by rw [hopv, hopvc]
    _ = w.hdr := BitVec.extractLsb'_append_extractLsb'

theorem opd_fields_lt (p : Prec) (w : CmdWord) : (w.fields p).opd.toNat < 2 ^ p.width := by
  have hmod : w.opd.toNat % 2 ^ p.width < 2 ^ p.width := Nat.mod_lt _ (Nat.two_pow_pos _)
  calc (w.fields p).opd.toNat = w.opd.toNat % 2 ^ p.width % 2 ^ 64 := BitVec.toNat_ofNat _ _
    _ ≤ w.opd.toNat % 2 ^ p.width := Nat.mod_le _ _
    _ < 2 ^ p.width := hmod

/-! ### Immediates (R61, R69) -/

theorem eq_of_le_one {k : BitVec 16} (h : k ≤ 1) : k = 0 ∨ k = 1 := by bv_omega

theorem eq_of_le_three {k : BitVec 16} (h : k ≤ 3) : k = 0 ∨ k = 1 ∨ k = 2 ∨ k = 3 := by bv_omega

theorem wave_code_ofCode {k : BitVec 16} (h : k ≤ 1) : (Wave.ofCode k).code = k := by
  obtain rfl | rfl := eq_of_le_one h <;> rfl

theorem mode_code_ofCode {k : BitVec 16} (h : k ≤ 3) : (Mode.ofCode k).code = k := by
  obtain rfl | rfl | rfl | rfl := eq_of_le_three h <;> rfl

theorem fbypCode_getLsbD {k : BitVec 16} (h : k ≤ 3) : fbypCode (k.getLsbD 0) (k.getLsbD 1) = k := by
  obtain rfl | rfl | rfl | rfl := eq_of_le_three h <;> rfl

theorem flagCode_getLsbD {k : BitVec 16} (h : k ≤ 1) : flagCode (k.getLsbD 0) = k := by
  obtain rfl | rfl := eq_of_le_one h <;> rfl

/-! ### Formats (R57) -/

/-- The fields that a format uses, with 0 in the others. -/
def Format.used (m : Format) (f : Fields) : Fields :=
  { op := f.op
    v := if m.useV then f.v else 0
    c := if m.useC then f.c else 0
    imm := if m.useI then f.imm else 0
    opd := if m.kind = .none then 0 else f.opd }

theorem unusedClear_iff (m : Format) (f : Fields) :
    m.unusedClear f = true ↔
      (m.useV = false → f.v = 0) ∧ (m.useC = false → f.c = 0) ∧ (m.useI = false → f.imm = 0) ∧
        (m.kind = .none → f.opd = 0) := by
  simp [Format.unusedClear, imp_iff_not_or, and_assoc]

/-- R58 item 2 says that the fields a format does not use hold nothing. -/
theorem used_of_unusedClear {m : Format} {f : Fields} (h : m.unusedClear f = true) : m.used f = f := by
  obtain ⟨hv, hc, himm, hopd⟩ := (unusedClear_iff m f).mp h
  obtain ⟨op, v, c, imm, opd⟩ := f
  simp only [Format.used, Fields.mk.injEq, ite_eq_left_iff, ite_eq_right_iff, Bool.not_eq_true, true_and]
  exact ⟨fun hu => (hv hu).symm, fun hu => (hc hu).symm, fun hu => (himm hu).symm, fun hk => (hopd hk).symm⟩

/-! ### The opcode map read backwards (R62) -/

open Laws.RowInMap in
/-- Every command's own opcode selects its own row of the opcode map. -/
theorem rowInMap : ∀ i : Instr, Statement i
  | .sysNop => sysNop
  | .sysReset => sysReset
  | .sysRdstat => sysRdstat
  | .sysRdcause => sysRdcause
  | .sysRdinfo => sysRdinfo
  | .sysSetch n => sysSetch n
  | .sysSetblk n => sysSetblk n
  | .oscPrepare v c fs => oscPrepare v c fs
  | .oscReset v c => oscReset v c
  | .oscSetfreq v c hz => oscSetfreq v c hz
  | .oscSetphase v c off => oscSetphase v c off
  | .oscSettype v c k => oscSettype v c k
  | .oscProcess v c => oscProcess v c
  | .dlyResize v c n => dlyResize v c n
  | .dlyReset v c => dlyReset v c
  | .dlyGet v c d => dlyGet v c d
  | .dlyGetlin v c t => dlyGetlin v c t
  | .dlyPush v c x => dlyPush v c x
  | .mdlPrepare v fs => mdlPrepare v fs
  | .mdlReset v => mdlReset v
  | .mdlSetmaxdelay v sec => mdlSetmaxdelay v sec
  | .mdlSetmaxdepth v sec => mdlSetmaxdepth v sec
  | .mdlSetdelay v c t => mdlSetdelay v c t
  | .mdlSetdepth v c d => mdlSetdepth v c d
  | .mdlSetrate v hz => mdlSetrate v hz
  | .mdlSetwet v w => mdlSetwet v w
  | .mdlProcess v c x => mdlProcess v c x
  | .mdlLatency v => mdlLatency v
  | .vbPrepare fs => vbPrepare fs
  | .vbReset => vbReset
  | .vbSetactive n => vbSetactive n
  | .vbSetrate hz => vbSetrate hz
  | .vbSetdepth d => vbSetdepth d
  | .vbSetdelay t => vbSetdelay t
  | .vbSetspread x => vbSetspread x
  | .vbSetwidth w => vbSetwidth w
  | .vbSettype k => vbSettype k
  | .vbSetphase c off => vbSetphase c off
  | .vbProcess c x => vbProcess c x
  | .vbSetmaxdelay sec => vbSetmaxdelay sec
  | .vbSetmaxdepth sec => vbSetmaxdepth sec
  | .engPrepare fs => engPrepare fs
  | .engReset => engReset
  | .engSetmode k => engSetmode k
  | .engSetmix m => engSetmix m
  | .engSethpf hz => engSethpf hz
  | .engSetlpf hz => engSetlpf hz
  | .engSetfbyp hp lp => engSetfbyp hp lp
  | .engBegin byp n => engBegin byp n
  | .engIn c x => engIn c x
  | .engStep => engStep
  | .engOut c => engOut c
  | .engLatency => engLatency
  | .fltReset => fltReset
  | .fltBoost c x => fltBoost c x
  | .fltCut c x => fltCut c x
  | .fltHp c x => fltHp c x
  | .fltLp c x => fltLp c x

/-- What the opcode map builds from fields of a format has that format and keeps every field the format uses. The commands
with an immediate need a legal one, which is the code of the value it is read as. -/
theorem row_build {n : Nat} {m : Format} {build : Fields → Instr} {f : Fields} (h : opcodeMap n = some (m, build))
    (hop : f.op = BitVec.ofNat 8 n) (legal : m.immLegal f = true) : (build f).row = (m, m.used f) := by
  obtain ⟨op, v, c, imm, opd⟩ := f
  obtain rfl : op = _ := hop
  unfold opcodeMap at h
  split at h
  -- The five commands with an immediate, the opcodes without a row, and then the commands whose row holds the fields as read.
  case h_12 => -- OSC.SETTYPE
    cases h
    exact congrArg (fun k => (Format.bothImm 1 .none, Fields.mk 0x14 v c k 0))
      (wave_code_ofCode (of_decide_eq_true legal))
  case h_37 => -- VB.SETTYPE
    cases h
    exact congrArg (fun k => (Format.imm 1 .none, Fields.mk 0x48 0 0 k 0)) (wave_code_ofCode (of_decide_eq_true legal))
  case h_44 => -- ENG.SETMODE
    cases h
    exact congrArg (fun k => (Format.imm 3 .none, Fields.mk 0x52 0 0 k 0)) (mode_code_ofCode (of_decide_eq_true legal))
  case h_48 => -- ENG.SETFBYP
    cases h
    exact congrArg (fun k => (Format.imm 3 .none, Fields.mk 0x56 0 0 k 0)) (fbypCode_getLsbD (of_decide_eq_true legal))
  case h_49 => -- ENG.BEGIN
    cases h
    exact congrArg (fun k => (Format.imm 1 .u, Fields.mk 0x57 0 0 k opd)) (flagCode_getLsbD (of_decide_eq_true legal))
  case h_59 => nomatch h
  all_goals cases h; rfl

/-! ### Decoding (R58 items 1 to 3, R63) -/

/-- Fields that pass the three static checks decode to what the opcode map builds. -/
theorem decodeFields_ok_of_map {f : Fields} {m : Format} {build : Fields → Instr}
    (hmap : opcodeMap f.op.toNat = some (m, build)) (clear : m.unusedClear f = true) (legal : m.immLegal f = true) :
    decodeFields f = .ok (build f) := by
  simp [decodeFields, hmap, clear, legal]

/-- Fields that decode have passed the three static checks. -/
theorem map_of_decodeFields_ok {f : Fields} {i : Instr} (h : decodeFields f = .ok i) :
    ∃ m build, opcodeMap f.op.toNat = some (m, build) ∧ m.unusedClear f = true ∧ m.immLegal f = true ∧ build f = i := by
  unfold decodeFields at h
  split at h
  · cases h
  · next m build hmap =>
    split_ifs at h with hclear hlegal
    exact ⟨m, build, hmap, by simpa using hclear, by simpa using hlegal, Except.ok.inj h⟩

/-- Fields decode to a command exactly when they are that command's fields. -/
theorem decodeFields_ok_iff {f : Fields} {i : Instr} : decodeFields f = .ok i ↔ f = i.row.2 := by
  constructor
  · intro h
    obtain ⟨m, build, hmap, clear, legal, rfl⟩ := map_of_decodeFields_ok h
    rw [row_build hmap (BitVec.eq_of_toNat_eq (by simp)) legal, used_of_unusedClear clear]
  · rintro rfl
    obtain ⟨build, hmap, hbuild, hstatic⟩ := rowInMap i
    obtain ⟨clear, legal⟩ := Bool.and_eq_true_iff.mp hstatic
    rw [decodeFields_ok_of_map hmap clear legal, hbuild]

theorem decode_ok_iff {p : Prec} {w : CmdWord} {i : Instr} : decode p w = .ok i ↔ w.fields p = i.row.2 :=
  decodeFields_ok_iff

/-! ### Well-formed commands (R55, R59) -/

/-- What `Instr.operand` reads is the operand column of the command's row. -/
theorem operand_eq_row (i : Instr) : i.operand = (i.row.1.kind, i.row.2.opd) := by cases i <;> rfl

theorem opd_row_of_none {i : Instr} (hk : i.row.1.kind = .none) : i.row.2.opd = 0 := by
  obtain ⟨_, _, _, hstatic⟩ := rowInMap i
  obtain ⟨clear, _⟩ := Bool.and_eq_true_iff.mp hstatic
  obtain ⟨_, _, _, hopd⟩ := (unusedClear_iff _ _).mp clear
  exact hopd hk

/-- A command is well-formed exactly when its operand lane fits the `W` operand bits. -/
theorem wf_iff (p : Prec) (i : Instr) : i.wf p = true ↔ i.row.2.opd.toNat < 2 ^ p.width := by
  rw [Instr.wf, Instr.uOperandFits, Instr.sOperandFits, operand_eq_row]
  cases hk : i.row.1.kind with
  | none => simp [opd_row_of_none hk]
  | u => simp
  | s => simp

theorem fields_encode {p : Prec} {i : Instr} (h : i.wf p = true) : (encode i).fields p = i.row.2 := by
  simp [CmdWord.fields, encode, Nat.mod_eq_of_lt ((wf_iff p i).mp h)]

/-- Settles O1: the fields of the encoded word are the command's own. -/
theorem decodeOfEncode : Obligations.DecodeOfEncode :=
  fun _ _ h => decode_ok_iff.mpr (fields_encode h)

/-- Settles O2: the word's fields are the command's, and they hold the header and the `W` operand bits. -/
theorem encodeOfDecode : Obligations.EncodeOfDecode := by
  intro p w i h
  have hrow : i.row.2 = w.fields p := (decode_ok_iff.mp h).symm
  refine ⟨(wf_iff p i).mpr (hrow ▸ opd_fields_lt p w), ?_⟩
  rw [encode, hrow, header_fields]
  rfl

/-! ### Undefined opcodes (R64) -/

theorem decodeFields_undefined_iff (f : Fields) :
    decodeFields f = .error .undefinedOpcode ↔ opcodeMap f.op.toNat = none := by
  unfold decodeFields
  split
  · next hmap => simp [hmap]
  · next hmap =>
    rw [hmap]
    split_ifs <;> simp

/-- The undefined opcodes of R64. -/
def UndefinedOp (op : Nat) : Prop :=
  (0x07 ≤ op ∧ op ≤ 0x0F) ∨ (0x16 ≤ op ∧ op ≤ 0x1F) ∨ (0x25 ≤ op ∧ op ≤ 0x2F) ∨ (0x3A ≤ op ∧ op ≤ 0x3F) ∨
    (0x4D ≤ op ∧ op ≤ 0x4F) ∨ (0x5C ≤ op ∧ op ≤ 0x5F) ∨ 0x65 ≤ op

theorem opcodeMap_some_lt {n : Nat} {row : Format × (Fields → Instr)} (h : opcodeMap n = some row) : n < 0x65 := by
  unfold opcodeMap at h
  split at h
  case h_59 => nomatch h
  all_goals decide

/-- The opcodes up to the greatest defined one, `FLT.LP`, one by one. -/
theorem opcodeMap_isNone_iff_of_lt : ∀ n < 0x65, (opcodeMap n).isNone = true ↔ UndefinedOp n := by
  unfold UndefinedOp
  decide

theorem opcodeMap_eq_none_iff (n : Nat) : opcodeMap n = none ↔ UndefinedOp n := by
  by_cases hn : n < 0x65
  · rw [← Option.isNone_iff_eq_none, opcodeMap_isNone_iff_of_lt n hn]
  · have hlarge : UndefinedOp n := by unfold UndefinedOp; omega
    have hnone : opcodeMap n = none :=
      Option.eq_none_iff_forall_ne_some.mpr fun row hrow => hn (opcodeMap_some_lt hrow)
    exact iff_of_true hnone hlarge

/-- Settles O3: a word is refused for its opcode when the opcode map has no row for it. -/
theorem undefinedOpcodes : Obligations.UndefinedOpcodes :=
  fun p w => (decodeFields_undefined_iff (w.fields p)).trans (opcodeMap_eq_none_iff _)

/-- Settles O5: each word is read by running the decoder on it. -/
theorem wordsOfTheSpec : Obligations.WordsOfTheSpec := by
  refine ⟨?_, ?_, ?_, ?_, ?_, ?_, ?_, ?_⟩ <;> decide

end Sys2Proof

/-! SUPPORT. The decode checks that fail, in the order of spec/30_encoding.md R58 items 4 to 7, and the step that runs no
command. -/

namespace Sys2Proof.Machine

/-! ### The first decode check that fails (R58 items 4 to 7, R204) -/

theorem require_bind_fails {β : Type} {b : Bool} {e : Cause} {f : Unit → Except Cause β} (h : b = false) :
    (require b e >>= f) = .error e := by
  rw [h]
  rfl

/-- A check that only some formats need holds. -/
theorem check_holds {used ok : Bool} (h : used = true → ok = true) : (!used || ok) = true := by
  cases used with
  | false => rfl
  | true => exact h rfl

/-- A check that the format needs fails. -/
theorem check_fails {used ok : Bool} (hu : used = true) (h : ok = false) : (!used || ok) = false := by
  rw [hu, h]
  rfl

section
variable {i : Instr} {s : State}

/-- The voice is checked first, so nothing else can have failed before it. -/
theorem decodeChecks_voice_fails (hu : i.row.1.useV = true) (hv : s.cfg.nVoices ≤ i.row.2.v.toNat) :
    decodeChecks i s = .error .illegalCommand :=
  require_bind_fails (check_fails hu (decide_eq_false hv.not_gt))

/-- What item 4 lets through: the check of `NCH`, the rest following. -/
theorem decodeChecks_of_voice (hv : i.row.1.useV = true → i.row.2.v.toNat < s.cfg.nVoices) :
    decodeChecks i s = (do
      require (!i.row.1.useC || decide (s.regs.sys.nch ≠ 0)) .channels
      require (!i.row.1.useC || decide (i.row.2.c.toNat < s.regs.sys.nch)) .illegalCommand
      require (!decide (i.row.1.kind = .u) || uOperandLegal s.prec i.row.2.opd) .illegalCommand
      require (!decide (i.row.1.kind = .s) || Ieee.isFinite s.prec i.row.2.opd) .nonfinite) :=
  require_bind_of (check_holds fun hu => decide_eq_true (hv hu))

/-- What item 5 lets through: the checks of the operand. A channel below `NCH` is counted. -/
theorem decodeChecks_of_channel (hv : i.row.1.useV = true → i.row.2.v.toNat < s.cfg.nVoices)
    (hc : i.row.1.useC = true → i.row.2.c.toNat < s.regs.sys.nch) :
    decodeChecks i s = (do
      require (!decide (i.row.1.kind = .u) || uOperandLegal s.prec i.row.2.opd) .illegalCommand
      require (!decide (i.row.1.kind = .s) || Ieee.isFinite s.prec i.row.2.opd) .nonfinite) := by
  rw [decodeChecks_of_voice hv, require_bind_of (check_holds fun hu => decide_eq_true (Nat.ne_zero_of_lt (hc hu))),
    require_bind_of (check_holds fun hu => decide_eq_true (hc hu))]

end

/-- A decode check that fails is the fault of every command: `SYS.RESET`, which alone is not run in the frame of the
others, has none that can fail. -/
theorem faults_of_decodeChecks {i : Instr} {s : State} {e : Cause} (hrun : Running s) (h : decodeChecks i s = .error e) :
    Faults i s e := by
  have hi : i ≠ .sysReset := by
    rintro rfl
    rw [decodeChecks_runsHalted s rfl] at h
    cases h
  obtain ⟨body, hb⟩ := exec_eq_run i s hi
  rw [Faults, hb]
  exact run_check_faults hrun h

/-- Settles O11: each clause is the check that fails, behind the checks that hold. -/
theorem checkOrder : Obligations.CheckOrder := by
  intro i s hrun m voiceOk chanOk
  refine ⟨fun hu hv => ?_, fun hu hv hn => ?_, fun hu hv hn hc => ?_, fun hk hv hc hx => ?_, fun hk hv hc hx => ?_⟩ <;>
    refine faults_of_decodeChecks hrun ?_
  · exact decodeChecks_voice_fails hu hv
  · rw [decodeChecks_of_voice hv]
    exact require_bind_fails (check_fails hu (decide_eq_false (not_not_intro hn)))
  · rw [decodeChecks_of_voice hv, require_bind_of (check_holds fun _ => decide_eq_true hn)]
    exact require_bind_fails (check_fails hu (decide_eq_false hc.not_gt))
  · rw [decodeChecks_of_channel hv hc]
    exact require_bind_fails (check_fails (decide_eq_true hk) (decide_eq_false hx.not_gt))
  · have hu : i.row.1.kind ≠ .u := fun hku => OpdKind.noConfusion (hku.symm.trans hk)
    rw [decodeChecks_of_channel hv hc, require_bind_of (check_holds fun hku => absurd (of_decide_eq_true hku) hu),
      check_fails (decide_eq_true hk) hx, require_false]

/-! ### The step that runs no command (R64, R202, R220) -/

theorem illegalWord_running {w : CmdWord} {s : State} (h : Running s) :
    illegalWord w s = faultEntry .illegalCommand w.hdr s := if_neg (ne_true_of_eq_false h)

theorem illegalWord_halted {w : CmdWord} {s : State} (h : s.regs.sys.halt = true) : illegalWord w s = refuse s := if_pos h

/-- Settles O7: `step_waits` and `step_illegal` say what the step is, and the halt flag which answer the word gets. -/
theorem stepWithoutACommand : Obligations.StepWithoutACommand := by
  refine fun s => ⟨step_waits, fun w rest e hp hd => ⟨fun hrun => ?_, fun hhalt => ?_⟩⟩
  · exact (step_illegal hp hd).trans (congrArg _ (illegalWord_running hrun))
  · exact (step_illegal hp hd).trans (congrArg _ (illegalWord_halted hhalt))

end Sys2Proof.Machine

/-! SUPPORT. The counts: `SYS.SETCH`, `SYS.SETBLK`, `VB.SETACTIVE`, and the prepares that need a channel count
(spec/40_system.md R75, R76, spec/45_voice_bank.md R133, spec/60_exceptions.md R205 codes 3 and 6). -/

namespace Sys2Proof.Machine

/-! ### The body of each command behind its checks -/

section
variable {s : State} {n : BitVec 64}

theorem exec_sysSetblk (hn : IntOpd n) :
    exec (.sysSetblk n) s =
      run (.sysSetblk n) s (.ok (0, { s.regs with sys := { s.regs.sys with blkHint := n.setWidth 32 } })) := by
  have low_bits : BitVec.ofNat 32 (uOperand n) = n.setWidth 32 := by
    rw [uOperand_of_intOpd hn, BitVec.ofNat_toNat]
  rw [← low_bits]
  rfl

theorem exec_sysSetch (hn : IntOpd n) :
    exec (.sysSetch n) s = run (.sysSetch n) s (do
      require (decide (n.toNat ≠ 0 ∧ n.toNat ≤ s.cfg.nChMax)) .channels
      require (s.regs.eng.rem == 0) .sequence
      return (0, setChannels s.kit n.toNat s.regs)) := by
  rw [← uOperand_of_intOpd hn]
  rfl

theorem exec_vbSetactive (hn : IntOpd n) :
    exec (.vbSetactive n) s = run (.vbSetactive n) s (do
      require (decide (1 ≤ n.toNat ∧ n.toNat ≤ s.cfg.nVoices)) .voicesRange
      return (0, { s.regs with vb := { s.regs.vb with active := n.toNat } })) := by
  rw [← uOperand_of_intOpd hn]
  rfl

end

/-! ### What fails (R205 codes 3 and 6) -/

/-- The checks in front of every prepare: before the first `SYS.SETCH` the second one fails (R75). -/
theorem prepare_checks_uncounted {β : Type} {s : State} {f : Unit → Except Cause β} (closed : Closed s)
    (uncounted : s.regs.sys.nch = 0) :
    (require (s.regs.eng.rem == 0) .sequence >>= fun _ => require (s.regs.sys.nch != 0) .channels >>= f) =
      .error .channels := by
  rw [require_bind_of (closed_check closed)]
  exact require_bind_fails (bne_eq_false_iff_eq.mpr uncounted)

/-- A count of 0 or above the greatest is outside its range. -/
theorem count_check_fails {n bound : Nat} (h : n = 0 ∨ bound < n) : decide (n ≠ 0 ∧ n ≤ bound) = false :=
  decide_eq_false fun ⟨positive, le⟩ => h.elim positive le.not_gt

/-- Settles O14: a setter fails its own check of the count, and each prepare fails as `prepare_checks_uncounted` says. -/
theorem countFaults : Obligations.CountFaults := by
  intro s v x n hrun hx hn
  refine ⟨fun hbad => ?_, fun uncounted closed => ⟨fun hv => ?_, ?_, ?_⟩, fun hbad => ?_⟩
  · rw [Faults, exec_sysSetch hn]
    exact run_faults hrun (decodeChecks_plain rfl hn) (require_bind_fails (count_check_fails hbad))
  · exact run_faults hrun (decodeChecks_voice rfl hv hx) (prepare_checks_uncounted closed uncounted)
  · exact run_faults hrun (decodeChecks_plain rfl hx) (prepare_checks_uncounted closed uncounted)
  · exact run_faults hrun (decodeChecks_plain rfl hx) (prepare_checks_uncounted closed uncounted)
  · rw [Faults, exec_vbSetactive hn]
    refine run_faults hrun (decodeChecks_plain rfl hn) (require_bind_fails ?_)
    simpa only [Nat.one_le_iff_ne_zero] using count_check_fails hbad

/-! ### What `SYS.SETCH` and `SYS.SETBLK` write (R75, R76) -/

theorem setChannels_same (K : Kit Sample) (r : Regs Sample) : setChannels K r.sys.nch r = r := if_pos rfl

/-- What a new count writes (R75): the count, and the prepare flags of every voice, the engine and the bank cleared. -/
theorem setChannels_new {K : Kit Sample} {n : Nat} {r : Regs Sample} (h : n ≠ r.sys.nch) :
    setChannels K n r =
      { r.updateMdls K.P.nVoices (fun _ m => { m with prep := false }) with
        sys := { r.sys with nch := n }
        eng := { r.eng with prep := false }
        vb := { r.vb with prep := false } } := if_neg h

/-- `SYS.SETCH` in range with no block open completes (R75). -/
theorem sysSetch_completes {s : State} {n : BitVec 64} (hrun : Running s) (hn : IntOpd n) (hlo : 1 ≤ n.toNat)
    (hhi : n.toNat ≤ s.cfg.nChMax) (closed : Closed s) :
    Completes (.sysSetch n) s (setChannels s.kit n.toNat s.regs) 0 := by
  have in_range : decide (n.toNat ≠ 0 ∧ n.toNat ≤ s.cfg.nChMax) = true := decide_eq_true ⟨Nat.ne_zero_of_lt hlo, hhi⟩
  rw [Completes, exec_sysSetch hn]
  refine run_completes (.inl hrun) (decodeChecks_plain rfl hn) ?_
  rw [require_bind_of in_range, require_bind_of (closed_check closed)]
  rfl

/-- Settles O21: `SYS.SETCH` writes what `setChannels` gives, by whether the count is the old one. -/
theorem systemSetters : Obligations.SystemSetters := by
  intro s n hrun hn
  refine ⟨?_, fun hlo hhi closed => ⟨fun same => ?_, fun new => ?_⟩⟩
  · rw [Completes, exec_sysSetblk hn]
    exact run_completes (.inl hrun) (decodeChecks_plain rfl hn) rfl
  · have done := sysSetch_completes hrun hn hlo hhi closed
    rwa [same, setChannels_same] at done
  · refine ⟨_, sysSetch_completes hrun hn hlo hhi closed, ?_⟩
    rw [setChannels_new new]
    exact ⟨rfl, rfl, rfl, rfl, rfl, rfl, getMdl_updateMdls _ _ s.regs⟩

end Sys2Proof.Machine

/-! SUPPORT. The smoothed parameter (spec/41_smoothed_parameter.md R80 to R86): each case of a new target, one sample in closed
form, and the ramp over the real numbers. -/

namespace Sys2Proof.Machine

/-! ### A new target and one sample (R81, R83) -/

section
variable {S : Type} {A : Arith S} {p : Smoother S} {x : S}

theorem smSetTarget_same (h : A.eq x p.tgt = true) : smSetTarget A p x = p := if_pos h

theorem smSetTarget_jump (h : A.eq x p.tgt = false) (hn : p.n = 0) :
    smSetTarget A p x = { p with cur := x, tgt := x, cnt := 0, step := A.zero } := by
  simp only [smSetTarget, h, hn, Bool.false_eq_true, if_false, if_true, smSetBoth]

theorem smSetTarget_ramp (h : A.eq x p.tgt = false) (hn : p.n ≠ 0) :
    smSetTarget A p x = { p with tgt := x, cnt := p.n, step := A.div (A.sub x p.cur) (A.ofNat p.n) } := by
  simp only [smSetTarget, h, hn, Bool.false_eq_true, if_false]

variable (A p)

theorem smNext_value :
    (smNext A p).1 = if p.cnt = 0 then p.tgt else if p.cnt = 1 then p.tgt else A.add p.cur p.step := by
  rcases smNext_cases A p with ⟨hc, e⟩ | ⟨hc, e⟩ | ⟨hc, e⟩
  · rw [e, if_pos hc]
  · rw [e, if_neg (by omega), if_pos hc]
  · rw [e, if_neg (by omega), if_neg (by omega)]

theorem smNext_state :
    (smNext A p).2 = if p.cnt = 0 then p else { p with cur := (smNext A p).1, cnt := p.cnt - 1 } := by
  rcases smNext_cases A p with ⟨hc, e⟩ | ⟨hc, e⟩ | ⟨hc, e⟩ <;> rw [e]
  · rw [if_pos hc]
  · rw [if_neg (by omega), hc]
  · rw [if_neg (by omega)]

end

/-! ### A ramp over the real numbers (R86) -/

/-- The smoother one sample on, over `real`. -/
noncomputable def rampNext (p : Smoother ℝ) : Smoother ℝ := (smNext Arith.real p).2

section
variable {p : Smoother ℝ}

theorem OnRamp.of_settled (hc : p.cnt = 0) (h : p.cur = p.tgt) : OnRamp p := by
  simp [OnRamp, hc, h]

theorem OnRamp.settled (h : OnRamp p) (hc : p.cnt = 0) : p.cur = p.tgt := by
  simpa [OnRamp, hc] using h

theorem OnRamp.distance (h : OnRamp p) : p.tgt - p.cur = p.cnt * p.step := by
  unfold OnRamp at h
  linarith

theorem rampNext_of_rest (hc : p.cnt = 0) : rampNext p = p := by
  rw [rampNext, smNext_state, if_pos hc]

/-- On a ramp every sample adds `STEP`, the last one too: there `CUR + STEP` is the target. -/
theorem rampNext_of_ramp (h : OnRamp p) (hc : 0 < p.cnt) :
    rampNext p = { p with cur := p.cur + p.step, cnt := p.cnt - 1 } := by
  have value : (smNext Arith.real p).1 = p.cur + p.step := by
    rw [smNext_value, if_neg hc.ne']
    split
    · next last => simpa [OnRamp, last] using h.symm
    · rfl
  rw [rampNext, smNext_state, if_neg hc.ne', value]

/-- `k` samples inside a ramp. -/
theorem rampNext_iterate (h : OnRamp p) {k : Nat} (hk : k ≤ p.cnt) :
    rampNext^[k] p = { p with cur := p.cur + k * p.step, cnt := p.cnt - k } := by
  induction k with
  | zero => simp
  | succ k ih =>
    have here : OnRamp { p with cur := p.cur + k * p.step, cnt := p.cnt - k } := by
      have hcast : ((p.cnt - k : Nat) : ℝ) = p.cnt - k := Nat.cast_sub (by omega)
      have distance := h.distance
      simp only [OnRamp, hcast]
      linarith
    have more : 0 < p.cnt - k := by omega
    have add_one : p.cur + k * p.step + p.step = p.cur + (k + 1 : Nat) * p.step := by
      push_cast
      ring
    rw [Function.iterate_succ_apply', ih (by omega), rampNext_of_ramp here more, add_one, Nat.sub_sub]

/-- The samples from the end of the ramp on stay at the target. -/
theorem rampNext_iterate_ended (h : OnRamp p) {k : Nat} (hk : p.cnt ≤ k) :
    rampNext^[k] p = { p with cur := p.tgt, cnt := 0 } := by
  have ended : rampNext^[p.cnt] p = { p with cur := p.tgt, cnt := 0 } := by
    rw [rampNext_iterate h le_rfl, h, Nat.sub_self]
  rw [← Nat.sub_add_cancel hk, Function.iterate_add_apply, ended]
  exact Function.iterate_fixed (rampNext_of_rest rfl) _

/-- A skip is that many samples (R85). -/
theorem smSkip_eq_iterate (h : OnRamp p) (n : Nat) : smSkip Arith.real p n = rampNext^[n] p := by
  rcases smSkip_cases Arith.real p n with ⟨hc, e⟩ | ⟨hc, e⟩
  · rw [e, rampNext_iterate_ended h hc]
  · have skipped : p.cur + p.step * n = p.cur + n * p.step := by ring
    rw [e, rampNext_iterate h hc.le, ← skipped]
    rfl

/-! ### The operations keep a ramp on its way -/

theorem rampNext_onRamp (h : OnRamp p) : OnRamp (rampNext p) := by
  rcases Nat.eq_zero_or_pos p.cnt with hc | hc
  · rwa [rampNext_of_rest hc]
  · have hcast : ((p.cnt - 1 : Nat) : ℝ) = p.cnt - 1 := Nat.cast_pred hc
    have distance := h.distance
    rw [rampNext_of_ramp h hc]
    simp only [OnRamp, hcast]
    linarith

theorem smSkip_onRamp (h : OnRamp p) (n : Nat) : OnRamp (smSkip Arith.real p n) := by
  rw [smSkip_eq_iterate h n]
  exact Function.Iterate.rec OnRamp h (fun _ => rampNext_onRamp) n

theorem smSetTarget_real_ramp {x : ℝ} (hx : x ≠ p.tgt) (hn : p.n ≠ 0) :
    smSetTarget Arith.real p x = { p with tgt := x, cnt := p.n, step := (x - p.cur) / p.n } :=
  smSetTarget_ramp (decide_eq_false hx) hn

/-- A new ramp is on its way: `N` steps of `(x - CUR) / N` reach the target `x`. -/
theorem newRamp_onRamp (x : ℝ) (hn : p.n ≠ 0) :
    OnRamp { p with tgt := x, cnt := p.n, step := (x - p.cur) / p.n } := by
  have hn' : (p.n : ℝ) ≠ 0 := Nat.cast_ne_zero.mpr hn
  simp only [OnRamp]
  field_simp
  ring

theorem smSetTarget_onRamp (h : OnRamp p) (x : ℝ) : OnRamp (smSetTarget Arith.real p x) := by
  rcases smSetTarget_cases Arith.real p x with ⟨_, e⟩ | ⟨_, _, e⟩ | ⟨_, hn, e⟩ <;> rw [e]
  · exact h
  · exact .of_settled rfl rfl
  · exact newRamp_onRamp x hn

/-- A sample of a ramp moves `CUR` toward the target by `|STEP|`, never past it (R86). -/
theorem rampNext_approaches (h : OnRamp p) (hc : 0 < p.cnt) :
    |p.tgt - (rampNext p).cur| + |p.step| = |p.tgt - p.cur| := by
  have hcast : ((p.cnt - 1 : Nat) : ℝ) = p.cnt - 1 := Nat.cast_pred hc
  have left : p.tgt - (rampNext p).cur = (p.cnt - 1 : Nat) * p.step := by
    have distance := h.distance
    rw [rampNext_of_ramp h hc, hcast]
    linarith
  rw [left, h.distance, abs_mul, abs_mul, Nat.abs_cast, Nat.abs_cast, hcast]
  ring

end

/-- Settles O55: on a ramp every sample adds `STEP`, so `k` samples add `k * STEP`, and `N` of them reach a new target. -/
theorem smootherOverReals : Obligations.SmootherOverReals := by
  intro p _ h next
  refine ⟨fun x fs ramp => ⟨smSetTarget_onRamp h x, .of_settled rfl rfl, .of_settled rfl rfl⟩,
    fun n => ⟨smSkip_onRamp h n, smSkip_eq_iterate h n⟩, rampNext_onRamp h, rampNext_approaches h, fun x hx hn => ?_⟩
  have started := newRamp_onRamp x hn.ne'
  rw [smSetTarget_real_ramp hx hn.ne']
  refine ⟨rampNext_iterate_ended started le_rfl, fun k hk => ?_⟩
  have left : (next^[k] { p with tgt := x, cnt := p.n, step := (x - p.cur) / p.n }).cnt = p.n - k :=
    congrArg Smoother.cnt (rampNext_iterate started hk.le)
  omega

end Sys2Proof.Machine

/-! SUPPORT. The decode checks of the formats with an immediate, which no check of R58 items 4 to 7 reads. -/

namespace Sys2Proof.Machine

section
variable {i : Instr} {s : State} {v c : BitVec 4} {op : BitVec 8} {k top : BitVec 16} {x : BitVec 64}
  {kind : OpdKind}

theorem decodeChecks_bothImm (row : i.row = (.bothImm top kind, ⟨op, v, c, k, x⟩)) (hv : VoiceOk s v) (hc : ChanOk s c)
    (hx : OperandOk s x kind) : decodeChecks i s = .ok () :=
  decodeChecks_of_row row (fun _ => hv) (fun _ => hc) hx

theorem decodeChecks_imm (row : i.row = (.imm top kind, ⟨op, 0, 0, k, x⟩)) (hx : OperandOk s x kind) :
    decodeChecks i s = .ok () :=
  decodeChecks_of_row row nofun nofun hx

end

end Sys2Proof.Machine

/-! SUPPORT. The oscillator commands (spec/42_oscillator.md R91 to R96): the next state each of them leaves. -/

namespace Sys2Proof.Machine

/-- Settles O22: both commands write one oscillator, and the ramp length of the prepare is a `u32` (R192). -/
theorem oscPrepares : Obligations.OscPrepares := by
  intro s v c fs ⟨hrun, hv, hc⟩ hx A o x N
  refine ⟨fun closed rate => ⟨toU32 N, toU32_lt N, toU32_of_nonneg, ?_⟩, ?_⟩
  · refine run_completes (.inl hrun) (decodeChecks_both rfl hv hc hx) ?_
    rw [require_bind_of (closed_check closed), require_bind_of rate]
    rfl
  · exact run_completes (.inl hrun) (decodeChecks_both (kind := .none) rfl hv hc trivial) rfl

section
variable {s : State} {v c : BitVec 4}

/-- `OSC.SETPHASE` writes the retargeted phase smoother (R94). -/
theorem oscSetphase_completes {opd : BitVec 64} {ph : Smoother Sample} (admits : Admits s v c) (hx : FiniteOpd s opd)
    (target : smSetTarget s.kit.A (s.regs.getOsc v.toNat c.toNat).ph (sOperand s opd) = ph) :
    Completes (.oscSetphase v c opd) s
      (s.regs.setOsc v.toNat c.toNat { s.regs.getOsc v.toNat c.toNat with ph := ph }) 0 := by
  obtain ⟨hrun, hv, hc⟩ := admits
  subst target
  exact run_completes (.inl hrun) (decodeChecks_both (kind := .s) rfl hv hc hx) rfl

/-- What the oscillator answers when its phase is `ph`: the table read between two words at the position plus the phase
(R96). -/
def tableSample {S : Type} (K : Kit S) (o : Osc S) (ph : S) : S :=
  let p := K.A.wrap (K.A.add o.pos (K.A.mul ph (K.A.ofNat K.P.tableSize))) K.P.tableSize
  let i := K.A.floorNat p
  lerp K.A (rom K.A K.P.tableSize o.type i) (rom K.A K.P.tableSize o.type (i + 1)) (K.A.sub p (K.A.ofNat i))

theorem oscProcess_eq {S : Type} (K : Kit S) (o : Osc S) :
    oscProcess K o = (tableSample K o (smNext K.A o.ph).1,
      { o with ph := (smNext K.A o.ph).2, pos := K.A.wrap (K.A.add o.pos o.delta) K.P.tableSize }) := rfl

theorem oscProcess_completes (admits : Admits s v c) (prep : (s.regs.getOsc v.toNat c.toNat).prep = true) :
    Completes (.oscProcess v c) s
      (s.regs.setOsc v.toNat c.toNat (oscProcess s.kit (s.regs.getOsc v.toNat c.toNat)).2)
      (oscProcess s.kit (s.regs.getOsc v.toNat c.toNat)).1 := by
  obtain ⟨hrun, hv, hc⟩ := admits
  refine run_completes (.inl hrun) (decodeChecks_both (kind := .none) rfl hv hc trivial) ?_
  rw [require_bind_of prep]
  rfl

end

/-- Settles O23: each setter writes its register, and the phase target goes by the three cases of `SmSetTarget` (R81). -/
theorem oscSetters : Obligations.OscSetters := by
  intro s v c opd k admits hx A o x write
  have ⟨hrun, hv, hc⟩ := admits
  exact ⟨run_completes (.inl hrun) (decodeChecks_both (kind := .s) rfl hv hc hx) rfl,
    run_completes (.inl hrun) (decodeChecks_bothImm (kind := .none) rfl hv hc trivial) rfl,
    fun same => oscSetphase_completes admits hx (smSetTarget_same same),
    fun new hn => oscSetphase_completes admits hx (smSetTarget_jump new hn),
    fun new hn => oscSetphase_completes admits hx (smSetTarget_ramp new hn)⟩

/-- Settles O24: the sample is the table read at the phase that `SmNext` gives, and `SmNext` leaves the phase smoother. -/
theorem oscProcesses : Obligations.OscProcesses := by
  intro s v c admits prep A T o ph p i y
  have done := oscProcess_completes admits prep
  have value : (smNext A o.ph).1 = ph := smNext_value A o.ph
  rw [oscProcess_eq, smNext_state, value] at done
  exact done

end Sys2Proof.Machine

/-! SUPPORT. The setters of a modulated delay line's targets, and one sample of one channel (spec/44_modulated_delay_line.md
R115, R117, R120). -/

namespace Sys2Proof.Machine

/-- Settles O33: inside its bound the target is accepted, and one smoother is retargeted. -/
theorem mdlTargets : Obligations.MdlTargets := by
  intro s v c opd ⟨hrun, hv, hc⟩ hx A x m
  refine ⟨fun pos below => ?_, fun nonneg le => ?_⟩
  · have accepted : delayInRange A m x = true := Bool.and_eq_true_iff.mpr ⟨pos, below⟩
    refine run_completes (.inl hrun) (decodeChecks_both (kind := .s) rfl hv hc hx) ?_
    rw [mdlSetDelay, require_bind_of accepted]
    rfl
  · have accepted : depthInRange A m x = true := Bool.and_eq_true_iff.mpr ⟨nonneg, le⟩
    refine run_completes (.inl hrun) (decodeChecks_both (kind := .s) rfl hv hc hx) ?_
    rw [mdlSetDepth, require_bind_of accepted]
    rfl

/-- A channel that has run has its smoothers and its oscillator one sample on, and one word of its RAM written (R105, R120). -/
theorem VoiceRan.stepped {S : Type} [Inhabited S] [DecidableEq S] {K : Kit S} {r r' : Regs S} {v c : Nat} {x : S}
    (h : VoiceRan K r r' v c x) (canonical : (r.getDly v c).ram.wf K.A.zero = true) : VoiceStepped K r r' v c x where
  osc := h.osc
  dt := h.dt
  dp := h.dp
  size := by rw [h.dly]; rfl
  cur := by rw [h.dly]; rfl
  pushed := by
    rw [Regs.dram, h.dly]
    exact (Memory.read_write _ canonical _ _ _).trans (if_pos rfl)
  kept k hk := by
    rw [Regs.dram, h.dly]
    exact (Memory.read_write _ canonical _ _ _).trans (if_neg hk)

/-- Settles O35: with its read inside the buffer the voice answers `voiceOut`, and one cell has run. -/
theorem mdlProcesses : Obligations.MdlProcesses := by
  intro s v c opd ⟨hrun, hv, hc⟩ hx prep readOk canonical x
  rcases mdlProcess_cases s.kit v.toNat c.toNat x s.regs with ⟨_, r, he, ran, same, scalars, outside⟩ | ⟨hbad, _⟩
  · refine ⟨r, ?_, ran.stepped canonical, fun u d hud => ?_, scalars, outside.sys, outside.vb, outside.flt, outside.eng⟩
    · refine run_completes (.inl hrun) (decodeChecks_both (kind := .s) rfl hv hc hx) ?_
      rw [require_bind_of prep, he, ok_bind]
      rfl
    · obtain ⟨osc, dly, dt, dp⟩ := same u d hud
      exact ⟨osc, dly, dt, dp⟩
  · exact absurd readOk hbad

end Sys2Proof.Machine

/-! SUPPORT. The engine's prepare and its setters (spec/47_chorus_engine.md R171, R173 to R177): the whole next state. -/

namespace Sys2Proof.Machine

section
variable {S : Type} [Inhabited S] {K : Kit S} {r : Regs S} {fs : S}

/-! ### The bank prepared (R131) -/

theorem vbPrepare_ok (alloc : ∀ v < K.P.nVoices, AllocOk K (r.getMdl v).maxDelay fs) :
    ∃ q, vbPrepare K fs r = .ok q ∧ BankPrepared K fs r q := by
  have done : ∃ q, vbPrepare K fs r = .ok q := by
    rcases mdlPrepares_cases K K.P.nVoices fs r with ⟨_, q, he, _⟩ | ⟨⟨v, hv, hbad⟩, _⟩
    · exact ⟨_, by rw [vbPrepare, he, ok_bind]; rfl⟩
    · exact absurd (alloc v hv) hbad
  obtain ⟨q, he⟩ := done
  exact ⟨q, he, vbPrepare_yields K fs r q he⟩

/-- A case split on the voice alone serves a register written in some channels of some voices. -/
theorem eq_ite_cell {α : Type} {v n c m : Nat} {x new old : α} (inside : v < n → x = if c < m then new else old)
    (outside : n ≤ v → x = old) : x = if v < n ∧ c < m then new else old := by
  by_cases hv : v < n
  · simpa [hv] using inside hv
  · simpa [hv] using outside (Nat.le_of_not_lt hv)

/-- Every cell of every voice after a prepare of the bank: those of the voices and channels of the build are prepared, and the
others are as before (R111, R131). -/
structure CellsPrepared (K : Kit S) (fs : S) (r q : Regs S) (v c : Nat) : Prop where
  osc : q.getOsc v c = if v < K.P.nVoices ∧ c < r.sys.nch then oscPrepare K fs (r.getOsc v c) else r.getOsc v c
  dly : q.getDly v c = if v < K.P.nVoices ∧ c < r.sys.nch then freshBuffer S (bufferWords K.A (r.getMdl v).maxDelay fs)
    else r.getDly v c
  dp : (q.getMdl v).dp.get c = if v < K.P.nVoices ∧ c < r.sys.nch then
    smReset K.A ((r.getMdl v).dp.get c) fs (K.A.lit 2 10) else (r.getMdl v).dp.get c
  dt : (q.getMdl v).dt.get c = if v < K.P.nVoices ∧ c < r.sys.nch then
    smReset K.A ((r.getMdl v).dt.get c) fs (K.A.lit 5 10) else (r.getMdl v).dt.get c

theorem BankPrepared.cells {q : Regs S} (h : BankPrepared K fs r q) (v c : Nat) : CellsPrepared K fs r q v c where
  osc := eq_ite_cell (fun hv => (h.voices v hv).osc c) fun hv => (h.others v hv).osc c
  dly := eq_ite_cell (fun hv => (h.voices v hv).dly c) fun hv => (h.others v hv).dly c
  dp := eq_ite_cell (fun hv => (h.voices v hv).dp c) fun hv => by rw [(h.others v hv).mdl]
  dt := eq_ite_cell (fun hv => (h.voices v hv).dt c) fun hv => by rw [(h.others v hv).mdl]

/-! ### The filters of a prepared engine (R152, R156, R158) -/

/-- A reset of the filters clears both state words of every filter of every channel (R158). -/
theorem fltReset_clears (f : Flt S) {c : Nat} (hc : c < K.P.nChMax) :
    (fltReset K f).boost.get c = ⟨K.A.zero, K.A.zero⟩ ∧ (fltReset K f).cut.get c = ⟨K.A.zero, K.A.zero⟩ ∧
      (fltReset K f).hp.get c = ⟨K.A.zero, K.A.zero⟩ ∧ (fltReset K f).lp.get c = ⟨K.A.zero, K.A.zero⟩ := by
  have cleared : ∀ xs : Bank (FState S), (xs.update K.P.nChMax fun _ _ => FState.clear K.A).get c = ⟨K.A.zero, K.A.zero⟩ :=
    fun xs => (Bank.get_update _ _ xs c).trans (if_pos hc)
  exact ⟨cleared _, cleared _, cleared _, cleared _⟩

/-- The filters that `ENG.PREPARE` leaves: the coefficients of the shelves and of both cutoff targets, and no history
(R171). -/
def preparedFilters (K : Kit S) (fs : S) (e : Eng S) (f : Flt S) : Flt S :=
  fltReset K { f with
    bcoef := shelfCoef K.A fs (K.A.lit 200 1) (K.A.lit 1 1) (K.A.lit 13 10)
    ccoef := shelfCoef K.A fs (K.A.lit 200 1) (K.A.lit 1 1) (K.A.lit 7 10)
    hpg := (svfGains K e.hpfc.tgt fs).1, hph := (svfGains K e.hpfc.tgt fs).2
    lpg := (svfGains K e.lpfc.tgt fs).1, lph := (svfGains K e.lpfc.tgt fs).2 }

/-- The engine's own registers after `ENG.PREPARE` (R171). -/
def preparedEngine (K : Kit S) (fs : S) (e : Eng S) : Eng S :=
  { engResetRamps K fs e with chcnt := 0, prep := true }

omit [Inhabited S] in
theorem refreshCoefs_ok (hp : CutoffOk K.A r.eng.hpfc.cur fs) (lp : CutoffOk K.A r.eng.lpfc.cur fs) :
    refreshCoefs K fs r = .ok { r with flt := { r.flt with
      hpg := (svfGains K r.eng.hpfc.cur fs).1, hph := (svfGains K r.eng.hpfc.cur fs).2
      lpg := (svfGains K r.eng.lpfc.cur fs).1, lph := (svfGains K r.eng.lpfc.cur fs).2 } } := by
  rcases refreshCoefs_spec K fs r with ⟨_, _, he⟩ | ⟨hbad, _⟩
  · exact he
  · exact absurd ⟨hp, lp⟩ hbad

/-- `ENG.PREPARE`'s body (R171): a reset smoother stands at its target, so the cutoffs refreshed from are the targets. -/
theorem engPrepare_ok (alloc : ∀ v < K.P.nVoices, AllocOk K (r.getMdl v).maxDelay fs)
    (hp : CutoffOk K.A r.eng.hpfc.tgt fs) (lp : CutoffOk K.A r.eng.lpfc.tgt fs) :
    ∃ q, BankPrepared K fs r q ∧ engPrepare K fs r = .ok { q with
      flt := preparedFilters K fs r.eng r.flt, eng := preparedEngine K fs r.eng } := by
  obtain ⟨q, he, bank⟩ := vbPrepare_ok alloc
  refine ⟨q, bank, ?_⟩
  rw [engPrepare, he, ok_bind, bank.flt, bank.eng]
  show refreshCoefs K fs _ >>= _ = _
  rw [refreshCoefs_ok hp lp]
  rfl

end

/-- Settles O42: the checks hold, the body prepares as `engPrepare_ok` says, and the cells are the prepared bank's. -/
theorem engPrepares : Obligations.EngPrepares := by
  intro s fs hrun closed counted hx A x e nv nch rate hp lp alloc
  obtain ⟨q, bank, he⟩ := engPrepare_ok (K := s.kit) alloc hp lp
  have cutoffs : (belowNyquist A e.hpfc.tgt x && belowNyquist A e.lpfc.tgt x) = true :=
    Bool.and_eq_true_iff.mpr ⟨hp.2, lp.2⟩
  refine ⟨{ q with flt := preparedFilters s.kit x e s.regs.flt, eng := preparedEngine s.kit x e }, ?_, rfl,
    Bank.get_update _ _ _, rfl, rfl, rfl, rfl, fun c hc => fltReset_clears _ hc, bank.vb, bank.sys,
    fun v c => (bank.cells v c).osc, fun v c => (bank.cells v c).dly, fun v c => (bank.cells v c).dp,
    fun v c => (bank.cells v c).dt, fun v hv => (bank.voices v hv).mdl⟩
  refine run_completes (.inl hrun) (decodeChecks_plain (kind := .s) rfl hx) ?_
  rw [require_bind_of (closed_check closed), require_bind_of (counted_check counted), require_bind_of rate,
    require_bind_of cutoffs, he, ok_bind]
  rfl

/-! ### The setters (R173 to R177) -/

/-- A positive cutoff, on a prepared engine below half the rate, is accepted (R175, R176). -/
theorem cutoffOk_of {S : Type} {A : Arith S} {e : Eng S} {hz : S} (pos : A.lt A.zero hz = true)
    (below : e.prep = true → A.lt hz (A.div e.fs (A.lit 2 1)) = true) : cutoffOk A e hz = true :=
  Bool.and_eq_true_iff.mpr ⟨pos, check_holds below⟩

/-- Settles O44: the checks of each setter hold, and each writes its own part of the engine. -/
theorem engSetters : Obligations.EngSetters := by
  intro s opd k hp lp hrun hx A x e
  refine ⟨run_completes (.inl hrun) (decodeChecks_imm (kind := .none) rfl trivial) rfl,
    run_completes (.inl hrun) (decodeChecks_imm (kind := .none) rfl trivial) rfl, fun lo hi => ?_, fun pos below => ?_⟩
  · have unit : inUnit A x = true := Bool.and_eq_true_iff.mpr ⟨lo, hi⟩
    refine ⟨e.mix.update s.cfg.nChMax fun _ p => smSetTarget A p x, ?_, Bank.get_update _ _ _⟩
    refine run_completes (.inl hrun) (decodeChecks_plain (kind := .s) rfl hx) ?_
    rw [require_bind_of unit]
    rfl
  · have accepted : cutoffOk A e x = true := cutoffOk_of pos below
    constructor <;>
    · refine run_completes (.inl hrun) (decodeChecks_plain (kind := .s) rfl hx) ?_
      rw [require_bind_of accepted]
      rfl

end Sys2Proof.Machine

/-! SUPPORT. Operands outside the range of their rule (spec/60_exceptions.md R205 code 8). -/

namespace Sys2Proof.Machine

/-- A range of two bounds is left when one of them is passed. -/
theorem range_check_fails {lower upper : Bool} (h : ¬(lower = true ∧ upper = true)) : (lower && upper) = false :=
  Bool.eq_false_iff.mpr (mt Bool.and_eq_true_iff.mp h)

section
variable {β : Type} {s : State} {f : Unit → Except Cause β} {ok : Bool}

/-- The checks in front of a new rate or bound: with no block open the range of the operand decides (R91, R114, R116). -/
theorem parameter_check_fails (closed : Closed s) (h : ok = false) :
    (require (s.regs.eng.rem == 0) .sequence >>= fun _ => require ok .paramRange >>= f) = .error .paramRange := by
  rw [require_bind_of (closed_check closed)]
  exact require_bind_fails h

/-- The checks in front of a prepare of a voice, the bank or the engine: with a channel count and no block open the range of
the rate decides (R111, R131, R171). -/
theorem rate_check_fails (closed : Closed s) (counted : s.regs.sys.nch ≠ 0) (h : ok = false) :
    (require (s.regs.eng.rem == 0) .sequence >>= fun _ =>
      require (s.regs.sys.nch != 0) .channels >>= fun _ => require ok .paramRange >>= f) = .error .paramRange := by
  rw [require_bind_of (closed_check closed), require_bind_of (counted_check counted)]
  exact require_bind_fails h

end

/-- One voice whose bound the depth passes fails the check over all voices (R135). -/
theorem depthAllInRange_fails {S : Type} [Inhabited S] {K : Kit S} {d : S} {r : Regs S}
    (h : ∃ u < K.P.nVoices, ¬(K.A.le K.A.zero d = true ∧ K.A.le d (r.getMdl u).maxDepth = true)) :
    depthAllInRange K d r = false := by
  obtain ⟨u, hu, hbad⟩ := h
  have outside : depthInRange K.A (r.getMdl u) d = false := range_check_fails hbad
  exact List.all_eq_false.mpr ⟨u, List.mem_range.mpr hu, ne_true_of_eq_false outside⟩

/-- A cutoff that is not positive, or on a prepared engine not below half the rate, is refused (R175, R176). -/
theorem cutoffOk_fails {S : Type} {A : Arith S} {e : Eng S} {hz : S}
    (h : ¬A.lt A.zero hz = true ∨ (e.prep = true ∧ A.lt hz (A.div e.fs (A.lit 2 1)) = false)) :
    cutoffOk A e hz = false := by
  refine range_check_fails fun ⟨pos, below⟩ => ?_
  rcases h with notPos | ⟨prep, above⟩
  · exact notPos pos
  · exact ne_true_of_eq_false (check_fails prep above) below

/-- The two range checks in front of `ENG.PREPARE`: the rate itself, then both cutoffs against half of it (R171). -/
theorem engineRate_checks_fail {β : Type} {f : Unit → Except Cause β} {rate hp lp : Bool}
    (h : ¬(rate = true ∧ hp = true ∧ lp = true)) :
    (require rate .paramRange >>= fun _ => require (hp && lp) .paramRange >>= f) = .error .paramRange := by
  cases hrate : rate with
  | false => exact require_bind_fails rfl
  | true =>
    rw [require_bind_of rfl]
    exact require_bind_fails (range_check_fails fun cutoffs => h ⟨hrate, cutoffs⟩)

/-- Settles O15: behind the checks that hold, the range check of each command fails. -/
theorem parameterFaults : Obligations.ParameterFaults := by
  intro s v c x hrun hx A y positive inUnit
  refine ⟨fun closed hbad => ?_, fun closed hbad => ⟨fun hv => ?_, ?_⟩, fun hv hc hbad => ?_, fun hbad => ?_,
    fun hbad => ?_, fun hbad => ?_, fun closed counted hbad => ?_⟩
  · have notPositive : A.lt A.zero y = false := Bool.eq_false_iff.mpr hbad
    refine ⟨fun hv hc => ?_, fun hv => ?_, ?_, fun counted => ⟨fun hv => ?_, ?_⟩⟩
    · exact run_faults hrun (decodeChecks_both rfl hv hc hx) (parameter_check_fails closed notPositive)
    · exact run_faults hrun (decodeChecks_voice rfl hv hx) (parameter_check_fails closed notPositive)
    · exact run_faults hrun (decodeChecks_plain rfl hx) (parameter_check_fails closed notPositive)
    · exact run_faults hrun (decodeChecks_voice rfl hv hx) (rate_check_fails closed counted notPositive)
    · exact run_faults hrun (decodeChecks_plain rfl hx) (rate_check_fails closed counted notPositive)
  · exact run_faults hrun (decodeChecks_voice rfl hv hx) (parameter_check_fails closed hbad)
  · exact run_faults hrun (decodeChecks_plain rfl hx) (parameter_check_fails closed hbad)
  · have outside : depthInRange A (s.regs.getMdl v.toNat) y = false := range_check_fails hbad
    refine run_faults hrun (decodeChecks_both (kind := .s) rfl hv hc hx) ?_
    rw [mdlSetDepth, require_bind_fails outside, error_bind]
  · exact run_faults hrun (decodeChecks_plain (kind := .s) rfl hx) (require_bind_fails (depthAllInRange_fails hbad))
  · have outside : Machine.inUnit A y = false := range_check_fails hbad
    refine ⟨fun hv => ?_, ?_, ?_, ?_⟩
    · exact run_faults hrun (decodeChecks_voice (kind := .s) rfl hv hx) (require_bind_fails outside)
    · exact run_faults hrun (decodeChecks_plain (kind := .s) rfl hx) (require_bind_fails outside)
    · exact run_faults hrun (decodeChecks_plain (kind := .s) rfl hx) (require_bind_fails outside)
    · exact run_faults hrun (decodeChecks_plain (kind := .s) rfl hx) (require_bind_fails outside)
  · have outside : cutoffOk A s.regs.eng y = false := cutoffOk_fails hbad
    constructor
    · exact run_faults hrun (decodeChecks_plain (kind := .s) rfl hx) (require_bind_fails outside)
    · exact run_faults hrun (decodeChecks_plain (kind := .s) rfl hx) (require_bind_fails outside)
  · refine run_faults hrun (decodeChecks_plain (kind := .s) rfl hx) ?_
    rw [require_bind_of (closed_check closed), require_bind_of (counted_check counted)]
    exact engineRate_checks_fail hbad

end Sys2Proof.Machine

/-! SUPPORT. The rate, the wet level and the latency of a modulated delay line (spec/44_modulated_delay_line.md R118, R119,
R121). -/

namespace Sys2Proof.Machine

/-- The first oscillators of one voice updated alike (R118), in every oscillator of the block. -/
theorem getOsc_updateRow {S : Type} [Inhabited S] (r : Regs S) (v n : Nat) (f : Osc S → Osc S) (u c : Nat) :
    ({ r with osc := r.osc.put v ((r.osc.get v).update n fun _ o => f o) } : Regs S).getOsc u c =
      if u = v ∧ c < n then f (r.getOsc u c) else r.getOsc u c := by
  simp only [Regs.getOsc, Bank.get_put]
  by_cases hu : u = v
  · simp only [hu, if_true, true_and, Bank.get_update]
  · simp only [hu, if_false, false_and]

/-- Settles O34: one row of oscillators is retuned, one word is written, and the latency is a `u32` (R192). -/
theorem mdlScalars : Obligations.MdlScalars := by
  intro s v opd hrun hv hx A x m
  refine ⟨⟨_, ?_, getOsc_updateRow s.regs v.toNat s.cfg.nChMax (oscSetFreq s.kit x), rfl⟩, fun lo hi => ?_, fun prep =>
    ⟨toU32 (A.round (A.mul (m.dt.get 0).cur m.fs)), toU32_lt _, toU32_of_nonneg, ?_⟩⟩
  · exact run_completes (.inl hrun) (decodeChecks_voice (kind := .s) rfl hv hx) rfl
  · have unit : inUnit A x = true := Bool.and_eq_true_iff.mpr ⟨lo, hi⟩
    refine run_completes (.inl hrun) (decodeChecks_voice (kind := .s) rfl hv hx) ?_
    rw [require_bind_of unit]
    rfl
  · refine run_completes (.inl hrun) (decodeChecks_voice (kind := .none) rfl hv trivial) ?_
    rw [require_bind_of prep]
    rfl

end Sys2Proof.Machine

/-! SUPPORT. The oscillator over the real numbers (spec/42_oscillator.md R96, R97). -/

namespace Sys2Proof.Machine

/-! ### Positions (R13) -/

/-- `wrap` over `real`: the number less its whole turns of the table. -/
theorem wrap_real (x : ℝ) (n : Nat) : Arith.real.wrap x n = x - n * ⌊x / n⌋ := rfl

theorem wrap_real_nonneg {n : Nat} (hn : 0 < n) (x : ℝ) : 0 ≤ Arith.real.wrap x n := by
  have hn' : (0 : ℝ) < n := Nat.cast_pos.mpr hn
  have turns : (⌊x / n⌋ : ℝ) * n ≤ x := (le_div_iff₀ hn').mp (Int.floor_le _)
  rw [wrap_real]
  linarith

/-- Whole turns taken off before a sum are taken off after it. -/
theorem wrap_real_add {n : Nat} (hn : 0 < n) (x d : ℝ) :
    Arith.real.wrap (Arith.real.wrap x n + d) n = Arith.real.wrap (x + d) n := by
  have hn' : (n : ℝ) ≠ 0 := Nat.cast_ne_zero.mpr hn.ne'
  have turns : (x - n * ⌊x / n⌋ + d) / n = (x + d) / n - ⌊x / n⌋ := by
    field_simp
    ring
  simp only [wrap_real, turns, Int.floor_sub_intCast]
  push_cast
  ring

theorem wrap_real_idem {n : Nat} (hn : 0 < n) (x : ℝ) :
    Arith.real.wrap (Arith.real.wrap x n) n = Arith.real.wrap x n := by
  simpa only [add_zero] using wrap_real_add hn x 0

/-! ### The sample (R96) -/

section
variable {P : Params ℝ} (o : Osc ℝ)

/-- Over `real` the index is the whole part of the position, and the interpolation goes by its fraction. -/
theorem tableSample_real (ph : ℝ) :
    tableSample (Kit.real P) o ph =
      let p := Arith.real.wrap (o.pos + ph * P.tableSize) P.tableSize
      lerp Arith.real (rom Arith.real P.tableSize o.type ⌊p⌋₊) (rom Arith.real P.tableSize o.type (⌊p⌋₊ + 1))
        (p - ⌊p⌋₊) := rfl

/-- Every sample interpolates two words of `[-1, 1]` by a fraction of `[0, 1)`. -/
theorem abs_tableSample_real_le_one (hT : 0 < P.tableSize) (ph : ℝ) : |tableSample (Kit.real P) o ph| ≤ 1 := by
  have nonneg := wrap_real_nonneg hT (o.pos + ph * P.tableSize)
  rw [tableSample_real]
  refine abs_lerp_real_le_one (abs_rom_real_le_one _ _ _) (abs_rom_real_le_one _ _ _) ?_ ?_
  · linarith [Nat.floor_le nonneg]
  · linarith [Nat.lt_floor_add_one (Arith.real.wrap (o.pos + ph * P.tableSize) P.tableSize)]

/-! ### The `k`-th call (R97) -/

/-- With the phase at rest a call moves the position and nothing else. -/
theorem oscProcess_real_at_rest (rest : o.ph.cnt = 0) :
    (oscProcess (Kit.real P) o).2 = { o with pos := Arith.real.wrap (o.pos + o.delta) P.tableSize } := by
  rw [oscProcess_eq, smNext_state, if_pos rest]
  rfl

/-- From position 0 the `k`-th call finds the position `wrap(k * DELTA, T)`. -/
theorem oscProcess_real_iterate (hT : 0 < P.tableSize) (start : o.pos = 0) (rest : o.ph.cnt = 0) (k : Nat) :
    (fun q => (oscProcess (Kit.real P) q).2)^[k] o =
      { o with pos := Arith.real.wrap (k * o.delta) P.tableSize } := by
  induction k with
  | zero =>
    have origin : Arith.real.wrap ((0 : Nat) * o.delta) P.tableSize = o.pos := by simp [wrap_real, start]
    rw [origin]
    rfl
  | succ k ih =>
    have advance : (k : ℝ) * o.delta + o.delta = (k + 1 : Nat) * o.delta := by
      push_cast
      ring
    rw [Function.iterate_succ_apply', ih]
    rw [oscProcess_real_at_rest { o with pos := Arith.real.wrap (k * o.delta) P.tableSize } rest, wrap_real_add hT, advance]

end

/-- Settles O56: a sample is a convex combination of two table words, the guard entry copies word 0, and each call at rest
advances the position by `DELTA`. -/
theorem oscillatorOverReals : Obligations.OscillatorOverReals := by
  intro P o hsize K T
  have hT : 0 < P.tableSize := by omega
  refine ⟨?_, fun t => ?_, fun start rest target k => ?_⟩
  · rw [oscProcess_eq]
    exact abs_tableSample_real_le_one o hT _
  · rw [rom_guard, rom_of_lt _ _ hT]
  · have sample : ∀ q : Osc ℝ, q.ph = o.ph → (oscProcess K q).1 = tableSample K q 0 := fun q hq => by
      rw [oscProcess_eq, smNext_value, hq, if_pos rest, target]
    intro ok r
    have here : ok = { o with pos := r } := oscProcess_real_iterate o hT start rest k
    have wrapped : Arith.real.wrap (r + 0 * P.tableSize) P.tableSize = r := by
      rw [zero_mul, add_zero]
      exact wrap_real_idem hT _
    refine here ▸ ⟨rfl, ?_⟩
    rw [sample { o with pos := r } rfl, tableSample_real]
    simp only [wrapped]
    rfl

end Sys2Proof.Machine

/-! SUPPORT. A command with a voice field leaves every other voice alone, and a command with a channel field every other
channel (spec/42_oscillator.md R98, spec/45_voice_bank.md R146, spec/48_arithmetic_and_control.md R197). -/

namespace Sys2Proof.Machine

/-- Every register but `c` of a row is the same in both. -/
def OthersSame {α : Type} [Inhabited α] (c : Nat) (xs ys : Bank α) : Prop := ∀ d, d ≠ c → ys.get d = xs.get d

/-- Every delay and depth smoother of a line but those of channel `c` is the same in both. -/
structure OtherSmoothersSame {S : Type} [Inhabited S] (c : Nat) (m m' : Mdl S) : Prop where
  dt : OthersSame c m.dt m'.dt
  dp : OthersSame c m.dp m'.dp

/-- Every voice but `v` is the same in both. -/
def OtherVoicesSame {S : Type} [Inhabited S] (v : Nat) (r r' : Regs S) : Prop := ∀ u, u ≠ v → VoiceSame r r' u

/-- Channel `d` is the same in both, in every voice, in the filters and in the engine. -/
structure ChannelSame {S : Type} [Inhabited S] (r r' : Regs S) (d : Nat) : Prop where
  cells : ∀ v, CellSame r r' v d
  mix : r'.eng.mix.get d = r.eng.mix.get d
  inp : r'.eng.inp.get d = r.eng.inp.get d
  out : r'.eng.out.get d = r.eng.out.get d
  boost : r'.flt.boost.get d = r.flt.boost.get d
  cut : r'.flt.cut.get d = r.flt.cut.get d
  hp : r'.flt.hp.get d = r.flt.hp.get d
  lp : r'.flt.lp.get d = r.flt.lp.get d

/-- Every channel but `c` is the same in both. -/
def OtherChannelsSame {S : Type} [Inhabited S] (c : Nat) (r r' : Regs S) : Prop := ∀ d, d ≠ c → ChannelSame r r' d

/-! ### Other voices -/

section
variable {S : Type} [Inhabited S] {K : Kit S} {r : Regs S} {v : Nat}

/-- Registers whose rows of voices are the same. -/
theorem OtherVoicesSame.of_rows_eq {r' : Regs S} (osc : r'.osc = r.osc) (dly : r'.dly = r.dly) (mdl : r'.mdl = r.mdl) :
    OtherVoicesSame v r r' := fun u _ =>
  ⟨fun c => by simp only [Regs.getOsc, osc], fun c => by simp only [Regs.getDly, dly], by simp only [Regs.getMdl, mdl]⟩

theorem OtherVoicesSame.refl : OtherVoicesSame v r r := .of_rows_eq rfl rfl rfl

theorem OtherVoicesSame.trans {r₁ r₂ r₃ : Regs S} (h : OtherVoicesSame v r₁ r₂) (k : OtherVoicesSame v r₂ r₃) :
    OtherVoicesSame v r₁ r₃ := fun u hu => (h u hu).trans (k u hu)

theorem OtherVoicesSame.setOsc (c : Nat) (o : Osc S) : OtherVoicesSame v r (r.setOsc v c o) := fun _ hu =>
  ⟨fun d => (getOsc_setOsc r v c _ d o).trans (if_neg fun h => hu h.1), fun _ => rfl, rfl⟩

theorem OtherVoicesSame.setDly (c : Nat) (b : Dly S) : OtherVoicesSame v r (r.setDly v c b) := fun _ hu =>
  ⟨fun _ => rfl, fun d => (getDly_setDly r v c _ d b).trans (if_neg fun h => hu h.1), rfl⟩

theorem OtherVoicesSame.setMdl (m : Mdl S) : OtherVoicesSame v r (r.setMdl v m) := fun u hu =>
  ⟨fun _ => rfl, fun _ => rfl, (getMdl_setMdl r v u m).trans (if_neg hu)⟩

/-- The whole row of one voice's oscillators written (R118). -/
theorem OtherVoicesSame.writeRow (row : Bank (Osc S)) : OtherVoicesSame v r { r with osc := r.osc.put v row } :=
  fun u hu => ⟨fun c => congrArg (Bank.get · c) (Bank.get_put_other r.osc v u row hu), fun _ => rfl, rfl⟩

theorem mdlPrepare_otherVoices (fs : S) : Yields (OtherVoicesSame v r) (mdlPrepare K v fs r) := by
  rcases mdlPrepare_cases K v fs r with ⟨_, _, he, _, others, _⟩ | ⟨_, he⟩ <;> rw [he]
  · exact Yields.pure others
  · exact Yields.error _

/-- A new bound of one voice (R114, R116). -/
theorem SetsBound.otherVoices {set : Mdl S → Mdl S} {f : Nat → Regs S → Except Cause (Regs S)} (hf : SetsBound K set f) :
    Yields (OtherVoicesSame v r) (f v r) := by
  rw [hf.eq]
  rcases mdlBound_cases K v set r hf.prep hf.fs with ⟨_, r', he, mdl, dly, osc, _⟩ | ⟨_, _, he⟩ <;> rw [he]
  · exact Yields.pure fun u hu => ⟨fun c => by simp only [Regs.getOsc, osc],
      fun c => (dly u c).trans (if_neg fun h => hu h.1), (mdl u).trans (if_neg hu)⟩
  · exact Yields.error _

/-- One sample writes an oscillator, the line and a buffer of its own voice (R120). -/
theorem mdlProcess_otherVoices [DecidableEq S] (c : Nat) (x : S) :
    Yields (fun a => OtherVoicesSame v r a.2) (mdlProcess K v c x r) :=
  .anyBind fun _ => .pure (((OtherVoicesSame.setOsc _ _).trans (.setMdl _)).trans (.setDly _ _))

end

/-! ### Other channels -/

section
variable {α : Type} [Inhabited α] {c : Nat} {xs : Bank α}

theorem OthersSame.refl : OthersSame c xs xs := fun _ _ => rfl

theorem OthersSame.put (x : α) : OthersSame c xs (xs.put c x) := fun d hd => Bank.get_put_other xs c d x hd

end

section
variable {S : Type} [Inhabited S] {K : Kit S} {r : Regs S} {c : Nat}

/-- Operations on voices leave the filters and the engine alone, so the cells decide. -/
theorem OtherChannelsSame.of_cells {r' : Regs S} (outside : OutsideSame r r')
    (cells : ∀ v d, d ≠ c → CellSame r r' v d) : OtherChannelsSame c r r' := fun d hd =>
  ⟨fun v => cells v d hd, by rw [outside.eng], by rw [outside.eng], by rw [outside.eng], by rw [outside.flt],
    by rw [outside.flt], by rw [outside.flt], by rw [outside.flt]⟩

theorem OtherChannelsSame.refl : OtherChannelsSame c r r := .of_cells (.refl r) fun v d _ => .refl r v d

/-- What fault entry writes (R203) is no channel's. -/
theorem OtherChannelsSame.writeSys (x : Sys) : OtherChannelsSame c r { r with sys := x } := fun _ _ =>
  ⟨fun _ => ⟨rfl, rfl, rfl, rfl⟩, rfl, rfl, rfl, rfl, rfl, rfl, rfl⟩

theorem OtherChannelsSame.setOsc (v : Nat) (o : Osc S) : OtherChannelsSame c r (r.setOsc v c o) :=
  .of_cells ⟨rfl, rfl, rfl, rfl⟩ fun u d hd =>
    ⟨(getOsc_setOsc r v c u d o).trans (if_neg fun h => hd h.2), rfl, rfl, rfl⟩

theorem OtherChannelsSame.setDly (v : Nat) (b : Dly S) : OtherChannelsSame c r (r.setDly v c b) :=
  .of_cells ⟨rfl, rfl, rfl, rfl⟩ fun u d hd =>
    ⟨rfl, (getDly_setDly r v c u d b).trans (if_neg fun h => hd h.2), rfl, rfl⟩

theorem mdlSetDelay_otherSmoothers (A : Arith S) (t : S) (m : Mdl S) :
    Yields (OtherSmoothersSame c m) (mdlSetDelay A c t m) := .require fun _ => .pure ⟨.put _, .refl⟩

theorem mdlSetDepth_otherSmoothers (A : Arith S) (d : S) (m : Mdl S) :
    Yields (OtherSmoothersSame c m) (mdlSetDepth A c d m) := .require fun _ => .pure ⟨.refl, .put _⟩

theorem OtherChannelsSame.setMdl {v : Nat} {m : Mdl S} (h : OtherSmoothersSame c (r.getMdl v) m) :
    OtherChannelsSame c r (r.setMdl v m) := by
  have line : ∀ u, OtherSmoothersSame c (r.getMdl u) ((r.setMdl v m).getMdl u) := fun u => by
    rw [getMdl_setMdl]
    split
    · next hu => exact hu ▸ h
    · exact ⟨.refl, .refl⟩
  exact .of_cells ⟨rfl, rfl, rfl, rfl⟩ fun u d hd => ⟨rfl, rfl, (line u).dt d hd, (line u).dp d hd⟩

/-- One channel's oscillator written in the first voices (R141). -/
theorem OtherChannelsSame.writeColumn (n : Nat) (f : Bank (Osc S) → Osc S) :
    OtherChannelsSame c r { r with osc := r.osc.update n fun _ row => row.put c (f row) } := by
  refine .of_cells ⟨rfl, rfl, rfl, rfl⟩ fun v d hd => ⟨?_, rfl, rfl, rfl⟩
  simp only [Regs.getOsc, Bank.get_update]
  split
  · exact Bank.get_put_other _ c d _ hd
  · rfl

theorem mdlProcess_otherChannels [DecidableEq S] (v : Nat) (x : S) :
    Yields (fun a => OtherChannelsSame c r a.2) (mdlProcess K v c x r) := by
  rcases mdlProcess_cases K v c x r with ⟨_, _, he, _, same, _, outside⟩ | ⟨_, he⟩ <;> rw [he]
  · exact Yields.pure (.of_cells outside fun u d hd => same u d fun h => hd h.2)
  · exact Yields.error _

theorem vbProcess_otherChannels [DecidableEq S] (x : S) :
    Yields (fun a => OtherChannelsSame c r a.2) (vbProcess K c x r) := by
  rcases vbProcess_cases K c x r with ⟨_, _, he, _, same, _, outside⟩ | ⟨_, he⟩ <;> rw [he]
  · exact Yields.pure (.of_cells outside fun u d hd => same u d fun h => hd h.2)
  · exact Yields.error _

/-- The filters of one channel written (R159 to R162). -/
theorem OtherChannelsSame.writeFlt {f : Flt S} (boost : OthersSame c r.flt.boost f.boost)
    (cut : OthersSame c r.flt.cut f.cut) (hp : OthersSame c r.flt.hp f.hp) (lp : OthersSame c r.flt.lp f.lp) :
    OtherChannelsSame c r { r with flt := f } := fun d hd =>
  ⟨fun _ => ⟨rfl, rfl, rfl, rfl⟩, rfl, rfl, rfl, boost d hd, cut d hd, hp d hd, lp d hd⟩

/-- One input latch written (R179). -/
theorem OtherChannelsSame.writeInp (x : S) :
    OtherChannelsSame c r { r with eng := { r.eng with inp := r.eng.inp.put c x } } := fun d hd =>
  ⟨fun _ => ⟨rfl, rfl, rfl, rfl⟩, rfl, Bank.get_put_other _ c d x hd, rfl, rfl, rfl, rfl, rfl⟩

end

/-! ### Every command -/

section
variable {i : Instr} {s t : State}

theorem run_otherVoices {v : Nat} {j : Instr} {body : Result} (h : run j s body = .next t)
    (done : Yields (fun a => OtherVoicesSame v s.regs a.2) body) : OtherVoicesSame v s.regs t.regs :=
  run_regs h .refl (fun _ _ => .of_rows_eq rfl rfl rfl) done

/-- A command with a voice field leaves every other voice as it was, whatever its outcome (R98, R146). -/
theorem exec_otherVoices (h : exec i s = .next t) (hu : i.row.1.useV = true) :
    OtherVoicesSame i.row.2.v.toNat s.regs t.regs := by
  unfold exec at h
  cases i with
  | oscPrepare => exact run_otherVoices h (.require fun _ => .require fun _ => .pure (.setOsc _ _))
  | oscReset | oscSetfreq | oscSetphase | oscSettype => exact run_otherVoices h (.pure (.setOsc _ _))
  | oscProcess => exact run_otherVoices h (.require fun _ => .pure (.setOsc _ _))
  | dlyResize => exact run_otherVoices h (.require fun _ => .anyBind fun _ => .pure (.setDly _ _))
  | dlyReset => exact run_otherVoices h (.pure (.setDly _ _))
  | dlyGet | dlyGetlin => exact run_otherVoices h (.require fun _ => .anyBind fun _ => .pure .refl)
  | dlyPush => exact run_otherVoices h (.require fun _ => .pure (.setDly _ _))
  | mdlPrepare =>
    exact run_otherVoices h (.require fun _ => .require fun _ => .require fun _ =>
      .bind (mdlPrepare_otherVoices _) fun _ k => .pure k)
  | mdlReset v => exact run_otherVoices h (.pure (mdlReset_spec s.kit.A v.toNat s.regs).2.1)
  | mdlSetmaxdelay =>
    exact run_otherVoices h (.require fun _ => .require fun _ =>
      .bind (mdlSetMaxDelay_setsBound _).otherVoices fun _ k => .pure k)
  | mdlSetmaxdepth =>
    exact run_otherVoices h (.require fun _ => .require fun _ =>
      .bind (mdlSetMaxDepth_setsBound _).otherVoices fun _ k => .pure k)
  | mdlSetdelay | mdlSetdepth => exact run_otherVoices h (.anyBind fun _ => .pure (.setMdl _))
  | mdlSetrate => exact run_otherVoices h (.pure (.writeRow _))
  | mdlSetwet => exact run_otherVoices h (.require fun _ => .pure (.setMdl _))
  | mdlProcess =>
    exact run_otherVoices h (.require fun _ => .bind (mdlProcess_otherVoices _ _) fun _ k => .pure k)
  | mdlLatency => exact run_otherVoices h (.require fun _ => .pure .refl)
  | _ => cases hu

theorem run_otherChannels {c : Nat} {j : Instr} {body : Result} (h : run j s body = .next t)
    (done : Yields (fun a => OtherChannelsSame c s.regs a.2) body) : OtherChannelsSame c s.regs t.regs :=
  run_regs h .refl (fun _ _ => .writeSys _) done

/-- A command with a channel field leaves every other channel as it was, whatever its outcome (R98, R146, R197). -/
theorem exec_otherChannels (h : exec i s = .next t) (hu : i.row.1.useC = true) :
    OtherChannelsSame i.row.2.c.toNat s.regs t.regs := by
  unfold exec at h
  cases i with
  | oscPrepare => exact run_otherChannels h (.require fun _ => .require fun _ => .pure (.setOsc _ _))
  | oscReset | oscSetfreq | oscSetphase | oscSettype => exact run_otherChannels h (.pure (.setOsc _ _))
  | oscProcess => exact run_otherChannels h (.require fun _ => .pure (.setOsc _ _))
  | dlyResize => exact run_otherChannels h (.require fun _ => .anyBind fun _ => .pure (.setDly _ _))
  | dlyReset => exact run_otherChannels h (.pure (.setDly _ _))
  | dlyGet | dlyGetlin => exact run_otherChannels h (.require fun _ => .anyBind fun _ => .pure .refl)
  | dlyPush => exact run_otherChannels h (.require fun _ => .pure (.setDly _ _))
  | mdlSetdelay => exact run_otherChannels h (.bind (mdlSetDelay_otherSmoothers _ _ _) fun _ k => .pure (.setMdl k))
  | mdlSetdepth => exact run_otherChannels h (.bind (mdlSetDepth_otherSmoothers _ _ _) fun _ k => .pure (.setMdl k))
  | mdlProcess =>
    exact run_otherChannels h (.require fun _ => .bind (mdlProcess_otherChannels _ _) fun _ k => .pure k)
  | vbSetphase => exact run_otherChannels h (.pure (.writeColumn _ _))
  | vbProcess => exact run_otherChannels h (.require fun _ => .bind (vbProcess_otherChannels _) fun _ k => .pure k)
  | engIn => exact run_otherChannels h (.pure (.writeInp _))
  | engOut => exact run_otherChannels h (.pure .refl)
  | fltBoost => exact run_otherChannels h (.require fun _ => .pure (.writeFlt (.put _) .refl .refl .refl))
  | fltCut => exact run_otherChannels h (.require fun _ => .pure (.writeFlt .refl (.put _) .refl .refl))
  | fltHp => exact run_otherChannels h (.require fun _ => .pure (.writeFlt .refl .refl (.put _) .refl))
  | fltLp => exact run_otherChannels h (.require fun _ => .pure (.writeFlt .refl .refl .refl (.put _)))
  | _ => cases hu

end

/-- Settles O30: the frame by the voice field and the frame by the channel field, register by register. -/
theorem indexFrames : Obligations.IndexFrames := by
  intro i s t h
  refine ⟨fun hu v c hv => ?_, fun hu v c hc => ?_⟩
  · obtain ⟨osc, dly, mdl⟩ := exec_otherVoices h hu v hv
    exact ⟨osc c, dly c, mdl⟩
  · obtain ⟨cells, mix, inp, out, boost, cut, hp, lp⟩ := exec_otherChannels h hu c hc
    obtain ⟨osc, dly, dt, dp⟩ := cells v
    exact ⟨osc, dly, dt, dp, mix, boost, cut, hp, lp, inp, out⟩

end Sys2Proof.Machine

/-! SUPPORT. Reads outside the buffer (spec/60_exceptions.md R205 code 5, spec/43_delay_buffer.md R103, R104): the operations
that read a delay buffer, when a delay is not below `SIZE` or not at or above 0. -/

namespace Sys2Proof.Machine

section
variable {S : Type} {A : Arith S} {b : Dly S}

theorem dlyGet_range {d : Nat} (h : b.size ≤ d) : dlyGet A d b = .error .bufferRange :=
  require_bind_fails (decide_eq_false h.not_gt)

theorem dlyGetLinear_range {t : S} (h : ¬(A.le A.zero t = true ∧ A.lt t (A.ofNat b.size) = true)) :
    dlyGetLinear A t b = .error .bufferRange :=
  require_bind_fails (range_check_fails h)

/-- The check that a buffer is allocated (R103). -/
theorem allocated_check (h : 0 < b.size) : (b.size != 0) = true := bne_iff_ne.mpr h.ne'

variable [Inhabited S] [DecidableEq S] {K : Kit S} {r : Regs S}

theorem mdlProcess_range {v c : Nat} (x : S) (h : ¬ReadOk K r v c) : mdlProcess K v c x r = .error .bufferRange := by
  rcases mdlProcess_cases K v c x r with ⟨readOk, _⟩ | ⟨_, he⟩
  · exact absurd readOk h
  · exact he

/-- One voice that reads outside its buffer, active or not, is enough: every voice runs (R142). -/
theorem vbProcess_range {c : Nat} (x : S) (h : ∃ u < K.P.nVoices, ¬ReadOk K r u c) :
    vbProcess K c x r = .error .bufferRange := by
  obtain ⟨u, hu, hbad⟩ := h
  rcases vbProcess_cases K c x r with ⟨readOk, _⟩ | ⟨_, he⟩
  · exact absurd (readOk u hu) hbad
  · exact he

/-- One such voice on one channel is enough: a frame runs every channel (R180). -/
theorem engFrame_range (h : ∃ k < r.sys.nch, ∃ u < K.P.nVoices, ¬ReadOk K r u k) :
    engFrame K r = .error .bufferRange := by
  obtain ⟨k, hk, u, hu, hbad⟩ := h
  rcases engFrame_cases K r with ⟨readOk, _⟩ | ⟨_, he⟩
  · exact absurd (readOk k hk u hu) hbad
  · exact he

end

/-- Settles O17: every check before the read holds, and the read that is out of range faults. -/
theorem bufferRangeFaults : Obligations.BufferRangeFaults := by
  intro s v c x n hrun hx hn A b
  refine ⟨fun hv hc hsize => ⟨fun hbad => ?_, fun hbad => ?_⟩, fun hv hc prep hbad => ?_, fun hc prep hbad => ?_,
    fun prep hopen hbad => ?_⟩
  · refine run_faults hrun (decodeChecks_both rfl hv hc hn) ?_
    rw [require_bind_of (allocated_check hsize), uOperand_of_intOpd hn, dlyGet_range hbad, error_bind]
  · refine run_faults hrun (decodeChecks_both rfl hv hc hx) ?_
    rw [require_bind_of (allocated_check hsize), dlyGetLinear_range hbad, error_bind]
  · refine run_faults hrun (decodeChecks_both rfl hv hc hx) ?_
    rw [require_bind_of prep, mdlProcess_range _ hbad, error_bind]
  · refine run_faults hrun (decodeChecks_of_row rfl nofun (fun _ => hc) hx) ?_
    rw [require_bind_of prep, vbProcess_range _ hbad, error_bind]
  · refine run_faults hrun (decodeChecks_plain (kind := .none) rfl trivial) ?_
    rw [require_bind_of prep, require_bind_of (bne_iff_ne.mpr hopen.ne'), engFrame_range hbad, error_bind]

end Sys2Proof.Machine

/-! SUPPORT. The push (spec/43_delay_buffer.md R105): what it leaves in the buffer, and the command. -/

namespace Sys2Proof.Machine

section
variable {S : Type} [DecidableEq S] (A : Arith S) (x : S) {b : Dly S}

/-- A push moves the cursor one word down, round the ring of `SIZE` words. -/
theorem dlyPush_cur_succ (inside : b.cur < b.size) : ((dlyPush A x b).cur + 1) % b.size = b.cur := by
  by_cases first : b.cur = 0
  · have top : (dlyPush A x b).cur + 1 = b.size := by
      simp only [dlyPush, if_pos first]
      omega
    rw [top, Nat.mod_self, first]
  · have down : (dlyPush A x b).cur + 1 = b.cur := by
      simp only [dlyPush, if_neg first]
      omega
    rw [down, Nat.mod_eq_of_lt inside]

theorem dlyPush_read (canonical : b.ram.wf A.zero = true) (k : Nat) :
    (dlyPush A x b).ram.read A.zero k = if k = b.cur then x else b.ram.read A.zero k :=
  Memory.read_write A.zero canonical b.cur k x

end

/-- After a push into one buffer, only the word at that buffer's cursor reads differently, in all delay RAM. -/
theorem dram_setDly_dlyPush (A : Arith Sample) (x : Sample) (r : Regs Sample) {v c : Nat}
    (canonical : (r.getDly v c).ram.wf A.zero = true) (u d k : Nat) :
    (r.setDly v c (dlyPush A x (r.getDly v c))).dram A u d k =
      if u = v ∧ d = c ∧ k = (r.getDly v c).cur then x else r.dram A u d k := by
  rw [Regs.dram, getDly_setDly]
  by_cases here : u = v ∧ d = c
  · obtain ⟨rfl, rfl⟩ := here
    simp [Regs.dram, dlyPush_read A x canonical]
  · rw [if_neg here, if_neg fun h => here ⟨h.1, h.2.1⟩]
    rfl

theorem dlyPush_completes {s : State} {v c : BitVec 4} {x : BitVec 64} (admits : Admits s v c) (hx : FiniteOpd s x)
    (hsize : 0 < (s.regs.getDly v.toNat c.toNat).size) :
    Completes (.dlyPush v c x) s
      (s.regs.setDly v.toNat c.toNat (dlyPush s.kit.A (sOperand s x) (s.regs.getDly v.toNat c.toNat))) 0 := by
  obtain ⟨hrun, hv, hc⟩ := admits
  refine run_completes (.inl hrun) (decodeChecks_both (kind := .s) rfl hv hc hx) ?_
  rw [require_bind_of (allocated_check hsize)]
  rfl

/-- Settles O27: the pushed buffer, and `dram_setDly_dlyPush` for every word of every RAM. -/
theorem dlyPushes : Obligations.DlyPushes := by
  intro s v c x admits hx hsize canonical A b
  have word := dram_setDly_dlyPush A (sOperand s x) s.regs (v := v.toNat) (c := c.toNat) canonical
  refine ⟨dlyPush A (sOperand s x) b, dlyPush_completes admits hx hsize, rfl, fun first => if_pos first,
    fun inner => if_neg inner, ?_, fun u d k other => ?_⟩
  · rw [word, if_pos ⟨rfl, rfl, rfl⟩]
  · rw [word, if_neg other]

end Sys2Proof.Machine

/-! SUPPORT. A run of pushes and one read on the command port (spec/43_delay_buffer.md R106). -/

namespace Sys2Proof.Machine

/-! ### The ring of words (R105, R106) -/

section
variable {S : Type} [DecidableEq S]

/-- The buffer after the samples `xs` are pushed, the first one first. -/
def pushAll (A : Arith S) (xs : List S) (b : Dly S) : Dly S := xs.foldl (fun b x => dlyPush A x b) b

/-- What pushing `xs` on `b` leaves in `b'`: the cursor has moved one word down for each sample, and the word that the cursor
was at when a sample was pushed holds it, unless the cursor came back there. -/
structure RingHolds (A : Arith S) (b : Dly S) (xs : List S) (b' : Dly S) : Prop where
  size : b'.size = b.size
  inside : b'.cur < b.size
  canonical : b'.ram.wf A.zero = true
  cursor : (b'.cur + xs.length) % b.size = b.cur
  words : ∀ a < b.size, ∀ j x, (a + j) % b.size = b.cur → xs.length ≤ j + b.size → xs[j]? = some x →
    b'.ram.read A.zero a = x

variable {A : Arith S} {b b' : Dly S}

theorem RingHolds.nil (inside : b.cur < b.size) (canonical : b.ram.wf A.zero = true) : RingHolds A b [] b :=
  ⟨rfl, inside, canonical, Nat.mod_eq_of_lt inside, nofun⟩

/-- One more push writes the cursor's word, where no sample still held lies: that one would be a whole turn or more old. -/
theorem RingHolds.push {xs : List S} (h : RingHolds A b xs b') (x : S) :
    RingHolds A b (xs ++ [x]) (dlyPush A x b') := by
  obtain ⟨size, inside, canonical, cursor, words⟩ := h
  have inside' : b'.cur < b'.size := by rwa [size]
  refine ⟨size, ?_, Memory.write_wf _ canonical _ _, ?_, fun a ha j y hj held hy => ?_⟩
  · rw [← size]
    exact dlyPush_cur_lt A x (Nat.zero_lt_of_lt inside') inside'
  · have moved := dlyPush_cur_succ A x inside'
    rw [size] at moved
    rw [List.length_append, List.length_singleton, Nat.add_comm xs.length, ← Nat.add_assoc, ← Nat.mod_add_mod, moved,
      cursor]
  · rw [dlyPush_read A x canonical]
    rcases Nat.lt_trichotomy j xs.length with older | rfl | beyond
    · have elsewhere : a ≠ b'.cur := by
        rintro rfl
        have turn : xs.length ≡ j [MOD b.size] := Nat.ModEq.add_left_cancel' b'.cur (cursor.trans hj.symm)
        rw [List.length_append, List.length_singleton] at held
        exact absurd (turn.le_of_lt_add held) older.not_ge
      rw [if_neg elsewhere]
      rw [List.getElem?_append_left older] at hy
      exact words a ha j y hj (by rw [List.length_append] at held; omega) hy
    · have here : a = b'.cur :=
        (Nat.ModEq.add_right_cancel' xs.length (hj.trans cursor.symm)).eq_of_lt_of_lt ha inside
      rw [if_pos here]
      simpa using hy
    · rw [List.getElem?_eq_none (by simpa using beyond)] at hy
      cases hy

theorem ringHolds_pushAll (inside : b.cur < b.size) (canonical : b.ram.wf A.zero = true) (xs : List S) :
    RingHolds A b xs (pushAll A xs b) := by
  induction xs using List.reverseRecOn with
  | nil => exact .nil inside canonical
  | append_singleton xs x ih =>
    rw [pushAll, List.foldl_concat]
    exact ih.push x

end

/-! ### The port (R18, R106) -/

theorem core_run_succ {s u : State} (h : step s = .next u) (n : Nat) : core.run (n + 1) s = core.run n u := by
  have hstep : core.step s = .next u := h
  simp only [Host.Core.run, hstep]

/-- A sample word of the format is read as itself (R59). -/
theorem sOperand_of_lt {s : State} {x : Sample} (h : x.toNat < 2 ^ s.prec.width) : sOperand s x = x := by
  rw [sOperand, Ieee.word, Nat.mod_eq_of_lt h, BitVec.ofNat_toNat, BitVec.setWidth_eq]

/-- A sample that a command word of the block can carry (R17, R55). -/
abbrev SampleOk (s : State) (x : Sample) : Prop := Ieee.isFinite s.prec x = true ∧ x.toNat < 2 ^ s.prec.width

section
variable {s : State} {v c : BitVec 4} {rest : List CmdWord}

theorem step_dlyPush {x : Sample} (admits : Admits s v c) (hx : SampleOk s x)
    (hsize : 0 < (s.regs.getDly v.toNat c.toNat).size) (hport : s.port = encode (.dlyPush v c x) :: rest) :
    step s = .next (complete { s with port := rest }
      (s.regs.setDly v.toNat c.toNat (dlyPush s.kit.A x (s.regs.getDly v.toNat c.toNat))) 0) := by
  obtain ⟨finite, fits⟩ := hx
  have decoded : decode s.prec (encode (.dlyPush v c x)) = .ok (.dlyPush v c x) :=
    decodeOfEncode _ _ ((wf_iff _ _).mpr fits)
  have done := dlyPush_completes (s := { s with port := rest }) admits finite hsize
  have operand : sOperand { s with port := rest } x = x := sOperand_of_lt fits
  rw [operand] at done
  exact (step_command hport decoded).trans done

/-- `t` is `s` after the pushes of `xs` ran off its port, `rest` being left on it. -/
structure PortPushed (s : State) (v c : BitVec 4) (xs : List Sample) (rest : List CmdWord) (t : State) : Prop where
  prec : t.prec = s.prec
  port : t.port = rest
  admits : Admits t v c
  dly : t.regs.getDly v.toNat c.toNat = pushAll s.kit.A xs (s.regs.getDly v.toNat c.toNat)

theorem run_pushes {xs : List Sample} (admits : Admits s v c) (hxs : ∀ x ∈ xs, SampleOk s x)
    (hsize : 0 < (s.regs.getDly v.toNat c.toNat).size)
    (hport : s.port = xs.map (fun x => encode (.dlyPush v c x)) ++ rest) :
    ∃ t : State, (∀ n, core.run (xs.length + n) s = core.run n t) ∧ PortPushed s v c xs rest t := by
  induction xs generalizing s with
  | nil => exact ⟨s, fun n => by rw [List.length_nil, Nat.zero_add], rfl, hport, admits, rfl⟩
  | cons x xs ih =>
    obtain ⟨hx, hxs⟩ := List.forall_mem_cons.mp hxs
    have pushed := step_dlyPush admits hx hsize hport
    set u := complete { s with port := xs.map (fun x => encode (.dlyPush v c x)) ++ rest }
      (s.regs.setDly v.toNat c.toNat (dlyPush s.kit.A x (s.regs.getDly v.toNat c.toNat))) 0
    have buffer : u.regs.getDly v.toNat c.toNat = dlyPush s.kit.A x (s.regs.getDly v.toNat c.toNat) := by
      rw [complete_regs, getDly_setDly, if_pos ⟨rfl, rfl⟩]
    obtain ⟨t, ran, prec, port, admits', dly⟩ := ih (s := u) admits hxs (by rw [buffer]; exact hsize) rfl
    refine ⟨t, fun n => ?_, prec, port, admits', ?_⟩
    · rw [List.length_cons, Nat.succ_add]
      exact (core_run_succ pushed _).trans (ran n)
    · rw [dly, buffer]
      rfl

/-- A read inside the buffer, alone on the port, answers its word (R103). -/
theorem step_dlyGet {d : BitVec 64} (admits : Admits s v c) (hd : IntOpd d)
    (inside : d.toNat < (s.regs.getDly v.toNat c.toNat).size) (hport : s.port = encode (.dlyGet v c d) :: rest) :
    step s = .next (complete { s with port := rest } s.regs
      (s.regs.dram s.kit.A v.toNat c.toNat
        (((s.regs.getDly v.toNat c.toNat).cur + d.toNat + 1) % (s.regs.getDly v.toNat c.toNat).size))) := by
  have fits : d.toNat < 2 ^ s.prec.width := hd.trans_le (by cases s.prec <;> decide)
  have decoded : decode s.prec (encode (.dlyGet v c d)) = .ok (.dlyGet v c d) :=
    decodeOfEncode _ _ ((wf_iff _ _).mpr fits)
  have ⟨done, _⟩ := dlyReads { s with port := rest } v c d admits (Nat.zero_lt_of_lt inside)
  exact (step_command hport decoded).trans (done hd inside)

end

/-- The address of the word that the `j`-th push after cursor `k` went to, counted from 0. -/
theorem pushed_address {n k : Nat} (hk : k < n) (j : Nat) : ((k + (n - j % n)) % n + j) % n = k := by
  have le : j % n ≤ n := (Nat.mod_lt _ (Nat.zero_lt_of_lt hk)).le
  have round : k + (n - j % n) + j % n = k + n := by omega
  rw [Nat.mod_add_mod, ← Nat.add_mod_mod, round, Nat.add_mod_right, Nat.mod_eq_of_lt hk]

/-- Settles O28: the pushes run off the port and leave the ring as `RingHolds` says; the read then finds the word that the
push `d + 1` before the end went to. -/
theorem delayRoundTrip : Obligations.DelayRoundTrip := by
  intro s v c xs d admits hxs hd ⟨_, cursor, _, canonical, _⟩ inside enough hport
  have hsize := Nat.zero_lt_of_lt inside
  have ring := ringHolds_pushAll (A := s.kit.A) (cursor hsize) canonical xs
  obtain ⟨t, ran, prec, port, admits', dly⟩ := run_pushes admits hxs hsize hport
  rw [← dly] at ring
  have kit : t.kit.A = s.kit.A := by rw [kit_A, kit_A, prec]
  have held : ∀ a < (s.regs.getDly v.toNat c.toNat).size, ∀ j < xs.length,
      (a + j) % (s.regs.getDly v.toNat c.toNat).size = (s.regs.getDly v.toNat c.toNat).cur →
      xs.length ≤ j + (s.regs.getDly v.toNat c.toNat).size →
      t.regs.dram t.kit.A v.toNat c.toNat a = xs.getD j 0 := by
    intro a ha j hj address recent
    rw [Regs.dram, kit]
    exact ring.words a ha j _ address recent (by simp [hj])
  have read := step_dlyGet admits' hd (by rwa [ring.size]) port
  refine ⟨_, (ran 1).trans (core_run_succ read 0), rfl, congrArg (Resp.mk false) ?_, ring.cursor, fun j hj recent => ?_⟩
  · rw [ring.size]
    refine held _ (Nat.mod_lt _ hsize) _ (by omega) ?_ (by omega)
    have whole : (t.regs.getDly v.toNat c.toNat).cur + d.toNat + 1 + (xs.length - 1 - d.toNat) =
        (t.regs.getDly v.toNat c.toNat).cur + xs.length := by omega
    rw [Nat.mod_add_mod, whole, ring.cursor]
  · exact held _ (Nat.mod_lt _ hsize) j hj (pushed_address (cursor hsize) j) recent

end Sys2Proof.Machine

/-! SUPPORT. Delays over the real numbers (spec/43_delay_buffer.md R107, spec/44_modulated_delay_line.md R122). -/

namespace Sys2Proof.Machine

/-! ### A fractional read at a whole number (R107) -/

theorem lit_one_real : Arith.real.lit 1 1 = 1 := by simp [Arith.real]

/-- `wrap` of a natural number is its remainder. -/
theorem wrap_real_natCast (k n : Nat) : Arith.real.wrap (k : ℝ) n = (k % n : Nat) := by
  have turns : ⌊(k : ℝ) / n⌋ = (k / n : Nat) := by
    rw [← Int.natCast_floor_eq_floor (by positivity), Nat.floor_div_eq_div]
  have division : ((n * (k / n) + k % n : Nat) : ℝ) = k := congrArg Nat.cast (Nat.div_add_mod k n)
  push_cast at division
  rw [wrap_real, turns, Int.cast_natCast]
  linarith

theorem dlyPos_real_natCast (b : Dly ℝ) (d : Nat) : dlyPos Arith.real (d : ℝ) b = dlyAddr b d := by
  have position : Arith.real.add (Arith.real.add (Arith.real.ofNat b.cur) d) (Arith.real.lit 1 1) =
      (b.cur + d + 1 : Nat) := by
    rw [lit_one_real]
    push_cast
    rfl
  rw [dlyPos, position, wrap_real_natCast, dlyAddr]

/-- At a whole position the interpolation stops at its first word. -/
theorem tapAt_real_natCast (b : Dly ℝ) (d : Nat) :
    tapAt Arith.real b (d : ℝ) = b.ram.read Arith.real.zero (dlyAddr b d) := by
  have position := dlyPos_real_natCast b d
  have index : Arith.real.floorNat (dlyAddr b d : ℝ) = dlyAddr b d := Nat.floor_natCast (R := ℝ) _
  have fraction : Arith.real.sub (dlyAddr b d : ℝ) (Arith.real.ofNat (dlyAddr b d)) = 0 := sub_self _
  rw [dlyPos] at position
  rw [tapAt, position]
  simp only [index, fraction]
  simp [Arith.real]

theorem dlyGetLinear_real_natCast (b : Dly ℝ) {d : Nat} (hd : d < b.size) :
    dlyGetLinear Arith.real (d : ℝ) b = dlyGet Arith.real d b := by
  have nonneg : Arith.real.le Arith.real.zero (d : ℝ) = true := decide_eq_true d.cast_nonneg
  have below : Arith.real.lt (d : ℝ) (Arith.real.ofNat b.size) = true := decide_eq_true (Nat.cast_lt.mpr hd)
  rw [dlyGetLinear_read nonneg below, tapAt_real_natCast, dlyGet_read hd, dlyAddr]

/-! ### The read delay of a voice (R120, R122) -/

/-- A sample of a ramp lies between the ramp's ends: `CUR` plus one `CNT`-th of the way to the target. -/
theorem smNext_real_mem {I : Set ℝ} (convex : Convex ℝ I) {p : Smoother ℝ} (ramp : OnRamp p) (hcur : p.cur ∈ I)
    (htgt : p.tgt ∈ I) : (smNext Arith.real p).1 ∈ I := by
  rcases smNext_cases Arith.real p with ⟨_, e⟩ | ⟨_, e⟩ | ⟨hc, e⟩ <;> rw [e]
  · exact htgt
  · exact htgt
  · have hcnt : (1 : ℝ) ≤ p.cnt := by exact_mod_cast Nat.one_le_of_lt hc
    have share : p.cur + p.step = p.cur + (1 / (p.cnt : ℝ)) • (p.tgt - p.cur) := by
      rw [ramp.distance, smul_eq_mul]
      field_simp
    show p.cur + p.step ∈ I
    rw [share]
    exact convex.add_smul_sub_mem hcur htgt ⟨by positivity, (div_le_one (by linarith)).mpr hcnt⟩

theorem abs_oscProcess_real_le_one {P : Params ℝ} (hT : 0 < P.tableSize) (o : Osc ℝ) :
    |(oscProcess (Kit.real P) o).1| ≤ 1 := by
  rw [oscProcess_eq]
  exact abs_tableSample_real_le_one o hT _

theorem readDelay_real (P : Params ℝ) (r : Regs ℝ) (v c : Nat) :
    readDelay (Kit.real P) r v c =
      ((smNext Arith.real ((r.getMdl v).dt.get c)).1 +
        ((oscProcess (Kit.real P) (r.getOsc v c)).1 + 1) / 2 * (smNext Arith.real ((r.getMdl v).dp.get c)).1) *
      (r.getMdl v).fs := by
  simp only [readDelay, Kit.real, lit_one_real]
  simp only [Arith.real]
  push_cast
  ring

/-- A base below the bound less the depth, and a share of the depth: inside the bound, in samples as in seconds (R122). -/
theorem modulated_delay_bounds {base depth o bound most fs : ℝ} (hbase : base ∈ Set.Ioo 0 (bound - most))
    (hdepth : depth ∈ Set.Icc 0 most) (ho : |o| ≤ 1) (hfs : 0 < fs) :
    0 < (base + (o + 1) / 2 * depth) * fs ∧ (base + (o + 1) / 2 * depth) * fs < bound * fs := by
  obtain ⟨base_pos, base_lt⟩ := hbase
  obtain ⟨depth_nonneg, depth_le⟩ := hdepth
  obtain ⟨lo, hi⟩ := abs_le.mp ho
  have share_nonneg : 0 ≤ (o + 1) / 2 * depth := mul_nonneg (by linarith) depth_nonneg
  have share_le : (o + 1) / 2 * depth ≤ depth := mul_le_of_le_one_left depth_nonneg (by linarith)
  exact ⟨mul_pos (by linarith) hfs, mul_lt_mul_of_pos_right (by linarith) hfs⟩

/-- Settles O57: both ramps stay between their accepted ends, so the delay stays below `MAXDELAY * FS`, which the buffer's
size is not below. -/
theorem delaysOverReals : Obligations.DelaysOverReals := by
  refine ⟨fun b d _ hd => dlyGetLinear_real_natCast b hd, ?_⟩
  intro P r v c hT m dt dp inDelay inDepth _ dtRamp dtCur dtTgt _ dpRamp dpCur dpTgt hfs hsize
  have base := smNext_real_mem (convex_Ioo 0 (m.maxDelay - m.maxDepth)) dtRamp dtCur dtTgt
  have depth := smNext_real_mem (convex_Icc 0 m.maxDepth) dpRamp dpCur dpTgt
  have sample := abs_oscProcess_real_le_one (P := P) (by omega) (r.getOsc v c)
  obtain ⟨positive, below⟩ := modulated_delay_bounds base depth sample hfs
  rw [← readDelay_real] at positive below
  have inside : readDelay (Kit.real P) r v c < (r.getDly v c).size := by
    rw [hsize]
    exact below.trans_le (Nat.le_ceil _)
  exact ⟨positive, inside, decide_eq_true positive.le, decide_eq_true inside⟩

end Sys2Proof.Machine

/-! SUPPORT. Delay targets outside their bound (spec/60_exceptions.md R205 code 4, spec/44_modulated_delay_line.md R115,
spec/45_voice_bank.md R139). -/

namespace Sys2Proof.Machine

section
variable {S : Type} [Inhabited S] {K : Kit S} {r : Regs S} {base spread width : S}

/-- One cell of the build whose spread delay leaves its voice's bound is enough: all checks come before all writes (R139). -/
theorem vbRetarget_range (h : ∃ u < K.P.nVoices, ∃ k < K.P.nChMax,
      ¬(K.A.lt K.A.zero (spreadDelay K base spread width u k) = true ∧
        K.A.lt (spreadDelay K base spread width u k) (K.A.sub (r.getMdl u).maxDelay (r.getMdl u).maxDepth) = true)) :
    vbRetarget K base spread width r = .error .delayRange := by
  obtain ⟨u, hu, k, hk, hbad⟩ := h
  have outside : delayInRange K.A (r.getMdl u) (spreadDelay K base spread width u k) = false := range_check_fails hbad
  have voiceFails : ((List.range K.P.nChMax).all fun c =>
      delayInRange K.A (r.getMdl u) (spreadDelay K base spread width u c)) = false :=
    List.all_eq_false.mpr ⟨k, List.mem_range.mpr hk, ne_true_of_eq_false outside⟩
  exact require_bind_fails (List.all_eq_false.mpr ⟨u, List.mem_range.mpr hu, ne_true_of_eq_false voiceFails⟩)

end

/-- Settles O16: behind the checks that hold, the bound's check fails in the voice addressed or in a cell of the spread. -/
theorem delayTargetFaults : Obligations.DelayTargetFaults := by
  intro s v c x hrun hx A y bound bad
  refine ⟨fun hv hc hbad => ?_, fun hbad => ?_, fun lo hi => ?_⟩
  · have outside : delayInRange A (s.regs.getMdl v.toNat) y = false := range_check_fails hbad
    refine run_faults hrun (decodeChecks_both (kind := .s) rfl hv hc hx) ?_
    rw [mdlSetDelay, require_bind_fails outside, error_bind]
  · refine run_faults hrun (decodeChecks_plain (kind := .s) rfl hx) ?_
    rw [vbRetarget_range hbad, error_bind]
  · have unit : inUnit A y = true := Bool.and_eq_true_iff.mpr ⟨lo, hi⟩
    constructor <;>
    · intro hbad
      refine run_faults hrun (decodeChecks_plain (kind := .s) rfl hx) ?_
      rw [require_bind_of unit, vbRetarget_range hbad, error_bind]

end Sys2Proof.Machine

/-! SUPPORT. The prepare, the reset and the two bounds of a modulated delay line (spec/44_modulated_delay_line.md R111 to
R114, R116). -/

namespace Sys2Proof.Machine

/-- Settles O31: one voice is prepared, or reset, and the other voices and the registers outside the voices are the same. -/
theorem mdlPrepares : Obligations.MdlPrepares := by
  intro s v fs hrun hv hx A x m nch
  constructor
  · intro closed counted rate alloc
    rcases mdlPrepare_cases s.kit v.toNat x s.regs with ⟨_, r, he, voice, others, outside⟩ | ⟨hbad, _⟩
    · refine ⟨r, ?_, voice.osc, voice.dly, voice.dp, voice.dt, voice.mdl, fun u hu => ?_, outside.sys, outside.vb,
        outside.flt, outside.eng⟩
      · refine run_completes (.inl hrun) (decodeChecks_voice (kind := .s) rfl hv hx) ?_
        rw [require_bind_of (closed_check closed), require_bind_of (counted_check counted), require_bind_of rate, he,
          ok_bind]
        rfl
      · have same := others u hu
        exact ⟨same.mdl, fun c => ⟨same.osc c, same.dly c⟩⟩
    · exact absurd alloc hbad
  · obtain ⟨voice, others, outside⟩ := mdlReset_spec A v.toNat s.regs
    refine ⟨mdlReset A v.toNat s.regs, ?_, voice.osc, voice.dly, voice.dp, voice.dt, voice.mdl, fun u hu => ?_, outside.sys,
      outside.vb, outside.flt, outside.eng⟩
    · exact run_completes (.inl hrun) (decodeChecks_voice (kind := .none) rfl hv trivial) rfl
    · have same := others u hu
      exact ⟨same.mdl, fun c => ⟨same.osc c, same.dly c⟩⟩

/-- Settles O32: both setters have the shape `SetsBound`, whose two cases are the two outcomes. -/
theorem mdlBounds : Obligations.MdlBounds := by
  intro s v opd hrun hv closed hx A x m leaves
  have left : ∀ {i set f}, SetsBound s.kit set f → (∀ q, f v.toNat s.regs = .ok q → Completes i s q 0) →
      leaves i (set m) := by
    intro i set f hf done
    rcases mdlBound_cases s.kit v.toNat set s.regs hf.prep hf.fs with
      ⟨_, q, he, mdl, dly, osc, outside, bare⟩ | ⟨prep, hbad, _⟩
    · rw [← hf.eq] at he
      refine ⟨fun unprepared => bare unprepared ▸ done q he, fun prep alloc => ⟨q, done q he, ?_, fun c => ?_,
        fun u hu => ⟨?_, fun c => ?_⟩, outside.sys, osc, outside.vb, outside.flt, outside.eng⟩⟩
      · exact (mdl v.toNat).trans (if_pos rfl)
      · have prepared : (s.regs.getMdl v.toNat).prep = true := prep
        simpa [prepared, A, m] using dly v.toNat c
      · exact (mdl u).trans (if_neg hu)
      · exact (dly u c).trans (if_neg fun h => hu h.1)
    · exact ⟨fun unprepared => absurd prep (ne_true_of_eq_false unprepared), fun _ alloc => absurd alloc hbad⟩
  have delay := left (i := .mdlSetmaxdelay v opd) (mdlSetMaxDelay_setsBound x)
  have depth := left (i := .mdlSetmaxdepth v opd) (mdlSetMaxDepth_setsBound x)
  refine ⟨fun positive => delay fun q he => ?_, fun nonneg => depth fun q he => ?_⟩
  · refine run_completes (.inl hrun) (decodeChecks_voice (kind := .s) rfl hv hx) ?_
    rw [require_bind_of (closed_check closed), require_bind_of positive, he, ok_bind]
    rfl
  · refine run_completes (.inl hrun) (decodeChecks_voice (kind := .s) rfl hv hx) ?_
    rw [require_bind_of (closed_check closed), require_bind_of nonneg, he, ok_bind]
    rfl

end Sys2Proof.Machine

/-! SUPPORT. The voice bank as a whole (spec/45_voice_bank.md R131, R132, R142 to R144): prepare, reset, bounds, one
sample. -/

namespace Sys2Proof.Machine

section
variable {S : Type} [Inhabited S] {K : Kit S} {r : Regs S}

/-! ### The bank prepared and reset (R131, R132) -/

/-- Every cell of every voice after a reset of the bank: those of the voices and channels of the build are reset, and the
others are as before (R113, R132). -/
structure CellsReset (K : Kit S) (r q : Regs S) (v c : Nat) : Prop where
  osc : q.getOsc v c = if v < K.P.nVoices ∧ c < r.sys.nch then oscReset K.A (r.getOsc v c) else r.getOsc v c
  dly : q.getDly v c = if v < K.P.nVoices ∧ c < r.sys.nch then freshBuffer S (r.getDly v c).size else r.getDly v c
  dp : (q.getMdl v).dp.get c =
    if v < K.P.nVoices ∧ c < r.sys.nch then smSettle K.A ((r.getMdl v).dp.get c) else (r.getMdl v).dp.get c
  dt : (q.getMdl v).dt.get c =
    if v < K.P.nVoices ∧ c < r.sys.nch then smSettle K.A ((r.getMdl v).dt.get c) else (r.getMdl v).dt.get c

theorem vbReset_cells (v c : Nat) : CellsReset K r (vbReset K r) v c := by
  obtain ⟨voices, others, _⟩ := mdlResetUpto_spec K.A K.P.nVoices r
  exact ⟨eq_ite_cell (fun hv => (voices v hv).osc c) fun hv => (others v hv).osc c,
    eq_ite_cell (fun hv => (voices v hv).dly c) fun hv => (others v hv).dly c,
    eq_ite_cell (fun hv => (voices v hv).dp c) fun hv => congrArg (fun m => m.dp.get c) (others v hv).mdl,
    eq_ite_cell (fun hv => (voices v hv).dt c) fun hv => congrArg (fun m => m.dt.get c) (others v hv).mdl⟩

theorem vbReset_scalars : ScalarsSame r (vbReset K r) := by
  obtain ⟨voices, others, _⟩ := mdlResetUpto_spec K.A K.P.nVoices r
  intro v
  by_cases hv : v < K.P.nVoices
  · exact (voices v hv).mdl
  · have same : (vbReset K r).getMdl v = r.getMdl v := (others v (Nat.le_of_not_lt hv)).mdl
    rw [same]

theorem vbReset_outside : OutsideSame r (vbReset K r) := by
  obtain ⟨_, _, outside⟩ := mdlResetUpto_spec K.A K.P.nVoices r
  exact outside

end

/-- Settles O36: the cells of the bank prepared and of the bank reset. -/
theorem vbPrepares : Obligations.VbPrepares := by
  intro s fs hrun hx A x nch nv
  constructor
  · intro closed counted rate alloc
    obtain ⟨q, he, bank⟩ := vbPrepare_ok (K := s.kit) alloc
    refine ⟨q, ?_, bank.vb, fun v c => (bank.cells v c).osc, fun v c => (bank.cells v c).dly,
      fun v c => (bank.cells v c).dp, fun v c => (bank.cells v c).dt, fun v hv => (bank.voices v hv).mdl,
      fun v hv => (bank.others v hv).mdl, bank.sys, bank.flt, bank.eng⟩
    refine run_completes (.inl hrun) (decodeChecks_plain (kind := .s) rfl hx) ?_
    rw [require_bind_of (closed_check closed), require_bind_of (counted_check counted), require_bind_of rate, he, ok_bind]
    rfl
  · have cells := vbReset_cells (K := s.kit) (r := s.regs)
    have outside := vbReset_outside (K := s.kit) (r := s.regs)
    exact ⟨vbReset s.kit s.regs, run_completes (.inl hrun) (decodeChecks_plain (kind := .none) rfl trivial) rfl,
      fun v c => (cells v c).osc, fun v c => (cells v c).dly, fun v c => (cells v c).dp, fun v c => (cells v c).dt,
      vbReset_scalars, outside.sys, outside.vb, outside.flt, outside.eng⟩

/-! ### The bounds and one sample (R142 to R144) -/

/-- Settles O39: both commands run a setter of the shape `SetsBound` over all voices. -/
theorem vbBounds : Obligations.VbBounds := by
  intro s opd hrun closed hx A x nv leaves
  have left : ∀ {i set f}, SetsBound s.kit set f → (∀ q, loopE nv f s.regs = .ok q → Completes i s q 0) →
      leaves i set := by
    intro i set f hf done alloc
    rcases mdlBounds_cases s.kit set hf.prep hf.fs f hf.eq nv s.regs with
      ⟨_, q, he, mdl, dly, osc, outside⟩ | ⟨⟨v, hv, prep, hbad⟩, _⟩
    · exact ⟨q, done q he, mdl, dly, outside.sys, osc, outside.vb, outside.flt, outside.eng⟩
    · exact absurd (alloc v hv prep) hbad
  have delay := left (i := .vbSetmaxdelay opd) (mdlSetMaxDelay_setsBound x)
  have depth := left (i := .vbSetmaxdepth opd) (mdlSetMaxDepth_setsBound x)
  refine ⟨fun positive => delay fun q he => ?_, fun nonneg => depth fun q he => ?_⟩
  · refine run_completes (.inl hrun) (decodeChecks_plain (kind := .s) rfl hx) ?_
    rw [require_bind_of (closed_check closed), require_bind_of positive, he, ok_bind]
    rfl
  · refine run_completes (.inl hrun) (decodeChecks_plain (kind := .s) rfl hx) ?_
    rw [require_bind_of (closed_check closed), require_bind_of nonneg, he, ok_bind]
    rfl

/-- Settles O40: with every voice's read inside its buffer the bank answers `bankOut`, and one channel of every voice has
run. -/
theorem vbProcesses : Obligations.VbProcesses := by
  intro s c opd hrun hc hx prep voices x
  rcases vbProcess_cases s.kit c.toNat x s.regs with ⟨_, r, he, ran, same, scalars, outside⟩ | ⟨⟨v, hv, hbad⟩, _⟩
  · refine ⟨r, ?_, fun v hv => ?_, fun v d hvd => ?_, scalars, outside.sys, outside.vb, outside.flt, outside.eng⟩
    · refine run_completes (.inl hrun) (decodeChecks_of_row rfl nofun (fun _ => hc) hx) ?_
      rw [require_bind_of prep, he, ok_bind]
      rfl
    · obtain ⟨_, canonical⟩ := voices v hv
      exact (ran v hv).stepped canonical
    · obtain ⟨osc, dly, dt, dp⟩ := same v d hvd
      exact ⟨osc, dly, dt, dp⟩
  · obtain ⟨readOk, _⟩ := voices v hv
    exact absurd readOk hbad

end Sys2Proof.Machine

/-! SUPPORT. The engine's reset (spec/47_chorus_engine.md R172). -/

namespace Sys2Proof.Machine

section
variable {S : Type} [Inhabited S] {K : Kit S} {r : Regs S}

/-- The filters that `ENG.RESET` leaves: no history, and on a prepared engine the coefficients of both cutoff targets
(R158, R172). -/
def resetFilters (K : Kit S) (e : Eng S) (f : Flt S) : Flt S :=
  if e.prep then
    { fltReset K f with
      hpg := (svfGains K e.hpfc.tgt e.fs).1, hph := (svfGains K e.hpfc.tgt e.fs).2
      lpg := (svfGains K e.lpfc.tgt e.fs).1, lph := (svfGains K e.lpfc.tgt e.fs).2 }
  else fltReset K f

/-- `ENG.RESET`'s body (R172): a settled smoother stands at its target, so the cutoffs refreshed from are the targets. -/
theorem engReset_ok (cutoffs : r.eng.prep = true →
      CutoffOk K.A r.eng.hpfc.tgt r.eng.fs ∧ CutoffOk K.A r.eng.lpfc.tgt r.eng.fs) :
    engReset K r = .ok { vbReset K r with
      flt := resetFilters K r.eng r.flt, eng := { engSettle K r.eng with rem := 0, chcnt := 0 } } := by
  have outside := vbReset_outside (K := K) (r := r)
  by_cases prep : r.eng.prep = true
  · obtain ⟨hp, lp⟩ := cutoffs prep
    have prepared : (engSettle K r.eng).prep = true := prep
    rw [resetFilters, if_pos prep, engReset, outside.flt, outside.eng]
    dsimp only
    rw [if_pos prepared, refreshCoefs_ok hp lp]
    rfl
  · have unprepared : ¬(engSettle K r.eng).prep = true := prep
    rw [resetFilters, if_neg prep, engReset, outside.flt, outside.eng]
    dsimp only
    rw [if_neg unprepared]
    rfl

theorem resetFilters_clears (e : Eng S) (f : Flt S) {c : Nat} (hc : c < K.P.nChMax) :
    (resetFilters K e f).boost.get c = ⟨K.A.zero, K.A.zero⟩ ∧ (resetFilters K e f).cut.get c = ⟨K.A.zero, K.A.zero⟩ ∧
      (resetFilters K e f).hp.get c = ⟨K.A.zero, K.A.zero⟩ ∧ (resetFilters K e f).lp.get c = ⟨K.A.zero, K.A.zero⟩ := by
  rw [resetFilters]
  split
  · exact fltReset_clears f hc
  · exact fltReset_clears f hc

/-- The shelves keep their coefficients, which are configuration; those of the cutoffs follow on a prepared engine (R172). -/
theorem resetFilters_coefs (e : Eng S) (f : Flt S) :
    (resetFilters K e f).bcoef = f.bcoef ∧ (resetFilters K e f).ccoef = f.ccoef ∧
      ((resetFilters K e f).hpg, (resetFilters K e f).hph) =
        (if e.prep = true then svfGains K e.hpfc.tgt e.fs else (f.hpg, f.hph)) ∧
      ((resetFilters K e f).lpg, (resetFilters K e f).lph) =
        (if e.prep = true then svfGains K e.lpfc.tgt e.fs else (f.lpg, f.lph)) := by
  by_cases prep : e.prep = true
  · simp only [resetFilters, if_pos prep]
    exact ⟨rfl, rfl, trivial, trivial⟩
  · simp only [resetFilters, if_neg prep]
    exact ⟨rfl, rfl, rfl, rfl⟩

end

/-- Settles O43: the body leaves the bank reset, the filters cleared and refreshed, and the engine settled. -/
theorem engResets : Obligations.EngResets := by
  intro s hrun A e f nv nch cutoffs
  have cells := vbReset_cells (K := s.kit) (r := s.regs)
  have outside := vbReset_outside (K := s.kit) (r := s.regs)
  obtain ⟨bcoef, ccoef, hp, lp⟩ := resetFilters_coefs (K := s.kit) e f
  have cleared : ∀ (xs : Bank Sample) c, c < s.cfg.nChMax →
      (xs.update s.cfg.nChMax fun _ _ => A.zero).get c = A.zero := fun xs c hc =>
    (Bank.get_update _ _ xs c).trans (if_pos hc)
  refine ⟨{ vbReset s.kit s.regs with
      flt := resetFilters s.kit e f, eng := { engSettle s.kit e with rem := 0, chcnt := 0 } }, ?_, rfl,
    Bank.get_update _ _ _, fun c hc => ⟨cleared _ c hc, cleared _ c hc, resetFilters_clears e f hc⟩, bcoef, ccoef, hp, lp,
    outside.vb, outside.sys, fun v c => (cells v c).osc, fun v c => (cells v c).dly, fun v c => (cells v c).dp,
    fun v c => (cells v c).dt, vbReset_scalars⟩
  refine run_completes (.inl hrun) (decodeChecks_plain (kind := .none) rfl trivial) ?_
  rw [engReset_ok cutoffs, ok_bind]
  rfl
end Sys2Proof.Machine

/-! SUPPORT. The shared setters of the voice bank (spec/45_voice_bank.md R133 to R141): what a write of every voice leaves in each
register, and the two checks over all voices. -/

namespace Sys2Proof.Machine

section
variable {S : Type} [Inhabited S]

/-! ### One write of every voice -/

/-- One channel's oscillator of voices `0..n-1` updated alike (R141), in every oscillator of the block. -/
theorem getOsc_updateColumn (r : Regs S) (n c : Nat) (f : Osc S → Osc S) (u d : Nat) :
    ({ r with osc := r.osc.update n fun _ row => row.put c (f (row.get c)) } : Regs S).getOsc u d =
      if u < n ∧ d = c then f (r.getOsc u d) else r.getOsc u d := by
  simp only [Regs.getOsc, Bank.get_update]
  by_cases hu : u < n
  · simp only [hu, if_true, true_and, Bank.get_put]
    by_cases hd : d = c
    · simp only [hd, if_true]
    · simp only [hd, if_false]
  · simp only [hu, if_false, false_and]

/-- A row of smoothers of a delay line, as what reads it and what writes it: the delays `DT` or the depths `DP` (R28). -/
structure SmootherRow (row : Mdl S → Bank (Smoother S)) (write : Mdl S → Bank (Smoother S) → Mdl S) : Prop where
  row_write : ∀ m x, row (write m x) = x
  write_row : ∀ m, write m (row m) = m

omit [Inhabited S] in
theorem smootherRow_dt : SmootherRow (S := S) (fun m => m.dt) fun m x => { m with dt := x } :=
  ⟨fun _ _ => rfl, fun _ => rfl⟩

omit [Inhabited S] in
theorem smootherRow_dp : SmootherRow (S := S) (fun m => m.dp) fun m x => { m with dp := x } :=
  ⟨fun _ _ => rfl, fun _ => rfl⟩

section
variable {row : Mdl S → Bank (Smoother S)} {write : Mdl S → Bank (Smoother S) → Mdl S} (h : SmootherRow row write)
  (r : Regs S) (nv nc : Nat) (g : Nat → Nat → Smoother S → Smoother S)
include h

/-- The first smoothers of a row of the first voices updated, in every smoother of these rows. -/
theorem SmootherRow.get_updateMdls (v c : Nat) :
    (row ((r.updateMdls nv fun v m => write m ((row m).update nc (g v))).getMdl v)).get c =
      if v < nv ∧ c < nc then g v c ((row (r.getMdl v)).get c) else (row (r.getMdl v)).get c := by
  refine eq_ite_cell (fun hv => ?_) fun hv => ?_
  · rw [getMdl_updateMdls, if_pos hv, h.row_write, Bank.get_update]
  · rw [getMdl_updateMdls, if_neg hv.not_gt]

/-- Beside that row the voices stay as they were. -/
theorem SmootherRow.getMdl_updateMdls (v : Nat) :
    (r.updateMdls nv fun v m => write m ((row m).update nc (g v))).getMdl v =
      write (r.getMdl v) (row ((r.updateMdls nv fun v m => write m ((row m).update nc (g v))).getMdl v)) := by
  rw [Machine.getMdl_updateMdls]
  split
  · rw [h.row_write]
  · rw [h.write_row]

end

/-! ### The checks over all voices (R135, R139) -/

theorem depthAllInRange_of {K : Kit S} {d : S} {r : Regs S}
    (h : ∀ v < K.P.nVoices, K.A.le K.A.zero d = true ∧ K.A.le d (r.getMdl v).maxDepth = true) :
    depthAllInRange K d r = true :=
  List.all_eq_true.mpr fun v hv => Bool.and_eq_true_iff.mpr (h v (List.mem_range.mp hv))

theorem spreadInRange_of {K : Kit S} {base spread width : S} {r : Regs S}
    (h : ∀ v < K.P.nVoices, ∀ c < K.P.nChMax, K.A.lt K.A.zero (spreadDelay K base spread width v c) = true ∧
      K.A.lt (spreadDelay K base spread width v c) (K.A.sub (r.getMdl v).maxDelay (r.getMdl v).maxDepth) = true) :
    spreadInRange K base spread width r = true :=
  List.all_eq_true.mpr fun v hv => List.all_eq_true.mpr fun c hc =>
    Bool.and_eq_true_iff.mpr (h v (List.mem_range.mp hv) c (List.mem_range.mp hc))

/-! ### The delay targets (R139) -/

/-- What `VbRetarget` writes (R139): the three parameters, and the delay target of every cell of the build. -/
def retargeted (K : Kit S) (base spread width : S) (r : Regs S) : Regs S :=
  { r with vb := { r.vb with baseDelay := base, spread := spread, width := width } }.updateMdls K.P.nVoices fun v m =>
    { m with dt := m.dt.update K.P.nChMax fun c p => smSetTarget K.A p (spreadDelay K base spread width v c) }

section
variable {K : Kit S} {base spread width : S} {r : Regs S}

theorem retargeted_dt (v c : Nat) : ((retargeted K base spread width r).getMdl v).dt.get c =
    if v < K.P.nVoices ∧ c < K.P.nChMax then
      smSetTarget K.A ((r.getMdl v).dt.get c) (spreadDelay K base spread width v c)
    else (r.getMdl v).dt.get c :=
  smootherRow_dt.get_updateMdls { r with vb := { r.vb with baseDelay := base, spread := spread, width := width } } _ _
    (fun v c p => smSetTarget K.A p (spreadDelay K base spread width v c)) v c

theorem retargeted_mdl (v : Nat) : (retargeted K base spread width r).getMdl v =
    { r.getMdl v with dt := ((retargeted K base spread width r).getMdl v).dt } :=
  smootherRow_dt.getMdl_updateMdls _ _ _ _ v

theorem vbRetarget_ok (h : spreadInRange K base spread width r = true) :
    vbRetarget K base spread width r = .ok (retargeted K base spread width r) := by
  rw [vbRetarget, require_bind_of h]
  rfl

end

end

/-! ### The commands -/

/-- The decode checks of a command with a channel field and no voice field (R58 items 5 to 7). -/
theorem decodeChecks_chan {i : Instr} {s : State} {op : BitVec 8} {c : BitVec 4} {x : BitVec 64} {kind : OpdKind}
    (row : i.row = (.chan kind, ⟨op, 0, c, 0, x⟩)) (hc : ChanOk s c) (hx : OperandOk s x kind) :
    decodeChecks i s = .ok () :=
  decodeChecks_of_row row nofun (fun _ => hc) hx

/-- Settles O37: one row of registers of every voice is written, as the lemma on that row says. -/
theorem vbSetters : Obligations.VbSetters := by
  intro s c opd n k hrun hx hn A x nv top
  refine ⟨fun lo hi => ?_,
    ⟨_, ?_, getOsc_updateOscs nv top (oscSetFreq s.kit x) { s.regs with vb := { s.regs.vb with rate := x } }, rfl⟩,
    fun inRange => ?_,
    ⟨_, ?_, getOsc_updateOscs nv top (fun o => { o with type := k }) { s.regs with vb := { s.regs.vb with ltype := k } },
      rfl⟩,
    fun hc => ⟨_, ?_, getOsc_updateColumn s.regs nv c.toNat (oscSetPhase A x), rfl⟩⟩
  · have counted : decide (1 ≤ n.toNat ∧ n.toNat ≤ s.cfg.nVoices) = true := decide_eq_true ⟨lo, hi⟩
    rw [Completes, exec_vbSetactive hn]
    refine run_completes (.inl hrun) (decodeChecks_plain rfl hn) ?_
    rw [require_bind_of counted]
    rfl
  · exact run_completes (.inl hrun) (decodeChecks_plain (kind := .s) rfl hx) rfl
  · have depths : depthAllInRange s.kit x s.regs = true := depthAllInRange_of inRange
    refine ⟨_, ?_, smootherRow_dp.get_updateMdls { s.regs with vb := { s.regs.vb with depth := x } } nv top
      (fun _ _ p => smSetTarget A p x), smootherRow_dp.getMdl_updateMdls _ nv top _, rfl⟩
    refine run_completes (.inl hrun) (decodeChecks_plain (kind := .s) rfl hx) ?_
    rw [require_bind_of depths]
    rfl
  · exact run_completes (.inl hrun) (decodeChecks_imm (kind := .none) rfl trivial) rfl
  · exact run_completes (.inl hrun) (decodeChecks_chan (kind := .s) rfl hc hx) rfl

/-- Settles O38: behind the checks that hold, `VbRetarget` writes the delay row of every voice. -/
theorem vbSpreads : Obligations.VbSpreads := by
  intro s opd hrun hx A x nv target spreads
  have done : ∀ {i base spread width}, (spreadInRange s.kit base spread width s.regs = true →
      Completes i s (retargeted s.kit base spread width s.regs) 0) → spreads i base spread width := by
    intro i base spread width completes inRange
    exact ⟨_, completes (spreadInRange_of inRange), retargeted_dt, retargeted_mdl, rfl⟩
  refine ⟨done fun inRange => ?_, fun lo hi => ?_⟩
  · refine run_completes (.inl hrun) (decodeChecks_plain (kind := .s) rfl hx) ?_
    rw [vbRetarget_ok inRange, ok_bind]
    rfl
  · have unit : inUnit A x = true := Bool.and_eq_true_iff.mpr ⟨lo, hi⟩
    constructor <;>
    · refine done fun inRange => run_completes (.inl hrun) (decodeChecks_plain (kind := .s) rfl hx) ?_
      rw [require_bind_of unit, vbRetarget_ok inRange, ok_bind]
      rfl

end Sys2Proof.Machine

/-! SUPPORT. Spreading and equal-power gain over the real numbers (spec/45_voice_bank.md R137 to R139, R145). -/

namespace Sys2Proof.Machine

section
variable (P : Params ℝ)

/-! ### The delay targets (R139) -/

theorem voiceOffset_real (base spread : ℝ) (v : Nat) :
    voiceOffset (Kit.real P) base spread v = base - spread * (base - 1 / 200) * (v / P.nVoices) := by
  have five_ms : Arith.real.lit 5 1000 = 1 / 200 := by norm_num [Arith.real]
  simp only [voiceOffset, Kit.real, five_ms]
  rfl

theorem spreadDelay_even {S : Type} (K : Kit S) (base spread width : S) {c : Nat} (hc : c % 2 = 0) (v : Nat) :
    spreadDelay K base spread width v c = voiceOffset K base spread v :=
  if_neg (by omega)

theorem spreadDelay_real_odd (base spread width : ℝ) {c : Nat} (hc : c % 2 = 1) (v : Nat) :
    spreadDelay (Kit.real P) base spread width v c =
      voiceOffset (Kit.real P) base spread v - width * (voiceOffset (Kit.real P) base spread v - 1 / 1000) := by
  have one_ms : Arith.real.lit 1 1000 = 1 / 1000 := by norm_num [Arith.real]
  rw [← one_ms]
  exact if_pos hc

/-- With no width every channel has the offset of its voice (R138). -/
theorem spreadDelay_real_narrow (base spread : ℝ) (v c : Nat) :
    spreadDelay (Kit.real P) base spread 0 v c = voiceOffset (Kit.real P) base spread v := by
  rcases Nat.mod_two_eq_zero_or_one c with even | odd
  · exact spreadDelay_even _ _ _ _ even v
  · rw [spreadDelay_real_odd P _ _ _ odd]
    ring

/-! ### The gain (R145) -/

/-- A sum of the active voices alone, from 0 in ascending order, is the sum over them: the voices after them add nothing. -/
theorem foldl_active_eq_sum (f : Nat → ℝ) {active n : Nat} (h : active ≤ n) :
    (List.range n).foldl (fun sum v => if v < active then sum + f v else sum) 0 = ∑ v ∈ Finset.range active, f v := by
  have upTo : ∀ k, (List.range k).foldl (fun sum v => if v < active then sum + f v else sum) 0 =
      ∑ v ∈ Finset.range (min k active), f v := by
    intro k
    induction k with
    | zero => simp
    | succ k ih =>
      rw [List.range_succ, List.foldl_append, ih, List.foldl_cons, List.foldl_nil]
      split
      · next hk => rw [min_eq_left hk.le, min_eq_left hk, Finset.sum_range_succ]
      · next hk => rw [min_eq_right (not_lt.mp hk), min_eq_right ((not_lt.mp hk).trans k.le_succ)]
  rw [upTo, min_eq_right h]

theorem bankOut_real {r : Regs ℝ} (h : r.vb.active ≤ P.nVoices) (c : Nat) (x : ℝ) :
    bankOut (Kit.real P) r c x =
      (∑ v ∈ Finset.range r.vb.active, voiceOut (Kit.real P) r v c x) / Real.sqrt r.vb.active := by
  have sum := foldl_active_eq_sum (fun v => voiceOut (Kit.real P) r v c x) h
  have gain : bankOut (Kit.real P) r c x =
      (List.range P.nVoices).foldl
        (fun sum v => if v < r.vb.active then sum + voiceOut (Kit.real P) r v c x else sum) 0 *
      (Arith.real.lit 1 1 / Real.sqrt r.vb.active) := rfl
  rw [gain, sum, lit_one_real, mul_one_div]

end

/-- Settles O58: each clause is the formula of R139 on even or on odd channels, and the gain is `bankOut_real`. -/
theorem spreadAndGainOverReals : Obligations.SpreadAndGainOverReals := by
  intro P _ K
  refine ⟨fun base spread width v c even => ?_, fun base spread v c odd => ?_, fun base spread v c => ?_,
    fun spread v => ?_, fun four v _ => ⟨?_, ?_⟩, fun r c x active => bankOut_real P active c x⟩
  · rw [spreadDelay_even K _ _ _ even, voiceOffset_real]
  · rw [spreadDelay_real_odd P _ _ _ odd]
    ring
  · rw [spreadDelay_real_narrow, spreadDelay_real_narrow]
  · rw [spreadDelay_real_narrow, voiceOffset_real]
    ring
  · rw [spreadDelay_even K _ _ _ rfl, voiceOffset_real, four]
    push_cast
    ring
  · rw [spreadDelay_real_odd P _ _ _ rfl, voiceOffset_real, four]
    push_cast
    ring

end Sys2Proof.Machine

/-! SUPPORT. One frame of the engine (spec/47_chorus_engine.md R180 to R186, R189): the refresh of the cutoffs when it is due, and
the registers that a frame leaves. -/

namespace Sys2Proof.Machine

section
variable {S : Type} [Inhabited S] {K : Kit S} {r : Regs S}

/-! ### The refresh (R186) -/

/-- A cutoff smoother at the end of a sub-block: skipped ahead over its frames, the last one counted (R186). -/
abbrev cutoffAhead (K : Kit S) (e : Eng S) (p : Smoother S) : Smoother S := smSkip K.A p (e.chcnt + 1)

/-- Both cutoffs that a refresh after the next frame uses lie inside their range (R156). -/
abbrev CutoffsOk (K : Kit S) (e : Eng S) : Prop :=
  CutoffOk K.A (cutoffAhead K e e.hpfc).cur e.fs ∧ CutoffOk K.A (cutoffAhead K e e.lpfc).cur e.fs

/-- The next frame ends a sub-block or the block (`RefreshDue`, of the engine alone). -/
abbrev FrameEnds (K : Kit S) (e : Eng S) : Prop := e.chcnt + 1 = K.P.chunk ∨ e.rem = 1

/-- The engine after the frame that `e` begins, with the outputs and mix smoothers of `t`. -/
def framedEngine (K : Kit S) (e t : Eng S) : Eng S :=
  { e with
    mix := t.mix, out := t.out, rem := e.rem - 1
    chcnt := if FrameEnds K e then 0 else e.chcnt + 1
    hpfc := if FrameEnds K e then cutoffAhead K e e.hpfc else e.hpfc
    lpfc := if FrameEnds K e then cutoffAhead K e e.lpfc else e.lpfc }

/-- The filters after the frame that `e` begins with the filters `f`, with the filter states of `t`. -/
def framedFilters (K : Kit S) (e : Eng S) (f t : Flt S) : Flt S :=
  let g := if FrameEnds K e then svfGains K (cutoffAhead K e e.hpfc).cur e.fs else (f.hpg, f.hph)
  let l := if FrameEnds K e then svfGains K (cutoffAhead K e e.lpfc).cur e.fs else (f.lpg, f.lph)
  { t with bcoef := f.bcoef, ccoef := f.ccoef, hpg := g.1, hph := g.2, lpg := l.1, lph := l.2 }

/-! ### The frame (R180) -/

/-- The registers that the body of a frame leaves to the refresh: `q` of the voices, the filter states of `f`, the outputs and
mix smoothers of `e`, and the counters moved (R180). -/
def beforeRefresh (r q : Regs S) (f : Flt S) (e : Eng S) : Regs S :=
  { q with
    flt := { r.flt with boost := f.boost, cut := f.cut, hp := f.hp, lp := f.lp }
    eng := { r.eng with mix := e.mix, out := e.out, rem := r.eng.rem - 1, chcnt := r.eng.chcnt + 1 } }

omit [Inhabited S] in
/-- The end of a frame: the refresh when it is due, with a cutoff legal then, and otherwise nothing (R180, R186). -/
theorem frameEnd_ok (opened : 0 < r.eng.rem) (cutoffs : FrameEnds K r.eng → CutoffsOk K r.eng) (q : Regs S) (f : Flt S)
    (e : Eng S) :
    (if (beforeRefresh r q f e).eng.chcnt = K.P.chunk ∨ (beforeRefresh r q f e).eng.rem = 0
      then refresh K (beforeRefresh r q f e) else .ok (beforeRefresh r q f e)) =
      .ok { q with flt := framedFilters K r.eng r.flt f, eng := framedEngine K r.eng e } := by
  have last : r.eng.rem - 1 = 0 ↔ r.eng.rem = 1 := by omega
  have due : ((beforeRefresh r q f e).eng.chcnt = K.P.chunk ∨ (beforeRefresh r q f e).eng.rem = 0) ↔ FrameEnds K r.eng :=
    or_congr_right last
  by_cases ends : FrameEnds K r.eng
  · obtain ⟨hp, lp⟩ := cutoffs ends
    rw [if_pos (due.mpr ends)]
    simp only [framedEngine, framedFilters, if_pos ends]
    show refreshCoefs K _ _ >>= _ = _
    rw [refreshCoefs_ok hp lp]
    rfl
  · rw [if_neg (mt due.mp ends)]
    simp only [framedEngine, framedFilters, if_neg ends]
    rfl

/-- A frame whose voices read inside their buffers, and whose cutoffs are legal when a refresh is due, completes: the voices
have run to `q` with the wet samples `w`, and the engine and the filters are left as `frameBody` and the refresh say. -/
theorem engFrame_ok [DecidableEq S] (opened : 0 < r.eng.rem)
    (reads : ∀ v < K.P.nVoices, ∀ c < r.sys.nch, ReadOk K r v c)
    (cutoffs : FrameEnds K r.eng → CutoffsOk K r.eng) :
    ∃ w q, OutsideSame r q ∧ (∀ c < r.sys.nch, w.get c = bankOut K r c (r.eng.inp.get c)) ∧
      engFrame K r = .ok { q with
        flt := framedFilters K r.eng r.flt (frameBody K r q w).flt
        eng := framedEngine K r.eng (frameBody K r q w).eng } := by
  rcases engFrame_cases K r with ⟨_, w, q, _, he, wet, _, _, _, outside⟩ | ⟨⟨c, hc, v, hv, hbad⟩, _⟩
  · obtain ⟨_, _, _, _, _, _, body⟩ := frameBody_spec K r q w outside wet
    rw [body] at he
    exact ⟨w, q, outside, wet, he.trans (frameEnd_ok opened cutoffs q _ _)⟩
  · exact absurd (reads v hv c hc) hbad

end

/-- Settles O46: the voices as `engFrame_yields` leaves them, the outputs, smoothers and filter states as `frameBody_spec`
does, the counters and coefficients as `engFrame_ok` does. -/
theorem engSteps : Obligations.EngSteps := by
  intro s hrun prep opened K A e f nch voices cutoffs
  have reads : ∀ v < s.cfg.nVoices, ∀ c < nch, ReadOk K s.regs v c := fun v hv c hc =>
    And.left (voices v hv c hc)
  obtain ⟨w, q, outside, wet, he⟩ := engFrame_ok (K := K) opened reads cutoffs
  obtain ⟨out, mix, hp, lp, boost, cut, _⟩ := frameBody_spec K s.regs q w outside wet
  have frame := engFrame_yields K s.regs _ he
  refine ⟨{ q with
      flt := framedFilters K e f (frameBody K s.regs q w).flt, eng := framedEngine K e (frameBody K s.regs q w).eng }, ?_,
    rfl, out, mix, hp, lp, boost, cut, rfl, rfl, rfl, rfl, fun v hv c hc => ?_, fun v c hvc => ?_, frame.scalars,
    frame.sys, frame.vb⟩
  · refine run_completes (.inl hrun) (decodeChecks_plain (kind := .none) rfl trivial) ?_
    rw [require_bind_of prep, require_bind_of (bne_iff_ne.mpr opened.ne'), he, ok_bind]
    rfl
  · obtain ⟨_, canonical⟩ := voices v hv c hc
    exact (frame.ran v hv c hc).stepped canonical
  · obtain ⟨osc, dly, dt, dp⟩ := frame.same v c hvc
    exact ⟨osc, dly, dt, dp⟩

end Sys2Proof.Machine

/-! SUPPORT. The filter commands (spec/46_filters.md R158 to R162): one filter on one sample, and the reset. -/

namespace Sys2Proof.Machine

section
variable {S : Type} [Inhabited S]

/-! ### One filter on one sample (R151, R154, R155) -/

theorem runBoost_eq (A : Arith S) (c : Nat) (x : S) (f : Flt S) :
    runBoost A c x f = (biquadOut A (f.boost.get c) f.bcoef x,
      { f with boost := f.boost.put c (biquadNext A (f.boost.get c) f.bcoef x) }) := rfl

theorem runCut_eq (A : Arith S) (c : Nat) (x : S) (f : Flt S) :
    runCut A c x f = (biquadOut A (f.cut.get c) f.ccoef x,
      { f with cut := f.cut.put c (biquadNext A (f.cut.get c) f.ccoef x) }) := rfl

theorem runHp_eq (K : Kit S) (c : Nat) (x : S) (f : Flt S) :
    runHp K c x f = (svfHigh K (f.hp.get c) f.hpg f.hph x,
      { f with hp := f.hp.put c (svfNext K (f.hp.get c) f.hpg f.hph x) }) := rfl

theorem runLp_eq (K : Kit S) (c : Nat) (x : S) (f : Flt S) :
    runLp K c x f = (svfLow K (f.lp.get c) f.lpg f.lph x,
      { f with lp := f.lp.put c (svfNext K (f.lp.get c) f.lpg f.lph x) }) := rfl

/-- A row in which one register is replaced by a function of its own value. -/
theorem Bank.get_put_own (xs : Bank S) (i : Nat) (next : S → S) (k : Nat) :
    (xs.put i (next (xs.get i))).get k = if k = i then next (xs.get k) else xs.get k := by
  rw [Bank.get_put]
  split
  · next same => rw [same]
  · rfl

end

/-- The body of `FLT.BOOST`, `FLT.CUT`, `FLT.HP` and `FLT.LP` on a prepared engine, from what its filter does (R159 to
R162). -/
theorem filterBody_ok {s : State} (prep : s.regs.eng.prep = true) {ran : Sample × Flt Sample} {y : Sample} {f : Flt Sample}
    (eq : ran = (y, f)) :
    (do require s.regs.eng.prep .notPrepared
        let (y, f) := ran
        return (y, { s.regs with flt := f })) = (Except.ok (y, { s.regs with flt := f }) : Result) := by
  rw [require_bind_of prep, eq]
  rfl

/-- Settles O41: the reset clears every row; each of the other commands has the body of `filterBody_ok` and replaces one
register of its filter's row. -/
theorem filterCommands : Obligations.FilterCommands := by
  intro s c opd hrun hx A x f
  refine ⟨⟨fltReset s.kit f, ?_, fun k hk => fltReset_clears f hk, rfl⟩, fun hc prep => ⟨?_, ?_, ?_, ?_⟩⟩
  · exact run_completes (.inl hrun) (decodeChecks_plain (kind := .none) rfl trivial) rfl
  · exact ⟨_, run_completes (.inl hrun) (decodeChecks_chan (kind := .s) rfl hc hx) (filterBody_ok prep (runBoost_eq ..)),
      Bank.get_put_own f.boost c.toNat fun st => biquadNext A st f.bcoef x⟩
  · exact ⟨_, run_completes (.inl hrun) (decodeChecks_chan (kind := .s) rfl hc hx) (filterBody_ok prep (runCut_eq ..)),
      Bank.get_put_own f.cut c.toNat fun st => biquadNext A st f.ccoef x⟩
  · exact ⟨_, run_completes (.inl hrun) (decodeChecks_chan (kind := .s) rfl hc hx) (filterBody_ok prep (runHp_eq ..)),
      Bank.get_put_own f.hp c.toNat fun st => svfNext s.kit st f.hpg f.hph x⟩
  · exact ⟨_, run_completes (.inl hrun) (decodeChecks_chan (kind := .s) rfl hc hx) (filterBody_ok prep (runLp_eq ..)),
      Bank.get_put_own f.lp c.toNat fun st => svfNext s.kit st f.lpg f.lph x⟩

end Sys2Proof.Machine

/-! SUPPORT. The filters over the real numbers (spec/46_filters.md R152, R153, R156, R157): gains and fixed points. -/

namespace Sys2Proof.Machine

theorem lit_two_real : Arith.real.lit 2 1 = 2 := by simp [Arith.real]

/-! ### A biquad section at rest (R151) -/

/-- A section whose numerator at frequency 0 is `g` times its denominator has, under every constant input, a state that it
keeps while it answers `g` times that input. -/
theorem biquad_real_fixed {k : Coefs ℝ} {g : ℝ} (gain : k.c0 + k.c1 + k.c2 = g * (1 + k.c3 + k.c4)) (x : ℝ) :
    ∃ st, biquad Arith.real st k x = (g * x, st) := by
  refine ⟨⟨g * x - k.c0 * x, k.c2 * x - k.c4 * (g * x)⟩, ?_⟩
  have answer : k.c0 * x + (g * x - k.c0 * x) = g * x := by ring
  have kept : k.c1 * x - k.c3 * (g * x) + (k.c2 * x - k.c4 * (g * x)) = g * x - k.c0 * x := by
    linear_combination x * gain
  simp only [biquad, Arith.real, answer, kept]

/-! ### The shelves (R152, R153) -/

/-- The denominator `a0` of `ShelfCoef` over `real`, from `A`, `cos w` and `beta` (R152). -/
def shelfDen (a cs beta : ℝ) : ℝ := a + 1 + (a - 1) * cs + beta

/-- The shelf of R152 over `real`, from `A`, `cos w` and `beta`. -/
noncomputable def shelfReal (a cs beta : ℝ) : Coefs ℝ where
  c0 := a * (a + 1 - (a - 1) * cs + beta) / shelfDen a cs beta
  c1 := 2 * a * (a - 1 - (a + 1) * cs) / shelfDen a cs beta
  c2 := a * (a + 1 - (a - 1) * cs - beta) / shelfDen a cs beta
  c3 := -2 * (a - 1 + (a + 1) * cs) / shelfDen a cs beta
  c4 := (a + 1 + (a - 1) * cs - beta) / shelfDen a cs beta

theorem shelfCoef_real (fs f0 q g : ℝ) :
    shelfCoef Arith.real fs f0 q g =
      shelfReal √g (Real.cos (2 * Real.pi * f0 / fs)) (Real.sin (2 * Real.pi * f0 / fs) * √√g / q) := by
  simp only [shelfCoef, lit_one_real, lit_two_real]
  rfl

section
variable {a cs beta : ℝ}

theorem shelfDen_pos (ha : 0 < a) (lo : -1 < cs) (hi : cs < 1) (hb : 0 ≤ beta) : 0 < shelfDen a cs beta := by
  have split : shelfDen a cs beta = a * (1 + cs) + (1 - cs) + beta := by
    rw [shelfDen]
    ring
  have : 0 < a * (1 + cs) := mul_pos ha (by linarith)
  linarith

/-! Numerator and denominator of the shelf at frequency 0, then at the Nyquist frequency (R153). -/

theorem shelfReal_num_dc : let k := shelfReal a cs beta
    k.c0 + k.c1 + k.c2 = a ^ 2 * (4 * (1 - cs) / shelfDen a cs beta) := by
  simp only [shelfReal]
  ring

theorem shelfReal_den_dc (hd : shelfDen a cs beta ≠ 0) : let k := shelfReal a cs beta
    1 + k.c3 + k.c4 = 4 * (1 - cs) / shelfDen a cs beta := by
  simp only [shelfReal]
  field_simp
  rw [shelfDen]
  ring

theorem shelfReal_num_nyquist : let k := shelfReal a cs beta
    k.c0 - k.c1 + k.c2 = 4 * a * (1 + cs) / shelfDen a cs beta := by
  simp only [shelfReal]
  ring

theorem shelfReal_den_nyquist (hd : shelfDen a cs beta ≠ 0) : let k := shelfReal a cs beta
    1 - k.c3 + k.c4 = 4 * a * (1 + cs) / shelfDen a cs beta := by
  simp only [shelfReal]
  field_simp
  rw [shelfDen]
  ring

/-- A corner strictly between frequency 0 and the Nyquist frequency makes both denominators positive, and the gains are those
of R153. -/
theorem shelfReal_gains (ha : 0 < a) (lo : -1 < cs) (hi : cs < 1) (hb : 0 ≤ beta) : let k := shelfReal a cs beta
    0 < 1 + k.c3 + k.c4 ∧ 0 < 1 - k.c3 + k.c4 ∧ k.c0 + k.c1 + k.c2 = a ^ 2 * (1 + k.c3 + k.c4) ∧
      k.c0 - k.c1 + k.c2 = 1 - k.c3 + k.c4 := by
  have hd := shelfDen_pos ha lo hi hb
  have above : 0 < 1 + cs := by linarith
  have below : 0 < 1 - cs := by linarith
  simp only [shelfReal_num_dc, shelfReal_num_nyquist, shelfReal_den_dc hd.ne', shelfReal_den_nyquist hd.ne']
  exact ⟨by positivity, by positivity, trivial, trivial⟩

end

/-- A frequency strictly between 0 and half the rate is an angle strictly between 0 and a half turn. -/
theorem angle_mem_Ioo {f fs : ℝ} (pos : 0 < f) (below : f < fs / 2) : 2 * Real.pi * f / fs ∈ Set.Ioo 0 Real.pi := by
  have hpi := Real.pi_pos
  have rate : 0 < fs := by linarith
  refine ⟨by positivity, ?_⟩
  rw [div_lt_iff₀ rate]
  nlinarith

/-- The shelf that `ShelfCoef` computes for a corner below half the rate (R152, R153). -/
theorem shelfCoef_real_gains {fs f0 q g : ℝ} (corner : 0 < f0) (below : f0 < fs / 2) (hq : 0 < q) (hg : 0 < g) :
    let k := shelfCoef Arith.real fs f0 q g
    0 < 1 + k.c3 + k.c4 ∧ 0 < 1 - k.c3 + k.c4 ∧ k.c0 + k.c1 + k.c2 = g * (1 + k.c3 + k.c4) ∧
      k.c0 - k.c1 + k.c2 = 1 - k.c3 + k.c4 := by
  obtain ⟨lo, hi⟩ := angle_mem_Ioo corner below
  have hsin := Real.sin_pos_of_pos_of_lt_pi lo hi
  have cos_lt : Real.cos (2 * Real.pi * f0 / fs) < 1 := by
    simpa using Real.cos_lt_cos_of_nonneg_of_le_pi le_rfl hi.le lo
  have lt_cos : -1 < Real.cos (2 * Real.pi * f0 / fs) := by
    simpa using Real.cos_lt_cos_of_nonneg_of_le_pi lo.le le_rfl hi
  have gains := shelfReal_gains (Real.sqrt_pos.mpr hg) lt_cos cos_lt
    (beta := Real.sin (2 * Real.pi * f0 / fs) * √√g / q) (by positivity)
  rwa [Real.sq_sqrt hg.le, ← shelfCoef_real] at gains

/-! ### The state-variable filters (R156, R157) -/

theorem svfGains_real (P : Params ℝ) (fc fs : ℝ) :
    svfGains (Kit.real P) fc fs =
      (Real.tan (Real.pi * fc / fs),
        1 / (1 + 1 / P.svfQ * Real.tan (Real.pi * fc / fs) +
          Real.tan (Real.pi * fc / fs) * Real.tan (Real.pi * fc / fs))) := by
  simp only [svfGains, Kit.real, lit_one_real]
  rfl

/-- A cutoff between 0 and half the rate is legal over `real` (R156). -/
theorem svfCoef_real {fc fs : ℝ} (P : Params ℝ) (pos : 0 < fc) (below : fc < fs / 2) :
    svfCoef (Kit.real P) fc fs = .ok (svfGains (Kit.real P) fc fs) := by
  have legal : CutoffOk Arith.real fc fs := by
    refine ⟨decide_eq_true pos, decide_eq_true ?_⟩
    rw [lit_two_real]
    exact below
  rcases svfCoef_cases (Kit.real P) fc fs with ⟨_, ok⟩ | ⟨illegal, _⟩
  · exact ok
  · exact absurd legal illegal

theorem tan_cutoff_pos {fc fs : ℝ} (pos : 0 < fc) (below : fc < fs / 2) : 0 < Real.tan (Real.pi * fc / fs) := by
  obtain ⟨lo, hi⟩ := angle_mem_Ioo pos below
  have double : 2 * Real.pi * fc / fs = 2 * (Real.pi * fc / fs) := by ring
  rw [double] at lo hi
  exact Real.tan_pos_of_pos_of_lt_pi_div_two (by linarith) (by linarith)

theorem svfGains_real_quarter (P : Params ℝ) {fs : ℝ} (rate : 0 < fs) :
    svfGains (Kit.real P) (fs / 4) fs = (1, 1 / (2 + 1 / P.svfQ)) := by
  have angle : Real.pi * (fs / 4) / fs = Real.pi / 4 := by
    field_simp
  rw [svfGains_real, angle, Real.tan_pi_div_four]
  ring_nf

/-- With `S1 = 0` and `S2` at the input, the filter answers `hp = 0` and `lp = x` and keeps its state (R157). -/
theorem svf_real_fixed (r2 g h x : ℝ) : svf Arith.real r2 ⟨0, x⟩ g h x = (0, x, ⟨0, x⟩) := by
  simp [svf, Arith.real]

/-- Settles O59: the shelf's gains at both ends are quotients of the sums of `shelfCoef_real_gains`, and the first of them is
what `biquad_real_fixed` asks; the state-variable filter's coefficients are those of `svfGains_real`. -/
theorem filtersOverReals : Obligations.FiltersOverReals := by
  refine ⟨fun fs f0 q g corner below hq hg => ?_, fun P fs hQ rate => ⟨?_, fun fc pos below => ?_⟩⟩
  · obtain ⟨dc, nyquist, gain, unit⟩ := shelfCoef_real_gains corner below hq hg
    exact ⟨dc.ne', nyquist.ne', (div_eq_iff dc.ne').mpr gain, (div_eq_one_iff_eq nyquist.ne').mpr unit,
      biquad_real_fixed gain⟩
  · rw [svfCoef_real P (by linarith) (by linarith), svfGains_real_quarter P rate]
  · have hg := tan_cutoff_pos pos below
    refine ⟨_, _, by rw [svfCoef_real P pos below, svfGains_real], hg, by positivity, fun x => svf_real_fixed _ _ _ x⟩

end Sys2Proof.Machine

/-! SUPPORT. Taking a fault and the halted state (spec/60_exceptions.md R202, R203): what a completed command keeps of the
system registers, and what a halted block does. -/

namespace Sys2Proof.Machine

/-! ### A command that completes (R9, R203) -/

theorem setChannels_info (K : Kit Sample) (n : Nat) (r : Regs Sample) : (setChannels K n r).sys.info = r.sys.info := by
  unfold setChannels
  split <;> rfl

/-- Only a fault entry writes `INFO`, and its response has `FAULT` set. -/
theorem run_info {i : Instr} {s t : State} {body : Result} (h : run i s body = .next t) (ok : t.resp.fault = false)
    (done : Yields (fun a => a.2.sys.info = s.regs.sys.info) body) : t.regs.sys.info = s.regs.sys.info := by
  rcases run_cases h with ⟨_, _, rfl⟩ | ⟨_, _, _, rfl⟩ | ⟨val, r, _, _, hb, rfl⟩
  · cases ok
  · cases ok
  · exact done _ hb

/-- The registers of the halted state are the same in both (R23). -/
structure HaltSame (y y' : Sys) : Prop where
  halt : y'.halt = y.halt
  cause : y'.cause = y.cause
  info : y'.info = y.info

/-- The reset apart, a command that completes without a fault keeps `HALT`, `CAUSE` and `INFO`. -/
theorem exec_haltSame {i : Instr} {s t : State} (h : exec i s = .next t) (hi : i ≠ .sysReset)
    (ok : t.resp.fault = false) : HaltSame s.regs.sys t.regs.sys := by
  have same := exec_outcome h
  have info : t.regs.sys.info = s.regs.sys.info := by
    cases hw : writesSys i with
    | false =>
      cases same with
      | refused => rfl
      | faulted => cases ok
      | completed val r kept => exact congrArg Sys.info (kept.sys hw)
      | reset hr => exact absurd hr hi
    | true =>
      unfold exec at h
      cases i with
      | sysSetch => exact run_info h ok (.require fun _ => .require fun _ => .pure (setChannels_info _ _ _))
      | sysSetblk => exact run_info h ok (.pure rfl)
      | sysReset => exact absurd rfl hi
      | _ => cases hw
  cases same with
  | refused => cases ok
  | faulted => cases ok
  | completed val r kept => exact ⟨kept.halt, kept.cause, info⟩
  | reset hr => exact absurd hr hi

/-- Settles O9: a command that runs faults by a fault entry, or completes and keeps what `exec_haltSame` says. -/
theorem faultsArePrecise : Obligations.FaultsArePrecise := by
  intro i s t hrun h
  by_cases hi : i = .sysReset
  · subst hi
    obtain rfl : resetEntry s = t := by simpa [exec_sysReset] using h
    exact .inl ⟨rfl, rfl, fun hne => absurd rfl hne⟩
  · obtain ⟨body, hb⟩ := exec_eq_run i s hi
    rcases run_cases (hb ▸ h) with ⟨halted, _⟩ | ⟨e, _, _, rfl⟩ | ⟨val, r, _, _, _, rfl⟩
    · rw [hrun] at halted
      cases halted
    · exact .inr ⟨e, rfl⟩
    · have same := exec_haltSame h hi rfl
      exact .inl ⟨rfl, same.halt.trans hrun, fun _ => ⟨same.cause, same.info⟩⟩

/-! ### The halted state (R202, R207) -/

theorem exec_refused {i : Instr} {s : State} (halted : s.regs.sys.halt = true) (hi : runsHalted i = false) :
    exec i s = .next (refuse s) := by
  have hne : i ≠ .sysReset := by
    rintro rfl
    cases hi
  obtain ⟨body, hb⟩ := exec_eq_run i s hne
  rw [hb]
  exact run_refused body halted hi

/-- No command but the reset leaves the halted state. -/
theorem exec_stays_halted {i : Instr} {s t : State} (halted : s.regs.sys.halt = true) (h : exec i s = .next t)
    (hi : i ≠ .sysReset) : t.regs.sys.halt = true := by
  cases exec_outcome h with
  | refused => exact halted
  | faulted => rfl
  | completed val r kept => exact kept.halt.trans halted
  | reset hr => exact absurd hr hi

theorem step_illegal_halted {s : State} {w : CmdWord} {rest : List CmdWord} {e : Reject} (hs : s.regs.sys.halt = true)
    (hp : s.port = w :: rest) (hd : decode s.prec w = .error e) : step s = .next (refuse { s with port := rest }) := by
  have hh : { s with port := rest }.regs.sys.halt = true := hs
  rw [step_illegal hp hd, illegalWord_halted hh]

/-- Only a step that takes the reset leaves the halted state (R207). -/
theorem step_stays_halted {s t : State} (hs : s.regs.sys.halt = true)
    (noReset : ∀ w rest, s.port = w :: rest → decode s.prec w ≠ .ok .sysReset) (h : step s = .next t) :
    t.regs.sys.halt = true := by
  rcases step_cases h with ⟨_, rfl⟩ | ⟨w, rest, e, _, _, rfl⟩ | ⟨w, rest, i, hp, hd, he⟩
  · exact hs
  · have hh : { s with port := rest }.regs.sys.halt = true := hs
    rw [illegalWord_halted hh]
    exact hs
  · have hi : i ≠ .sysReset := fun hr => noReset w rest hp (hr ▸ hd)
    exact exec_stays_halted (s := { s with port := rest }) hs he hi

/-- Settles O10: the commands of R202 run, the rest is refused, and a step to a running block is none but the reset's. -/
theorem halted : Obligations.Halted := by
  intro s w rest hs hp s'
  have hh : s'.regs.sys.halt = true := hs
  have answers : ∀ {i body val}, runsHalted i = true → body = .ok (val, s'.regs) →
      run i s' body = .next { s' with resp := { fault := false, val := val } } := fun hi hb =>
    run_completes (.inr hi) (decodeChecks_runsHalted s' hi) hb
  refine ⟨fun hd => ?_, fun hd => ?_, fun hd => ?_, fun hd => ?_, fun hd => ?_, fun t ht hrun => ?_⟩
  · exact step_command hp hd
  · exact (step_command hp hd).trans (answers rfl rfl)
  · exact (step_command hp hd).trans (answers rfl rfl)
  · exact (step_command hp hd).trans (answers rfl rfl)
  · cases hdec : decode s.prec w with
    | error e => exact step_illegal_halted hs hp hdec
    | ok i => exact (step_command hp hdec).trans (exec_refused hh (hd i hdec))
  · by_contra hd
    have stays := step_stays_halted hs (fun w' rest' hp' => ?_) ht
    · rw [hrun] at stays
      cases stays
    · obtain ⟨rfl, _⟩ : w = w' ∧ rest = rest' := by simpa [hp] using hp'
      exact hd

end Sys2Proof.Machine

/-! SUPPORT. Commands out of their place in the block protocol, and commands on a unit that is not prepared
(spec/60_exceptions.md R205 codes 9 and 2, spec/70_reset_and_hazards.md R225). -/

namespace Sys2Proof.Machine

/-- The check that no block is open fails inside a block (R225). -/
theorem closed_check_fails {s : State} (opened : 0 < s.regs.eng.rem) : (s.regs.eng.rem == 0) = false :=
  beq_eq_false_iff_ne.mpr opened.ne'

/-- The check that a buffer is allocated fails at `SIZE = 0` (R103). -/
theorem allocated_check_fails {S : Type} {b : Dly S} (h : b.size = 0) : (b.size != 0) = false :=
  bne_eq_false_iff_eq.mpr h

/-- Settles O12: of each command the check of the block protocol fails, for nine of them the first check. -/
theorem sequenceFaults : Obligations.SequenceFaults := by
  intro s v c x n byp hrun hx hn
  refine ⟨fun opened => ?_, fun closed prep => ?_⟩
  · have fails : ∀ {β : Type} {f : Unit → Except Cause β},
        (require (s.regs.eng.rem == 0) .sequence >>= f) = .error .sequence :=
      require_bind_fails (closed_check_fails opened)
    have plain : ∀ {i op}, i.row = (.plain .s, ⟨op, 0, 0, 0, x⟩) → decodeChecks i s = .ok () := fun row =>
      decodeChecks_plain row hx
    refine ⟨fun hlo hhi => ?_, fun hv hc => ⟨?_, ?_⟩, fun hv => ⟨?_, ?_, ?_⟩, ⟨?_, ?_, ?_, ?_⟩, fun prep => ?_⟩
    · have in_range : decide (n.toNat ≠ 0 ∧ n.toNat ≤ s.cfg.nChMax) = true :=
        decide_eq_true ⟨Nat.ne_zero_of_lt hlo, hhi⟩
      rw [Faults, exec_sysSetch hn]
      exact run_faults hrun (decodeChecks_plain rfl hn) ((require_bind_of in_range).trans fails)
    · exact run_faults hrun (decodeChecks_both rfl hv hc hx) fails
    · exact run_faults hrun (decodeChecks_both rfl hv hc hn) fails
    · exact run_faults hrun (decodeChecks_voice rfl hv hx) fails
    · exact run_faults hrun (decodeChecks_voice rfl hv hx) fails
    · exact run_faults hrun (decodeChecks_voice rfl hv hx) fails
    · exact run_faults hrun (plain rfl) fails
    · exact run_faults hrun (plain rfl) fails
    · exact run_faults hrun (plain rfl) fails
    · exact run_faults hrun (plain rfl) fails
    · exact run_faults hrun (decodeChecks_imm rfl hn) ((require_bind_of prep).trans fails)
  · refine run_faults hrun (decodeChecks_plain (kind := .none) rfl trivial) ?_
    exact (require_bind_of prep).trans (require_bind_fails (bne_eq_false_iff_eq.mpr closed))

/-- Settles O13: the first check of each of these commands is that its unit is prepared, or allocated. -/
theorem notPreparedFaults : Obligations.NotPreparedFaults := by
  intro s v c x n byp hrun hx hn
  refine ⟨fun hv hc => ⟨fun prep => ?_, fun empty => ?_, fun prep => ?_⟩, fun hv prep => ?_, fun hc prep => ?_,
    fun prep => ⟨fun hc => ?_, ?_, ?_, ?_⟩⟩
  · exact run_faults hrun (decodeChecks_both (kind := .none) rfl hv hc trivial) (require_bind_fails prep)
  · have fails : ∀ {β : Type} {f : Unit → Except Cause β},
        (require ((s.regs.getDly v.toNat c.toNat).size != 0) .notPrepared >>= f) = .error .notPrepared :=
      require_bind_fails (allocated_check_fails empty)
    exact ⟨run_faults hrun (decodeChecks_both rfl hv hc hn) fails,
      run_faults hrun (decodeChecks_both rfl hv hc hx) fails, run_faults hrun (decodeChecks_both rfl hv hc hx) fails⟩
  · exact run_faults hrun (decodeChecks_both rfl hv hc hx) (require_bind_fails prep)
  · exact run_faults hrun (decodeChecks_voice (kind := .none) rfl hv trivial) (require_bind_fails prep)
  · exact run_faults hrun (decodeChecks_chan rfl hc hx) (require_bind_fails prep)
  · have filter : ∀ {i op} {f : Unit → Result}, i.row = (.chan .s, ⟨op, 0, c, 0, x⟩) →
        run i s (require s.regs.eng.prep .notPrepared >>= f) = .next (faultEntry .notPrepared (encode i).hdr s) :=
      fun row => run_faults hrun (decodeChecks_chan row hc hx) (require_bind_fails prep)
    exact ⟨filter rfl, filter rfl, filter rfl, filter rfl⟩
  · exact run_faults hrun (decodeChecks_imm rfl hn) (require_bind_fails prep)
  · exact run_faults hrun (decodeChecks_plain (kind := .none) rfl trivial) (require_bind_fails prep)
  · exact run_faults hrun (decodeChecks_plain (kind := .none) rfl trivial) (require_bind_fails prep)

end Sys2Proof.Machine

/-! SUPPORT. The reset (spec/70_reset_and_hazards.md R220): every register by voice and channel. -/

namespace Sys2Proof.Machine

theorem Bank.get_replicate_of_lt {α : Type} [Inhabited α] {n i : Nat} (a : α) (h : i < n) :
    Bank.get (List.replicate n a) i = a :=
  (Bank.get_replicate n a i).trans (if_pos h)

section
variable {S : Type} [Inhabited S] (A : Arith S) (P : Params S)

theorem getOsc_reset {v c : Nat} (hv : v < P.nVoices) (hc : c < P.nChMax) :
    (Regs.reset A P).getOsc v c = Osc.reset A := by
  simp only [Regs.getOsc, Regs.reset, Bank.get_replicate_of_lt _ hv, Bank.get_replicate_of_lt _ hc]

omit [Inhabited S] in
theorem getDly_reset {v c : Nat} (hv : v < P.nVoices) (hc : c < P.nChMax) :
    (Regs.reset A P).getDly v c = Dly.reset := by
  simp only [Regs.getDly, Regs.reset, Bank.get_replicate_of_lt _ hv, Bank.get_replicate_of_lt _ hc]

theorem getMdl_reset {v : Nat} (hv : v < P.nVoices) : (Regs.reset A P).getMdl v = Mdl.reset A P :=
  Bank.get_replicate_of_lt _ hv

end

/-- Settles O19: `SYS.RESET` writes `Regs.reset`, whose rows hold one value in every register of the build. -/
theorem resetLeaves : Obligations.ResetLeaves := by
  intro s
  refine ⟨Regs.reset s.kit.A s.kit.P, exec_sysReset s, fun hprec hcfg => ?_, step_waits rfl, rfl, fun v hv c hc => ?_,
    fun v hv => ?_, rfl, fun c hc => ?_, rfl, rfl, rfl, rfl, rfl, rfl, rfl, rfl, rfl, rfl, rfl, rfl, rfl, rfl, rfl, rfl,
    rfl⟩
  · rw [kit_A, kit_P, hprec, hcfg]
    rfl
  · rw [getOsc_reset _ s.kit.P hv hc, getDly_reset _ s.kit.P hv hc, getMdl_reset _ s.kit.P hv]
    exact ⟨rfl, rfl, rfl, Bank.get_replicate_of_lt _ hc, Bank.get_replicate_of_lt _ hc⟩
  · rw [getMdl_reset _ s.kit.P hv]
    exact ⟨rfl, rfl, rfl, rfl, rfl⟩
  · have row : ∀ {α : Type} [Inhabited α] (a : α), Bank.get (List.replicate s.cfg.nChMax a) c = a := fun a =>
      Bank.get_replicate_of_lt a hc
    exact ⟨row _, row _, row _, row _, row _, row _, row _⟩

/-- Settles O53: the registers of the machine's reset are those of `SYS.RESET` on it, and the default build has a table, a
voice and a sub-block. -/
theorem invariantsAtReset : Obligations.InvariantsAtReset := by
  refine ⟨smoothersOk_resetEntry State.reset, ⟨by decide, ?_⟩, buffersOk_resetEntry State.reset, ?_⟩
  · exact allOscs_reset (oscInvariant_position .binary32 (Params.default .binary32) (by decide))
  · exact (controlOk_iff _).mpr ⟨countersOk_reset (K := State.reset.kit) (by decide) (by decide), haltOk_reset⟩

end Sys2Proof.Machine

/-! SUPPORT. The block protocol around a frame (spec/47_chorus_engine.md R178, R179, R187, R188). -/

namespace Sys2Proof.Machine

/-- Settles O45: the checks hold; one latch is loaded or answered, and the latency is a `u32` (R192). -/
theorem engBlock : Obligations.EngBlock := by
  intro s c x n byp hrun hx hn A e
  refine ⟨fun prep closed => ?_, fun hc => ⟨_, ?_, fun k => Bank.get_put e.inp c.toNat k (sOperand s x)⟩, fun hc => ?_, ?_⟩
  · refine run_completes (.inl hrun) (decodeChecks_imm rfl hn) ?_
    rw [require_bind_of prep, require_bind_of (closed_check closed), uOperand_of_intOpd hn]
    rfl
  · exact run_completes (.inl hrun) (decodeChecks_chan (kind := .s) rfl hc hx) rfl
  · exact run_completes (.inl hrun) (decodeChecks_chan (kind := .none) rfl hc trivial) rfl
  · intro z prep
    refine ⟨toU32 z, toU32_lt z, toU32_of_nonneg, ?_⟩
    refine run_completes (.inl hrun) (decodeChecks_plain (kind := .none) rfl trivial) ?_
    rw [require_bind_of prep]
    rfl

end Sys2Proof.Machine

/-! SUPPORT. The mixing modes over the real numbers (spec/47_chorus_engine.md R182 to R185). -/

namespace Sys2Proof.Machine

section
variable (c : Nat) (d a b m : ℝ) (f : Flt ℝ)

theorem mixValue_real_stereo : mixValue Arith.real .stereo c d a b m f = d * (1 - m) + (a - b) * m := by
  simp only [mixValue, lit_one_real]
  rfl

theorem mixValue_real_mono :
    mixValue Arith.real .mono c d a b m f = d * (1 - m) + (a + b) * m * (1 / Real.sqrt 2) := by
  simp only [mixValue, lit_one_real, lit_two_real]
  rfl

theorem mixValue_real_vibrato : mixValue Arith.real .vibrato c d a b m f = d * (1 - m) + a * m := by
  simp only [mixValue, lit_one_real]
  rfl

theorem mixValue_real_dimension :
    mixValue Arith.real .dimension c d a b m f =
      biquadOut Arith.real (f.boost.get c) f.bcoef d * (1 - m) +
        (a - biquadOut Arith.real (f.cut.get c) f.ccoef b) * m := by
  simp only [mixValue, lit_one_real]
  rfl

end

/-- Settles O60: `mix_spec` gives the value and the filters of each mode, and the value is its formula over `real`. -/
theorem mixesOverReals : Obligations.MixesOverReals := by
  intro c d a b m f A
  refine ⟨?_, ?_, ?_, ?_, fun k hk => ?_, ?_, ?_⟩ <;> rw [mix_spec]
  · rw [mixValue_real_stereo, if_neg nofun]
  · rw [mixValue_real_mono, if_neg nofun]
  · rw [mixValue_real_vibrato, if_neg nofun]
  · exact mixValue_real_dimension c d a b m f
  · show mixValue Arith.real k c d a b 0 f = d
    cases k with
    | stereo => rw [mixValue_real_stereo]; ring
    | mono => rw [mixValue_real_mono]; ring
    | vibrato => rw [mixValue_real_vibrato]; ring
    | dimension => exact absurd rfl hk
  · exact (mixValue_real_dimension c d a b 0 f).trans (by ring)
  · exact (mixValue_real_stereo c d a b 1 f).trans (by ring)

end Sys2Proof.Machine

/-! SUPPORT. The engine registers that a frame reads late or never (spec/47_chorus_engine.md R178, R180, R189): `MODE` not at
all, `BYP_L` and `OUT` only where the outputs are written. A frame commutes with a change of them. -/

namespace Sys2Proof.Machine

/-! ### Loops and sequences under a change of the state -/

/-- A loop whose every pass commutes with a change of the state commutes with it. -/
theorem loopE_map {σ ε : Type} {f : Nat → σ → Except ε σ} {g : σ → σ} (h : ∀ k a, f k (g a) = (f k a).map g)
    (n : Nat) (a : σ) : loopE n f (g a) = (loopE n f a).map g := by
  induction n with
  | zero => rfl
  | succ n ih =>
    simp only [loopE, ih]
    cases loopE n f a with
    | error e => rfl
    | ok b => exact h n b

/-- A sequence commutes with a change that its first part and the rest commute with. -/
theorem bind_map {α α' β β' : Type} {x : Except Cause α} {x' : Except Cause α'} {g : α → α'} {k : β → β'}
    {f : α → Except Cause β} {f' : α' → Except Cause β'} (first : x' = x.map g) (rest : ∀ a, f' (g a) = (f a).map k) :
    (x' >>= f') = (x >>= f).map k := by
  rw [first]
  cases x with
  | error e => rfl
  | ok a => exact rest a

/-- The same where the first part is not changed. -/
theorem bind_map_same {α β β' : Type} {x : Except Cause α} {k : β → β'} {f : α → Except Cause β}
    {f' : α → Except Cause β'} (rest : ∀ a, f' a = (f a).map k) : (x >>= f') = (x >>= f).map k :=
  bind_map (g := id) (by cases x <;> rfl) rest

/-! ### The changes of the latches -/

/-- A change of the mode register, the bypass latch and the output latches. -/
structure LatchEdit (S : Type) where
  mode : Mode → Mode
  bypL : Bool → Bool
  out : Bank S → Bank S

section
variable {S : Type} (E : LatchEdit S)

def LatchEdit.apply (r : Regs S) : Regs S :=
  { r with eng := { r.eng with mode := E.mode r.eng.mode, bypL := E.bypL r.eng.bypL, out := E.out r.eng.out } }

/-- The change under an answer: of the registers beside a value. -/
def LatchEdit.applySnd {α : Type} (a : α × Regs S) : α × Regs S := (a.1, E.apply a.2)

/-- The mode register at `k`. -/
def modeEdit (S : Type) (k : Mode) : LatchEdit S := ⟨fun _ => k, id, id⟩

/-- The bypass latch set. -/
def bypassEdit (S : Type) : LatchEdit S := ⟨id, fun _ => true, id⟩

/-- The bypass latch set and the output latches at `out`. -/
def bypassedEdit (out : Bank S) : LatchEdit S := ⟨id, fun _ => true, fun _ => out⟩

/-! ### The voices and the refresh -/

section
variable [Inhabited S] [DecidableEq S] (K : Kit S) (c : Nat) (x : S) (r : Regs S)

theorem mdlProcess_edit (v : Nat) :
    mdlProcess K v c x (E.apply r) = (mdlProcess K v c x r).map E.applySnd :=
  bind_map_same (x := dlyGetLinear K.A (readDelay K r v c) (r.getDly v c)) fun _ => rfl

theorem vbVoice_edit (active v : Nat) (a : S × Regs S) :
    vbVoice K c x active v (E.applySnd a) = (vbVoice K c x active v a).map E.applySnd :=
  bind_map (mdlProcess_edit E K c x a.2 v) fun _ => rfl

theorem vbProcess_edit : vbProcess K c x (E.apply r) = (vbProcess K c x r).map E.applySnd :=
  bind_map (loopE_map (vbVoice_edit E K c x r.vb.active) K.P.nVoices (K.A.zero, r)) fun _ => rfl

theorem wetVoices_edit (n : Nat) : wetVoices K n (E.apply r) = (wetVoices K n r).map E.applySnd :=
  loopE_map (g := E.applySnd) (fun c a => bind_map (vbProcess_edit E K c (a.2.eng.inp.get c) a.2) fun _ => rfl) n ([], r)

end

section
variable (K : Kit S) (fs : S) (r : Regs S)

theorem refreshCoefs_edit : refreshCoefs K fs (E.apply r) = (refreshCoefs K fs r).map E.apply :=
  bind_map_same (x := svfCoef K r.eng.hpfc.cur fs) fun _ =>
    bind_map_same (x := svfCoef K r.eng.lpfc.cur fs) fun _ => rfl

theorem refresh_edit : refresh K (E.apply r) = (refresh K r).map E.apply := by
  have coefs := refreshCoefs_edit E K r.eng.fs { r with eng := { r.eng with
    hpfc := smSkip K.A r.eng.hpfc r.eng.chcnt, lpfc := smSkip K.A r.eng.lpfc r.eng.chcnt } }
  exact bind_map coefs fun _ => rfl

end

end

/-! ### The outputs (R180, R189) -/

section
variable {S : Type} [Inhabited S] (A : Arith S) (nch : Nat) (w : Bank S) (n : Nat) (r : Regs S)

/-- The outputs are mixed by the latched mode, so the mode register has no effect on them (R173, R178). -/
theorem frameChannels_mode (k : Mode) :
    frameChannels A nch w n ((modeEdit S k).apply r) = (modeEdit S k).apply (frameChannels A nch w n r) := by
  induction n with
  | zero => rfl
  | succ n ih =>
    rw [frameChannels, ih]
    rfl

/-- The output latches after the outputs of a bypassed frame: the inputs of channels `0..n-1` (R189). -/
def bypassedOut (n : Nat) (e : Eng S) : Bank S := e.out.update n fun c _ => e.inp.get c

/-- Under bypass the outputs alone differ (R189). -/
theorem frameChannels_bypassed :
    frameChannels A nch w n ((bypassEdit S).apply r) =
      (bypassedEdit (bypassedOut n r.eng)).apply (frameChannels A nch w n r) := by
  induction n with
  | zero => rfl
  | succ n ih =>
    obtain ⟨_, _, _, _, frame⟩ := frameChannels_spec A nch w n r
    have inp : (frameChannels A nch w n r).eng.inp = r.eng.inp := by rw [frame]
    rw [frameChannels, ih]
    show _ = (bypassedEdit ((bypassedOut n r.eng).put n (r.eng.inp.get n))).apply _
    rw [← inp]
    rfl

end

/-! ### The frame (R180) -/

/-- The counters moved at the end of a frame (R180). -/
def countFrame {S : Type} (r : Regs S) : Regs S :=
  { r with eng := { r.eng with rem := r.eng.rem - 1, chcnt := r.eng.chcnt + 1 } }

section
variable {S : Type} [Inhabited S] {E F : LatchEdit S} {K : Kit S} {r : Regs S}

/-- The outputs of a frame take the change `E` of the latches to the change `F` (R189). -/
def OutputsEdit (E F : LatchEdit S) (A : Arith S) (r : Regs S) : Prop :=
  ∀ w q, q.eng = r.eng →
    frameChannels A r.sys.nch w r.sys.nch (E.apply q) = F.apply (frameChannels A r.sys.nch w r.sys.nch q)

theorem frameBody_edit (outputs : OutputsEdit E F K.A r) {q : Regs S} (w : Bank S) (o : OutsideSame r q) :
    frameBody K (E.apply r) (E.apply q) w = F.apply (frameBody K r q w) := by
  let a := wetFilters K r.sys.nch r.eng.hpByp r.eng.lpByp (w, q.flt)
  have mixed := outputs a.1 { q with flt := a.2 } o.eng
  exact congrArg countFrame mixed

/-- A frame on changed latches leaves changed latches, and the rest alike; or both frames fault alike. -/
theorem engFrame_edit [DecidableEq S] (outputs : OutputsEdit E F K.A r) :
    engFrame K (E.apply r) = (engFrame K r).map F.apply := by
  rcases engFrame_cases K r with ⟨reads, w, q, hw, he, _, _, _, _, outside⟩ | ⟨bad, he⟩
  · have voices : wetVoices K r.sys.nch (E.apply r) = .ok (w, E.apply q) := by
      rw [wetVoices_edit, hw]
      rfl
    rcases engFrame_cases K (E.apply r) with ⟨_, w', q', hw', he', _⟩ | ⟨⟨c, hc, v, hv, hbad⟩, _⟩
    · obtain ⟨rfl, rfl⟩ : w = w' ∧ E.apply q = q' := by simpa using voices.symm.trans hw'
      rw [he', he, frameBody_edit outputs w outside]
      show (if (frameBody K r q w).eng.chcnt = K.P.chunk ∨ (frameBody K r q w).eng.rem = 0 then _ else _) = _
      split
      · exact refresh_edit F K _
      · rfl
    · exact absurd (reads c hc v hv) hbad
  · have bad' : engFrame K (E.apply r) = .error .bufferRange := engFrame_range (r := E.apply r) bad
    rw [bad', he]
    rfl

end

/-! ### The command (R180, R202, R203) -/

/-- The state with changed latches. -/
def LatchEdit.applyState (E : LatchEdit Sample) (s : State) : State := { s with regs := E.apply s.regs }

/-- `ENG.STEP` on changed latches: a refusal and a fault leave them as changed by `E`, a frame as changed by `F`, and the
rest is the same. -/
theorem engStep_edit {E F : LatchEdit Sample} {s t : State} (outputs : OutputsEdit E F s.kit.A s.regs)
    (h : exec .engStep s = .next t) :
    ∃ G, (G = E ∧ t.resp.fault = true ∨ G = F) ∧ exec .engStep (E.applyState s) = .next (G.applyState t) := by
  have frame := engFrame_edit (K := s.kit) outputs
  have body := bind_map (k := fun a : BitVec 64 × Regs Sample => (a.1, F.apply a.2)) frame
    (f := fun r => pure (0, r)) (f' := fun r => pure (0, r)) fun _ => rfl
  have body' := bind_map_same (x := require s.regs.eng.prep .notPrepared) fun _ =>
    bind_map_same (x := require (s.regs.eng.rem != 0) .sequence) fun _ => body
  have checked : decodeChecks .engStep (E.applyState s) = .ok () := decodeChecks_plain (kind := .none) rfl trivial
  rcases run_cases h with ⟨halted, _, rfl⟩ | ⟨e, running, fails | fails, rfl⟩ | ⟨val, r, running, _, done, rfl⟩
  · exact ⟨E, .inl ⟨rfl, rfl⟩, run_refused _ halted rfl⟩
  · cases (decodeChecks_plain (i := .engStep) (kind := .none) rfl trivial).symm.trans fails
  · rw [fails] at body'
    exact ⟨E, .inl ⟨rfl, rfl⟩, run_faults (s := E.applyState s) (running.resolve_right nofun) checked body'⟩
  · rw [done] at body'
    exact ⟨F, .inr rfl, run_completes (s := E.applyState s) running checked body'⟩

/-- Settles O48: neither the frame nor its outputs read the mode register. -/
theorem modeIsLatched : Obligations.ModeIsLatched := by
  intro s t k h
  obtain ⟨G, hG, he⟩ := engStep_edit (E := modeEdit Sample k) (F := modeEdit Sample k)
    (fun w q _ => frameChannels_mode _ _ w _ q k) h
  obtain rfl : G = modeEdit Sample k := hG.elim And.left id
  exact he

/-- Settles O47: the frame takes the latch set to the latch set with the outputs at the inputs, and both runs fault alike. -/
theorem bypassKeepsRunning : Obligations.BypassKeepsRunning := by
  intro s t t' h h'
  let out := bypassedOut s.regs.sys.nch s.regs.eng
  obtain ⟨G, hG, he⟩ := engStep_edit (E := bypassEdit Sample) (F := bypassedEdit out)
    (fun w q same => by rw [frameChannels_bypassed, same]; rfl) h
  obtain rfl : t' = G.applyState t := by simpa using h'.symm.trans he
  rcases hG with ⟨rfl, fault⟩ | rfl
  · exact ⟨t.regs.eng.out, rfl, fun ok => absurd (fault.symm.trans ok) nofun⟩
  · refine ⟨out, rfl, fun _ c hc => ?_⟩
    exact (Bank.get_update _ _ s.regs.eng.out c).trans (if_pos hc)

end Sys2Proof.Machine
